-- ==== Sys2Proof/Word.lean ====
section
/-! DEFINITION. The word type of the part: a byte of the management port and of the frame port. -/

namespace Sys2Proof

/-- One byte, as both ports carry it (R153, R126). -/
abbrev Byte := BitVec 8

end Sys2Proof
end

