-- ==== Sys2Proof/Config.lean ====
section
/-! DEFINITION. What the part fixes (sizes that the rules name) and the free values: constants without a body, for the
choices that the spec leaves open. No statement and no proof can rest on a value of a free constant. -/

namespace Sys2Proof.Config

/-- Array cells: indexes 0..4095 (R1). -/
def arrayCells : Nat := 4096

/-- All cells, array and auxiliary: indexes 0..4099 (R1). -/
def allCells : Nat := 4100

/-- Cells of one array bank (00 section 6). -/
def bankCells : Nat := 64

/-- The aux bank's number (00 section 6). -/
def auxBank : Nat := 64

/-- Aux cells (00 section 6). -/
def auxCells : Nat := 4

/-- The Capture Queue's depth (R62). -/
def queueDepth : Nat := 32

/-- Entries of the first-onset list (R97). -/
def onsetListMax : Nat := 16

/-- Argument bytes that the decoder keeps (R155). -/
def maxArgs : Nat := 72

/-- Free value: which of the notices of one event that still wait a block takes next (R20, R86, R97, R180: "in any order").
Arguments: the draw, and how many still wait. DESIGN CHOICE, log 1, safe: no value of it can be proved. -/
opaque freePick : Nat → Nat → Nat

/-- Free value: when a cell takes its part of one tick, against the other cells, the other ticks and the controller (R32, R33, R86,
R89, R90, R143, R145). Arguments: the draw and the cell. DESIGN CHOICE, logs 1, 24, safe. -/
opaque freePhase : Nat → Nat → Nat

/-- Free value: how many of the notices of a cell the Occupancy Counter takes before the rest that the event brings; those that it takes
after it change nothing (R20). Arguments: the draw and the cell. DESIGN CHOICE, log 1, safe. -/
opaque freeLate : Nat → Nat → Nat

/-- Free value: whether the controller takes the end of settling before the expiry of the settle cap when one dwell
tick brings both (R90). Argument: the draw. DESIGN CHOICE, log 1, safe. -/
opaque freeEndFirst : Nat → Bool

/-- Free value: whether the settle cap expires before the cells that have not yet taken the dwell tick take it, and before
the end of the pulse that the tick brings (R89, R145). Argument: the draw. DESIGN CHOICE, log 1, safe. -/
opaque freeCapFirst : Nat → Bool

/-- Free value: whether a block has taken the event that reaches the part together with a row when the row reaches the block (R33, R78,
R101, R186). Arguments: the draw and the block. DESIGN CHOICE, logs 21, 24, safe. -/
opaque freeTaken : Nat → Nat → Bool

/-- Free value: how many of the notices that an event sends to a block the block has taken when a reading reaches it (R20, R66, R186).
Arguments: the draw and the block. DESIGN CHOICE, log 21, safe. -/
opaque freeCount : Nat → Nat → Nat

/-- Free value: whether a block takes the onset tick that comes together with a first onset before its part of the onset (R33, R44
note, R97, R98, R141, R147). Arguments: the draw, and the block: `2 * i` for cell `i`, `2 * i + 1` for the controller at the report of
cell `i`. DESIGN CHOICE, log 22, safe. -/
opaque freeTickFirst : Nat → Nat → Bool

/-- Free value: whether a cell takes its part of a tick by the parameter table that the SET_PARAM directly behind the tick writes, or by
the table before the write (R170). Arguments: the draw and the cell. DESIGN CHOICE, log 23, safe. -/
opaque freeRead : Nat → Nat → Bool

/-- Free value: which of the causes that an event sets reach the Attention Unit after the request that comes together with the
event (R173, R180, R184, R186). Argument: the draw. DESIGN CHOICE, log 21, safe. -/
opaque freeCauses : Nat → BitVec 8

end Sys2Proof.Config
end

