-- ==== Sys2Proof/Syntax.lean ====
section
/-! DEFINITION. The commands of the part: one constructor of `Instr` for each row of spec/opcode_table.json, with the
row's operands. -/

namespace Sys2Proof

/-- An address channel, which is also a handshake's direction (R53 step 1): the read-address or the write-address channel. -/
inductive Channel
  | read
  | write
deriving DecidableEq, Repr

/-- The address handshake of one burst, with what R49 says the channel carries of it. -/
structure Handshake where
  /-- Start address, 40 bits (R49). -/
  addr : BitVec 40
  /-- Transaction ID, up to 12 bits; missing upper bits are zero (R49). -/
  id : BitVec 12
  /-- Burst length, 1..256 beats (R49). -/
  beats : Nat
  /-- Beat size, 1..128 bytes (R49); it enters no test and no weight (R54, R55). -/
  size : Nat
deriving DecidableEq, Repr

/-- The commands: the 43 rows of the table, in the table's order. A request row carries the request's argument bytes;
its event is the take, the moment at which the check byte has arrived (R157). -/
inductive Instr
  | nop (args : List Byte)
  | getStatus (args : List Byte)
  | setParam (args : List Byte)
  | getParam (args : List Byte)
  | setFilter (args : List Byte)
  | getFilter (args : List Byte)
  | loadBank (args : List Byte)
  | readBank (args : List Byte)
  | fetchResult (args : List Byte)
  | probeCell (args : List Byte)
  | openWindow (args : List Byte)
  | closeWindow (args : List Byte)
  | inject (args : List Byte)
  | abortReadout (args : List Byte)
  | clearAttention (args : List Byte)
  | softReset (args : List Byte)
  /-- A request whose code is none of the sixteen (R157 step 2). -/
  | unknownCommand (code : Byte) (args : List Byte)
  /-- A request whose check byte disagrees with its contents (R157 step 1). -/
  | badCheckRequest (code : Byte) (args : List Byte) (check : Byte)
  | transactionStart
  /-- MCS_N rises after `bits` bits of a request whose check byte is not complete (R159). -/
  | truncatedRequest (bits : Nat)
  | responseAbandoned
  | transactionEnd
  | rstNAsserted
  | rstNDeasserted
  | aresetNAsserted
  /-- A handshake is presented on the read-address channel, on the write-address channel, or on both at one event (R52, R65). -/
  | handshakePresented (rd wr : Option Handshake)
  | holdTimerExpiry (ch : Channel)
  | recordTake
  | recordApplied
  | decayTick
  | dwellTick
  | onsetTick
  | windowTimerExpiry
  | settleCapExpiry
  | pulseEnd
  | winNFallingEdge
  | winNRisingEdge
  | auxAsserted (line : Fin 4)
  | auxDeasserted (line : Fin 4)
  | frameByteDelivery
  | loadStep
  | readStep
  | responseSent
deriving DecidableEq, Repr

end Sys2Proof
end

