-- ==== Sys2Proof/Decode.lean ====
section
/-! DEFINITION. The word form of a command. spec/opcode_table.json gives no row any bits (a request is a sequence of bytes
with arguments of its own, and an event has no word), so no word spells a command (log 16). -/

namespace Sys2Proof

/-- The command that a word spells by the table's bits: none, since the table gives no bits. -/
def decodeTableWord (_nbits _w : Nat) : Option Instr := none

end Sys2Proof
end

