-- ==== Sys2Proof/Machine/State.lean ====
section
/-! DEFINITION. The state of the part, block by block, as plain data, and its reset. A name in the comment of a field is
the spec's; the rule that gives the field stands with it. -/

namespace Sys2Proof.Machine

/-! ## Named values of parameters and requests -/

/-- MODE: the eight measurement modes (R37), in the order of R194. -/
inductive Mode
  | seqDw12On20
  | seqDw16On16
  | seqAc32
  | conDw12Ep4
  | conDw16
  | conOn16
  | conEp16
  | conAc16
deriving DecidableEq, Repr

/-- DWELL_LAW (R41). -/
inductive DwellLaw
  | cumulative
  | first
deriving DecidableEq, Repr

/-- WEIGHT_LAW (R55). -/
inductive WeightLaw
  | linear
  | compressed
deriving DecidableEq, Repr

/-- DIR_SEL (R53 step 1). -/
inductive DirSel
  | reads
  | writes
  | both
deriving DecidableEq, Repr

/-- CAPTURE_POLICY (R67). -/
inductive CapturePolicy
  | shed
  | hold
deriving DecidableEq, Repr

/-- The action of a filter entry, and DEFAULT_ACTION (R57). -/
inductive Action
  | count
  | ignore
deriving DecidableEq, Repr

/-- The direction that a filter entry matches (R57). -/
inductive Direction
  | read
  | write
  | any
deriving DecidableEq, Repr

/-- WIN_SRC (R73). -/
inductive WinSrc
  | line
  | command
  | timer
deriving DecidableEq, Repr

/-- OVERRUN_POLICY (R115). -/
inductive OverrunPolicy
  | wait
  | discard
deriving DecidableEq, Repr

/-- TEST_PATH (R15). -/
inductive TestPath
  | integrator
  | direct
deriving DecidableEq, Repr

/-- The seven status codes of a response (R161). -/
inductive Status
  | ok
  | busy
  | wrongState
  | badArg
  | badLength
  | badCheck
  | unknown
deriving DecidableEq, Repr

/-- The eight attention causes (R179). -/
inductive Cause
  | frameDone
  | overrun
  | shed
  | release
  | truncated
  | occupancy
  | missedOpen
  | commandFault
deriving DecidableEq, Repr

/-- The parameter table: one value for each of the 32 parameters (R166). An OFF/ON parameter is a `Bool`. -/
structure Params where
  mode : Mode
  dwellLaw : DwellLaw
  onsetWrap : Bool
  weightLaw : WeightLaw
  dirSel : DirSel
  capturePolicy : CapturePolicy
  holdLimit : Nat
  mapBase : Nat
  mapGranule : Nat
  defaultAction : Action
  bankGate : BitVec 64
  deepMask : Bool
  threshold : Nat
  trimStep : Nat
  hysteresis : Nat
  decayStep : Nat
  occLimit : Nat
  decayDiv : Nat
  dwellDiv : Nat
  onsetDiv : Nat
  winSrc : WinSrc
  winLen : Nat
  cycle : Bool
  cycleCount : Nat
  settleCap : Nat
  overrunPolicy : OverrunPolicy
  testPath : TestPath
  testWeight : Nat
  tpLen : Nat
  zeroSuppress : Bool
  unitId : Nat
  attnEnable : BitVec 8
deriving DecidableEq, Repr

/-- The reset values of the table of R194, written by RST_N (R175). -/
def Params.reset : Params where
  mode := .seqDw12On20
  dwellLaw := .cumulative
  onsetWrap := false
  weightLaw := .linear
  dirSel := .both
  capturePolicy := .shed
  holdLimit := 256
  mapBase := 0
  mapGranule := 12
  defaultAction := .count
  bankGate := 0
  deepMask := false
  threshold := 512
  trimStep := 4
  hysteresis := 16
  decayStep := 8
  occLimit := 4100
  decayDiv := 1000
  dwellDiv := 10
  onsetDiv := 100
  winSrc := .command
  winLen := 10000
  cycle := false
  cycleCount := 0
  settleCap := 4096
  overrunPolicy := .wait
  testPath := .direct
  testWeight := 1024
  tpLen := 50
  zeroSuppress := true
  unitId := 0
  attnEnable := 0

/-! ## Pins -/

/-- The pins whose level is state: inputs as last driven, outputs as the part drives them. `…Low` says that an
asserted-low line is low. The serial lines stand in `Port`. -/
structure Pins where
  /-- RST_N asserted (R175). -/
  rstLow : Bool
  /-- MCS_N low (R153). -/
  mcsLow : Bool
  /-- WIN_N low (R73); no rule acts on the level, only on an edge (R102). -/
  winLow : Bool
  /-- The lines AUX0..AUX3; bit n is line AUXn, 1 asserted (R17). -/
  aux : BitVec 4
  /-- FD[7:0] (R126). -/
  fd : Byte
  /-- FSTB (R126). -/
  fstb : Bool
  /-- FSOF (R126). -/
  fsof : Bool
  /-- ATTN_N asserted (R182). -/
  attnLow : Bool
deriving DecidableEq, Repr

/-! ## Management Port -/

/-- The state of the transaction decoder (R154). -/
inductive Decoder
  | deselected
  | receiving
  | responding
  | trailing
  | ignoring
deriving DecidableEq, Repr

/-- A response: status, data and check byte; its length byte is the number of data bytes (R157, R158). -/
structure Response where
  status : Status
  data : List Byte
  check : Byte
deriving DecidableEq, Repr

/-- The last refusal: the command code as received, and the status (R162). -/
structure LastRefusal where
  code : Byte
  status : Status
deriving DecidableEq, Repr

/-- The Management Port but for the parameter table: the serial lines (R153), the decoder and its progress (R154), the last
refusal record (R162). -/
structure Port where
  /-- MSCK as last driven by the host (R153). -/
  msck : Bool
  /-- MSI as last driven by the host (R153). -/
  msi : Bool
  /-- The level that MSO is driven to while it is driven (R153, `State.mso`). -/
  mso : Bool
  decoder : Decoder
  /-- The bits of the current byte as they come in, the first received the most significant (R153). -/
  inByte : Byte
  /-- Bits received or sent of the current byte; 0 at every row's boundary (log 15). -/
  bitCount : Nat
  requestBytes : Nat
  declaredLength : Nat
  code : Byte
  args : List Byte
  runningCheck : Byte
  response : Option Response
  responseSent : Nat
  lastRefusal : Option LastRefusal
deriving DecidableEq, Repr

/-- After RST_N with MCS_N high: DESELECTED, no refusal (R154, R162); no transaction in hand (log 8). -/
def Port.reset : Port where
  msck := false
  msi := false
  mso := false
  decoder := .deselected
  inByte := 0
  bitCount := 0
  requestBytes := 0
  declaredLength := 0
  code := 0
  args := []
  runningCheck := 0
  response := none
  responseSent := 0
  lastRefusal := none

/-! ## Cell Array and Occupancy Counter -/

/-- A cell's activity (R1). -/
inductive Activity
  | cold
  | hot
deriving DecidableEq, Repr

/-- One cell record (R1). The level belongs to an array cell; an aux cell's field stays 0 (log 14). -/
structure Cell where
  mask : Bool
  test : Bool
  /-- The stored trim, -16..15. -/
  trim : Int
  level : Nat
  activity : Activity
  onsetSeen : Bool
  firstDone : Bool
  truncated : Bool
  seg0 : Nat
  seg1 : Nat
  seg2 : Nat
  seg3 : Nat
deriving DecidableEq, Repr

/-- A cell record after RST_N (R2). -/
def Cell.reset : Cell where
  mask := false
  test := false
  trim := 0
  level := 0
  activity := .cold
  onsetSeen := false
  firstDone := false
  truncated := false
  seg0 := 0
  seg1 := 0
  seg2 := 0
  seg3 := 0

/-- The Occupancy Counter (R20, R21). -/
structure Occupancy where
  current : Nat
  peak : Nat
deriving DecidableEq, Repr

/-! ## Cell Engine -/

/-- A cell's config as the result buffer and a configuration byte hold it (R22, R191). -/
structure CellConfig where
  mask : Bool
  test : Bool
  trim : Int
deriving DecidableEq, Repr

/-- The configuration operation state (R22). LOADING keeps the configuration bytes of its request (R24). -/
inductive CfgOp
  | idle
  | loading (bank slot : Nat) (bytes : List Byte)
  | reading (bank slot : Nat)
deriving DecidableEq, Repr

/-- The result buffer (R22). -/
structure ResultBuffer where
  bank : Nat
  entries : List CellConfig
  valid : Bool
deriving DecidableEq, Repr

/-- An observation record (R56). -/
structure Record where
  cell : Nat
  weight : Nat
deriving DecidableEq, Repr

/-- The Cell Engine (R22, R63). -/
structure CellEngine where
  op : CfgOp
  result : ResultBuffer
  /-- The mask mirror, one entry for each array cell (R22). -/
  mirror : List Bool
  /-- The record taken and not yet applied (R63). -/
  applying : Option Record
deriving DecidableEq, Repr

/-- The Cell Engine after RST_N (R22). -/
def CellEngine.reset : CellEngine where
  op := .idle
  result := { bank := 0, entries := [], valid := false }
  mirror := List.replicate 4096 false
  applying := none

/-! ## Tick Generator -/

/-- One divider (R29). -/
structure Divider where
  running : Bool
  count : Nat
deriving DecidableEq, Repr

/-- The Tick Generator's three dividers (R29). -/
structure TickGen where
  decay : Divider
  dwell : Divider
  onset : Divider
deriving DecidableEq, Repr

/-- A divider after either reset: STOPPED, count 0 (R29). -/
def Divider.reset : Divider := { running := false, count := 0 }

/-- The Tick Generator after either reset (R29). -/
def TickGen.reset : TickGen := { decay := .reset, dwell := .reset, onset := .reset }

/-! ## Through Path, Address Tap, Source Filter Table, Capture Queue -/

/-- A hold in force: the handshake held, its record, which waits at the arbiter, the limit read when the hold began,
and the hold timer in TBCLK periods (R67). -/
structure Hold where
  handshake : Handshake
  record : Record
  limit : Nat
  timer : Nat
deriving DecidableEq, Repr

/-- The Through Path with the tap's timers: a gate is open (`none`) or holding (R50), and the last handshake that passed
to the memory side on each address channel (R49, log 10). -/
structure ThroughPath where
  rd : Option Hold
  wr : Option Hold
  memRd : Option Handshake
  memWr : Option Handshake
deriving DecidableEq, Repr

/-- The Through Path after RST_N: both gates open (R50, R70). -/
def ThroughPath.reset : ThroughPath := { rd := none, wr := none, memRd := none, memWr := none }

/-- An entry of the Source Filter Table (R57). -/
structure FilterEntry where
  valid : Bool
  idValue : Nat
  idMask : Nat
  direction : Direction
  action : Action
  shift : Nat
  hits : Nat
deriving DecidableEq, Repr

/-- A filter entry after RST_N (R57). -/
def FilterEntry.reset : FilterEntry where
  valid := false
  idValue := 0
  idMask := 0
  direction := .any
  action := .count
  shift := 0
  hits := 0

/-- The Capture Queue, oldest record first, and the enqueue arbiter's grant history (R62, R65). -/
structure CaptureQueue where
  records : List Record
  history : Channel
deriving DecidableEq, Repr

/-- The queue and the arbiter after either reset: empty, WRITE (R62, R65). -/
def CaptureQueue.reset : CaptureQueue := { records := [], history := .write }

/-! ## Acquisition Controller -/

/-- The controller's state (R71); `opened` is the spec's OPEN. -/
inductive CtlState
  | idle
  | opened
  | settling
  | held
deriving DecidableEq, Repr

/-- Open cause (R80). -/
inductive OpenCause
  | line
  | command
  | cycle
deriving DecidableEq, Repr

/-- Close cause (R83). -/
inductive CloseCause
  | line
  | command
  | timer
deriving DecidableEq, Repr

/-- A half of every cell's counter storage (R34). -/
inductive Half
  | h0
  | h1
deriving DecidableEq, Repr

/-- What the storage-frozen indication names when it is set (R103): the whole storage, or one half. -/
inductive Frozen
  | whole
  | half (h : Half)
deriving DecidableEq, Repr

/-- An entry of the first-onset list (R97). -/
structure OnsetEntry where
  cell : Nat
  offset : Nat
deriving DecidableEq, Repr

/-- The window descriptor (R94). -/
structure Descriptor where
  frameNumber : Nat
  mode : Mode
  dwellLaw : DwellLaw
  onsetWrap : Bool
  openCause : OpenCause
  /-- The first value until the close sets it (R94: "hold 0 until the close"). -/
  closeCause : CloseCause
  windowLength : Nat
  settleLength : Nat
  shed : Nat
  released : Nat
  truncated : Nat
  /-- 65 counts, bank 0 first (R94). -/
  bankTruncated : List Nat
  settleCap : Bool
  peak : Nat
  exceeded : Bool
  testPulses : Nat
  discardedBefore : Nat
  heldBefore : Bool
  onsets : List OnsetEntry
  overflow : Bool
deriving DecidableEq, Repr

/-- The Acquisition Controller (R72, R103, R108, R111). -/
structure Controller where
  state : CtlState
  desc : Option Descriptor
  /-- The waiting descriptor of R108. -/
  waiting : Option Descriptor
  nextFrame : Nat
  windowCount : Nat
  settleCount : Nat
  cycleOn : Bool
  cyclesLeft : Nat
  missedOpens : Nat
  discardCarry : Nat
  heldCarry : Bool
  liveHalf : Half
  frozen : Option Frozen
  discardedTotal : Nat
deriving DecidableEq, Repr

/-- The controller after either reset (R72, R102, R116). -/
def Controller.reset : Controller where
  state := .idle
  desc := none
  waiting := none
  nextFrame := 0
  windowCount := 0
  settleCount := 0
  cycleOn := false
  cyclesLeft := 0
  missedOpens := 0
  discardCarry := 0
  heldCarry := false
  liveHalf := .h0
  frozen := none
  discardedTotal := 0

/-! ## Readout Engine -/

/-- Where the frame has reached: the NEXT byte to deliver (R117). -/
inductive Position
  | header (byte : Nat)
  | onsets (entry byte : Nat)
  | bank (bank byte : Nat)
  | trailer (byte : Nat)
deriving DecidableEq, Repr

/-- The kind of a bank record (R122). -/
inductive BankKind
  | data
  | zero
  | gated
deriving DecidableEq, Repr

/-- The frame in hand (R117). -/
structure Frame where
  desc : Descriptor
  unit : Nat
  suppress : Bool
  gated : BitVec 64
  position : Position
  /-- The kind of the bank record in hand. Before the first record R117 gives the item no value and nothing reads it: it holds
  DATA then (DESIGN CHOICE, log 8). -/
  kind : BankKind
  abortTaken : Bool
  crc : BitVec 32
  byteCount : Nat
deriving DecidableEq, Repr

/-- The Readout Engine: R_IDLE when no frame is in hand, SENDING otherwise (R117). -/
structure Readout where
  frame : Option Frame
  emitted : Nat
deriving DecidableEq, Repr

/-- The Test Pulse Generator (R139). -/
inductive Tpg
  | idle
  | active (remaining : Nat)
deriving DecidableEq, Repr

/-! ## The whole part -/

/-- First onsets that meet the onset tick of the row directly behind them, where a block takes the tick first (R33, R44 note, R98): the
model's own (log 22), empty but between the two rows. -/
structure Crossing where
  /-- The cells whose reports reach the controller after the tick, in the order in which it takes them. -/
  reports : List Nat
  /-- The cells that took the tick before their first onset. -/
  ticked : List Nat
deriving DecidableEq, Repr

/-- No first onset meets a tick. -/
def Crossing.reset : Crossing where
  reports := []
  ticked := []

/-- The state of the part: the queue of waiting commands, the count of free orders drawn (log 1), and the blocks. The model's own
fields are `pending`, `free`, `arriving`, `crossing` and `decayWaits`. -/
structure State where
  pending : List Instr
  free : Nat
  pins : Pins
  port : Port
  params : Params
  cells : List Cell
  occ : Occupancy
  engine : CellEngine
  ticks : TickGen
  path : ThroughPath
  filter : List FilterEntry
  queue : CaptureQueue
  ctl : Controller
  readout : Readout
  tpg : Tpg
  attn : BitVec 8
  /-- The causes that an event has set and that reach the Attention Unit after the request directly behind the event (log 21); none
  but between these two rows. -/
  arriving : BitVec 8
  /-- First onsets that meet the onset tick of the row directly behind (log 22); none but between these two rows. -/
  crossing : Crossing
  /-- A decay tick reaches the part together with the dwell tick of the row directly behind, and waits for it (log 24); none waits but
  between these two rows. -/
  decayWaits : Bool
deriving DecidableEq, Repr

/-- The part right after RST_N: asserted, values taken (R175), released with MCS_N, WIN_N high and the aux lines
deasserted (R177, log 7), and no command waiting. -/
def State.reset : State where
  pending := []
  free := 0
  pins := { rstLow := false, mcsLow := false, winLow := false, aux := 0, fd := 0, fstb := false, fsof := false, attnLow := false }
  port := .reset
  params := .reset
  cells := List.replicate 4100 Cell.reset
  occ := { current := 0, peak := 0 }
  engine := .reset
  ticks := .reset
  path := .reset
  filter := List.replicate 8 FilterEntry.reset
  queue := .reset
  ctl := .reset
  readout := { frame := none, emitted := 0 }
  tpg := .idle
  attn := 0
  arriving := 0
  crossing := .reset
  decayWaits := false

/-! ## Stops -/

/-- Faults: none. No rule of the spec stops the part, and no meaning raises a fault; so there is no constructor
(log 6 says what a row does whose event cannot occur). -/
inductive Fault
deriving DecidableEq, Repr

/-- Refusals. -/
inductive Refusal
  /-- Raised by `exec` alone, for a row of the table without a meaning: no row is without one. Safe: the machine stops. -/
  | notModelled (mnemonic : String)
deriving DecidableEq, Repr

/-- The outcome of a command or of a step. -/
abbrev Result := Host.Outcome State Fault Refusal

end Sys2Proof.Machine
end

