-- ==== Sys2Proof/Machine/Operands.lean ====
section
/-! DEFINITION. The operand forms: numbers in bytes, the two checks, the configuration byte, the filter entry byte, and
the parameter table's identifiers, lengths, classes and encodings (Chapter 10). -/

namespace Sys2Proof.Machine

/-! ## Numbers in bytes (R189) -/

/-- The low `n` bytes of `v`, most significant byte first (R189). -/
def beBytes : Nat → Nat → List Byte
  | 0, _ => []
  | n + 1, v => BitVec.ofNat 8 (v / 256 ^ n) :: beBytes n v

/-- The number that bytes spell, most significant byte first (R189). -/
def beNat (bs : List Byte) : Nat := bs.foldl (fun a b => 256 * a + b.toNat) 0

/-! ## CRC-8 and CRC-32 (R156, R130) -/

/-- One place of the CRC-8 shift (R156). -/
def crc8Shift (c : BitVec 8) : BitVec 8 := if c.msb then (c <<< 1) ^^^ 0x07#8 else c <<< 1

/-- A byte enters the running check (R156). -/
def crc8Byte (c : BitVec 8) (b : Byte) : BitVec 8 := Nat.iterate crc8Shift 8 (c ^^^ b)

/-- The check byte over a list of bytes (R156). -/
def crc8 (bs : List Byte) : BitVec 8 := bs.foldl crc8Byte 0

/-- The check byte of a request: over the code, the length and the argument bytes (R156). -/
def requestCheck (code : Byte) (args : List Byte) : Byte := crc8 (code :: BitVec.ofNat 8 args.length :: args)

/-- One place of the CRC-32 shift (R130). -/
def crc32Shift (c : BitVec 32) : BitVec 32 := if c.getLsbD 0 then (c >>> 1) ^^^ 0xEDB88320#32 else c >>> 1

/-- A byte enters the running CRC of a frame (R130). -/
def crc32Byte (c : BitVec 32) (b : Byte) : BitVec 32 := Nat.iterate crc32Shift 8 (c ^^^ b.setWidth 32)

/-- The CRC-32 of a list of bytes: initial value all ones, final complement (R130). -/
def crc32 (bs : List Byte) : BitVec 32 := ~~~ (bs.foldl crc32Byte 0xFFFFFFFF#32)

/-! ## The configuration byte (R191) -/

/-- A configuration byte as sent: bits 4:0 trim, bit 5 test, bit 6 mask, bit 7 zero (R191). -/
def CellConfig.encode (c : CellConfig) : Byte :=
  (BitVec.ofInt 5 c.trim).setWidth 8 ||| (if c.test then 0x20#8 else 0) ||| (if c.mask then 0x40#8 else 0)

/-- A configuration byte as received; none where bit 7 is 1, which is not a valid encoding (R191). -/
def CellConfig.decode (b : Byte) : Option CellConfig :=
  if b.getLsbD 7 then none
  else some { mask := b.getLsbD 6, test := b.getLsbD 5, trim := (b.setWidth 5).toInt }

/-! ## The filter entry byte (section 10.2.3) -/

/-- The number of a filter entry's direction: 0 READ, 1 WRITE, 2 ANY (section 10.2.3). -/
def Direction.code : Direction → Nat
  | .read => 0
  | .write => 1
  | .any => 2

/-- The direction that a number names; 3 is not a valid encoding. -/
def Direction.decode (v : Nat) : Option Direction := [Direction.read, .write, .any][v]?

/-- The entry byte of a filter entry as sent: bit 0 valid, bits 2:1 direction, bit 3 action, bits 5:4 shift (section 10.2.3). -/
def FilterEntry.entryByte (e : FilterEntry) : Byte :=
  BitVec.ofNat 8 ((if e.valid then 1 else 0) + 2 * e.direction.code + (if e.action = .ignore then 8 else 0) + 16 * e.shift)

/-- The entry that an entry byte, an id_value and an id_mask spell, with hit count 0; none where the encoding is not
valid (R60 check 2, R189). -/
def FilterEntry.decode (b : Byte) (idValue idMask : Nat) : Option FilterEntry :=
  if b.getLsbD 6 || b.getLsbD 7 || decide (4095 < idValue) || decide (4095 < idMask) then none
  else
    (Direction.decode (b.toNat / 2 % 4)).map fun d =>
      { valid := b.getLsbD 0, idValue := idValue, idMask := idMask, direction := d
        action := if b.getLsbD 3 then .ignore else .count, shift := b.toNat / 16 % 4, hits := 0 }

/-! ## Parameters (R166, R167, R194) -/

/-- MODE's numbers (R194). -/
def Mode.code : Mode → Nat
  | .seqDw12On20 => 0
  | .seqDw16On16 => 1
  | .seqAc32 => 2
  | .conDw12Ep4 => 3
  | .conDw16 => 4
  | .conOn16 => 5
  | .conEp16 => 6
  | .conAc16 => 7

/-- The mode that a number names (R194). -/
def Mode.decode (v : Nat) : Option Mode :=
  [Mode.seqDw12On20, .seqDw16On16, .seqAc32, .conDw12Ep4, .conDw16, .conOn16, .conEp16, .conAc16][v]?

/-- DWELL_LAW's numbers (R194). -/
def DwellLaw.code : DwellLaw → Nat
  | .cumulative => 0
  | .first => 1

/-- The law that a number names (R194). -/
def DwellLaw.decode (v : Nat) : Option DwellLaw := [DwellLaw.cumulative, .first][v]?

/-- OFF is 0 and ON is 1 (R194). -/
def boolCode (b : Bool) : Nat := if b then 1 else 0

/-- OFF or ON, by its number (R194). -/
def boolDecode (v : Nat) : Option Bool := [false, true][v]?

/-- WEIGHT_LAW's numbers (R194). -/
def WeightLaw.code : WeightLaw → Nat
  | .linear => 0
  | .compressed => 1

/-- The law that a number names (R194). -/
def WeightLaw.decode (v : Nat) : Option WeightLaw := [WeightLaw.linear, .compressed][v]?

/-- DIR_SEL's numbers (R194). -/
def DirSel.code : DirSel → Nat
  | .reads => 0
  | .writes => 1
  | .both => 2

/-- The selection that a number names (R194). -/
def DirSel.decode (v : Nat) : Option DirSel := [DirSel.reads, .writes, .both][v]?

/-- CAPTURE_POLICY's numbers (R194). -/
def CapturePolicy.code : CapturePolicy → Nat
  | .shed => 0
  | .hold => 1

/-- The policy that a number names (R194). -/
def CapturePolicy.decode (v : Nat) : Option CapturePolicy := [CapturePolicy.shed, .hold][v]?

/-- The numbers of an action: 0 COUNT, 1 IGNORE (R194). -/
def Action.code : Action → Nat
  | .count => 0
  | .ignore => 1

/-- The action that a number names (R194). -/
def Action.decode (v : Nat) : Option Action := [Action.count, .ignore][v]?

/-- WIN_SRC's numbers (R194). -/
def WinSrc.code : WinSrc → Nat
  | .line => 0
  | .command => 1
  | .timer => 2

/-- The source that a number names (R194). -/
def WinSrc.decode (v : Nat) : Option WinSrc := [WinSrc.line, .command, .timer][v]?

/-- OVERRUN_POLICY's numbers (R194). -/
def OverrunPolicy.code : OverrunPolicy → Nat
  | .wait => 0
  | .discard => 1

/-- The policy that a number names (R194). -/
def OverrunPolicy.decode (v : Nat) : Option OverrunPolicy := [OverrunPolicy.wait, .discard][v]?

/-- TEST_PATH's numbers (R194). -/
def TestPath.code : TestPath → Nat
  | .integrator => 0
  | .direct => 1

/-- The path that a number names (R194). -/
def TestPath.decode (v : Nat) : Option TestPath := [TestPath.integrator, .direct][v]?

/-- The 32 parameters (R194). -/
inductive ParamId
  | mode | dwellLaw | onsetWrap
  | weightLaw | dirSel | capturePolicy | holdLimit | mapBase | mapGranule | defaultAction
  | bankGate | deepMask | threshold | trimStep | hysteresis | decayStep | occLimit
  | decayDiv | dwellDiv | onsetDiv
  | winSrc | winLen | cycle | cycleCount | settleCap | overrunPolicy
  | testPath | testWeight | tpLen
  | zeroSuppress | unitId | attnEnable
deriving DecidableEq, Repr

/-- All 32 parameters, in the order of R194. -/
def ParamId.all : List ParamId :=
  [.mode, .dwellLaw, .onsetWrap,
   .weightLaw, .dirSel, .capturePolicy, .holdLimit, .mapBase, .mapGranule, .defaultAction,
   .bankGate, .deepMask, .threshold, .trimStep, .hysteresis, .decayStep, .occLimit,
   .decayDiv, .dwellDiv, .onsetDiv,
   .winSrc, .winLen, .cycle, .cycleCount, .settleCap, .overrunPolicy,
   .testPath, .testWeight, .tpLen,
   .zeroSuppress, .unitId, .attnEnable]

/-- A parameter's identifier (R194). -/
def ParamId.code : ParamId → Byte
  | .mode => 0x10
  | .dwellLaw => 0x11
  | .onsetWrap => 0x12
  | .weightLaw => 0x20
  | .dirSel => 0x21
  | .capturePolicy => 0x22
  | .holdLimit => 0x23
  | .mapBase => 0x24
  | .mapGranule => 0x25
  | .defaultAction => 0x26
  | .bankGate => 0x30
  | .deepMask => 0x31
  | .threshold => 0x32
  | .trimStep => 0x33
  | .hysteresis => 0x34
  | .decayStep => 0x35
  | .occLimit => 0x36
  | .decayDiv => 0x40
  | .dwellDiv => 0x41
  | .onsetDiv => 0x42
  | .winSrc => 0x48
  | .winLen => 0x49
  | .cycle => 0x4A
  | .cycleCount => 0x4B
  | .settleCap => 0x4C
  | .overrunPolicy => 0x4D
  | .testPath => 0x50
  | .testWeight => 0x51
  | .tpLen => 0x52
  | .zeroSuppress => 0x58
  | .unitId => 0x59
  | .attnEnable => 0x5A

/-- The parameter that an identifier names, if any (R194). -/
def ParamId.ofByte (b : Byte) : Option ParamId := ParamId.all.find? fun id => id.code == b

/-- A parameter's value length in bytes (R166). -/
def ParamId.length : ParamId → Nat
  | .mapBase => 5
  | .bankGate => 8
  | .winLen => 3
  | .unitId => 4
  | .holdLimit | .threshold | .decayDiv | .dwellDiv | .onsetDiv | .cycleCount | .settleCap | .testWeight | .tpLen
  | .occLimit => 2
  | _ => 1

/-- The class of a parameter: the condition under which it may be written (R167). -/
inductive ParamClass
  | any
  | idle
  | rest
deriving DecidableEq, Repr

/-- A parameter's class (R166). -/
def ParamId.paramClass : ParamId → ParamClass
  | .mode | .dwellLaw | .onsetWrap | .bankGate => .rest
  | .threshold | .trimStep | .hysteresis | .decayStep | .zeroSuppress | .occLimit | .attnEnable | .unitId => .any
  | _ => .idle

/-- The span of the mapped window, in bytes (R54). -/
def span (granule : Nat) : Nat := 4096 * 2 ^ granule

/-- The number of a parameter's value, as GET_PARAM carries it (R171, R194). -/
def Params.read (p : Params) : ParamId → Nat
  | .mode => p.mode.code
  | .dwellLaw => p.dwellLaw.code
  | .onsetWrap => boolCode p.onsetWrap
  | .weightLaw => p.weightLaw.code
  | .dirSel => p.dirSel.code
  | .capturePolicy => p.capturePolicy.code
  | .holdLimit => p.holdLimit
  | .mapBase => p.mapBase
  | .mapGranule => p.mapGranule
  | .defaultAction => p.defaultAction.code
  | .bankGate => p.bankGate.toNat
  | .deepMask => boolCode p.deepMask
  | .threshold => p.threshold
  | .trimStep => p.trimStep
  | .hysteresis => p.hysteresis
  | .decayStep => p.decayStep
  | .occLimit => p.occLimit
  | .decayDiv => p.decayDiv
  | .dwellDiv => p.dwellDiv
  | .onsetDiv => p.onsetDiv
  | .winSrc => p.winSrc.code
  | .winLen => p.winLen
  | .cycle => boolCode p.cycle
  | .cycleCount => p.cycleCount
  | .settleCap => p.settleCap
  | .overrunPolicy => p.overrunPolicy.code
  | .testPath => p.testPath.code
  | .testWeight => p.testWeight
  | .tpLen => p.tpLen
  | .zeroSuppress => boolCode p.zeroSuppress
  | .unitId => p.unitId
  | .attnEnable => p.attnEnable.toNat

/-- A value inside a range (the range column of R194). -/
def inRange (lo hi v : Nat) : Bool := decide (lo ≤ v) && decide (v ≤ hi)

/-- The table with a new value of one parameter; none where check 4 of R168 fails: out of range, not a valid encoding,
or against the alignment of R169. -/
def Params.write (p : Params) (id : ParamId) (v : Nat) : Option Params :=
  match id with
  | .mode => (Mode.decode v).map fun x => { p with mode := x }
  | .dwellLaw => (DwellLaw.decode v).map fun x => { p with dwellLaw := x }
  | .onsetWrap => (boolDecode v).map fun x => { p with onsetWrap := x }
  | .weightLaw => (WeightLaw.decode v).map fun x => { p with weightLaw := x }
  | .dirSel => (DirSel.decode v).map fun x => { p with dirSel := x }
  | .capturePolicy => (CapturePolicy.decode v).map fun x => { p with capturePolicy := x }
  | .holdLimit => if inRange 16 4095 v then some { p with holdLimit := v } else none
  | .mapBase => if inRange 0 (2 ^ 40 - 1) v && v % span p.mapGranule == 0 then some { p with mapBase := v } else none
  | .mapGranule => if inRange 6 16 v && p.mapBase % span v == 0 then some { p with mapGranule := v } else none
  | .defaultAction => (Action.decode v).map fun x => { p with defaultAction := x }
  | .bankGate => if inRange 0 (2 ^ 64 - 1) v then some { p with bankGate := BitVec.ofNat 64 v } else none
  | .deepMask => (boolDecode v).map fun x => { p with deepMask := x }
  | .threshold => if inRange 1 4095 v then some { p with threshold := v } else none
  | .trimStep => if inRange 1 16 v then some { p with trimStep := v } else none
  | .hysteresis => if inRange 0 255 v then some { p with hysteresis := v } else none
  | .decayStep => if inRange 0 255 v then some { p with decayStep := v } else none
  | .occLimit => if inRange 1 4100 v then some { p with occLimit := v } else none
  | .decayDiv => if inRange 1 65535 v then some { p with decayDiv := v } else none
  | .dwellDiv => if inRange 1 256 v then some { p with dwellDiv := v } else none
  | .onsetDiv => if inRange 1 65535 v then some { p with onsetDiv := v } else none
  | .winSrc => (WinSrc.decode v).map fun x => { p with winSrc := x }
  | .winLen => if inRange 1 16777215 v then some { p with winLen := v } else none
  | .cycle => (boolDecode v).map fun x => { p with cycle := x }
  | .cycleCount => if inRange 0 65535 v then some { p with cycleCount := v } else none
  | .settleCap => if inRange 1 65535 v then some { p with settleCap := v } else none
  | .overrunPolicy => (OverrunPolicy.decode v).map fun x => { p with overrunPolicy := x }
  | .testPath => (TestPath.decode v).map fun x => { p with testPath := x }
  | .testWeight => if inRange 1 4095 v then some { p with testWeight := v } else none
  | .tpLen => if inRange 1 1023 v then some { p with tpLen := v } else none
  | .zeroSuppress => (boolDecode v).map fun x => { p with zeroSuppress := x }
  | .unitId => if inRange 0 (2 ^ 32 - 1) v then some { p with unitId := v } else none
  | .attnEnable => if inRange 0 255 v then some { p with attnEnable := BitVec.ofNat 8 v } else none

/-- The sixteen command codes (R190). -/
def commandCodes : List Byte :=
  [0x01, 0x02, 0x10, 0x11, 0x18, 0x19, 0x20, 0x21, 0x22, 0x28, 0x30, 0x31, 0x38, 0x40, 0x48, 0x5A]

end Sys2Proof.Machine
end

