-- ==== Sys2Proof/Machine/Flags.lean ====
section
/-! DEFINITION. Status codes, attention causes, the ATTN_N line, and the numbers of the states that the snapshot and
the frame report. -/

namespace Sys2Proof.Machine

/-- The status byte (R190). -/
def Status.code : Status → Byte
  | .ok => 0x00
  | .busy => 0x01
  | .wrongState => 0x02
  | .badArg => 0x03
  | .badLength => 0x04
  | .badCheck => 0x05
  | .unknown => 0x06

/-- The bit of a cause in a cause set (section 10.2.3). -/
def Cause.bit : Cause → BitVec 8
  | .frameDone => 0x01
  | .overrun => 0x02
  | .shed => 0x04
  | .release => 0x08
  | .truncated => 0x10
  | .occupancy => 0x20
  | .missedOpen => 0x40
  | .commandFault => 0x80

/-- Whether a cause is pending (R178). -/
def State.isPending (s : State) (c : Cause) : Bool := (s.attn &&& c.bit) != 0

/-- The level that ATTN_N has to have: asserted while a cause is both pending and enabled, and never while RST_N is
asserted (R182). -/
def State.attnWanted (s : State) : Bool := !s.pins.rstLow && ((s.attn &&& s.params.attnEnable) != 0)

/-- Bring ATTN_N to the value that the pending set and ATTN_ENABLE give (R182). -/
def driveAttn (s : State) : State := { s with pins := { s.pins with attnLow := s.attnWanted } }

/-- The causes of an event that reach the Attention Unit after the request directly behind the event: none, unless the request is a
CLEAR_ATTENTION or a SOFT_RESET (R173, R180, R184; DESIGN CHOICE, log 21: which ones is free). -/
def State.lateCauses (s : State) : BitVec 8 :=
  match s.pending.head? with
  | some (.clearAttention [_]) | some (.softReset []) => Config.freeCauses s.free
  | _ => 0

/-- A block sets a cause: it becomes pending, or is on its way to the Attention Unit, and ATTN_N follows (R178, R180, R182). -/
def raiseCause (c : Cause) (s : State) : State :=
  driveAttn { s with
    attn := s.attn ||| (c.bit &&& ~~~ s.lateCauses)
    arriving := s.arriving ||| (c.bit &&& s.lateCauses) }

/-- The Management Port sets COMMAND_FAULT at a take or at the end of a transaction (R157, R159): no other request comes together
with it, since the port takes one at a time (R171). -/
def raiseCommandFault (s : State) : State := driveAttn { s with attn := s.attn ||| Cause.commandFault.bit }

/-- The causes on their way reach the Attention Unit (R180). -/
def arrive (s : State) : State :=
  if s.arriving = 0 then s else driveAttn { s with attn := s.attn ||| s.arriving, arriving := 0 }

/-- The causes of a set leave the pending set, and ATTN_N follows (R183). -/
def clearCauses (set : BitVec 8) (s : State) : State := driveAttn { s with attn := s.attn &&& ~~~ set }

/-- The controller state's number in the snapshot (section 10.2.4). -/
def CtlState.code : CtlState → Nat
  | .idle => 0
  | .opened => 1
  | .settling => 2
  | .held => 3

/-- The configuration operation state's number in the snapshot (section 10.2.4). -/
def CfgOp.code : CfgOp → Nat
  | .idle => 0
  | .loading _ _ _ => 1
  | .reading _ _ => 2

/-- The live half's number in the snapshot (section 10.2.4). -/
def Half.code : Half → Nat
  | .h0 => 0
  | .h1 => 1

/-- Open cause in the header (R192). -/
def OpenCause.code : OpenCause → Nat
  | .line => 0
  | .command => 1
  | .cycle => 2

/-- Close cause in the header (R192). -/
def CloseCause.code : CloseCause → Nat
  | .line => 0
  | .command => 1
  | .timer => 2

/-- The kind byte of a bank record (R192). -/
def BankKind.code : BankKind → Byte
  | .data => 0x01
  | .zero => 0x02
  | .gated => 0x03

/-- What the part does with MSO (R153). -/
inductive Mso
  /-- High impedance. -/
  | released
  /-- Driven to a level. -/
  | driven (level : Bool)
deriving DecidableEq, Repr

/-- MSO: high impedance while MCS_N is high or RST_N is asserted, else driven (R153). `Port.fall` says to which level. -/
def State.mso (s : State) : Mso := if s.pins.rstLow || !s.pins.mcsLow then .released else .driven s.port.mso

end Sys2Proof.Machine
end

