-- ==== Sys2Proof/Machine/Cells.lean ====
section
/-! DEFINITION. What happens inside one cell: counter segments and quantities (Chapter 2), thresholds, evaluation, onsets
and episode ends (Chapter 1), test pulses (Chapter 7). A cell function answers the cell after the event and the report
and notices that the cell sends. -/

namespace Sys2Proof.Machine

/-! ## Counter storage and quantities -/

/-- A segment of a cell's counter storage (R34). -/
inductive Seg
  | s0
  | s1
  | s2
  | s3
deriving DecidableEq, Repr

/-- How many values a segment holds: 12 or 4 bits (R34). -/
def Seg.size : Seg → Nat
  | .s0 | .s1 => 4096
  | .s2 | .s3 => 16

/-- A segment's value. -/
def Cell.seg (c : Cell) : Seg → Nat
  | .s0 => c.seg0
  | .s1 => c.seg1
  | .s2 => c.seg2
  | .s3 => c.seg3

/-- The cell with a segment's value replaced. -/
def Cell.setSeg (c : Cell) (g : Seg) (v : Nat) : Cell :=
  match g with
  | .s0 => { c with seg0 := v }
  | .s1 => { c with seg1 := v }
  | .s2 => { c with seg2 := v }
  | .s3 => { c with seg3 := v }

/-- The four counter quantities (Chapter 2). -/
inductive Quantity
  | dwell
  | onset
  | episodes
  | accesses
deriving DecidableEq, Repr

/-- The 12-bit segment of a half (R37). -/
def Half.seg12 : Half → Seg
  | .h0 => .s0
  | .h1 => .s1

/-- The 4-bit segment of a half (R37). -/
def Half.seg4 : Half → Seg
  | .h0 => .s2
  | .h1 => .s3

/-- The other half. -/
def Half.other : Half → Half
  | .h0 => .h1
  | .h1 => .h0

/-- Whether a mode is sequential (R37). -/
def Mode.sequential : Mode → Bool
  | .seqDw12On20 | .seqDw16On16 | .seqAc32 => true
  | _ => false

/-- The segments that hold a quantity, the least weight first; none where the mode does not keep the quantity. `h` is the
half counted into; a sequential mode uses the whole storage (R37). -/
def Mode.places (m : Mode) (h : Half) (q : Quantity) : List Seg :=
  match m, q with
  | .seqDw12On20, .dwell => [.s0]
  | .seqDw12On20, .onset => [.s1, .s2, .s3]
  | .seqDw16On16, .dwell => [.s0, .s2]
  | .seqDw16On16, .onset => [.s1, .s3]
  | .seqAc32, .accesses => [.s0, .s1, .s2, .s3]
  | .conDw12Ep4, .dwell => [h.seg12]
  | .conDw12Ep4, .episodes => [h.seg4]
  | .conDw16, .dwell => [h.seg12, h.seg4]
  | .conOn16, .onset => [h.seg12, h.seg4]
  | .conEp16, .episodes => [h.seg12, h.seg4]
  | .conAc16, .accesses => [h.seg12, h.seg4]
  | _, _ => []

/-- Whether the mode keeps the quantity (R37). -/
def Mode.keeps (m : Mode) (q : Quantity) : Bool := !(m.places .h0 q).isEmpty

/-- The number that segments hold (the sums of R37, R48). -/
def Cell.segsValue (c : Cell) : List Seg → Nat
  | [] => 0
  | g :: gs => c.seg g + g.size * c.segsValue gs

/-- The cell with a number held in segments, least weight first (R48). -/
def Cell.setSegs (c : Cell) : List Seg → Nat → Cell
  | [], _ => c
  | g :: gs, v => (c.setSeg g (v % g.size)).setSegs gs (v / g.size)

/-- One more than the largest number that segments hold. -/
def segsRange : List Seg → Nat
  | [] => 1
  | g :: gs => g.size * segsRange gs

/-- The value of a quantity in a storage role (R48). -/
def Cell.quantity (c : Cell) (m : Mode) (h : Half) (q : Quantity) : Nat := c.segsValue (m.places h q)

/-- The maximum of a quantity's range in a mode (R37). -/
def Mode.maximum (m : Mode) (q : Quantity) : Nat := segsRange (m.places .h0 q) - 1

/-- A quantity gains 1 and saturates (R40, R46, R47, R48); nothing where the mode does not keep it (R37). -/
def Cell.bump (c : Cell) (m : Mode) (h : Half) (q : Quantity) : Cell :=
  if m.keeps q && decide (c.quantity m h q < m.maximum q) then c.setSegs (m.places h q) (c.quantity m h q + 1) else c

/-- The segments of a half set to 0 (R125, R107). -/
def Cell.clearHalf (c : Cell) (h : Half) : Cell := (c.setSeg h.seg12 0).setSeg h.seg4 0

/-- All four segments set to 0 (R125). -/
def Cell.clearAll (c : Cell) : Cell := { c with seg0 := 0, seg1 := 0, seg2 := 0, seg3 := 0 }

/-- The frozen counters of a cell set to 0: all four segments, or the frozen half (R125). -/
def Cell.clearFrozen (c : Cell) : Frozen → Cell
  | .whole => c.clearAll
  | .half h => c.clearHalf h

/-! ## Configuration and thresholds -/

/-- A masked cell while DEEP_MASK is ON (R14). -/
def Cell.deepMasked (p : Params) (c : Cell) : Bool := p.deepMask && c.mask

/-- A cell whose bank is in BANK_GATE; the aux bank, 64, never is (R16). -/
def gated (p : Params) (i : Nat) : Bool := p.bankGate.getLsbD (i / Config.bankCells)

/-- An unmasked cell in an ungated bank: it counts and sends reports and notices (R10, R13, R16). -/
def Cell.eligible (p : Params) (i : Nat) (c : Cell) : Bool := !c.mask && !gated p i

/-- The effective trim, which is also the reported trim (R3, R4). -/
def Cell.effTrim (p : Params) (c : Cell) : Int := if c.deepMasked p then 15 else c.trim

/-- The effective threshold, clamped to 1..4095 (R3). -/
def Cell.effTh (p : Params) (c : Cell) : Nat :=
  (max 1 (min 4095 ((p.threshold : Int) + c.effTrim p * (p.trimStep : Int)))).toNat

/-- The config of a cell with its reported trim (R4, R25). -/
def Cell.reported (p : Params) (c : Cell) : CellConfig := { mask := c.mask, test := c.test, trim := c.effTrim p }

/-! ## Onset, episode end, evaluation -/

/-- A notice of a cell to the Occupancy Counter (R20). -/
inductive Notice
  | becameHot
  | becameCold
deriving DecidableEq, Repr

/-- What an event leaves of a cell, whether the cell reports its first onset, and the notices it sends, in their order. -/
structure CellOut where
  cell : Cell
  report : Bool
  notices : List Notice
deriving DecidableEq, Repr

/-- An event that sends nothing. -/
def quietly (c : Cell) : CellOut := { cell := c, report := false, notices := [] }

/-- What one event leaves of a cell and sends, and then another. -/
def CellOut.andThen (a b : CellOut) : CellOut where
  cell := b.cell
  report := a.report || b.report
  notices := a.notices ++ b.notices

/-- An onset: the cell turns HOT (R10). `h` is the live half. -/
def turnHot (p : Params) (h : Half) (i : Nat) (c : Cell) : CellOut :=
  let hot := { c with activity := .hot, onsetSeen := true }
  { cell := if c.eligible p i then hot.bump p.mode h .episodes else hot
    report := c.eligible p i && !c.onsetSeen
    notices := if c.eligible p i then [.becameHot] else [] }

/-- The end of an episode: the cell turns COLD (R11). -/
def turnCold (p : Params) (i : Nat) (c : Cell) : CellOut :=
  { cell := { c with activity := .cold, firstDone := true }
    report := false
    notices := if c.eligible p i then [.becameCold] else [] }

/-- A cell that a direct-path pulse drives: a test cell, ungated, not deep-masked (R15, R141). -/
def Cell.pulsed (p : Params) (i : Nat) (c : Cell) : Bool := c.test && !gated p i && !c.deepMasked p

/-- A direct-path pulse holds the cell HOT (R5, R15). `pulse` says that the generator is TP_ACTIVE. -/
def Cell.heldHot (p : Params) (pulse : Bool) (i : Nat) (c : Cell) : Bool :=
  pulse && decide (p.testPath = .direct) && c.pulsed p i

/-- An evaluation: the level against the effective threshold, with hysteresis (R5). -/
def evaluate (p : Params) (h : Half) (pulse : Bool) (i : Nat) (c : Cell) : CellOut :=
  match c.activity with
  | .cold => if decide (c.effTh p ≤ c.level) && !c.deepMasked p then turnHot p h i c else quietly c
  | .hot => if decide (c.level + p.hysteresis < c.effTh p) && !c.heldHot p pulse i then turnCold p i c else quietly c

/-- A weight enters the level, which saturates at 4095 (R7, R142). -/
def Cell.addWeight (c : Cell) (w : Nat) : Cell := { c with level := min 4095 (c.level + w) }

/-- An access of an unmasked cell is counted (R47, R13). -/
def CellOut.access (p : Params) (h : Half) (o : CellOut) : CellOut :=
  { o with cell := if o.cell.mask then o.cell else o.cell.bump p.mode h .accesses }

/-- The application of a record of weight `w` (R7). A gated cell is inert, and no record reaches one (R16, log 18); a record
names an array cell, since an aux cell has no level (R1, R56, log 14). -/
def recordAtCell (p : Params) (h : Half) (pulse : Bool) (w : Nat) (i : Nat) (c : Cell) : CellOut :=
  if c.test || gated p i || decide (Config.arrayCells ≤ i) then quietly c
  else if c.deepMasked p then evaluate p h pulse i c
  else (evaluate p h pulse i (c.addWeight w)).access p h

/-! ## Ticks -/

/-- A decay tick at a cell: an array cell loses DECAY_STEP and is evaluated; an aux cell is left as it is (R8). -/
def decayAtCell (p : Params) (h : Half) (pulse : Bool) (i : Nat) (c : Cell) : CellOut :=
  if i < Config.arrayCells then evaluate p h pulse i { c with level := c.level - p.decayStep } else quietly c

/-- Whether a cell is counting dwell (R39). -/
def Cell.counting (p : Params) (h : Half) (i : Nat) (c : Cell) : Bool :=
  decide (c.activity = .hot) && c.eligible p i && p.mode.keeps .dwell
    && decide (c.quantity p.mode h .dwell < p.mode.maximum .dwell) && !c.truncated
    && (decide (p.dwellLaw = .cumulative) || !c.firstDone)

/-- A dwell tick at a cell: a counting cell adds 1 to its dwell (R40). -/
def dwellAtCell (p : Params) (h : Half) (i : Nat) (c : Cell) : Cell :=
  if c.counting p h i then c.bump p.mode h .dwell else c

/-- Whether a cell's onset quantity is running, given that the window is OPEN (R43). -/
def Cell.onsetRunning (p : Params) (i : Nat) (c : Cell) : Bool := c.onsetSeen && c.eligible p i

/-- An onset tick at a cell: a running onset quantity adds 1; at its maximum it stays, or returns to 0 under ONSET_WRAP (R44). -/
def onsetAtCell (p : Params) (h : Half) (i : Nat) (c : Cell) : Cell :=
  if c.onsetRunning p i && p.mode.keeps .onset then
    if c.quantity p.mode h .onset < p.mode.maximum .onset then c.bump p.mode h .onset
    else if p.onsetWrap then c.setSegs (p.mode.places h .onset) 0
    else c
  else c

/-! ## Test pulses and aux lines -/

/-- A pulse start at a cell (R141, R142). -/
def pulseStartAtCell (p : Params) (h : Half) (i : Nat) (c : Cell) : CellOut :=
  match p.testPath with
  | .direct => if c.pulsed p i && decide (c.activity = .cold) then turnHot p h i c else quietly c
  | .integrator =>
    if c.pulsed p i && decide (i < Config.arrayCells) then
      (evaluate p h true i (c.addWeight p.testWeight)).access p h
    else quietly c

/-- A pulse end at a cell: under DIRECT, a cell that the pulse held turns COLD (R143). -/
def pulseEndAtCell (p : Params) (i : Nat) (c : Cell) : CellOut :=
  if decide (p.testPath = .direct) && c.pulsed p i && decide (c.activity = .hot) then turnCold p i c else quietly c

/-- An aux cell that follows its line: not a test cell, not deep-masked (R17, R144). -/
def Cell.followsLine (p : Params) (c : Cell) : Bool := !c.test && !c.deepMasked p

/-- A line is seen asserted: its aux cell turns HOT if it was COLD (R12, R17). -/
def lineUpAtCell (p : Params) (h : Half) (i : Nat) (c : Cell) : CellOut :=
  if c.followsLine p && decide (c.activity = .cold) then turnHot p h i c else quietly c

/-- A line is seen deasserted: its aux cell turns COLD if it was HOT (R12, R17, R18). -/
def lineDownAtCell (p : Params) (i : Nat) (c : Cell) : CellOut :=
  if c.followsLine p && decide (c.activity = .hot) then turnCold p i c else quietly c

/-! ## Window flags, rest, resets -/

/-- The window flags cleared, as at each open (R1, R80). -/
def Cell.clearFlags (c : Cell) : Cell := { c with onsetSeen := false, firstDone := false, truncated := false }

/-- A cell comes to rest (R19). -/
def Cell.rest (c : Cell) : Cell := { c with level := 0, activity := .cold }

/-- A soft reset at a cell: everything but its config (R2). -/
def Cell.softReset (c : Cell) : Cell := { Cell.reset with mask := c.mask, test := c.test, trim := c.trim }

/-- A cell takes a config (R24). -/
def Cell.configure (c : Cell) (g : CellConfig) : Cell := { c with mask := g.mask, test := g.test, trim := g.trim }

end Sys2Proof.Machine
end

