-- ==== Sys2Proof/Machine/Transport.lean ====
section
/-! DEFINITION. The serial lines of the management port (R153 to R155, R158): the bits of a byte, one period of MSCK at the
port, and what a request and a response are on the wire. -/

namespace Sys2Proof.Machine

/-- The bits of a byte as they pass, most significant first (R153). -/
def byteBits (b : Byte) : List Bool :=
  [b.getLsbD 7, b.getLsbD 6, b.getLsbD 5, b.getLsbD 4, b.getLsbD 3, b.getLsbD 2, b.getLsbD 1, b.getLsbD 0]

/-- The bits of a list of bytes as they pass (R153). -/
def wireBits (bytes : List Byte) : List Bool := bytes.flatMap byteBits

/-- The bytes of a request: code, argument length, arguments, check byte (R155). -/
def requestWire (code : Byte) (args : List Byte) (check : Byte) : List Byte :=
  code :: BitVec.ofNat 8 args.length :: (args ++ [check])

/-- The bytes of a response: status, length, data, check byte (R158). -/
def Response.wire (r : Response) : List Byte := r.status.code :: BitVec.ofNat 8 r.data.length :: (r.data ++ [r.check])

/-- The bytes of the response in hand, if there is one. -/
def Port.wire (p : Port) : List Byte :=
  match p.response with
  | some r => r.wire
  | none => []

/-- A byte of a request has completed (R155): the code, the declared length, an argument byte (the first 72 are kept), or the
check byte, which does not enter the running check. -/
def Port.takeByte (b : Byte) (p : Port) : Port :=
  match p.requestBytes with
  | 0 => { p with requestBytes := 1, code := b, runningCheck := crc8Byte p.runningCheck b }
  | 1 => { p with requestBytes := 2, declaredLength := b.toNat, runningCheck := crc8Byte p.runningCheck b }
  | n + 2 =>
    if n < p.declaredLength then
      { p with
        requestBytes := n + 3
        args := if p.args.length < Config.maxArgs then p.args ++ [b] else p.args
        runningCheck := crc8Byte p.runningCheck b }
    else { p with requestBytes := n + 3 }

/-- A rising edge of MSCK with MSI at level `bit` (R153, R154): RECEIVING takes the bit, and the eighth completes a byte;
RESPONDING has sent a bit, and the last of the check byte leaves it for TRAILING; elsewhere MSI is ignored. -/
def Port.rise (bit : Bool) (p : Port) : Port :=
  let q := { p with msck := true, msi := bit }
  match p.decoder with
  | .receiving =>
    let byte := p.inByte <<< 1 ||| (if bit then 1#8 else 0#8)
    if p.bitCount = 7 then Port.takeByte byte { q with inByte := byte, bitCount := 0 }
    else { q with inByte := byte, bitCount := p.bitCount + 1 }
  | .responding =>
    if p.bitCount = 7 then
      { q with
        bitCount := 0
        responseSent := p.responseSent + 1
        decoder := if p.responseSent + 1 = p.wire.length then .trailing else .responding }
    else { q with bitCount := p.bitCount + 1 }
  | _ => q

/-- The bit that MSO carries next: of the response while RESPONDING; low in RECEIVING and TRAILING (R154, R158), and in
IGNORING, where R153 has MSO driven and R154 names no level (DESIGN CHOICE, log 15). -/
def Port.nextBit (p : Port) : Bool :=
  match p.decoder with
  | .responding => (wireBits p.wire).getD (8 * p.responseSent + p.bitCount) false
  | _ => false

/-- A falling edge of MSCK, or, for the first bit, of MCS_N: MSO changes (R153). -/
def Port.fall (p : Port) : Port := { p with msck := false, mso := p.nextBit }

/-- One bit on the serial lines: the falling edge before it, and the rising edge that samples it (R153). -/
def Port.clock (bit : Bool) (p : Port) : Port := p.fall.rise bit

/-- Bits on the serial lines, one after the other. -/
def Port.clockAll (bits : List Bool) (p : Port) : Port := bits.foldl (fun q b => q.clock b) p

/-- The progress at the first bit of a request: nothing received, running check 0 (R154). -/
def Port.startRequest (p : Port) : Port :=
  { p with bitCount := 0, requestBytes := 0, declaredLength := 0, code := 0, args := [], runningCheck := 0 }

/-- The progress at the first bit of a response: nothing sent. -/
def Port.startResponse (p : Port) : Port := { p with bitCount := 0, responseSent := 0 }

/-- The host clocks the whole response out; what it drives on MSI is ignored (R154, R158). -/
def Port.sendResponse (p : Port) : Port := p.startResponse.clockAll (List.replicate (8 * p.wire.length) p.msi)

end Sys2Proof.Machine
end

