-- ==== Sys2Proof/Machine/Ops.lean ====
section
/-! DEFINITION. The named operations that the meanings share: notices and reports of the array, the arbiter and the hold
gates, the window's open, close, settling and hand-off of storage, the start of a frame, the take of a request, the
resets. -/

namespace Sys2Proof.Machine

/-! ## Any order (log 1) -/

/-- The elements of a list in an order that nothing determines: at each place a free value picks one of those that wait.
The first argument is the draw, the second bounds the recursion. -/
def pickOrder {α : Type} (draw : Nat) : Nat → List α → List α
  | n + 1, a :: b :: t =>
    match (a :: b :: t).drop (Config.freePick draw (t.length + 2) % (t.length + 2)) with
    | [] => a :: b :: t
    | x :: rest => x :: pickOrder draw n ((a :: b :: t).take (Config.freePick draw (t.length + 2) % (t.length + 2)) ++ rest)
  | _, l => l

/-- The elements of a list in any order (R20, R86, R97, R180). -/
def anyOrder {α : Type} (draw : Nat) (l : List α) : List α := pickOrder draw l.length l

/-! ## The Acquisition Controller's descriptor -/

/-- The controller is OPEN or SETTLING: records, ticks and notices reach the cells and the counter (R5, R21, R32). -/
def State.measuring (s : State) : Bool := decide (s.ctl.state = .opened) || decide (s.ctl.state = .settling)

/-- A change of the descriptor in progress; nothing where there is none. -/
def onDesc (f : Descriptor → Descriptor) (s : State) : State := { s with ctl := { s.ctl with desc := s.ctl.desc.map f } }

/-- A first-onset report: an entry is appended, or the overflow flag is set when the list is full (R97, R98). -/
def takeReport (s : State) (i : Nat) : State :=
  onDesc (fun d =>
    if d.onsets.length < Config.onsetListMax then
      { d with onsets := d.onsets ++ [{ cell := i, offset := s.ctl.windowCount }] }
    else { d with overflow := true }) s

/-- The Occupancy Counter's exceed notice: the descriptor's flag and cause OCCUPANCY (R21, R96). -/
def exceedNotice (s : State) : State := raiseCause .occupancy (onDesc (fun d => { d with exceeded := true }) s)

/-- A became-hot or became-cold notice at the Occupancy Counter (R20, R21). A notice taken outside OPEN and SETTLING
changes nothing. -/
def takeNotice (s : State) (n : Notice) : State :=
  if s.measuring then
    match n with
    | .becameHot =>
      let t := { s with occ := { current := s.occ.current + 1, peak := max s.occ.peak (s.occ.current + 1) } }
      if s.params.occLimit < s.occ.current + 1 then exceedNotice t else t
    | .becameCold => { s with occ := { s.occ with current := s.occ.current - 1 } }
  else s

/-! ## Events of the whole array -/

/-- An event at every cell of a list whose first cell has index `i`. -/
def eachCell (f : Nat → Cell → CellOut) : Nat → List Cell → List CellOut
  | _, [] => []
  | i, c :: cs => f i c :: eachCell f (i + 1) cs

/-- A change of every cell that sends nothing. -/
def mapCells (f : Nat → Cell → Cell) : Nat → List Cell → List Cell
  | _, [] => []
  | i, c :: cs => f i c :: mapCells f (i + 1) cs

/-- The indexes of the cells that a test selects. -/
def indicesWhere (f : Nat → Cell → Bool) : Nat → List Cell → List Nat
  | _, [] => []
  | i, c :: cs => if f i c then i :: indicesWhere f (i + 1) cs else indicesWhere f (i + 1) cs

/-- The indexes of the cells that report their first onset. -/
def reportsOf : Nat → List CellOut → List Nat
  | _, [] => []
  | i, o :: os => if o.report then i :: reportsOf (i + 1) os else reportsOf (i + 1) os

/-- The notices that the cells send. -/
def noticesOf (os : List CellOut) : List Notice := os.flatMap CellOut.notices

/-- The notices of the cells in any order, but those of one cell in the order in which it sends them; notices of one kind need none,
since each order leaves the same counts (R20). -/
def noticeOrder (draw : Nat) (os : List CellOut) : List Notice :=
  let l := noticesOf os
  if l.all (fun n => decide (n = .becameHot)) || l.all (fun n => decide (n = .becameCold)) then l
  else noticesOf (anyOrder draw (os.filter fun o => !o.notices.isEmpty))

/-- One event delivered to every cell: the cells change, their reports reach the controller and their notices the
Occupancy Counter, each block taking them in any order (R20, R32, R97). -/
def arrayEvent (f : Nat → Cell → CellOut) (s : State) : State :=
  let outs := eachCell f 0 s.cells
  let t := { s with cells := outs.map CellOut.cell, free := s.free + 1 }
  (noticeOrder (2 * s.free) outs).foldl takeNotice
    ((anyOrder (2 * s.free + 1) (reportsOf 0 outs)).foldl takeReport t)

/-- The onset tick that is next expires the window timer (R78). -/
def State.timerNext (s : State) : Bool :=
  decide (s.ctl.state = .opened) && decide (s.params.winSrc = .timer) && decide (s.params.winLen ≤ s.ctl.windowCount + 1)

/-- The row directly behind is an onset tick that will be delivered: it can reach the cells and the controller together with the event
in hand (R33, R98). -/
def State.tickBehind (s : State) : Bool :=
  decide (s.ctl.state = .opened) && s.ticks.onset.running &&
    match s.pending.head? with
    | some .onsetTick => true
    | some .windowTimerExpiry => s.timerNext
    | _ => false

/-- An event of the whole array that can bring first onsets while an onset tick comes together with it: each cell takes the tick before
or after its onset, and the controller before or after each report (R33, R44 note, R97, R98, R141, R147; DESIGN CHOICE, log 22: which
is free). The reports that come after the tick wait for it. -/
def onsetEvent (f : Nat → Cell → CellOut) (s : State) : State :=
  if s.tickBehind then
    let reports := reportsOf 0 (eachCell f 0 s.cells)
    let late (i : Nat) : Bool := Config.freeTickFirst s.free (2 * i + 1)
    let t := arrayEvent (fun i c => { f i c with report := (f i c).report && !late i }) s
    { t with crossing := {
        reports := s.crossing.reports ++ anyOrder (2 * s.free + 1) (reports.filter late)
        ticked := s.crossing.ticked ++ reports.filter fun i => Config.freeTickFirst s.free (2 * i) } }
  else arrayEvent f s

/-- The generator is TP_ACTIVE (R139). -/
def State.pulse (s : State) : Bool := decide (s.tpg ≠ .idle)

/-- The cells that are counting dwell (R39, R42). -/
def countingCells (s : State) : List Nat := indicesWhere (fun i c => c.counting s.params s.ctl.liveHalf i) 0 s.cells

/-- No cell is counting (R86: Quiet). -/
def State.quiet (s : State) : Bool := (countingCells s).isEmpty

/-- The queue is empty and no application is in progress (R86: Drained). -/
def State.drained (s : State) : Bool := s.queue.records.isEmpty && s.engine.applying.isNone

/-! ## Shed and release; the hold gates -/

/-- A shed notice: the shed count, saturating, and cause SHED at the window's first shed (R66). -/
def shedNotice (s : State) : State :=
  let t := onDesc (fun d => { d with shed := min 65535 (d.shed + 1) }) s
  if (s.ctl.desc.map Descriptor.shed) = some 0 then raiseCause .shed t else t

/-- A release notice: the released count, saturating, and cause RELEASE (R66). -/
def releaseNotice (s : State) : State :=
  raiseCause .release (onDesc (fun d => { d with released := min 65535 (d.released + 1) }) s)

/-- The other address channel. -/
def otherChannel : Channel → Channel
  | .read => .write
  | .write => .read

/-- The hold in force on a channel, if its gate is holding (R50). -/
def State.hold (s : State) : Channel → Option Hold
  | .read => s.path.rd
  | .write => s.path.wr

/-- A channel's gate set holding or opened (R50). -/
def setHold (ch : Channel) (h : Option Hold) (s : State) : State :=
  match ch with
  | .read => { s with path := { s.path with rd := h } }
  | .write => { s with path := { s.path with wr := h } }

/-- A handshake passes to the memory side, its content unchanged (R49, R50). -/
def passHandshake (ch : Channel) (hs : Handshake) (s : State) : State :=
  match ch with
  | .read => { s with path := { s.path with memRd := some hs } }
  | .write => { s with path := { s.path with memWr := some hs } }

/-- A channel's gate opens: a held handshake passes and the timer stops at 0 (R50, R68). -/
def openGate (ch : Channel) (s : State) : State :=
  match s.hold ch with
  | none => s
  | some h => passHandshake ch h.handshake (setHold ch none s)

/-- The close cuts a hold: the gate opens and the observation is shed (R69). -/
def shedHold (ch : Channel) (s : State) : State :=
  match s.hold ch with
  | none => s
  | some _ => shedNotice (openGate ch s)

/-- A hold ends by the expiry of its timer: the gate opens and the observation is released (R68). -/
def expireHold (ch : Channel) (s : State) : State :=
  match s.hold ch with
  | none => s
  | some _ => releaseNotice (openGate ch s)

/-- ARESET_N withdraws a held handshake: it does not pass, and the observation is released (R51). -/
def withdrawHold (ch : Channel) (s : State) : State :=
  match s.hold ch with
  | none => s
  | some _ => releaseNotice (setHold ch none s)

/-! ## The enqueue arbiter (R65) -/

/-- A grant: the record enters behind those already held, the history takes the channel, and the gate of a held channel
opens (R65). -/
def grant (ch : Channel) (r : Record) (hs : Handshake) (s : State) : State :=
  passHandshake ch hs (setHold ch none { s with queue := { records := s.queue.records ++ [r], history := ch } })

/-- A refusal for want of a slot: CAPTURE_POLICY decides (R67). -/
def noSlot (ch : Channel) (r : Record) (hs : Handshake) (s : State) : State :=
  match s.params.capturePolicy with
  | .shed => shedNotice (passHandshake ch hs s)
  | .hold => setHold ch (some { handshake := hs, record := r, limit := s.params.holdLimit, timer := 0 }) s

/-- One channel's request at the arbiter (R65). -/
def request (ch : Channel) (r : Record) (hs : Handshake) (s : State) : State :=
  if s.queue.records.length < Config.queueDepth then grant ch r hs s else noSlot ch r hs s

/-- A freed slot is offered to the channels that wait, the preferred one first; only while OPEN (R65). -/
def offerSlot (s : State) : State :=
  if s.ctl.state = .opened ∧ s.queue.records.length < Config.queueDepth then
    match s.hold (otherChannel s.queue.history) with
    | some h => grant (otherChannel s.queue.history) h.record h.handshake s
    | none =>
      match s.hold s.queue.history with
      | some h => grant s.queue.history h.record h.handshake s
      | none => s
  else s

/-! ## Open (R80) -/

/-- The descriptor of a window at its open (R80, R94). -/
def newDescriptor (cause : OpenCause) (s : State) : Descriptor where
  frameNumber := s.ctl.nextFrame
  mode := s.params.mode
  dwellLaw := s.params.dwellLaw
  onsetWrap := s.params.onsetWrap
  openCause := cause
  closeCause := .line
  windowLength := 0
  settleLength := 0
  shed := 0
  released := 0
  truncated := 0
  bankTruncated := List.replicate 65 0
  settleCap := false
  peak := 0
  exceeded := false
  testPulses := 0
  discardedBefore := s.ctl.discardCarry
  heldBefore := s.ctl.heldCarry
  onsets := []
  overflow := false

/-- A window opens (R80, R81, R31). An aux cell whose line is asserted reports at the open, with offset 0 (R98): the first onset tick
comes a full period later (R31). -/
def openWindowAs (cause : OpenCause) (s : State) : State :=
  arrayEvent
    (fun i c =>
      if decide (Config.arrayCells ≤ i) && s.pins.aux.getLsbD (i - Config.arrayCells) then
        lineUpAtCell s.params s.ctl.liveHalf i c
      else quietly c)
    { s with
      ctl := { s.ctl with
        state := .opened
        desc := some (newDescriptor cause s)
        nextFrame := (s.ctl.nextFrame + 1) % 2 ^ 32
        windowCount := 0
        settleCount := 0
        discardCarry := 0
        heldCarry := false }
      cells := s.cells.map Cell.clearFlags
      occ := { s.occ with peak := s.occ.current }
      ticks := { decay := { running := true, count := 0 }, dwell := { running := true, count := 0 }
                 onset := { running := true, count := 0 } }
      crossing := .reset }

/-- The storage of a window has been dealt with: the cycle reopens, or it ends and the controller enters IDLE (R100). -/
def dealtWith (s : State) : State :=
  if s.ctl.cycleOn && (decide (s.params.cycleCount = 0) || decide (0 < s.ctl.cyclesLeft)) then openWindowAs .cycle s
  else { s with ctl := { s.ctl with state := .idle, cycleOn := false } }

/-! ## End of settling and hand-off (R91, R92, R105 to R108) -/

/-- A frame starts (R118). The kind item has no value before the first bank record: it holds DATA (DESIGN CHOICE, log 8). -/
def startFrame (d : Descriptor) (s : State) : State :=
  { s with readout := { s.readout with
      frame := some
        { desc := d, unit := s.params.unitId, suppress := s.params.zeroSuppress, gated := s.params.bankGate
          position := .header 0, kind := .data, abortTaken := false, crc := 0xFFFFFFFF#32, byteCount := 0 } } }

/-- The swap (R106): the live half freezes, the pointer moves, the frame starts, the cycle decides. -/
def swap (d : Descriptor) (s : State) : State :=
  dealtWith (startFrame d
    { s with ctl := { s.ctl with
        frozen := some (.half s.ctl.liveHalf), liveHalf := s.ctl.liveHalf.other, desc := none, waiting := none } })

/-- The discard of a finished window (R107, R111). -/
def discardWindow (d : Descriptor) (s : State) : State :=
  dealtWith (raiseCause .overrun
    { s with
      cells := s.cells.map fun c => c.clearHalf s.ctl.liveHalf
      ctl := { s.ctl with
        desc := none
        discardCarry := min 255 (d.discardedBefore + 1)
        discardedTotal := (s.ctl.discardedTotal + 1) % 2 ^ 32 } })

/-- The wait of a finished window in HELD (R108, R112). -/
def waitWindow (d : Descriptor) (s : State) : State :=
  raiseCause .overrun
    { s with ctl := { s.ctl with state := .held, desc := none, waiting := some d, heldCarry := true } }

/-- The freeze of the whole storage in a sequential mode (R92). -/
def freezeWhole (d : Descriptor) (s : State) : State :=
  startFrame d { s with ctl := { s.ctl with state := .held, desc := none, frozen := some .whole } }

/-- The hand-off of storage at the end of settling (R92, R105). -/
def handOff (d : Descriptor) (s : State) : State :=
  if s.params.mode.sequential then freezeWhole d s
  else match s.ctl.frozen with
    | none => swap d s
    | some _ =>
      match s.params.overrunPolicy with
      | .discard => discardWindow d s
      | .wait => waitWindow d s

/-- The array comes to rest: levels 0, COLD, occupancy 0, generator idle, decay and dwell dividers stopped (R19, R31). -/
def comeToRest (s : State) : State :=
  { s with
    cells := s.cells.map Cell.rest
    occ := { s.occ with current := 0 }
    tpg := .idle
    ticks := { s.ticks with decay := { s.ticks.decay with running := false }, dwell := { s.ticks.dwell with running := false } } }

/-- Settling ends: the descriptor becomes final, the array rests, the storage is handed on (R91). -/
def endSettling (s : State) : State :=
  match s.ctl.desc with
  | none => dealtWith (comeToRest s)
  | some d => handOff { d with settleLength := s.ctl.settleCount, peak := s.occ.peak } (comeToRest s)

/-- Both conditions of the end of settling hold while SETTLING (R86). -/
def State.mayEnd (s : State) : Bool := decide (s.ctl.state = .settling) && s.drained && s.quiet

/-- The end of settling is considered (R86). -/
def considerEnd (s : State) : State := if s.mayEnd then endSettling s else s

/-! ## Close (R83) -/

/-- The close at the controller and the onset divider, before the holds are shed (steps 1 to 3, 5 and 6 of R83). -/
def beginClose (cause : CloseCause) (s : State) : State :=
  { s with
    ctl := { s.ctl with
      state := .settling
      desc := s.ctl.desc.map fun d => { d with closeCause := cause, windowLength := s.ctl.windowCount }
      settleCount := 0
      cyclesLeft :=
        if s.ctl.cycleOn && decide (s.params.cycleCount ≠ 0) then s.ctl.cyclesLeft - 1 else s.ctl.cyclesLeft }
    ticks := { s.ticks with onset := { s.ticks.onset with running := false } } }

/-- A window closes and is SETTLING, the end of settling not yet considered. -/
def shutWindow (cause : CloseCause) (s : State) : State := shedHold .write (shedHold .read (beginClose cause s))

/-- A window closes, and the end of settling is considered at once (R83, R86). -/
def closeWindowAs (cause : CloseCause) (s : State) : State := considerEnd (shutWindow cause s)

/-- A missed open: the count, saturating, and the cause (R79). -/
def missedOpen (s : State) : State :=
  raiseCause .missedOpen { s with ctl := { s.ctl with missedOpens := min 65535 (s.ctl.missedOpens + 1) } }

/-! ## One cell's events, and the stop of a cycle -/

/-- The application of the record in hand at its cell (R7). -/
def applyRecord (r : Record) (s : State) : State :=
  onsetEvent (fun i c => if i = r.cell then recordAtCell s.params s.ctl.liveHalf s.pulse r.weight i c else quietly c) s

/-- A line's level as last seen. -/
def setLine (n : Fin 4) (up : Bool) (s : State) : State :=
  { s with pins := { s.pins with
      aux := if up then s.pins.aux ||| (1#4 <<< n.val) else s.pins.aux &&& ~~~ (1#4 <<< n.val) } }

/-- An event at the aux cell of a line alone. -/
def auxEvent (n : Fin 4) (f : Nat → Cell → CellOut) (s : State) : State :=
  onsetEvent (fun i c => if i = Config.arrayCells + n.val then f i c else quietly c) s

/-- The cycle is stopped (R101). -/
def stopCycle (s : State) : State := { s with ctl := { s.ctl with cycleOn := false, cyclesLeft := 0 } }

/-! ## The settle cap (R88, R89) -/

/-- The settle cap has expired in this window and its settling has not ended (R88). -/
def State.capFlag (s : State) : Bool := (s.ctl.desc.map Descriptor.settleCap) == some true

/-- The settle cap's expiry is due: SETTLING, not yet expired, the settle length at SETTLE_CAP (R88). -/
def State.capDue (s : State) : Bool :=
  decide (s.ctl.state = .settling) && !s.capFlag && decide (s.params.settleCap ≤ s.ctl.settleCount)

/-- One more truncated cell in the descriptor and in its bank (R89). -/
def Descriptor.truncate (d : Descriptor) (i : Nat) : Descriptor :=
  { d with truncated := d.truncated + 1, bankTruncated := d.bankTruncated.modify (i / Config.bankCells) (· + 1) }

/-- A counting cell sets its truncated flag and stops counting (R89). -/
def truncateAtCell (p : Params) (h : Half) (i : Nat) (c : Cell) : Cell :=
  if c.counting p h i then { c with truncated := true } else c

/-- Every cell then counting is truncated (R89). -/
def truncateCounting (s : State) : State :=
  onDesc (fun d => (countingCells s).foldl Descriptor.truncate d)
    { s with cells := mapCells (truncateAtCell s.params s.ctl.liveHalf) 0 s.cells }

/-- The expiry of the settle cap at the controller: the flag, the cause TRUNCATED, the queue emptied (R88). -/
def capExpires (s : State) : State :=
  raiseCause .truncated { onDesc (fun d => { d with settleCap := true }) s with queue := { s.queue with records := [] } }

/-- The settle cap expires, where it is due; truncation and the end of settling follow at once, or at the completion of the
application in progress (R88). -/
def capExpiry (s : State) : State :=
  if s.capDue then
    if s.engine.applying.isNone then endSettling (truncateCounting (capExpires s)) else capExpires s
  else s

/-! ## Readout complete (R109, R131) -/

/-- The notice of readout complete at the controller (R109). -/
def readoutNotice (s : State) : State :=
  let t := { s with ctl := { s.ctl with frozen := none } }
  if s.ctl.state = .held then
    match s.ctl.waiting with
    | some d => swap d t
    | none => dealtWith t
  else t

/-- Readout completes (R131). -/
def readoutComplete (s : State) : State :=
  readoutNotice (raiseCause .frameDone
    { s with readout := { frame := none, emitted := (s.readout.emitted + 1) % 2 ^ 32 } })

/-- The frozen counters of the banks that a test selects set to 0 (R125, R134). -/
def clearBanks (f : Nat → Bool) (s : State) : State :=
  match s.ctl.frozen with
  | none => s
  | some z => { s with cells := mapCells (fun i c => if f (i / Config.bankCells) then c.clearFrozen z else c) 0 s.cells }

/-! ## Resets (R2, R102, R116, R136, R137, R146, R172, R175) -/

/-- Both gates open and the held handshakes pass, uncounted (R70). -/
def ThroughPath.release (p : ThroughPath) : ThroughPath where
  rd := none
  wr := none
  memRd := match p.rd with
    | some h => some h.handshake
    | none => p.memRd
  memWr := match p.wr with
    | some h => some h.handshake
    | none => p.memWr

/-- The soft reset in every block (R172, section 8.8). A cause on its way to the Attention Unit is not reset: it reaches the unit
after the reset (R173, R180). -/
def softReset (s : State) : State :=
  { s with
    pins := { s.pins with fstb := false, fsof := false, attnLow := false }
    port := { s.port with lastRefusal := none }
    cells := s.cells.map Cell.softReset
    occ := { current := 0, peak := 0 }
    engine := { s.engine with op := .idle, result := { s.engine.result with valid := false }, applying := none }
    ticks := .reset
    path := s.path.release
    filter := s.filter.map fun e => { e with hits := 0 }
    queue := .reset
    ctl := .reset
    readout := { frame := none, emitted := 0 }
    tpg := .idle
    attn := 0
    crossing := .reset
    decayWaits := false }

/-- The decoder's state by MCS_N, as RST_N sets it (R154, R176). -/
def decoderByPin (pins : Pins) : Decoder := if pins.mcsLow then .ignoring else .deselected

/-- RST_N is asserted: every block takes its RST_N value (R175, R176). -/
def powerOnReset (s : State) : State :=
  { State.reset with
    pending := s.pending
    free := s.free
    pins := { s.pins with rstLow := true, fd := 0, fstb := false, fsof := false, attnLow := false }
    port := { Port.reset with decoder := decoderByPin s.pins, msck := s.port.msck, msi := s.port.msi }
    path := s.path.release }

/-! ## The management port (Chapter 8) -/

/-- A request is clocked in whole, bit by bit (R153, R154, R155). -/
def receiveRequest (code : Byte) (args : List Byte) (check : Byte) (s : State) : State :=
  { s with port := s.port.startRequest.clockAll (wireBits (requestWire code args check)) }

/-- A request can come whole: the decoder is RECEIVING, and the length byte holds the number of the argument bytes (R154,
R155). -/
def State.canReceive (s : State) (args : List Byte) : Bool :=
  decide (s.port.decoder = .receiving) && decide (args.length ≤ 255)

/-- The response is composed at the take and the decoder enters RESPONDING (R157, R158). -/
def respond (st : Status) (data : List Byte) (s : State) : State :=
  { s with port := { s.port with
      decoder := .responding
      response := some { status := st, data := data, check := crc8 (st.code :: BitVec.ofNat 8 data.length :: data) }
      responseSent := 0 } }

/-- A refusal: the record of the last refusal, and a response without data (R157, R158, R162). -/
def refuse (code : Byte) (st : Status) (s : State) : State :=
  respond st [] { s with port := { s.port with lastRefusal := some { code := code, status := st } } }

/-- What a command answers at its take: a status other than OK, or the state after it and the response data. -/
abbrev Answer := Except Status (State × List Byte)

/-- The take of a request whose check byte agrees and whose code is a command's (R157, steps 3 to 5). -/
def takeCommand (code : Byte) (args : List Byte) (own : State → Answer) (s : State) : State :=
  if s.canReceive args then
    let r := receiveRequest code args (requestCheck code args) s
    if Config.maxArgs < args.length then refuse code .badLength r
    else
      match own r with
      | .ok (t, data) => respond .ok data t
      | .error st => refuse code st r
  else s

/-- The first four checks of a SET_PARAM, and the parameter with the table after the write (R168). -/
def writeAsked (args : List Byte) (p : Params) : Except Status (ParamId × Params) :=
  match args with
  | [] => .error .badLength
  | b :: value =>
    match ParamId.ofByte b with
    | none => .error .badArg
    | some id =>
      if value.length ≠ id.length then .error .badLength
      else
        match p.write id (beNat value) with
        | none => .error .badArg
        | some q => .ok (id, q)

/-- What the SET_PARAM directly behind, if one comes, makes of the values that a cell reads at an evaluation and at a decay tick; they are
all of class ANY, so that no state refuses the write (R3, R5, R8, R170; DESIGN CHOICE, log 23). -/
def State.paramsBehind (s : State) : Option Params :=
  match s.pending with
  | .setParam args :: _ =>
    match writeAsked args s.params with
    | .ok (_, q) =>
      if s.canReceive args then
        some { s.params with threshold := q.threshold, trimStep := q.trimStep, hysteresis := q.hysteresis, decayStep := q.decayStep }
      else none
    | .error _ => none
  | _ => none

/-- MCS_N rises: the transaction ends, by the decoder's state; `bits` counts the bits of the request received in
RECEIVING (R154, R159, R160). MSCK is low while the port is deselected (R153). While RST_N is asserted the port takes
nothing (R153). -/
def mcsRises (bits : Nat) (s : State) : State :=
  if s.pins.rstLow then { s with pins := { s.pins with mcsLow := false }, port := { s.port with msck := false } }
  else
    let t := { s with
      pins := { s.pins with mcsLow := false }
      port := { Port.reset with msi := s.port.msi, lastRefusal := s.port.lastRefusal } }
    if s.port.decoder = .receiving ∧ bits ≠ 0 then raiseCommandFault t else t

/-- A configuration operation is in flight (R27). -/
def State.cfgInFlight (s : State) : Bool := decide (s.engine.op ≠ .idle)

/-- The condition of a parameter's class at the take (R167). -/
def State.classMet (s : State) : ParamClass → Bool
  | .any => true
  | .idle => decide (s.ctl.state = .idle) && !s.cfgInFlight
  | .rest => decide (s.ctl.state = .idle) && !s.cfgInFlight && s.ctl.frozen.isNone && s.readout.frame.isNone

end Sys2Proof.Machine
end

