-- ==== Sys2Proof/Machine/Frame.lean ====
section
/-! DEFINITION. The frame's bytes and the delivery of one byte on the frame port (Chapter 6, section 10.4). -/

namespace Sys2Proof.Machine

/-- Bytes of one value of a DATA record: 4 in a sequential mode, 2 in a continuous mode (R119). -/
def Mode.valueLength (m : Mode) : Nat := if m.sequential then 4 else 2

/-- The word of a cell's value, formed from the frozen quantities in the mode of the frozen descriptor (R193). -/
def valueWord (m : Mode) (h : Half) (c : Cell) : Nat :=
  match m with
  | .seqDw12On20 => c.quantity m h .dwell * 2 ^ 20 + c.quantity m h .onset
  | .seqDw16On16 => c.quantity m h .dwell * 2 ^ 16 + c.quantity m h .onset
  | .seqAc32 => c.quantity m h .accesses
  | .conDw12Ep4 => c.quantity m h .dwell * 2 ^ 4 + c.quantity m h .episodes
  | .conDw16 => c.quantity m h .dwell
  | .conOn16 => c.quantity m h .onset
  | .conEp16 => c.quantity m h .episodes
  | .conAc16 => c.quantity m h .accesses

/-- The half that the storage-frozen indication names; a sequential mode uses the whole storage whatever this answers (R103). -/
def State.frozenHalf (s : State) : Half :=
  match s.ctl.frozen with
  | some (.half h) => h
  | _ => .h0

/-- How many cells a bank has (00 section 6). -/
def bankSize (b : Nat) : Nat := if b = Config.auxBank then Config.auxCells else Config.bankCells

/-- The cells of a bank, slot 0 first. -/
def State.bankOf (s : State) (b : Nat) : List Cell := (s.cells.drop (Config.bankCells * b)).take (bankSize b)

/-- The 28 bytes of the header (R120, section 10.4.2). -/
def Frame.headerBytes (f : Frame) : List Byte :=
  [0xC3#8] ++ beBytes 4 f.unit ++ beBytes 4 f.desc.frameNumber
    ++ [BitVec.ofNat 8 (f.desc.mode.code + 8 * f.desc.dwellLaw.code + 16 * boolCode f.desc.onsetWrap + 32 * boolCode f.suppress),
        BitVec.ofNat 8 (f.desc.openCause.code + 4 * f.desc.closeCause.code)]
    ++ beBytes 3 f.desc.windowLength ++ beBytes 2 f.desc.settleLength ++ beBytes 2 f.desc.shed
    ++ beBytes 2 f.desc.released ++ beBytes 2 f.desc.truncated ++ beBytes 2 f.desc.peak
    ++ [BitVec.ofNat 8 (boolCode f.desc.settleCap + 2 * boolCode f.desc.exceeded + 4 * boolCode f.desc.heldBefore
          + 8 * boolCode f.desc.overflow),
        BitVec.ofNat 8 f.desc.testPulses, BitVec.ofNat 8 f.desc.discardedBefore, BitVec.ofNat 8 f.desc.onsets.length]

/-- The 5 bytes of an onset entry (R121, section 10.4.3). -/
def OnsetEntry.bytes (e : OnsetEntry) : List Byte := beBytes 2 e.cell ++ beBytes 3 e.offset

/-- The 3 bytes of a bank record header (R123, section 10.4.3). -/
def Frame.bankHeader (f : Frame) (b : Nat) : List Byte :=
  [BitVec.ofNat 8 b, f.kind.code, BitVec.ofNat 8 (f.desc.bankTruncated.getD b 0)]

/-- The total byte count, fixed at the first trailer byte: the bytes delivered before the trailer, plus 10 (R129).
`k` is the byte of the trailer that is next. -/
def Frame.totalBytes (f : Frame) (k : Nat) : Nat := f.byteCount - k + 10

/-- The 10 bytes of the trailer: end marker, completion, total byte count, CRC-32 (R129, R130, R192). -/
def Frame.trailerBytes (f : Frame) (k : Nat) : List Byte :=
  [0xE7#8, if f.abortTaken then 0x02#8 else 0x01#8] ++ beBytes 4 (f.totalBytes k) ++ beBytes 4 (~~~ f.crc).toNat

/-- The kind of a bank record, decided at its first byte (R122). -/
def bankKind (s : State) (f : Frame) (b : Nat) : BankKind :=
  if f.gated.getLsbD b then .gated
  else if f.suppress && (s.bankOf b).all (fun c => valueWord f.desc.mode s.frozenHalf c == 0) then .zero
  else .data

/-- Bytes of a bank record by its kind (R119). -/
def Frame.recordLength (f : Frame) (b : Nat) : Nat :=
  match f.kind with
  | .data => 3 + bankSize b * f.desc.mode.valueLength
  | _ => 3

/-- Byte `j` of the values of a bank's record: slot order, each word most significant byte first (R123, R193). -/
def valueByte (s : State) (f : Frame) (b j : Nat) : Byte :=
  (beBytes f.desc.mode.valueLength
    (valueWord f.desc.mode s.frozenHalf ((s.bankOf b).getD (j / f.desc.mode.valueLength) Cell.reset))).getD
      (j % f.desc.mode.valueLength) 0

/-- The next byte of the frame (R119 to R124, R129). -/
def nextByte (s : State) (f : Frame) : Byte :=
  match f.position with
  | .header k => f.headerBytes.getD k 0
  | .onsets e k => ((f.desc.onsets[e]?).map fun x => x.bytes.getD k 0).getD 0
  | .bank b k => if k < 3 then (f.bankHeader b).getD k 0 else valueByte s f b (k - 3)
  | .trailer k => (f.trailerBytes k).getD k 0

/-- What follows the byte that is next. -/
inductive Advance
  /-- The frame goes on at a position. -/
  | goOn (p : Position)
  /-- The byte ends a bank's record, which is then emitted (R125), and the frame goes on. -/
  | emit (bank : Nat) (p : Position)
  /-- The byte is the last of the trailer (R131). -/
  | complete
deriving DecidableEq, Repr

/-- Where the frame goes after its onset entries: the first bank record, or the trailer of an aborted frame (R134). -/
def Frame.afterOnsets (f : Frame) : Position := if f.abortTaken then .trailer 0 else .bank 0 0

/-- What follows the byte at the frame's position (R119, R127, R134). -/
def Frame.advance (f : Frame) : Advance :=
  match f.position with
  | .header k =>
    if k + 1 < 28 then .goOn (.header (k + 1))
    else if f.desc.onsets.length = 0 then .goOn f.afterOnsets else .goOn (.onsets 0 0)
  | .onsets e k =>
    if k + 1 < 5 then .goOn (.onsets e (k + 1))
    else if e + 1 < f.desc.onsets.length then .goOn (.onsets (e + 1) 0) else .goOn f.afterOnsets
  | .bank b k =>
    if k + 1 < f.recordLength b then .goOn (.bank b (k + 1))
    else if f.abortTaken || decide (Config.auxBank ≤ b) then .emit b (.trailer 0) else .emit b (.bank (b + 1) 0)
  | .trailer k => if k + 1 < 10 then .goOn (.trailer (k + 1)) else .complete

/-- The frame with the kind of its next bank record decided, where the next byte is the first of a record (R122). -/
def decideKind (s : State) (f : Frame) : Frame :=
  match f.position with
  | .bank b 0 => { f with kind := bankKind s f b }
  | _ => f

/-- Whether the next byte enters the running CRC: every byte but the four CRC bytes of the trailer (R127, R130). -/
def Frame.entersCrc (f : Frame) : Bool :=
  match f.position with
  | .trailer k => decide (k < 6)
  | _ => true

/-- A byte has left: the running CRC and the byte count (R127). -/
def Frame.sent (f : Frame) (b : Byte) : Frame :=
  { f with crc := if f.entersCrc then crc32Byte f.crc b else f.crc, byteCount := f.byteCount + 1 }

/-- The frame at a new position, in hand. -/
def frameTo (f : Frame) (p : Position) (s : State) : State :=
  { s with readout := { s.readout with frame := some { f with position := p } } }

/-- A byte on the frame port: FD, FSTB, and FSOF for the first byte of a frame (R126, R127). -/
def drivePort (f : Frame) (b : Byte) (s : State) : State :=
  { s with pins := { s.pins with fd := b, fstb := true, fsof := decide (f.byteCount = 0) } }

/-- The delivery of one byte of a frame whose next kind is decided (R127). -/
def deliver (f : Frame) (s : State) : State :=
  let b := nextByte s f
  let t := drivePort f b s
  match f.advance with
  | .goOn p => frameTo (f.sent b) p t
  | .emit k p => clearBanks (fun n => decide (n = k)) (frameTo (f.sent b) p t)
  | .complete => readoutComplete t

/-- The frame port in a TBCLK period that has had no delivery: FSTB and FSOF deasserted, FD as it was (R126, R127). -/
def restPort (s : State) : State := { s with pins := { s.pins with fstb := false, fsof := false } }

/-- The banks that an abort clears unsent (R134). -/
def abortClears (p : Position) (b : Nat) : Bool :=
  match p with
  | .header _ | .onsets _ _ => true
  | .bank n 0 => decide (n ≤ b)
  | .bank n _ => decide (n < b)
  | .trailer _ => false

/-- The position after an abort: the trailer at a boundary before a bank, otherwise where it was (R134). -/
def abortPosition (p : Position) : Position :=
  match p with
  | .bank _ 0 => .trailer 0
  | _ => p

/-- ABORT_READOUT's effect on the frame in hand (R134). -/
def abortFrame (f : Frame) (s : State) : State :=
  clearBanks (abortClears f.position) (frameTo { f with abortTaken := true } (abortPosition f.position) s)

end Sys2Proof.Machine
end

