-- ==== Sys2Proof/Machine/Timebase.lean ====
section
/-! DEFINITION. The ticks (Chapter 2) and the passing of one TBCLK period, which is what the part does on an empty queue
(log 3). -/

namespace Sys2Proof.Machine

/-- A divider has produced its tick: its count returns to 0 (R30). -/
def Divider.restart (d : Divider) : Divider := { d with count := 0 }

/-! ## The parts of a tick at the cells -/

/-- When a cell takes its part of a tick, against the other cells and the controller. -/
inductive Phase
  | early
  | middle
  | late
deriving DecidableEq, Repr

/-- The phase that a number names. -/
def Phase.ofDraw (n : Nat) : Phase :=
  match n % 3 with
  | 0 => .early
  | 1 => .middle
  | _ => .late

/-- What a cell takes at a tick, or at a pulse start that comes together with one: the decay tick, the dwell tick, the end of the pulse that
a dwell tick brings, the pulse start (R32, R142, R143). -/
inductive TickPart
  | decay
  | dwell
  | pulseEnd
  | pulseStart
deriving DecidableEq, Repr

/-- The parameter table by which a cell takes a decay tick. Each cell is a reader of its own: where a write comes together with the tick,
it takes each value before or after the write (R3, R6, R8, R170; DESIGN CHOICE, log 23). -/
def State.tableAt (s : State) (i : Nat) : Params :=
  match s.paramsBehind with
  | some q => if Config.freeRead s.free i then q else s.params
  | none => s.params

/-- A part of a tick at a cell (R8, R40, R141, R142, R143). `s` is the state that the tick meets. -/
def State.partAtCell (s : State) (part : TickPart) (i : Nat) (c : Cell) : CellOut :=
  match part with
  | .decay => decayAtCell (s.tableAt i) s.ctl.liveHalf s.pulse i c
  | .dwell => quietly (dwellAtCell s.params s.ctl.liveHalf i c)
  | .pulseEnd => pulseEndAtCell s.params i c
  | .pulseStart => pulseStartAtCell s.params s.ctl.liveHalf i c

/-- The parts that a cell takes, one after the other (R33). -/
def State.partsAtCell (s : State) : List TickPart → Nat → Cell → CellOut
  | [], _, c => quietly c
  | part :: parts, i, c => (s.partAtCell part i c).andThen (s.partsAtCell parts i (s.partAtCell part i c).cell)

/-- Settling is over once the cells have taken these parts: the queue is drained and no cell is counting (R86). -/
def State.overAfter (s : State) (parts : Nat → List TickPart) : Bool :=
  decide (s.ctl.state = .settling) && s.drained
    && { s with cells := mapCells (fun i c => (s.partsAtCell (parts i) i c).cell) 0 s.cells }.quiet

/-- The parts that the cells have taken after some rounds. A round has at most one part for each cell; settling ends at the notice that
leaves no cell counting, so that no round follows one that ends it (R33, R86). -/
def State.takeRounds (s : State) : List (Nat → Option TickPart) → (Nat → List TickPart) → Nat → List TickPart
  | [], parts => parts
  | round :: rounds, parts =>
    let taken (i : Nat) : List TickPart := parts i ++ (round i).toList
    if s.overAfter taken then taken else s.takeRounds rounds taken

/-- A tick at a cell that takes these parts. `late` says that the array comes to rest in the event: the Occupancy Counter may take notices
of a cell after it, where they change nothing (R20; from which on, is a DESIGN CHOICE left free, log 1). -/
def State.tickAtCell (s : State) (parts : Nat → List TickPart) (late : Bool) (i : Nat) (c : Cell) : CellOut :=
  let o := s.partsAtCell (parts i) i c
  if late then { o with notices := o.notices.take (Config.freeLate s.free i) } else o

/-- When a cell takes a part of the tick in hand (R32, R33: no order is given; DESIGN CHOICE left free, logs 1, 24). -/
def State.tickPhase (s : State) (k i : Nat) : Phase := Phase.ofDraw (Config.freePhase (4 * s.free + k) i)

/-- A cell takes the decay tick before the dwell tick of the same phase, or before the pulse start, or after it (R33, R142; DESIGN CHOICE
left free, log 24). -/
def State.decayFirst (s : State) (i : Nat) : Bool := decide (Config.freePhase (4 * s.free + 3) i % 2 = 0)

/-! ## The settle cap and the pulse at a dwell tick -/

/-- The dwell tick that is next makes the settle cap's expiry due (R88). -/
def State.capHit (s : State) : Bool :=
  decide (s.ctl.state = .settling) && !s.capFlag && decide (s.params.settleCap ≤ s.ctl.settleCount + 1)

/-- A dwell tick at the generator: one tick less remains, and with none the pulse ends (R143). -/
def Tpg.tick : Tpg → Tpg
  | .active n => if n ≤ 1 then .idle else .active (n - 1)
  | .idle => .idle

/-- The dwell tick that is next ends the pulse (R143). -/
def Tpg.endsNext : Tpg → Bool
  | .active n => decide (n ≤ 1)
  | .idle => false

/-- A dwell tick at the settle length count: it advances while SETTLING, before the expiry, and not beyond SETTLE_CAP
(R87, R88). -/
def State.settleTicked (s : State) : Nat :=
  if decide (s.ctl.state = .settling) && !s.capFlag && decide (s.ctl.settleCount < s.params.settleCap) then s.ctl.settleCount + 1
  else s.ctl.settleCount

/-- A row brings a dwell tick while OPEN or SETTLING (log 5). -/
def bringsDwell (c : Instr) (s : State) : Bool :=
  s.ticks.dwell.running && s.measuring &&
    match c with
    | .dwellTick => true
    | .pulseEnd => s.tpg.endsNext
    | .settleCapExpiry => s.capHit && !s.capDue
    | _ => false

/-- The row directly behind is a dwell tick that will be delivered: it can reach the cells together with a decay tick (R33). -/
def State.dwellBehind (s : State) : Bool := !s.capDue && s.pending.head?.any fun c => bringsDwell c s

/-- The row directly behind is an INJECT that will be taken: its pulse start can reach the cells together with a decay tick (R140, R142). -/
def State.injectBehind (s : State) : Bool :=
  decide (s.ctl.state = .opened) && decide (s.tpg = .idle) && !s.cfgInFlight && s.canReceive []
    && decide (s.pending.head? = some (.inject []))

/-! ## The decay tick -/

/-- The rounds of a decay tick. Where settling can end at it, some cells take it before the others (R32: in no order; which do is a
DESIGN CHOICE left free, log 1). -/
def decayRounds (s : State) : List (Nat → Option TickPart) :=
  if decide (s.ctl.state = .settling) && s.drained then
    [fun i => if s.tickPhase 2 i = .early then some .decay else none, fun i => if s.tickPhase 2 i = .early then none else some .decay]
  else [fun _ => some .decay]

/-- The parts that the cells take at a decay tick. -/
def decayParts (s : State) : Nat → List TickPart := s.takeRounds (decayRounds s) fun _ => []

/-- The decay divider has produced its tick (R30). -/
def State.decayRestarted (s : State) : State := { s with ticks := { s.ticks with decay := s.ticks.decay.restart } }

/-- A decay tick at the cells (R8, R32). Settling ends at the notice that leaves no cell counting, whichever cells have not yet taken
the tick (R42, R86). -/
def decayDelivered (s : State) : State :=
  let u := onsetEvent (s.tickAtCell (decayParts s) (s.overAfter (decayParts s))) s
  if s.overAfter (decayParts s) then endSettling u else u

/-! ## The dwell tick -/

/-- The cells' order at the next dwell tick can be told: the tick comes while SETTLING, with the end of a pulse, or with a decay tick. -/
def State.tickMixes (s : State) : Bool := decide (s.ctl.state = .settling) || s.tpg.endsNext || s.decayWaits

/-- A part, where a test says so. -/
def TickPart.onlyIf (b : Bool) (part : TickPart) : Option TickPart := if b then some part else none

/-- The rounds of one phase of a dwell tick: the tick, the end of the pulse that it brings, and a decay tick that has waited for it, before
the dwell tick or after it (R33, R143). -/
def dwellRounds (s : State) (ph : Phase) : List (Nat → Option TickPart) :=
  [fun i => TickPart.decay.onlyIf (s.decayWaits && decide (s.tickPhase 2 i = ph) && s.decayFirst i),
   fun i => TickPart.dwell.onlyIf (decide (s.tickPhase 0 i = ph)),
   fun i => TickPart.pulseEnd.onlyIf (s.tpg.endsNext && decide (s.tickPhase 1 i = ph)),
   fun i => TickPart.decay.onlyIf (s.decayWaits && decide (s.tickPhase 2 i = ph) && !s.decayFirst i)]

/-- Settling ends at a dwell tick, normally or by the expiry of the cap where the tick has made it due: either may reach the
controller first (R90; DESIGN CHOICE, log 1). -/
def endAtTick (draw : Nat) (t : State) : State :=
  if t.capDue && !Config.freeEndFirst draw then capExpiry t else endSettling t

/-- What the controller does once a dwell tick has reached the cells that take it before. -/
inductive AfterTick
  /-- Settling goes on. -/
  | goesOn
  /-- Settling ends before the controller counts the tick. -/
  | ends
  /-- Settling ends with the tick counted, so that the cap's expiry may come first. -/
  | endsCounted
  /-- The settle cap expires before the rest of the cells take the tick. -/
  | expires
deriving DecidableEq, Repr

/-- The parts that the cells take at a dwell tick up to where settling ends or the cap expires (R33, R86, R88, R89, R90, R143, R145): some
before the controller counts the tick, some after it, and some after the expiry of the settle cap, where that comes at once. -/
def dwellReached (s : State) : (Nat → List TickPart) × AfterTick :=
  if s.tickMixes then
    let a := s.takeRounds (dwellRounds s .early) fun _ => []
    if s.overAfter a then (a, .ends)
    else
      let b := s.takeRounds (dwellRounds s .middle) a
      if s.overAfter b then (b, .endsCounted)
      else if s.capHit && s.engine.applying.isNone && Config.freeCapFirst s.free then (b, .expires)
      else
        let c := s.takeRounds (dwellRounds s .late) b
        (c, if s.overAfter c then .endsCounted else .goesOn)
  else (fun _ => [.dwell], .goesOn)

/-- What a dwell tick does at a cell. -/
def dwellTakenAt (s : State) : Nat → Cell → CellOut :=
  s.tickAtCell (dwellReached s).1 (decide ((dwellReached s).2 ≠ .goesOn))

/-- A dwell tick at the cells, the generator and the settle length count, up to where settling ends or the cap expires. -/
def dwellTaken (s : State) : State :=
  onsetEvent (dwellTakenAt s)
    { s with
      tpg := s.tpg.tick
      ctl := { s.ctl with settleCount := if (dwellReached s).2 = .ends then s.ctl.settleCount else s.settleTicked }
      decayWaits := false }

/-- A dwell tick reaches the cells, the generator and the settle cap (R32), and with it a decay tick that has waited for it. Settling ends
at the notice that leaves no cell counting, so that the settle length may be one less than the dwell ticks produced (R90; a DESIGN CHOICE
left free, log 1). -/
def dwellDelivered (s : State) : State :=
  match (dwellReached s).2 with
  | .goesOn => dwellTaken s
  | .ends => endSettling (dwellTaken s)
  | .endsCounted => endAtTick s.free (dwellTaken s)
  | .expires => capExpiry (dwellTaken s)

/-- The dwell divider has produced its tick (R30). -/
def State.dwellRestarted (s : State) : State := { s with ticks := { s.ticks with dwell := s.ticks.dwell.restart } }

/-- A dwell tick, if the divider runs: it is delivered while OPEN or SETTLING (R32, R40, R87). An expiry of the settle cap that an
earlier tick made due is taken before it (R88, log 5). -/
def dwellTick (s : State) : State :=
  if s.ticks.dwell.running then
    let t := s.dwellRestarted
    if !s.measuring then t
    else if s.capDue then
      let u := capExpiry t
      if u.ctl.state = .settling then dwellDelivered u else u
    else dwellDelivered t
  else s

/-! ## The onset tick and the window timer -/

/-- The window timer has reached its length: OPEN under TIMER with the window length count at WIN_LEN (R78). -/
def State.timerAtLength (s : State) : Bool :=
  decide (s.ctl.state = .opened) && decide (s.params.winSrc = .timer) && decide (s.params.winLen ≤ s.ctl.windowCount)

/-- An onset tick at the cells and at the window length count (R44, R82). A cell that took the tick before its first onset has it behind
it, and the reports that waited for the tick are taken after it, at the larger count (R98, log 22). -/
def onsetDelivered (s : State) : State :=
  s.crossing.reports.foldl takeReport
    { s with
      cells := mapCells (fun i c => if s.crossing.ticked.contains i then c else onsetAtCell s.params s.ctl.liveHalf i c) 0 s.cells
      ctl := { s.ctl with windowCount := min 16777215 (s.ctl.windowCount + 1) }
      crossing := .reset }

/-- A row that ends otherwise in SETTLING than before the close or in the next window of a cycle: a CLOSE_WINDOW stops the cycle (R101), an
INJECT is refused (R140), a handshake is not classified (R52). -/
def findsSettling : Instr → Bool
  | .closeWindow [] | .inject [] | .handshakePresented _ _ => true
  | _ => false

/-- The expiry of the window timer closes the window (R78). A row directly behind can come together with the expiry and be taken after the
close: where a cycle is in progress it then finds SETTLING, although settling is over at the close and the cycle reopens (R52, R78, R101,
R140; DESIGN CHOICE, log 21: whether the end of settling waits for it is free). Such a row considers the end of settling itself. -/
def closeAtLength (s : State) : State :=
  if s.ctl.cycleOn && s.pending.head?.any findsSettling && Config.freeTaken s.free 6 then shutWindow .timer s
  else closeWindowAs .timer s

/-- The onset divider has produced its tick (R30). -/
def State.onsetRestarted (s : State) : State := { s with ticks := { s.ticks with onset := s.ticks.onset.restart } }

/-- An onset tick, if the divider runs: it is delivered while OPEN (R32), and the one that brings the window length count to
WIN_LEN under TIMER closes the window (R78). -/
def onsetTick (s : State) : State :=
  if s.ticks.onset.running then
    let t := s.onsetRestarted
    if s.ctl.state = .opened then
      let u := onsetDelivered t
      if u.timerAtLength then closeAtLength u else u
    else t
  else s

/-! ## A decay tick and the row directly behind it (R33) -/

/-- A row, at the state that it meets, brings the array to rest: a close that ends settling at once, the last application, the last line,
an expiry of the settle cap that waits. -/
def restsAt (c : Instr) (s : State) : Bool :=
  match c with
  | .closeWindow [] =>
    s.canReceive [] && decide (s.params.winSrc ≠ .line) && decide (s.ctl.state = .opened)
      && (shutWindow .command (if s.ctl.cycleOn then stopCycle s else s)).mayEnd
  | .winNRisingEdge =>
    !s.pins.rstLow && decide (s.params.winSrc = .line) && decide (s.ctl.state = .opened)
      && (shutWindow .line { s with pins := { s.pins with winLow := false } }).mayEnd
  | .onsetTick | .windowTimerExpiry =>
    let t := onsetDelivered s.onsetRestarted
    s.ticks.onset.running && s.timerNext && t.timerAtLength && !(t.ctl.cycleOn && t.pending.head?.any findsSettling)
      && (shutWindow .timer t).mayEnd
  | .recordApplied =>
    match s.engine.applying with
    | some r =>
      decide (s.ctl.state = .settling)
        && (s.capFlag || (applyRecord r { s with engine := { s.engine with applying := none } }).mayEnd)
    | none => false
  | .auxDeasserted n => decide (s.ctl.state = .settling) && (auxEvent n (lineDownAtCell s.params) (setLine n false s)).mayEnd
  | .settleCapExpiry => s.capDue && s.engine.applying.isNone
  | .dwellTick => s.ticks.dwell.running && s.capDue && s.engine.applying.isNone
  | _ => false

/-- The row directly behind brings the array to rest. -/
def State.restBehind (s : State) : Bool :=
  match s.pending with
  | c :: rest => restsAt c { s with pending := rest }
  | [] => false

/-- The parts of a decay tick that some of the cells take before the rest that comes together with it. -/
def partlyParts (s : State) (i : Nat) : List TickPart := if s.tickPhase 2 i = .early then [.decay] else []

/-- A decay tick at some of the cells. -/
def decayPartly (s : State) : State := onsetEvent (s.tickAtCell (partlyParts s) false) s

/-- The decay tick that is next comes together with the dwell tick or the pulse start of the row directly behind, and waits for it (R33,
R142; DESIGN CHOICE, log 24: whether they come together is free). -/
def State.decayJoins (s : State) : Bool := (s.dwellBehind || s.injectBehind) && Config.freeTaken s.free 9

/-- The decay tick that is next comes together with the rest that the row directly behind brings: the cells to which the rest comes first
do not take it (R19, R32, R33; DESIGN CHOICE, log 24: whether they come together is free). -/
def State.decayCut (s : State) : Bool :=
  !s.pending.isEmpty && Config.freeTaken s.free 10 && !s.decayRestarted.overAfter (partlyParts s.decayRestarted)
    && (decayPartly s.decayRestarted).restBehind

/-- A decay tick, if the divider runs: every cell while OPEN or SETTLING (R8, R30, R32), together with the row directly behind as
`State.decayJoins` and `State.decayCut` say. -/
def decayTick (s : State) : State :=
  if s.ticks.decay.running then
    let t := s.decayRestarted
    if !s.measuring then t
    else if s.decayJoins then { t with decayWaits := true }
    else if s.decayCut then decayPartly t
    else decayDelivered t
  else s

/-! ## One TBCLK period (log 3) -/

/-- What a TBCLK period can bring about. -/
inductive Due
  | decay
  | dwell
  | onset
  | hold (ch : Channel)
deriving DecidableEq, Repr

/-- A divider reaches its period with the TBCLK period that comes next (R30). -/
def Divider.dueNext (d : Divider) (period : Nat) : Bool := d.running && decide (period ≤ d.count + 1)

/-- Whether the next TBCLK period brings an event: a divider reaches its period (R30), a hold timer its limit (R67). -/
def isDue (s : State) : Due → Bool
  | .decay => s.ticks.decay.dueNext s.params.decayDiv
  | .dwell => s.ticks.dwell.dueNext s.params.dwellDiv
  | .onset => s.ticks.onset.dueNext s.params.onsetDiv
  | .hold ch => (s.hold ch).any fun h => decide (h.limit ≤ h.timer + 1)

/-- The row of an event of a TBCLK period. -/
def Due.row : Due → Instr
  | .decay => .decayTick
  | .dwell => .dwellTick
  | .onset => .onsetTick
  | .hold ch => .holdTimerExpiry ch

/-- An event of the timebase happens. -/
def happen (d : Due) (s : State) : State :=
  match d with
  | .decay => decayTick s
  | .dwell => dwellTick s
  | .onset => onsetTick s
  | .hold ch => expireHold ch s

/-- An event of the period happens if it still can: its divider or hold has not been stopped by another event of the period, and
no window has opened since, which would have started the dividers anew (R31). `n` is the next frame number as the period began. -/
def happenIn (n : Nat) (s : State) (d : Due) : State := if s.ctl.nextFrame = n && isDue s d then happen d s else s

/-- The events of a period happen one after the other, each with the rest of them as the rows directly behind it: so two ticks of one
period can come together at the cells as two rows can (R33, R98, logs 22, 24). No request comes together with them (log 3). -/
def happenAll (n : Nat) : List Due → State → State
  | [], s => s
  | d :: l, s => happenAll n l (happenIn n { s with pending := l.map Due.row } d)

/-- A RUNNING divider counts one TBCLK period; the count that would reach the period stays one below it until the tick returns
it to 0 (R29, R30). -/
def Divider.count1 (d : Divider) (period : Nat) : Divider :=
  if d.running && decide (d.count + 1 < period) then { d with count := d.count + 1 } else d

/-- A hold timer counts one TBCLK period, up to one below its limit (R67). -/
def Hold.count1 (h : Hold) : Hold := if h.timer + 1 < h.limit then { h with timer := h.timer + 1 } else h

/-- One TBCLK period passes for the counts, and in the period that begins the frame port has not delivered a byte (R30, R67, R127). -/
def countPeriod (s : State) : State :=
  { restPort s with
    ticks := {
      decay := s.ticks.decay.count1 s.params.decayDiv
      dwell := s.ticks.dwell.count1 s.params.dwellDiv
      onset := s.ticks.onset.count1 s.params.onsetDiv }
    path := { s.path with rd := s.path.rd.map Hold.count1, wr := s.path.wr.map Hold.count1 } }

/-- The events that the next TBCLK period brings. -/
def dueNext (s : State) : List Due := [Due.decay, .dwell, .onset, .hold .read, .hold .write].filter (isDue s)

/-- One TBCLK period: the counts advance, the events that fall due happen in any order, the ticks among them in an order of its own at each
cell (R33), and then a settle cap's expiry that they made due. The rows that wait are no part of it. -/
def tbclkPeriod (s : State) : State :=
  match dueNext s with
  | [] => countPeriod s
  | d :: l =>
    let u := happenAll s.ctl.nextFrame (anyOrder (2 * s.free) (d :: l)) { countPeriod s with free := s.free + 1 }
    { capExpiry { u with pending := [] } with pending := s.pending }

/-- What the part does on an empty queue: an expiry of the settle cap that an earlier tick made due happens; otherwise one TBCLK
period passes (log 3, DESIGN CHOICE). -/
def idlePeriod (s : State) : State := if s.capDue then capExpiry s else tbclkPeriod s

/-! ## The delivery of a byte (R126, R127) -/

/-- The TBCLK period in which the next byte can be delivered. At most one byte is delivered in a period (R127), and FSTB tells whether the
one that is current has had its own (R126): then it passes first, with all that it brings (R30, R67; DESIGN CHOICE, log 3: a sender that
lets it pass sooner does so by an empty queue). The rows that wait come after the delivery, and together with nothing of the period. -/
def periodOfDelivery (s : State) : State :=
  if s.pins.fstb then { tbclkPeriod (capExpiry { s with pending := [] }) with pending := s.pending } else s

/-- FRDY is seen asserted: a delivery while SENDING; in R_IDLE FRDY has no effect (R126, R127). -/
def deliverByte (s : State) : State :=
  let u := periodOfDelivery s
  match u.readout.frame with
  | none => u
  | some f => deliver (decideKind u f) u

end Sys2Proof.Machine
end

