-- ==== Sys2Proof/Machine/Capture.lean ====
section
/-! DEFINITION. Observation capture: the tap's classification, SET_FILTER and GET_FILTER, and the meanings of the capture
rows of the table (Chapter 3). -/

namespace Sys2Proof.Machine

/-! ## Classification (R53 to R59) -/

/-- DIR_SEL selects the channel (R53 step 1). -/
def DirSel.selects : DirSel → Channel → Bool
  | .reads, .read => true
  | .writes, .write => true
  | .both, _ => true
  | _, _ => false

/-- The start address lies in the mapped window (R54). -/
def inWindow (p : Params) (a : Nat) : Bool := decide (p.mapBase ≤ a) && decide (a < p.mapBase + span p.mapGranule)

/-- The cell index of an address of the mapped window (R54). -/
def cellIndex (p : Params) (a : Nat) : Nat := (a - p.mapBase) / 2 ^ p.mapGranule

/-- An entry's direction takes the handshake's (R58). -/
def Direction.takes : Direction → Channel → Bool
  | .any, _ => true
  | .read, .read => true
  | .write, .write => true
  | _, _ => false

/-- An entry matches a handshake (R58). -/
def FilterEntry.matchesHandshake (e : FilterEntry) (ch : Channel) (id : BitVec 12) : Bool :=
  e.valid && decide (id.toNat &&& e.idMask = e.idValue &&& e.idMask) && e.direction.takes ch

/-- One decision of an entry: its hit count gains 1 and wraps (R59). -/
def FilterEntry.hit (e : FilterEntry) : FilterEntry := { e with hits := (e.hits + 1) % 2 ^ 32 }

/-- What the Source Filter Table answers: the table after the decision, the decision and its weight shift. -/
structure Decision where
  table : List FilterEntry
  action : Action
  shift : Nat
deriving DecidableEq, Repr

/-- The table decides: the first entry that matches, else the default action with shift 0 (R58, R59). -/
def filterDecide (dflt : Action) (ch : Channel) (id : BitVec 12) : List FilterEntry → Decision
  | [] => { table := [], action := dflt, shift := 0 }
  | e :: es =>
    if e.matchesHandshake ch id then { table := e.hit :: es, action := e.action, shift := e.shift }
    else { filterDecide dflt ch id es with table := e :: (filterDecide dflt ch id es).table }

/-- The base of a weight (R55). -/
def weightBase (law : WeightLaw) (beats : Nat) : Nat :=
  match law with
  | .linear => beats
  | .compressed => 1 + beats.log2

/-- Steps 1 and 2 of R53: the handshake reaches the filter. -/
def reachesFilter (p : Params) (ch : Channel) (hs : Handshake) : Bool :=
  p.dirSel.selects ch && inWindow p hs.addr.toNat

/-- Steps 5 and 6 of R53: the cell's bank is not gated, and the cell is not deep-masked by the mirror. -/
def passesCell (p : Params) (mirror : List Bool) (i : Nat) : Bool :=
  !gated p i && (!p.deepMask || !(mirror.getD i false))

/-- The record of an observation (R55, R56). -/
def recordOf (p : Params) (d : Decision) (hs : Handshake) : Record where
  cell := cellIndex p hs.addr.toNat
  weight := weightBase p.weightLaw hs.beats * 2 ^ d.shift

/-- The classification of a handshake presented while OPEN: the state with the hit count of the deciding entry, and the
record if the handshake is an observation (R53). -/
def classify (ch : Channel) (hs : Handshake) (s : State) : State × Option Record :=
  if reachesFilter s.params ch hs then
    let d := filterDecide s.params.defaultAction ch hs.id s.filter
    let t := { s with filter := d.table }
    if decide (d.action = .count) && passesCell s.params s.engine.mirror (cellIndex s.params hs.addr.toNat) then
      (t, some (recordOf s.params d hs))
    else (t, none)
  else (s, none)

/-- A presentation on one channel: an observation asks for a slot (the answer), every other handshake passes its open
gate. A handshake still held is not presented again (R50, R52). -/
def presentOn (ch : Channel) (o : Option Handshake) (s : State) : State × Option (Record × Handshake) :=
  match o with
  | none => (s, none)
  | some hs =>
    if (s.hold ch).isSome then (s, none)
    else if s.ctl.state = .opened then
      match classify ch hs s with
      | (t, some r) => (t, some (r, hs))
      | (t, none) => (passHandshake ch hs t, none)
    else (passHandshake ch hs s, none)

/-- A channel's request, if it has one, reaches the arbiter (R65). -/
def requestIf (ch : Channel) (q : Option (Record × Handshake)) (s : State) : State :=
  match q with
  | none => s
  | some (r, hs) => request ch r hs s

/-- The requests of one event reach the arbiter, the preferred channel's first (R65). -/
def arbitrate (rd wr : Option (Record × Handshake)) (s : State) : State :=
  match s.queue.history with
  | .write => requestIf .write wr (requestIf .read rd s)
  | .read => requestIf .read rd (requestIf .write wr s)

/-! ## Meanings -/

/-- SET_FILTER's checks and effect (R60). -/
def answerSetFilter (args : List Byte) (s : State) : Answer :=
  match args with
  | [i, e, v1, v0, m1, m0] =>
    if 7 < i.toNat then .error .badArg
    else
      match FilterEntry.decode e (beNat [v1, v0]) (beNat [m1, m0]) with
      | none => .error .badArg
      | some entry =>
        if s.ctl.state = .idle ∧ s.cfgInFlight = false then .ok ({ s with filter := s.filter.set i.toNat entry }, [])
        else .error .wrongState
  | _ => .error .badLength

/-- GET_FILTER's checks and response (R61). -/
def answerGetFilter (args : List Byte) (s : State) : Answer :=
  match args with
  | [i] =>
    if 7 < i.toNat then .error .badArg
    else
      let e := s.filter.getD i.toNat FilterEntry.reset
      .ok (s, e.entryByte :: (beBytes 2 e.idValue ++ beBytes 2 e.idMask ++ beBytes 4 e.hits))
  | _ => .error .badLength

/-- SET_FILTER (R60). -/
def execSetFilter (args : List Byte) (s : State) : Result := .next (takeCommand 0x18 args (answerSetFilter args) s)

/-- GET_FILTER (R61). -/
def execGetFilter (args : List Byte) (s : State) : Result := .next (takeCommand 0x19 args (answerGetFilter args) s)

/-- HANDSHAKE_PRESENTED: classification of each, then the arbiter (R52, R53, R65). After a close that it came together with, the end of
settling that waited for it is considered (R69, `closeAtLength`, log 21). -/
def execHandshakePresented (rd wr : Option Handshake) (s : State) : Result :=
  let a := presentOn .read rd s
  let b := presentOn .write wr a.1
  .next (considerEnd (arbitrate a.2 b.2 b.1))

/-- HOLD_TIMER_EXPIRY: a hold in force on the channel ends with a release (R68). -/
def execHoldTimerExpiry (ch : Channel) (s : State) : Result := .next (expireHold ch s)

/-- ARESET_N_ASSERTED: every held handshake is withdrawn and released (R51). -/
def execAresetNAsserted (s : State) : Result := .next (withdrawHold .write (withdrawHold .read s))

/-- RECORD_TAKE: while OPEN or SETTLING and with the previous application done, the Cell Engine takes the head record,
and the freed slot is offered (R63, R65). -/
def execRecordTake (s : State) : Result :=
  match s.queue.records with
  | [] => .next s
  | r :: rs =>
    if s.measuring && s.engine.applying.isNone then
      .next (offerSlot { s with queue := { s.queue with records := rs }, engine := { s.engine with applying := some r } })
    else .next s

/-- RECORD_APPLIED: the application completes; after an expiry of the settle cap the counting cells are truncated and
settling ends, otherwise the end of settling is considered (R7, R86, R88). -/
def execRecordApplied (s : State) : Result :=
  match s.engine.applying with
  | none => .next s
  | some r =>
    let t := applyRecord r { s with engine := { s.engine with applying := none } }
    if s.ctl.state = .settling ∧ s.capFlag = true then .next (endSettling (truncateCounting t))
    else .next (considerEnd t)

end Sys2Proof.Machine
end

