-- ==== Sys2Proof/Machine/Array.lean ====
section
/-! DEFINITION. The array's rows: the configuration commands and their steps, the ticks, the aux lines (Chapters 1, 2). -/

namespace Sys2Proof.Machine

/-! ## Configuration operations (R22 to R28) -/

/-- LOAD_BANK's checks and effect (R23). -/
def answerLoadBank (args : List Byte) (s : State) : Answer :=
  match args with
  | [] => .error .badLength
  | b :: bytes =>
    if Config.auxBank < b.toNat then .error .badArg
    else if bytes.length ≠ bankSize b.toNat then .error .badLength
    else if bytes.any (fun x => (CellConfig.decode x).isNone) then .error .badArg
    else if s.cfgInFlight then .error .busy
    else if s.ctl.state ≠ .idle then .error .wrongState
    else
      .ok ({ s with engine := { s.engine with
              op := .loading b.toNat 0 bytes, result := { s.engine.result with valid := false } } }, [])

/-- READ_BANK's checks and effect (R25). -/
def answerReadBank (args : List Byte) (s : State) : Answer :=
  match args with
  | [b] =>
    if Config.auxBank < b.toNat then .error .badArg
    else if s.cfgInFlight then .error .busy
    else if s.ctl.state ≠ .idle then .error .wrongState
    else
      .ok ({ s with engine := { s.engine with
              op := .reading b.toNat 0, result := { bank := b.toNat, entries := [], valid := false } } }, [])
  | _ => .error .badLength

/-- FETCH_RESULT's checks and response (R26). -/
def answerFetchResult (args : List Byte) (s : State) : Answer :=
  match args with
  | [] =>
    match s.engine.op with
    | .reading _ _ => .error .busy
    | .loading _ _ _ => .error .wrongState
    | .idle =>
      if s.engine.result.valid then
        .ok (s, BitVec.ofNat 8 s.engine.result.bank :: s.engine.result.entries.map CellConfig.encode)
      else .error .wrongState
  | _ => .error .badLength

/-- LOAD_BANK (R23). -/
def execLoadBank (args : List Byte) (s : State) : Result := .next (takeCommand 0x20 args (answerLoadBank args) s)

/-- READ_BANK (R25). -/
def execReadBank (args : List Byte) (s : State) : Result := .next (takeCommand 0x21 args (answerReadBank args) s)

/-- FETCH_RESULT (R26). -/
def execFetchResult (args : List Byte) (s : State) : Result := .next (takeCommand 0x22 args (answerFetchResult args) s)

/-- The cell of a slot of a bank. -/
def slotIndex (bank slot : Nat) : Nat := Config.bankCells * bank + slot

/-- LOAD_STEP: the cell of the next slot takes its config and, for an array cell, the mirror its mask; after the last slot
the operation completes (R24). -/
def execLoadStep (s : State) : Result :=
  match s.engine.op with
  | .loading b k bytes =>
    match (bytes[k]?).bind CellConfig.decode with
    | none => .next s
    | some g =>
      .next { s with
        cells := s.cells.modify (slotIndex b k) fun c => c.configure g
        engine := { s.engine with
          op := if k + 1 < bankSize b then .loading b (k + 1) bytes else .idle
          mirror := if slotIndex b k < Config.arrayCells then s.engine.mirror.set (slotIndex b k) g.mask else s.engine.mirror } }
  | _ => .next s

/-- READ_STEP: the entry of the next slot takes the mask, the test and the reported trim of its cell; after the last slot
the result buffer becomes valid (R25). -/
def execReadStep (s : State) : Result :=
  match s.engine.op with
  | .reading b k =>
    .next { s with engine := { s.engine with
      op := if k + 1 < bankSize b then .reading b (k + 1) else .idle
      result := { s.engine.result with
        entries := s.engine.result.entries ++ [(s.cells.getD (slotIndex b k) Cell.reset).reported s.params]
        valid := decide (¬ k + 1 < bankSize b) } } }
  | _ => .next s

/-! ## Ticks -/

/-- DECAY_TICK (R8, R30, R32). A SET_PARAM directly behind can come together with it (R170, log 23), and a dwell tick directly behind
(R33, log 24). -/
def execDecayTick (s : State) : Result := .next (decayTick s)

/-- DWELL_TICK (R32, R40, R87, R143). -/
def execDwellTick (s : State) : Result := .next (dwellTick s)

/-- ONSET_TICK (R32, R44, R82). -/
def execOnsetTick (s : State) : Result := .next (onsetTick s)

/-! ## Aux lines -/

/-- AUX_ASSERTED: the level is kept for the next open; while OPEN the aux cell turns HOT (R17, R18). While RST_N is asserted
no edge is taken (R175), and the controller is IDLE. -/
def execAuxAsserted (n : Fin 4) (s : State) : Result :=
  let t := setLine n true s
  if s.ctl.state = .opened then .next (auxEvent n (lineUpAtCell s.params s.ctl.liveHalf) t) else .next t

/-- AUX_DEASSERTED: while OPEN or SETTLING the aux cell turns COLD, and the end of settling is considered (R17, R18, R86). -/
def execAuxDeasserted (n : Fin 4) (s : State) : Result :=
  let t := setLine n false s
  if s.measuring then .next (considerEnd (auxEvent n (lineDownAtCell s.params) t)) else .next t

end Sys2Proof.Machine
end

