-- ==== Sys2Proof/Machine/Window.lean ====
section
/-! DEFINITION. The window's rows: OPEN_WINDOW, CLOSE_WINDOW, the window line, the window timer, the settle cap
(Chapter 4). -/

namespace Sys2Proof.Machine

/-- The cycle that an OPEN_WINDOW begins under TIMER with CYCLE ON (R99). -/
def startCycle (s : State) : State :=
  if s.params.winSrc = .timer ∧ s.params.cycle = true then
    { s with ctl := { s.ctl with cycleOn := true, cyclesLeft := s.params.cycleCount } }
  else s

/-- OPEN_WINDOW's checks and effect (R76, R99). -/
def answerOpenWindow (args : List Byte) (s : State) : Answer :=
  if args ≠ [] then .error .badLength
  else if s.cfgInFlight then .error .busy
  else if s.params.winSrc = .line then .error .wrongState
  else if s.ctl.state ≠ .idle then .error .wrongState
  else .ok (openWindowAs .command (startCycle s), [])

/-- CLOSE_WINDOW by the controller's state (R77, R101). A cycle is stopped before the close, so that it does not reopen. In SETTLING
the end of settling is considered after it, for a close that the request came together with (`closeAtLength`). -/
def closeByState (s : State) : Answer :=
  match s.ctl.state with
  | .opened => .ok (closeWindowAs .command (if s.ctl.cycleOn then stopCycle s else s), [])
  | .settling | .held => if s.ctl.cycleOn then .ok (considerEnd (stopCycle s), []) else .error .wrongState
  | .idle => .error .wrongState

/-- CLOSE_WINDOW's checks and effect (R77). -/
def answerCloseWindow (args : List Byte) (s : State) : Answer :=
  if args ≠ [] then .error .badLength
  else if s.params.winSrc = .line then .error .wrongState
  else closeByState s

/-- OPEN_WINDOW (R76). -/
def execOpenWindow (args : List Byte) (s : State) : Result := .next (takeCommand 0x30 args (answerOpenWindow args) s)

/-- CLOSE_WINDOW (R77). The onset tick that expires the window timer closes the window itself, so a request meets the window
before that tick or after the close (R78). Where no request comes (log 6), the end of settling that waited for one is considered. -/
def execCloseWindow (args : List Byte) (s : State) : Result :=
  .next (if s.canReceive args then takeCommand 0x31 args (answerCloseWindow args) s else considerEnd s)

/-- WIN_N_FALLING_EDGE: under LINE an open request, honoured from IDLE with no configuration operation in flight,
otherwise a missed open; no edge is taken under another source or while RST_N is asserted (R73, R74). -/
def execWinNFallingEdge (s : State) : Result :=
  let t := { s with pins := { s.pins with winLow := true } }
  if s.pins.rstLow = false ∧ s.params.winSrc = .line then
    if s.ctl.state = .idle ∧ s.cfgInFlight = false then .next (openWindowAs .line t) else .next (missedOpen t)
  else .next t

/-- WIN_N_RISING_EDGE: under LINE it closes an OPEN window and is otherwise ignored (R73, R75). -/
def execWinNRisingEdge (s : State) : Result :=
  let t := { s with pins := { s.pins with winLow := false } }
  if s.pins.rstLow = false ∧ s.params.winSrc = .line ∧ s.ctl.state = .opened then .next (closeWindowAs .line t) else .next t

/-- WINDOW_TIMER_EXPIRY (R78): the onset tick that brings the window length count to WIN_LEN (log 5). -/
def execWindowTimerExpiry (s : State) : Result := .next (if s.timerNext then onsetTick s else s)

/-- SETTLE_CAP_EXPIRY (R88): the expiry that a dwell tick has made due, or the dwell tick that makes it due and the expiry
(log 5). -/
def execSettleCapExpiry (s : State) : Result := .next (capExpiry (if s.capHit && !s.capDue then dwellTick s else s))

end Sys2Proof.Machine
end

