-- ==== Sys2Proof/Machine/TestPulse.lean ====
section
/-! DEFINITION. The rows of test injection and probing: INJECT, PULSE_END, PROBE_CELL (Chapter 7). -/

namespace Sys2Proof.Machine

/-- The parts that a cell takes at a pulse start: the start, and a decay tick that has waited for it, before or after (R142). -/
def startParts (s : State) (i : Nat) : List TickPart :=
  if !s.decayWaits then [.pulseStart] else if s.decayFirst i then [.decay, .pulseStart] else [.pulseStart, .decay]

/-- The state that the cells go by at a pulse start. No write comes together with it, since the port takes one request at a time. -/
def State.atPulseStart (s : State) : State := { s with pending := [], tpg := .active s.params.tpLen }

/-- A pulse starts (R140, R141, R142). -/
def startPulse (s : State) : State :=
  onsetEvent (s.atPulseStart.tickAtCell (startParts s) false)
    (onDesc (fun d => { d with testPulses := min 255 (d.testPulses + 1) }) { s with tpg := .active s.params.tpLen, decayWaits := false })

/-- INJECT's checks and effect (R140). -/
def answerInject (args : List Byte) (s : State) : Answer :=
  if args ≠ [] then .error .badLength
  else if s.cfgInFlight then .error .busy
  else if s.ctl.state ≠ .opened then .error .wrongState
  else if s.tpg ≠ .idle then .error .busy
  else .ok (startPulse s, [])

/-- INJECT (R140). One that is refused in SETTLING may have come together with the close (R78): the end of settling that waited for it is
considered, as it is where no request comes (`closeAtLength`, logs 6, 21). -/
def execInject (args : List Byte) (s : State) : Result :=
  let t := takeCommand 0x38 args (answerInject args) s
  .next (if args = [] then considerEnd t else t)

/-- PULSE_END (R143): the dwell tick that brings the remaining ticks to 0 (log 5). -/
def execPulseEnd (s : State) : Result := .next (if s.tpg.endsNext then dwellTick s else s)

/-- The quantities that a mode keeps, in the order of section 10.3.2. -/
def Mode.kept (m : Mode) : List Quantity := [Quantity.dwell, .onset, .episodes, .accesses].filter m.keeps

/-- A live quantity of a cell (R151). -/
def State.liveQuantity (s : State) (c : Cell) (q : Quantity) : Nat :=
  if s.params.mode.sequential && s.ctl.frozen.isSome then 0 else c.quantity s.params.mode s.ctl.liveHalf q

/-- A frozen quantity of a cell (R151). -/
def State.frozenQuantity (s : State) (c : Cell) (q : Quantity) : Nat :=
  if s.ctl.frozen.isNone then 0 else c.quantity s.params.mode s.frozenHalf q

/-- The probe record of a cell (R150, section 10.3.2). -/
def probeRecord (s : State) (i : Nat) : List Byte :=
  let c := s.cells.getD i Cell.reset
  beBytes 2 i ++ [BitVec.ofInt 8 c.trim, (c.reported s.params).encode]
    ++ beBytes 2 (if i < Config.arrayCells then c.level else 0)
    ++ [BitVec.ofNat 8 ((if c.activity = .hot then 1 else 0) + 2 * boolCode c.onsetSeen + 4 * boolCode c.firstDone
          + 8 * boolCode c.truncated),
        BitVec.ofNat 8 s.params.mode.code]
    ++ (s.params.mode.kept.map (fun q => beBytes 4 (s.liveQuantity c q))).flatten
    ++ (s.params.mode.kept.map (fun q => beBytes 4 (s.frozenQuantity c q))).flatten

/-- PROBE_CELL's checks and response (R149, R150). -/
def answerProbeCell (args : List Byte) (s : State) : Answer :=
  if args.length ≠ 2 then .error .badLength
  else if Config.allCells ≤ beNat args then .error .badArg
  else .ok (s, probeRecord s (beNat args))

/-- PROBE_CELL (R149). -/
def execProbeCell (args : List Byte) (s : State) : Result := .next (takeCommand 0x28 args (answerProbeCell args) s)

end Sys2Proof.Machine
end

