-- ==== Sys2Proof/Machine/Together.lean ====
section
/-! DEFINITION. An event that reaches the part together with a GET_STATUS (R186, log 21): it stands directly behind the request in the
queue, and each field is read at its owner before the owner's part of the event, amid the notices of it, or after it; no reading finds
an effect whose sender is found before its own part. -/

namespace Sys2Proof.Machine

/-- The state after a result that has one. -/
def Result.next? (r : Result) : Option State :=
  match r with
  | .next t => some t
  | _ => none

/-- The effect of an event row; none for the rows of the management port, which takes one request at a time, and of RST_N, and for the
delivery of a byte where the TBCLK period has had one: it comes in the next (R127). -/
def eventEffect (c : Instr) (s : State) : Option State :=
  match c with
  | .aresetNAsserted => Result.next? (execAresetNAsserted s)
  | .handshakePresented rd wr => Result.next? (execHandshakePresented rd wr s)
  | .holdTimerExpiry ch => Result.next? (execHoldTimerExpiry ch s)
  | .recordTake => Result.next? (execRecordTake s)
  | .recordApplied => Result.next? (execRecordApplied s)
  | .decayTick => Result.next? (execDecayTick s)
  | .dwellTick => Result.next? (execDwellTick s)
  | .onsetTick => Result.next? (execOnsetTick s)
  | .windowTimerExpiry => Result.next? (execWindowTimerExpiry s)
  | .settleCapExpiry => Result.next? (execSettleCapExpiry s)
  | .pulseEnd => Result.next? (execPulseEnd s)
  | .winNFallingEdge => Result.next? (execWinNFallingEdge s)
  | .winNRisingEdge => Result.next? (execWinNRisingEdge s)
  | .auxAsserted line => Result.next? (execAuxAsserted line s)
  | .auxDeasserted line => Result.next? (execAuxDeasserted line s)
  | .frameByteDelivery => if s.pins.fstb then none else some (deliverByte s)
  | .loadStep => Result.next? (execLoadStep s)
  | .readStep => Result.next? (execReadStep s)
  | .nop _ | .getStatus _ | .setParam _ | .getParam _ | .setFilter _ | .getFilter _ | .loadBank _ | .readBank _ | .fetchResult _
  | .probeCell _ | .openWindow _ | .closeWindow _ | .inject _ | .abortReadout _ | .clearAttention _ | .softReset _
  | .unknownCommand _ _ | .badCheckRequest _ _ _ | .transactionStart | .truncatedRequest _ | .responseAbandoned | .transactionEnd
  | .rstNAsserted | .rstNDeasserted | .responseSent => none

/-- The event that stands directly behind the request, if one does, and the state after it; it draws the free values after the
request's own. -/
def eventBehind (s : State) : Option (Instr × State) :=
  match s.pending with
  | c :: _ => (eventEffect c { s with free := s.free + 1 }).map fun t => (c, t)
  | [] => none

/-! ## The Occupancy Counter between two notices (R20, R186) -/

/-- A moment of the Occupancy Counter within an event: the current occupancy, whether an increment has left it above OCC_LIMIT since
the event began, and whether it shows a notice of the row's cells. -/
structure OccMoment where
  current : Nat
  exceeded : Bool
  shows : Bool
deriving DecidableEq, Repr

/-- A notice at the counter (R20, R21). -/
def OccMoment.take (limit : Nat) (m : OccMoment) (n : Notice) : OccMoment :=
  match n with
  | .becameHot => { current := m.current + 1, exceeded := m.exceeded || decide (limit < m.current + 1), shows := true }
  | .becameCold => { m with current := m.current - 1, shows := true }

/-- The notices of an event of the whole array in the order in which the counter takes them (`arrayEvent`). -/
def noticesTaken (f : Nat → Cell → CellOut) (s : State) : List Notice :=
  noticeOrder (2 * s.free) (eachCell f 0 s.cells)

/-- A row delivers a dwell tick: an expiry of the settle cap that waits, and that ends settling, leaves no tick to deliver (R88, log 5). -/
def deliversDwell (c : Instr) (s : State) : Bool := bringsDwell c s && !(s.capDue && s.engine.applying.isNone)

/-- The notices that the cells send at a row before any end of settling and any open, in the order in which the counter takes them; it
takes them while OPEN or SETTLING. A notice that it takes after rest changes nothing, and is not among them (R20). -/
def rowNotices (c : Instr) (s : State) : List Notice :=
  if !s.measuring then []
  else
    match c with
    | .decayTick =>
      if s.ticks.decay.running then noticesTaken (s.tickAtCell (decayParts s) (s.overAfter (decayParts s))) s else []
    | .dwellTick | .pulseEnd | .settleCapExpiry =>
      if deliversDwell c s && s.tpg.endsNext then noticesTaken (dwellTakenAt s.dwellRestarted) s else []
    | .recordApplied =>
      match s.engine.applying with
      | some r =>
        noticesTaken (fun i x => if i = r.cell then recordAtCell s.params s.ctl.liveHalf s.pulse r.weight i x else quietly x) s
      | none => []
    | .auxAsserted n =>
      if s.ctl.state = .opened then
        noticesTaken (fun i x => if i = Config.arrayCells + n.val then lineUpAtCell s.params s.ctl.liveHalf i x else quietly x) s
      else []
    | .auxDeasserted n => noticesTaken (fun i x => if i = Config.arrayCells + n.val then lineDownAtCell s.params i x else quietly x) s
    | _ => []

/-- The counter after the first `k` of a row's notices. -/
def occAfter (c : Instr) (s : State) (k : Nat) : OccMoment :=
  ((rowNotices c s).take k).foldl (OccMoment.take s.params.occLimit)
    { current := s.occ.current, exceeded := false, shows := false }

/-- A window opens in a row that takes `s` to `t`: the next frame number has gone on (R81). -/
def opensIn (s t : State) : Bool := decide (t.ctl.nextFrame ≠ s.ctl.nextFrame)

/-- The array comes to rest in a row that takes `s` to `t` (R19). -/
def restsIn (s t : State) : Bool := s.measuring && (!t.measuring || opensIn s t)

/-- What a reading finds at the Occupancy Counter amid a row that takes `s` to `t`. `told` says that the controller is found after the
row. A row's notices come before the end of settling that it brings; then the counter comes to rest, and then takes the notices of an
open, all of cells that turn HOT (R17, R19, R20, R91). -/
def occupancyAmid (draw : Nat) (told : Bool) (c : Instr) (s t : State) : OccMoment :=
  let all := occAfter c s (rowNotices c s).length
  if told && opensIn s t && Config.freeTaken draw 5 then
    let k := Config.freeCount draw 1 % (t.occ.current + 1)
    { current := k, exceeded := all.exceeded || decide (s.params.occLimit < k), shows := false }
  else if told && restsIn s t then if Config.freeTaken draw 7 then { all with current := 0, shows := false } else all
  else occAfter c s (Config.freeCount draw 2 % ((rowNotices c s).length + 1))

/-! ## The controller between two notices (R66, R69, R186) -/

/-- A close at the controller, with none or the first of the sheds of the holds counted that are still to come (R69, R83). A close that
ends settling at once is one event (R83, R86), and one that sheds no hold sends no notice. -/
def closeMoments (cause : CloseCause) (s : State) : List State :=
  if (shutWindow cause s).mayEnd then []
  else
    match s.path.rd, s.path.wr with
    | none, none => []
    | some _, some _ => [beginClose cause s, shedHold .read (beginClose cause s)]
    | _, _ => [beginClose cause s]

/-- The part after some of the notices that an event row sends to the controller: the first of two sheds of a HANDSHAKE_PRESENTED, the
first of two releases of an ARESET_N, a close as `closeMoments` says (R66, R69). An expiry of the settle cap is one event (R88). -/
def controllerMoments (c : Instr) (s : State) : List State :=
  match c with
  | .handshakePresented rd wr =>
    let a := presentOn .read rd s
    let b := presentOn .write wr a.1
    match s.queue.history with
    | .write => [requestIf .read a.2 b.1]
    | .read => [requestIf .write b.2 b.1]
  | .aresetNAsserted => [withdrawHold .read s]
  | .winNRisingEdge =>
    let u := { s with pins := { s.pins with winLow := false } }
    if s.pins.rstLow = false ∧ s.params.winSrc = .line ∧ s.ctl.state = .opened then closeMoments .line u else []
  | .onsetTick | .windowTimerExpiry =>
    let u := onsetDelivered s.onsetRestarted
    if s.ticks.onset.running && s.timerNext && u.timerAtLength then closeMoments .timer u else []
  | _ => []

/-- The causes that the controller sends: OVERRUN, SHED, TRUNCATED, MISSED_OPEN (R66, R79, R88, R107, R108). -/
def controllerCauses : BitVec 8 := Cause.overrun.bit ||| Cause.shed.bit ||| Cause.truncated.bit ||| Cause.missedOpen.bit

/-! ## The snapshot -/

/-- The Readout Engine as a snapshot that is taken amid an event can find it: before the event, between its own completion of a frame
and the start of the next by the controller, or after both (R186). A frame starts at a notice of the controller (R106, R118). -/
def readoutAmid (last : Bool) (s t : State) : Readout :=
  if last then t.readout
  else if t.readout.emitted = s.readout.emitted then s.readout
  else { frame := none, emitted := t.readout.emitted }

/-- The end of the pulse that the dwell tick brings stops a cell that counts: what is over with it is not over before the generator has
taken the tick (R42, R143). -/
def pulseStops (s : State) : Bool :=
  (indicesWhere (fun i c =>
      c.counting s.params s.ctl.liveHalf i
        && let d := (dwellTakenAt s i c).cell
          decide (d.activity = .cold) && { d with activity := .hot, firstDone := c.firstDone }.counting s.params s.ctl.liveHalf i)
    0 s.cells) ≠ []

/-- A reading amid a row that ends a pulse shows what the end of the pulse brings: a notice of a cell that it turns COLD, or an end of
settling that waits for it (R86, R143). -/
def showsPulseEnd (told : Bool) (o : OccMoment) (s t : State) : Bool :=
  s.tpg.endsNext && (o.shows || (told && restsIn s t && pulseStops s.dwellRestarted))

/-- The generator amid a row: before it, after the dwell tick that the row delivers, or, where the controller is found after the row,
after the cut at rest (R19, R143). It is found past its tick where the reading shows what the end of its pulse brings. -/
def generatorAmid (draw : Nat) (told : Bool) (o : OccMoment) (c : Instr) (s t : State) : Tpg :=
  if told && Config.freeTaken draw 4 then t.tpg
  else if deliversDwell c s && (showsPulseEnd told o s t || Config.freeTaken draw 8) then s.tpg.tick
  else s.tpg

/-- The event is a decay tick that comes together with the row directly behind it, or a row for which one has waited (log 24): it has not
begun at a reading, since three events that come together are not mixed (log 2). The row behind it is no request, since the port takes one
at a time. -/
def waitsBehind (c : Instr) (s : State) : Bool :=
  s.decayWaits || match c with
  | .decayTick =>
    let t := { s with pending := s.pending.tail, port := Port.reset }
    s.ticks.decay.running && s.measuring && (t.decayJoins || t.decayCut)
  | _ => false

/-- What the owners of the snapshot's fields hold amid an event row that takes `s` to `t`: each of them before its part of it, between
two notices of it, or after it (R186; DESIGN CHOICE, log 21: which is free). With `freeTaken draw 0` false the event has not begun. A
cause is found pending only where its sender is found past the sending; FRAME_DONE is sent at the readout complete that the Readout
Engine has behind it as soon as the event has begun (R131), RELEASE by the tap, whose state no field shows (R51, R66, R68). -/
def amid (draw : Nat) (c : Instr) (s t : State) : State :=
  if Config.freeTaken draw 0 && !waitsBehind c s then
    let told := Config.freeTaken draw 1
    let k := if told then t else (controllerMoments c s).getD (Config.freeCount draw 0) s
    let o := occupancyAmid draw told c s t
    let sent : BitVec 8 := (k.attn &&& controllerCauses) ||| (if o.exceeded then Cause.occupancy.bit else 0)
      ||| Cause.frameDone.bit ||| Cause.release.bit
    { s with
      ctl := k.ctl
      readout := readoutAmid (told && Config.freeTaken draw 2) s t
      engine := if Config.freeTaken draw 3 then t.engine else s.engine
      tpg := generatorAmid draw told o c s t
      occ := { s.occ with current := o.current }
      attn := s.attn ||| (t.attn &&& sent &&& Config.freeCauses draw) }
  else s

end Sys2Proof.Machine
end

