-- ==== Sys2Proof/Machine/Management.lean ====
section
/-! DEFINITION. The rows of the management port, of readout, and of the resets (Chapters 6, 8, 9). -/

namespace Sys2Proof.Machine

/-! ## Requests -/

/-- A command with no argument: any argument byte is BAD_LENGTH. -/
def noArgs (args : List Byte) (own : State → Answer) (s : State) : Answer := if args ≠ [] then .error .badLength else own s

/-- NOP's checks: it acts on no block (R163). -/
def answerNop (args : List Byte) (s : State) : Answer := noArgs args (fun t => .ok (t, [])) s

/-- The 27 bytes of the status snapshot (R185, section 10.2.4). -/
def snapshot (s : State) : List Byte :=
  [BitVec.ofNat 8 (s.ctl.state.code + 4 * boolCode s.readout.frame.isSome + 8 * boolCode s.pulse + 16 * s.ctl.liveHalf.code
      + 32 * boolCode s.ctl.frozen.isSome + 64 * boolCode s.ctl.cycleOn),
   BitVec.ofNat 8 (s.engine.op.code + 4 * boolCode s.engine.result.valid)]
    ++ beBytes 2 s.occ.current ++ [s.attn] ++ beBytes 4 s.ctl.nextFrame ++ beBytes 4 s.readout.emitted
    ++ beBytes 4 s.ctl.discardedTotal ++ beBytes 2 s.ctl.missedOpens ++ beBytes 2 s.ctl.cyclesLeft
    ++ (match s.port.lastRefusal with
        | some r => [r.code, r.status.code]
        | none => [0x00#8, 0x00#8])
    ++ beBytes 2 ((s.ctl.desc.map Descriptor.shed).getD 0) ++ beBytes 2 ((s.ctl.desc.map Descriptor.released).getD 0)

/-- GET_STATUS's checks and response (R164). An event that comes together with the take is found amid its blocks (R186). -/
def answerGetStatus (args : List Byte) (s : State) : Answer :=
  noArgs args (fun r =>
    match eventBehind r with
    | none => .ok (r, snapshot r)
    | some (c, t) =>
      let read := { r with free := r.free + 1 }
      .ok (read, snapshot (amid r.free c read t))) s

/-- The parameter table takes a new value; a write of ATTN_ENABLE acts on ATTN_N (R168, R170, R182). -/
def setParams (id : ParamId) (p : Params) (s : State) : State :=
  if id = .attnEnable then driveAttn { s with params := p } else { s with params := p }

/-- SET_PARAM's checks and effect (R168). -/
def answerSetParam (args : List Byte) (s : State) : Answer :=
  match writeAsked args s.params with
  | .error st => .error st
  | .ok (id, p) => if s.classMet id.paramClass then .ok (setParams id p s, []) else .error .wrongState

/-- GET_PARAM's checks and response (R171). -/
def answerGetParam (args : List Byte) (s : State) : Answer :=
  match args with
  | [b] =>
    match ParamId.ofByte b with
    | none => .error .badArg
    | some id => .ok (s, beBytes id.length (s.params.read id))
  | _ => .error .badLength

/-- ABORT_READOUT's checks and effect (R133, R134). -/
def answerAbortReadout (args : List Byte) (s : State) : Answer :=
  noArgs args (fun t =>
    match t.readout.frame with
    | none => .error .wrongState
    | some f =>
      if f.abortTaken then .error .wrongState
      else
        match f.position with
        | .trailer _ => .error .wrongState
        | _ => .ok (abortFrame f t, [])) s

/-- CLEAR_ATTENTION's checks and effect (R165, R183). The causes on their way from the event directly before the request reach the
unit after the clear (R184). -/
def answerClearAttention (args : List Byte) (s : State) : Answer :=
  match args with
  | [set] => .ok (arrive (clearCauses set s), [])
  | _ => .error .badLength

/-- SOFT_RESET's checks and effect (R172). The causes on their way from the event directly before the request reach the Attention Unit
after its reset (R173, R180). -/
def answerSoftReset (args : List Byte) (s : State) : Answer := noArgs args (fun r => .ok (arrive (softReset r), [])) s

/-- NOP (R163). -/
def execNop (args : List Byte) (s : State) : Result := .next (takeCommand 0x01 args (answerNop args) s)

/-- GET_STATUS (R164). -/
def execGetStatus (args : List Byte) (s : State) : Result := .next (takeCommand 0x02 args (answerGetStatus args) s)

/-- SET_PARAM (R168). -/
def execSetParam (args : List Byte) (s : State) : Result := .next (takeCommand 0x10 args (answerSetParam args) s)

/-- GET_PARAM (R171). -/
def execGetParam (args : List Byte) (s : State) : Result := .next (takeCommand 0x11 args (answerGetParam args) s)

/-- ABORT_READOUT (R133). -/
def execAbortReadout (args : List Byte) (s : State) : Result := .next (takeCommand 0x40 args (answerAbortReadout args) s)

/-- CLEAR_ATTENTION (R165). Where no request comes (log 6), the causes on their way arrive all the same. -/
def execClearAttention (args : List Byte) (s : State) : Result :=
  .next (if s.canReceive args then takeCommand 0x48 args (answerClearAttention args) s else arrive s)

/-- SOFT_RESET (R172): the response is composed after the reset; the decoder goes on with its transaction (R174). Where no request comes
(log 6), the causes on their way arrive all the same. -/
def execSoftReset (args : List Byte) (s : State) : Result :=
  .next (if s.canReceive args then takeCommand 0x5A args (answerSoftReset args) s else arrive s)

/-- UNKNOWN_COMMAND: a code that is none of the sixteen is refused with UNKNOWN (R157 step 2, R190). -/
def execUnknownCommand (code : Byte) (args : List Byte) (s : State) : Result :=
  if s.canReceive args = true ∧ code ∉ commandCodes then
    .next (refuse code .unknown (receiveRequest code args (requestCheck code args) s))
  else .next s

/-- BAD_CHECK_REQUEST: a request whose check byte differs from the running check is refused with BAD_CHECK, and
COMMAND_FAULT is set (R157 step 1). -/
def execBadCheckRequest (code : Byte) (args : List Byte) (check : Byte) (s : State) : Result :=
  if s.canReceive args = true ∧ check ≠ requestCheck code args then
    .next (refuse code .badCheck (raiseCommandFault (receiveRequest code args check s)))
  else .next s

/-! ## Transactions -/

/-- TRANSACTION_START: MCS_N falls; a transaction starts in RECEIVING, unless RST_N is asserted (R153, R154). -/
def execTransactionStart (s : State) : Result :=
  let t := { s with pins := { s.pins with mcsLow := true } }
  if s.pins.rstLow = false ∧ s.port.decoder = .deselected then
    .next { t with port :=
      { Port.reset with decoder := .receiving, msi := s.port.msi, lastRefusal := s.port.lastRefusal } }
  else .next t

/-- TRUNCATED_REQUEST: MCS_N rises after some bits of a request (R159). -/
def execTruncatedRequest (bits : Nat) (s : State) : Result := .next (mcsRises bits s)

/-- RESPONSE_ABANDONED: MCS_N rises during RESPONDING; the command stands (R160). -/
def execResponseAbandoned (s : State) : Result := .next (mcsRises 0 s)

/-- TRANSACTION_END: MCS_N rises in TRAILING, IGNORING, or RECEIVING with no bit received (R154). -/
def execTransactionEnd (s : State) : Result := .next (mcsRises 0 s)

/-- RESPONSE_SENT: the host clocks the whole response out, bit by bit, and the decoder is left TRAILING (R153, R158). -/
def execResponseSent (s : State) : Result :=
  .next (if s.port.decoder = .responding then { s with port := s.port.sendResponse } else s)

/-! ## Readout -/

/-- FRAME_BYTE_DELIVERY: FRDY is seen asserted, in a TBCLK period of its own (R127). -/
def execFrameByteDelivery (s : State) : Result := .next (deliverByte s)

/-! ## Power-on reset -/

/-- RST_N_ASSERTED (R175, R176). -/
def execRstNAsserted (s : State) : Result := .next (powerOnReset s)

/-- RST_N_DEASSERTED: the part starts; the decoder ignores a selection already begun (R176, R177). -/
def execRstNDeasserted (s : State) : Result :=
  if s.pins.rstLow then
    .next (driveAttn { s with
      pins := { s.pins with rstLow := false }
      port := { s.port with decoder := decoderByPin s.pins } })
  else .next s

end Sys2Proof.Machine
end

