-- ==== Sys2Proof/Machine/Dispatch.lean ====
section
/-! DEFINITION. One arm for each command of the table. -/

namespace Sys2Proof.Machine

def exec (i : Instr) (s : State) : Host.Outcome State Fault Refusal :=
  match i with
  | .nop args => Sys2Proof.Machine.execNop args s
  | .getStatus args => Sys2Proof.Machine.execGetStatus args s
  | .setParam args => Sys2Proof.Machine.execSetParam args s
  | .getParam args => Sys2Proof.Machine.execGetParam args s
  | .setFilter args => Sys2Proof.Machine.execSetFilter args s
  | .getFilter args => Sys2Proof.Machine.execGetFilter args s
  | .loadBank args => Sys2Proof.Machine.execLoadBank args s
  | .readBank args => Sys2Proof.Machine.execReadBank args s
  | .fetchResult args => Sys2Proof.Machine.execFetchResult args s
  | .probeCell args => Sys2Proof.Machine.execProbeCell args s
  | .openWindow args => Sys2Proof.Machine.execOpenWindow args s
  | .closeWindow args => Sys2Proof.Machine.execCloseWindow args s
  | .inject args => Sys2Proof.Machine.execInject args s
  | .abortReadout args => Sys2Proof.Machine.execAbortReadout args s
  | .clearAttention args => Sys2Proof.Machine.execClearAttention args s
  | .softReset args => Sys2Proof.Machine.execSoftReset args s
  | .unknownCommand code args => Sys2Proof.Machine.execUnknownCommand code args s
  | .badCheckRequest code args check => Sys2Proof.Machine.execBadCheckRequest code args check s
  | .transactionStart => Sys2Proof.Machine.execTransactionStart s
  | .truncatedRequest bits => Sys2Proof.Machine.execTruncatedRequest bits s
  | .responseAbandoned => Sys2Proof.Machine.execResponseAbandoned s
  | .transactionEnd => Sys2Proof.Machine.execTransactionEnd s
  | .rstNAsserted => Sys2Proof.Machine.execRstNAsserted s
  | .rstNDeasserted => Sys2Proof.Machine.execRstNDeasserted s
  | .aresetNAsserted => Sys2Proof.Machine.execAresetNAsserted s
  | .handshakePresented rd wr => Sys2Proof.Machine.execHandshakePresented rd wr s
  | .holdTimerExpiry ch => Sys2Proof.Machine.execHoldTimerExpiry ch s
  | .recordTake => Sys2Proof.Machine.execRecordTake s
  | .recordApplied => Sys2Proof.Machine.execRecordApplied s
  | .decayTick => Sys2Proof.Machine.execDecayTick s
  | .dwellTick => Sys2Proof.Machine.execDwellTick s
  | .onsetTick => Sys2Proof.Machine.execOnsetTick s
  | .windowTimerExpiry => Sys2Proof.Machine.execWindowTimerExpiry s
  | .settleCapExpiry => Sys2Proof.Machine.execSettleCapExpiry s
  | .pulseEnd => Sys2Proof.Machine.execPulseEnd s
  | .winNFallingEdge => Sys2Proof.Machine.execWinNFallingEdge s
  | .winNRisingEdge => Sys2Proof.Machine.execWinNRisingEdge s
  | .auxAsserted line => Sys2Proof.Machine.execAuxAsserted line s
  | .auxDeasserted line => Sys2Proof.Machine.execAuxDeasserted line s
  | .frameByteDelivery => Sys2Proof.Machine.execFrameByteDelivery s
  | .loadStep => Sys2Proof.Machine.execLoadStep s
  | .readStep => Sys2Proof.Machine.execReadStep s
  | .responseSent => Sys2Proof.Machine.execResponseSent s

end Sys2Proof.Machine
end

