-- ==== Sys2Proof/Safety.lean ====
section
/-! DEFINITION. What every run keeps: the invariants in the terms of the rules. -/

namespace Sys2Proof.Machine

/-- The sizes that the part fixes for a descriptor: at most 16 entries in the first-onset list (R97), 65 bank counts (R94). -/
def Descriptor.Sized (d : Descriptor) : Prop :=
  d.onsets.length ≤ Config.onsetListMax ∧ d.bankTruncated.length = 65

/-- The segments of a cell lie in their ranges (R34). -/
def Cell.Ranged (c : Cell) : Prop := c.seg0 ≤ 4095 ∧ c.seg1 ≤ 4095 ∧ c.seg2 ≤ 15 ∧ c.seg3 ≤ 15

/-- The sizes and ranges that the part fixes: 4100 cells, each level at most 4095, each trim -16..15 (R1), each segment in its
range (R34); a mirror of 4096 entries that holds the masks of the array cells (R22, R24); eight filter entries (R57); at most 32
queued records (R62); every descriptor as `Descriptor.Sized` says. An aux cell has no level: its field stays 0 (log 14). -/
structure State.Sized (s : State) : Prop where
  cells : s.cells.length = Config.allCells
  segments : ∀ c ∈ s.cells, c.Ranged
  levels : ∀ c ∈ s.cells, c.level ≤ 4095
  auxLevels : ∀ (i : Nat) (c : Cell), 4096 ≤ i → s.cells[i]? = some c → c.level = 0
  trims : ∀ c ∈ s.cells, -16 ≤ c.trim ∧ c.trim ≤ 15
  mirror : s.engine.mirror.length = Config.arrayCells
  mirrored : ∀ (i : Nat) (c : Cell), i < 4096 → s.cells[i]? = some c → s.engine.mirror[i]? = some c.mask
  filter : s.filter.length = 8
  queue : s.queue.records.length ≤ Config.queueDepth
  desc : ∀ d, s.ctl.desc = some d → d.Sized
  waiting : ∀ d, s.ctl.waiting = some d → d.Sized
  frame : ∀ f, s.readout.frame = some f → f.desc.Sized

/-- ATTN_N is asserted exactly while an enabled cause is pending and RST_N is not asserted (R182). -/
def State.AttnFollows (s : State) : Prop := s.pins.attnLow = s.attnWanted

/-- Which roles the storage and the descriptors have, by the controller's state and the mode (R38, R92, R95, R103, R104, R108). -/
structure State.HandOffInv (s : State) : Prop where
  /-- In continuous modes the frozen half is never the live half (R103). -/
  frozenNotLive : ∀ h, s.ctl.frozen = some (.half h) → h ≠ s.ctl.liveHalf
  /-- Storage is frozen exactly while a frame is in hand (R104, R109, R118). -/
  frozenWhileSending : s.ctl.frozen.isSome = s.readout.frame.isSome
  /-- A descriptor is in progress exactly while OPEN or SETTLING (R95). -/
  descWhileMeasuring : s.ctl.desc.isSome = s.measuring
  /-- In a sequential mode the whole storage is frozen exactly while HELD, and no descriptor waits (R92). -/
  sequential : s.params.mode.sequential = true →
    (s.ctl.state = .held → s.ctl.frozen = some .whole) ∧ (s.ctl.state ≠ .held → s.ctl.frozen = none) ∧ s.ctl.waiting = none
  /-- In a continuous mode only a half is ever frozen, and a descriptor waits exactly while HELD, behind a frozen half
  (R103, R108). -/
  continuous : s.params.mode.sequential = false →
    s.ctl.frozen ≠ some .whole ∧ (s.ctl.waiting.isSome = true ↔ s.ctl.state = .held)
      ∧ (s.ctl.state = .held → s.ctl.frozen.isSome = true)
  /-- Each window in hand has the mode in force, since MODE cannot change before it has been dealt with (R38, R80). -/
  modes : (∀ d, s.ctl.desc = some d → d.mode = s.params.mode) ∧ (∀ d, s.ctl.waiting = some d → d.mode = s.params.mode)
    ∧ ∀ f, s.readout.frame = some f → f.desc.mode = s.params.mode

/-- How many gates hold (R50). -/
def State.holding (s : State) : Nat := (if s.path.rd.isSome then 1 else 0) + (if s.path.wr.isSome then 1 else 0)

/-- A gate is holding only while the controller is OPEN (R50). -/
def State.HoldOnlyOpen (s : State) : Prop := ∀ ch, (s.hold ch).isSome = true → s.ctl.state = .opened

/-- The row at the front of the queue clears causes: a CLEAR_ATTENTION or a SOFT_RESET of right form. -/
def State.ClearBehind (s : State) : Prop :=
  (∃ set, s.pending.head? = some (.clearAttention [set])) ∨ s.pending.head? = some (.softReset [])

/-- The row at the front of the queue is an onset tick that will be delivered. -/
def State.OnsetTickBehind (s : State) : Prop :=
  s.ctl.state = .opened ∧ s.ticks.onset.running = true
    ∧ (s.pending.head? = some .onsetTick
      ∨ s.pending.head? = some .windowTimerExpiry ∧ s.params.winSrc = .timer ∧ s.params.winLen ≤ s.ctl.windowCount + 1)

/-- The settle cap's expiry is due and has not been taken (R88). -/
def State.CapWaits (s : State) : Prop :=
  s.ctl.state = .settling ∧ (∀ d, s.ctl.desc = some d → d.settleCap = false) ∧ s.params.settleCap ≤ s.ctl.settleCount

/-- The next dwell tick ends the pulse in progress, which ends at the tick that leaves no tick remaining (R143). -/
def Tpg.LastTick (g : Tpg) : Prop := g = .active 1 ∨ g = .active 0

/-- A row brings a dwell tick: DWELL_TICK, PULSE_END at the last tick of the pulse, SETTLE_CAP_EXPIRY one tick early (log 5). -/
def BringsDwell (c : Instr) (s : State) : Prop :=
  s.ticks.dwell.running = true ∧ s.measuring = true ∧
    match c with
    | .dwellTick => True
    | .pulseEnd => s.tpg.LastTick
    | .settleCapExpiry =>
      s.ctl.state = .settling ∧ (∀ d, s.ctl.desc = some d → d.settleCap = false) ∧ s.params.settleCap = s.ctl.settleCount + 1
    | _ => False

/-- The row at the front of the queue is a dwell tick that will be delivered. -/
def State.DwellTickBehind (s : State) : Prop := ¬ s.CapWaits ∧ ∃ c, s.pending.head? = some c ∧ BringsDwell c s

/-- The row at the front of the queue is an INJECT that will be taken (R140). -/
def State.InjectBehind (s : State) : Prop :=
  s.ctl.state = .opened ∧ s.tpg = .idle ∧ s.engine.op = .idle ∧ s.port.decoder = .receiving ∧ s.pending.head? = some (.inject [])

/-- The row at the front of the queue of `s`, at the state `u`, brings the array to rest: after it the controller is outside OPEN and
SETTLING, or has opened the next window. -/
def RestBehind (s u : State) : Prop :=
  ∃ (c : Instr) (v : State), s.pending.head? = some c ∧ exec c { u with pending := s.pending.tail } = .next v
    ∧ (v.measuring = false ∨ v.ctl.nextFrame ≠ u.ctl.nextFrame)

/-- A configuration operation is in flight only while the controller is IDLE (R23). -/
def State.CfgOnlyIdle (s : State) : Prop := s.cfgInFlight = true → s.ctl.state = .idle

/-- A cell at rest (R19). -/
def Cell.AtRest (c : Cell) : Prop := c.level = 0 ∧ c.activity = .cold

/-- While the controller is IDLE or HELD the array is at rest: every level 0, every cell COLD, the occupancy 0, the generator
idle, the dividers stopped, the queue empty and no application in progress (R19, R31, R64). -/
structure State.Resting (s : State) : Prop where
  cells : ∀ c ∈ s.cells, c.AtRest
  occ : s.occ.current = 0
  tpg : s.tpg = .idle
  ticks : s.ticks.decay.running = false ∧ s.ticks.dwell.running = false ∧ s.ticks.onset.running = false
  queue : s.queue.records = []
  applying : s.engine.applying = none

/-- A divider counts 0 up to one less than its period while it runs (R29). -/
def Divider.InPeriod (d : Divider) (period : Nat) : Prop := d.running = true → d.count < period

/-- The rest invariant: at rest outside OPEN and SETTLING (R19); which dividers run, and their counts below their periods (R29,
R31); the counts of a window within WIN_LEN and SETTLE_CAP (R78, R87), those of a pulse 1..1023 (R139), those of a hold below its
limit (R67); after the settle cap's expiry the queue is empty, and its flag is never set while OPEN (R88); a configuration
operation is in flight only while IDLE (R23); a gate holds only while OPEN (R50); a cause is on its way to the Attention Unit only
between an event and the CLEAR_ATTENTION or SOFT_RESET directly behind it (log 21), a first onset meets an onset tick only between
its event and the tick directly behind it (log 22), and a decay tick waits only for the dwell tick or the INJECT directly behind it
(log 24). -/
structure State.RestInv (s : State) : Prop where
  rest : s.measuring = false → s.Resting
  running : s.measuring = true → s.ticks.decay.running = true ∧ s.ticks.dwell.running = true
  onset : s.measuring = true → (s.ticks.onset.running = true ↔ s.ctl.state = .opened)
  periods : s.ticks.decay.InPeriod s.params.decayDiv ∧ s.ticks.dwell.InPeriod s.params.dwellDiv
    ∧ s.ticks.onset.InPeriod s.params.onsetDiv
  timer : s.ctl.state = .opened → s.params.winSrc = .timer → s.ctl.windowCount < s.params.winLen
  settle : s.ctl.state = .settling → s.ctl.settleCount ≤ s.params.settleCap
  pulse : ∀ n, s.tpg = .active n → 1 ≤ n ∧ n ≤ 1023
  capEmpties : s.ctl.state = .settling → s.capFlag = true → s.queue.records = []
  capLate : s.ctl.state = .opened → s.capFlag = false
  cfg : s.CfgOnlyIdle
  holds : s.HoldOnlyOpen
  holdTimers : ∀ ch h, s.hold ch = some h → h.timer < h.limit
  arriving : s.arriving ≠ 0 → s.ClearBehind
  crossing : s.crossing ≠ .reset → s.OnsetTickBehind
  waits : s.decayWaits = true → s.DwellTickBehind ∨ s.InjectBehind

/-- How many cells are HOT, unmasked and not in a gated bank (R20). -/
def State.hotCells (s : State) : Nat :=
  (indicesWhere (fun i c => decide (c.activity = .hot) && c.eligible s.params i) 0 s.cells).length

/-- The current occupancy is the number of HOT cells that are unmasked and not in a gated bank (R20). -/
def State.OccupancyExact (s : State) : Prop := s.occ.current = s.hotCells

/-- A parameter table whose every value could be written again: in range, aligned (R194, R169). -/
def Params.Legal (p : Params) : Prop := ∀ id, (p.write id (p.read id)).isSome = true

/-- The counters of a cell's storage that a frozen indication names are 0. -/
def Cell.ZeroIn (c : Cell) : Frozen → Prop
  | .whole => c.seg0 = 0 ∧ c.seg1 = 0 ∧ c.seg2 = 0 ∧ c.seg3 = 0
  | .half .h0 => c.seg0 = 0 ∧ c.seg2 = 0
  | .half .h1 => c.seg1 = 0 ∧ c.seg3 = 0

/-- A frame in hand has emitted a bank's record, or an abort has cleared the bank unsent (R125, R134). -/
def Frame.Cleared (f : Frame) (b : Nat) : Prop :=
  match f.position with
  | .header _ | .onsets _ _ => f.abortTaken = true
  | .bank n _ => b < n ∨ (n < b ∧ f.abortTaken = true)
  | .trailer _ => True

/-- Where counters are zero (R36, R104, R106): in the frozen storage of every bank that the frame has emitted or cleared; in
the half that is not live while nothing is frozen in a continuous mode; and, while IDLE, in all of a sequential mode's storage
and in the live half of a continuous mode. -/
structure State.StorageInv (s : State) : Prop where
  sending : ∀ z f, s.ctl.frozen = some z → s.readout.frame = some f →
    ∀ i c, s.cells[i]? = some c → f.Cleared (i / Config.bankCells) → c.ZeroIn z
  spare : s.params.mode.sequential = false → s.ctl.frozen = none → ∀ c ∈ s.cells, c.ZeroIn (.half s.ctl.liveHalf.other)
  idleSequential : s.params.mode.sequential = true → s.ctl.state = .idle → ∀ c ∈ s.cells, c.ZeroIn .whole
  idleContinuous : s.params.mode.sequential = false → s.ctl.state = .idle → ∀ c ∈ s.cells, c.ZeroIn (.half s.ctl.liveHalf)

/-- Windows still in hand: in progress, waiting in HELD, or frozen with a frame in hand (R187). -/
def State.inHand (s : State) : Nat :=
  (if s.ctl.desc.isSome then 1 else 0) + (if s.ctl.waiting.isSome then 1 else 0) + (if s.readout.frame.isSome then 1 else 0)

/-- Every window opened since the reset has been emitted, discarded, or is in hand (R187, modulo 2^32). -/
def State.WindowsAccounted (s : State) : Prop :=
  s.ctl.nextFrame % 2 ^ 32 = (s.readout.emitted + s.ctl.discardedTotal + s.inHand) % 2 ^ 32

/-- The first-onset list of the descriptor in progress: at most 16 entries, never a cell twice, offsets that do not decrease and
do not exceed the window length count, each for a cell that has its onset_seen flag set (R97, R98). A report that still waits for the
onset tick directly behind (log 22) is of such a cell, and of none that is in the list. -/
structure State.OnsetListInv (s : State) : Prop where
  count : s.ctl.windowCount ≤ 16777215
  short : ∀ d, s.ctl.desc = some d → d.onsets.length ≤ 16
  rising : ∀ d, s.ctl.desc = some d → d.onsets.Pairwise fun a b => a.offset ≤ b.offset
  reached : ∀ d, s.ctl.desc = some d → ∀ e ∈ d.onsets, e.offset ≤ s.ctl.windowCount
  once : ∀ d, s.ctl.desc = some d → (d.onsets.map OnsetEntry.cell).Nodup
  seen : ∀ d, s.ctl.desc = some d → ∀ e ∈ d.onsets, ∃ c, s.cells[e.cell]? = some c ∧ c.onsetSeen = true
  waitOnce : s.crossing.reports.Nodup ∧ ∀ d, s.ctl.desc = some d → ∀ e ∈ d.onsets, e.cell ∉ s.crossing.reports
  waitSeen : ∀ i ∈ s.crossing.reports, ∃ c, s.cells[i]? = some c ∧ c.onsetSeen = true

/-! ## Terms of the statements -/

/-- The sixteen requests with their codes (R190). -/
def requests : List (Byte × (List Byte → Instr)) :=
  [(0x01, .nop), (0x02, .getStatus), (0x10, .setParam), (0x11, .getParam), (0x18, .setFilter), (0x19, .getFilter),
   (0x20, .loadBank), (0x21, .readBank), (0x22, .fetchResult), (0x28, .probeCell), (0x30, .openWindow),
   (0x31, .closeWindow), (0x38, .inject), (0x40, .abortReadout), (0x48, .clearAttention), (0x5A, .softReset)]

/-- The bits of bytes as they pass on a serial line, the most significant of each byte first (R153). -/
def bitsOf (bytes : List Byte) : List Bool := bytes.flatMap fun b => (List.range 8).map fun k => b.getLsbD (7 - k)

/-- The bits that the host samples on MSO at the rising edges of MSCK while it drives bits on MSI (R153). -/
def Port.sampled : List Bool → Port → List Bool
  | [], _ => []
  | b :: bs, p => (p.clock b).mso :: Port.sampled bs (p.clock b)

/-- The port after the take of a request with a check byte, a status and data (R153 to R158, R162). -/
def Port.afterTake (p : Port) (code : Byte) (args : List Byte) (check : Byte) (st : Status) (data : List Byte) : Port where
  msck := true
  msi := check.getLsbD 0
  mso := false
  decoder := .responding
  inByte := check
  bitCount := 0
  requestBytes := args.length + 3
  declaredLength := args.length
  code := code
  args := args.take 72
  runningCheck := crc8 (code :: BitVec.ofNat 8 args.length :: args)
  response := some { status := st, data := data, check := crc8 (st.code :: BitVec.ofNat 8 data.length :: data) }
  responseSent := 0
  lastRefusal := if st = .ok then p.lastRefusal else some { code := code, status := st }

/-- A state whose port has answered a request with a right check byte, all else as it is. -/
def State.answered (s : State) (code : Byte) (args : List Byte) (st : Status) (data : List Byte) : State :=
  { s with port := s.port.afterTake code args (crc8 (code :: BitVec.ofNat 8 args.length :: args)) st data }

/-- A state with another pending set, ATTN_N following it (R182). -/
def State.withPending (s : State) (set : BitVec 8) : State :=
  { s with attn := set
           pins := { s.pins with attnLow := !s.pins.rstLow && ((set &&& s.params.attnEnable) != 0) } }

/-- A state in which a block has set causes: they are pending (R178, R179). Those of them that reach the Attention Unit together with a
CLEAR_ATTENTION or a SOFT_RESET directly behind, and after it, are on their way instead (R180, R184); which these are is free
(DESIGN CHOICE, log 21). -/
def State.sets (s : State) (causes : BitVec 8) : State :=
  let late : BitVec 8 :=
    match s.pending.head? with
    | some (.clearAttention [_]) | some (.softReset []) => Config.freeCauses s.free
    | _ => 0
  { s.withPending (s.attn ||| (causes &&& ~~~ late)) with arriving := s.arriving ||| (causes &&& late) }

/-- A block has set causes in an event that takes `s` to `t`: each is pending, or on its way to the Attention Unit (`State.sets`; which
is free: DESIGN CHOICE, log 21). -/
def CausesSet (causes : BitVec 8) (s t : State) : Prop :=
  ∃ now late : BitVec 8, now ||| late = causes ∧ (late ≠ 0 → s.ClearBehind)
    ∧ t.attn = s.attn ||| now ∧ t.arriving = s.arriving ||| late ∧ t.pins.attnLow = t.attnWanted

/-- A state in which the causes on their way have reached the Attention Unit (R180, log 21). -/
def State.arrived (s : State) : State :=
  if s.arriving = 0 then s else { s.withPending (s.attn ||| s.arriving) with arriving := 0 }

/-- The port with no transaction in hand: MSCK low, the last refusal and the level of MSI kept (R153, R154, R162). -/
def Port.between (p : Port) (d : Decoder) : Port where
  msck := false
  msi := p.msi
  mso := false
  decoder := d
  inByte := 0
  bitCount := 0
  requestBytes := 0
  declaredLength := 0
  code := 0
  args := []
  runningCheck := 0
  response := none
  responseSent := 0
  lastRefusal := p.lastRefusal

/-- The identifier, the value length in bytes and the class of each parameter (R166, R194). -/
def ParamId.row : ParamId → Byte × Nat × ParamClass
  | .mode => (0x10, 1, .rest)
  | .dwellLaw => (0x11, 1, .rest)
  | .onsetWrap => (0x12, 1, .rest)
  | .weightLaw => (0x20, 1, .idle)
  | .dirSel => (0x21, 1, .idle)
  | .capturePolicy => (0x22, 1, .idle)
  | .holdLimit => (0x23, 2, .idle)
  | .mapBase => (0x24, 5, .idle)
  | .mapGranule => (0x25, 1, .idle)
  | .defaultAction => (0x26, 1, .idle)
  | .bankGate => (0x30, 8, .rest)
  | .deepMask => (0x31, 1, .idle)
  | .threshold => (0x32, 2, .any)
  | .trimStep => (0x33, 1, .any)
  | .hysteresis => (0x34, 1, .any)
  | .decayStep => (0x35, 1, .any)
  | .occLimit => (0x36, 2, .any)
  | .decayDiv => (0x40, 2, .idle)
  | .dwellDiv => (0x41, 2, .idle)
  | .onsetDiv => (0x42, 2, .idle)
  | .winSrc => (0x48, 1, .idle)
  | .winLen => (0x49, 3, .idle)
  | .cycle => (0x4A, 1, .idle)
  | .cycleCount => (0x4B, 2, .idle)
  | .settleCap => (0x4C, 2, .idle)
  | .overrunPolicy => (0x4D, 1, .idle)
  | .testPath => (0x50, 1, .idle)
  | .testWeight => (0x51, 2, .idle)
  | .tpLen => (0x52, 2, .idle)
  | .zeroSuppress => (0x58, 1, .any)
  | .unitId => (0x59, 4, .any)
  | .attnEnable => (0x5A, 1, .any)

/-- The numbers of MODE's values (R194). -/
def Mode.number : Mode → Nat
  | .seqDw12On20 => 0
  | .seqDw16On16 => 1
  | .seqAc32 => 2
  | .conDw12Ep4 => 3
  | .conDw16 => 4
  | .conOn16 => 5
  | .conEp16 => 6
  | .conAc16 => 7

/-- The numbers of the controller's states in the snapshot (section 10.2.4). -/
def CtlState.number : CtlState → Nat
  | .idle => 0
  | .opened => 1
  | .settling => 2
  | .held => 3

/-- The numbers of the status codes (R190). -/
def Status.number : Status → Nat
  | .ok => 0
  | .busy => 1
  | .wrongState => 2
  | .badArg => 3
  | .badLength => 4
  | .badCheck => 5
  | .unknown => 6

/-- The numbers of the causes of the open and of the close in the header (section 10.4.2). -/
def OpenCause.number : OpenCause → Nat
  | .line => 0
  | .command => 1
  | .cycle => 2

/-- See `OpenCause.number`. -/
def CloseCause.number : CloseCause → Nat
  | .line => 0
  | .command => 1
  | .timer => 2

/-- The number of a parameter's value (the encodings of R194). -/
def Params.number (p : Params) : ParamId → Nat
  | .mode => p.mode.number
  | .dwellLaw => match p.dwellLaw with | .cumulative => 0 | .first => 1
  | .onsetWrap => if p.onsetWrap then 1 else 0
  | .weightLaw => match p.weightLaw with | .linear => 0 | .compressed => 1
  | .dirSel => match p.dirSel with | .reads => 0 | .writes => 1 | .both => 2
  | .capturePolicy => match p.capturePolicy with | .shed => 0 | .hold => 1
  | .holdLimit => p.holdLimit
  | .mapBase => p.mapBase
  | .mapGranule => p.mapGranule
  | .defaultAction => match p.defaultAction with | .count => 0 | .ignore => 1
  | .bankGate => p.bankGate.toNat
  | .deepMask => if p.deepMask then 1 else 0
  | .threshold => p.threshold
  | .trimStep => p.trimStep
  | .hysteresis => p.hysteresis
  | .decayStep => p.decayStep
  | .occLimit => p.occLimit
  | .decayDiv => p.decayDiv
  | .dwellDiv => p.dwellDiv
  | .onsetDiv => p.onsetDiv
  | .winSrc => match p.winSrc with | .line => 0 | .command => 1 | .timer => 2
  | .winLen => p.winLen
  | .cycle => if p.cycle then 1 else 0
  | .cycleCount => p.cycleCount
  | .settleCap => p.settleCap
  | .overrunPolicy => match p.overrunPolicy with | .wait => 0 | .discard => 1
  | .testPath => match p.testPath with | .integrator => 0 | .direct => 1
  | .testWeight => p.testWeight
  | .tpLen => p.tpLen
  | .zeroSuppress => if p.zeroSuppress then 1 else 0
  | .unitId => p.unitId
  | .attnEnable => p.attnEnable.toNat

/-- The entry byte that spells a filter entry: bit 0 valid, bits 2:1 direction, bit 3 IGNORE, bits 5:4 shift, bits 7:6 zero
(section 10.2.3). -/
def FilterEntry.SpelledBy (e : FilterEntry) (x : Byte) : Prop :=
  x.getLsbD 0 = e.valid
    ∧ x.toNat / 2 % 4 = (match e.direction with | .read => 0 | .write => 1 | .any => 2)
    ∧ x.getLsbD 3 = decide (e.action = .ignore) ∧ x.toNat / 16 % 4 = e.shift ∧ x.getLsbD 6 = false ∧ x.getLsbD 7 = false

/-- The ranges of the parameter table, lowest and highest number (R194). -/
def ParamId.range : ParamId → Nat × Nat
  | .mode => (0, 7)
  | .dwellLaw | .onsetWrap | .weightLaw | .capturePolicy | .defaultAction | .deepMask | .cycle | .overrunPolicy | .testPath
  | .zeroSuppress => (0, 1)
  | .dirSel | .winSrc => (0, 2)
  | .holdLimit => (16, 4095)
  | .mapBase => (0, 1099511627775)
  | .mapGranule => (6, 16)
  | .bankGate => (0, 18446744073709551615)
  | .threshold | .testWeight => (1, 4095)
  | .trimStep => (1, 16)
  | .hysteresis | .decayStep | .attnEnable => (0, 255)
  | .occLimit => (1, 4100)
  | .decayDiv | .onsetDiv | .settleCap => (1, 65535)
  | .dwellDiv => (1, 256)
  | .winLen => (1, 16777215)
  | .cycleCount => (0, 65535)
  | .tpLen => (1, 1023)
  | .unitId => (0, 4294967295)

/-- The reset column of the parameter table (R194). -/
def ParamId.resetValue : ParamId → Nat
  | .dirSel => 2
  | .holdLimit => 256
  | .mapGranule => 12
  | .threshold => 512
  | .trimStep => 4
  | .hysteresis => 16
  | .decayStep => 8
  | .occLimit => 4100
  | .decayDiv => 1000
  | .dwellDiv => 10
  | .onsetDiv => 100
  | .winSrc | .testPath | .zeroSuppress => 1
  | .winLen => 10000
  | .settleCap => 4096
  | .testWeight => 1024
  | .tpLen => 50
  | _ => 0

/-- How many notices of a kind an event at every cell sends. -/
def noticeCount (n : Notice) (f : Nat → Cell → CellOut) (cells : List Cell) : Nat :=
  (noticesOf (eachCell f 0 cells)).count n

/-- All that an event of the whole array does (R10, R11, R20, R21, R32, R97): `t` is `s` after `f` at every cell. The blocks may
take what the cells send in any order: some order of the reports gives the list, and the occupancy changes by the notices. The cause
OCCUPANCY, where it is set, is pending or on its way (`CausesSet`, log 21). Where an onset tick is the row directly behind, some of the
reports may wait for it, and some of the reporting cells have taken it before (R33, R97, R98; which is free: DESIGN CHOICE, log 22). -/
structure ArrayOutcome (f : Nat → Cell → CellOut) (s t : State) : Prop where
  /-- All else is as it was. -/
  kept : t = { s with
    cells := t.cells, free := t.free, occ := t.occ, attn := t.attn, arriving := t.arriving, crossing := t.crossing
    pins := { s.pins with attnLow := t.pins.attnLow }, ctl := { s.ctl with desc := t.ctl.desc } }
  cells : ∀ i, t.cells[i]? = (s.cells[i]?).map fun c => (f i c).cell
  current : s.measuring = true → noticeCount .becameCold f s.cells ≤ s.occ.current →
    t.occ.current = s.occ.current + noticeCount .becameHot f s.cells - noticeCount .becameCold f s.cells
  /-- Whatever the order, the count rises at most to what all the cells turning HOT would give; so does the peak, which never falls. -/
  rise : t.occ.current ≤ s.occ.current + noticeCount .becameHot f s.cells
  /-- Whatever the order, the count falls at most by the cells that turn COLD. -/
  fall : s.measuring = true →
    s.occ.current + noticeCount .becameHot f s.cells ≤ t.occ.current + noticeCount .becameCold f s.cells
  /-- Outside OPEN and SETTLING no notice counts. -/
  still : s.measuring = false → t.occ = s.occ
  /-- See `rise`. -/
  peakRange : s.occ.peak ≤ t.occ.peak ∧ t.occ.peak ≤ max s.occ.peak (s.occ.current + noticeCount .becameHot f s.cells)
  /-- Whatever the order, once the last cell has turned HOT at most all the cells that turn COLD are taken off: the peak is no less. -/
  peakReached : s.measuring = true → 0 < noticeCount .becameHot f s.cells →
    s.occ.current + noticeCount .becameHot f s.cells ≤ t.occ.peak + noticeCount .becameCold f s.cells
  /-- With no cell turning COLD, the peak rises to the new count. -/
  peak : s.measuring = true → noticeCount .becameCold f s.cells = 0 → 0 < noticeCount .becameHot f s.cells →
    t.occ.peak = max s.occ.peak t.occ.current
  /-- With no cell turning HOT, the peak stays. -/
  peakKept : noticeCount .becameHot f s.cells = 0 → t.occ.peak = s.occ.peak
  /-- The reports enter the list in some order, at the window length count; those that find it full set the overflow flag. Those of
  `wait` come after the onset tick directly behind. `e` says that some increment left the count above OCC_LIMIT. -/
  desc : ∃ (order wait ticked : List Nat) (e : Bool), (order ++ wait).Perm (reportsOf 0 (eachCell f 0 s.cells))
    ∧ (∀ i ∈ ticked, i ∈ reportsOf 0 (eachCell f 0 s.cells)) ∧ (wait ++ ticked ≠ [] → s.OnsetTickBehind)
    ∧ t.crossing = { reports := s.crossing.reports ++ wait, ticked := s.crossing.ticked ++ ticked }
    ∧ t.ctl.desc = s.ctl.desc.map (fun d => { d with
        onsets := d.onsets ++ (order.map fun i => { cell := i, offset := s.ctl.windowCount }).take (16 - d.onsets.length)
        overflow := d.overflow || decide (16 - d.onsets.length < order.length)
        exceeded := d.exceeded || e })
    ∧ (if e then CausesSet 0x20 s t else t.attn = s.attn ∧ t.arriving = s.arriving ∧ t.pins.attnLow = s.pins.attnLow)
    ∧ (e = true → s.measuring = true ∧ 0 < noticeCount .becameHot f s.cells
        ∧ s.params.occLimit < s.occ.current + noticeCount .becameHot f s.cells)
    ∧ (s.measuring = true → 0 < noticeCount .becameHot f s.cells →
        s.params.occLimit + noticeCount .becameCold f s.cells < s.occ.current + noticeCount .becameHot f s.cells → e = true)
    ∧ (s.measuring = true → noticeCount .becameCold f s.cells = 0 → 0 < noticeCount .becameHot f s.cells →
        (e = true ↔ s.params.occLimit < s.occ.current + noticeCount .becameHot f s.cells))

/-- The number in `n` bytes from byte `i` on, most significant byte first (R189). -/
def fieldOf (data : List Byte) (i n : Nat) : Nat := beNat ((data.drop i).take n)

/-- The 27 data bytes of GET_STATUS hold the fields of a state, field by field (R185, section 10.2.4). -/
structure SnapshotOf (s : State) (data : List Byte) : Prop where
  length : data.length = 27
  ctlState : fieldOf data 0 1 % 4 = s.ctl.state.number
  readout : (fieldOf data 0 1).testBit 2 = s.readout.frame.isSome
  generator : (fieldOf data 0 1).testBit 3 = decide (s.tpg ≠ .idle)
  liveHalf : (fieldOf data 0 1).testBit 4 = decide (s.ctl.liveHalf = .h1)
  frozen : (fieldOf data 0 1).testBit 5 = s.ctl.frozen.isSome
  cycleOn : (fieldOf data 0 1).testBit 6 = s.ctl.cycleOn
  bit7 : (fieldOf data 0 1).testBit 7 = false
  configuration : fieldOf data 1 1 =
    (match s.engine.op with | .idle => 0 | .loading _ _ _ => 1 | .reading _ _ => 2) + (if s.engine.result.valid then 4 else 0)
  occupancy : fieldOf data 2 2 = s.occ.current % 2 ^ 16
  pending : fieldOf data 4 1 = s.attn.toNat
  nextFrame : fieldOf data 5 4 = s.ctl.nextFrame % 2 ^ 32
  emitted : fieldOf data 9 4 = s.readout.emitted % 2 ^ 32
  discarded : fieldOf data 13 4 = s.ctl.discardedTotal % 2 ^ 32
  missedOpens : fieldOf data 17 2 = s.ctl.missedOpens % 2 ^ 16
  cyclesLeft : fieldOf data 19 2 = s.ctl.cyclesLeft % 2 ^ 16
  noRefusal : s.port.lastRefusal = none → fieldOf data 21 2 = 0
  lastRefusal : ∀ r, s.port.lastRefusal = some r → fieldOf data 21 2 = 256 * r.code.toNat + r.status.number
  noDescriptor : s.ctl.desc = none → fieldOf data 23 2 = 0 ∧ fieldOf data 25 2 = 0
  descriptor : ∀ d, s.ctl.desc = some d → fieldOf data 23 2 = d.shed % 2 ^ 16 ∧ fieldOf data 25 2 = d.released % 2 ^ 16

/-- The parameter table that the SET_PARAM directly behind writes, where it is of one of the values that a cell reads at a decay tick; all
are of class ANY (R3, R5, R8, R167, R168, R170). -/
def State.WrittenBehind (s : State) (q : Params) : Prop :=
  s.port.decoder = .receiving ∧ ∃ (id : ParamId) (value : List Byte), s.pending.head? = some (.setParam (id.row.1 :: value))
    ∧ value.length = id.row.2.1 ∧ s.params.write id (beNat value) = some q
    ∧ (id = .threshold ∨ id = .trimStep ∨ id = .hysteresis ∨ id = .decayStep)

/-- The controller after an onset tick: one more in the window length count, and the reports that waited for the tick taken (R82, R98,
log 22). -/
def State.afterOnsetTick (s : State) : Controller :=
  { s.ctl with
    windowCount := min 16777215 (s.ctl.windowCount + 1)
    desc := s.ctl.desc.map fun d => { d with
      onsets := d.onsets
        ++ (s.crossing.reports.map fun i => { cell := i, offset := min 16777215 (s.ctl.windowCount + 1) }).take (16 - d.onsets.length)
      overflow := d.overflow || decide (16 - d.onsets.length < s.crossing.reports.length) } }

/-- A controller whose window closes, with `j` of the holds in force counted as shed, before settling can end (R69, R83). -/
def Controller.closing (k : Controller) (p : Params) (cause : CloseCause) (j : Nat) : Controller :=
  { k with
    state := .settling
    desc := k.desc.map fun d => { d with
      closeCause := cause, windowLength := k.windowCount, shed := if j = 0 then d.shed else min 65535 (d.shed + j) }
    settleCount := 0
    cyclesLeft := if k.cycleOn = true ∧ p.cycleCount ≠ 0 then k.cyclesLeft - 1 else k.cyclesLeft }

/-- A controller with one more shed counted (R66). -/
def Controller.oneShed (k : Controller) : Controller :=
  { k with desc := k.desc.map fun d => { d with shed := min 65535 (d.shed + 1) } }

/-- A controller with one more release counted (R66). -/
def Controller.oneRelease (k : Controller) : Controller :=
  { k with desc := k.desc.map fun d => { d with released := min 65535 (d.released + 1) } }

/-- The controller between two notices that one row, which takes `s` to `t`, sends to it (R66, R69, R186): after the first of two sheds,
where both channels shed; after the first of two releases, where both gates hold; after a close that the row brings and that does not end
settling, with not all of the holds counted as shed that it sheds. -/
def PartlyTold (c : Instr) (s t : State) (k : Controller) : Prop :=
  match c with
  | .handshakePresented _ _ => k = s.ctl.oneShed ∧ t.ctl = k.oneShed
  | .aresetNAsserted => s.holding = 2 ∧ k = s.ctl.oneRelease
  | .winNRisingEdge =>
    s.pins.rstLow = false ∧ s.params.winSrc = .line ∧ s.ctl.state = .opened ∧ t.ctl = s.ctl.closing s.params .line s.holding
      ∧ ∃ j, j < s.holding ∧ k = s.ctl.closing s.params .line j
  | .onsetTick | .windowTimerExpiry =>
    s.ticks.onset.running = true ∧ s.ctl.state = .opened ∧ s.params.winSrc = .timer
      ∧ s.params.winLen ≤ min 16777215 (s.ctl.windowCount + 1)
      ∧ t.ctl = s.afterOnsetTick.closing s.params .timer s.holding
      ∧ ∃ j, j < s.holding ∧ k = s.afterOnsetTick.closing s.params .timer j
  | _ => False

/-- What an event row does at each cell, where its cells can send notices to the Occupancy Counter (R7, R8, R17, R18, R143); the cells of
the other rows send none but at an open. -/
def rowAtCell (c : Instr) (s : State) (i : Nat) (x : Cell) : CellOut :=
  match c with
  | .decayTick => if s.ticks.decay.running then decayAtCell s.params s.ctl.liveHalf s.pulse i x else quietly x
  | .dwellTick | .pulseEnd | .settleCapExpiry => if deliversDwell c s && s.tpg.endsNext then pulseEndAtCell s.params i x else quietly x
  | .recordApplied =>
    match s.engine.applying with
    | some r => if i = r.cell then recordAtCell s.params s.ctl.liveHalf s.pulse r.weight i x else quietly x
    | none => quietly x
  | .auxAsserted n =>
    if s.ctl.state = .opened ∧ i = Config.arrayCells + n.val then lineUpAtCell s.params s.ctl.liveHalf i x else quietly x
  | .auxDeasserted n => if i = Config.arrayCells + n.val then lineDownAtCell s.params i x else quietly x
  | _ => quietly x

/-- The notices that the cells send at an event row before any end of settling and any open; the Occupancy Counter takes them while OPEN
or SETTLING (R20). -/
def cellNotices (c : Instr) (s : State) : List Notice :=
  if s.measuring then noticesOf (eachCell (rowAtCell c s) 0 s.cells) else []

/-- The current occupancy after notices, taken one after the other (R20). -/
def countAfter (n : Nat) (l : List Notice) : Nat :=
  l.foldl (fun k x => match x with | .becameHot => k + 1 | .becameCold => k - 1) n

/-- One of the notices raises the current occupancy, from `n` on, above a limit (R21). -/
def RisesAbove (limit n : Nat) (l : List Notice) : Prop := ∃ k, l[k]? = some .becameHot ∧ limit < countAfter n (l.take (k + 1))

/-- The quantities that PROBE_CELL and the frame carry, in their order, by mode (section 10.3.2). -/
def Mode.carried : Mode → List Quantity
  | .seqDw12On20 | .seqDw16On16 => [.dwell, .onset]
  | .conDw12Ep4 => [.dwell, .episodes]
  | .conDw16 => [.dwell]
  | .conOn16 => [.onset]
  | .conEp16 => [.episodes]
  | .seqAc32 | .conAc16 => [.accesses]

/-- The largest number of a quantity in a mode that keeps it (R37). -/
def Mode.largest : Mode → Quantity → Nat
  | .seqDw12On20, .dwell => 4095
  | .seqDw12On20, .onset => 1048575
  | .seqAc32, .accesses => 4294967295
  | .conDw12Ep4, .dwell => 4095
  | .conDw12Ep4, .episodes => 15
  | _, _ => 65535

/-- A cell held at rest by deep mask (R14). -/
def Cell.DeepMasked (p : Params) (c : Cell) : Prop := p.deepMask = true ∧ c.mask = true

/-- A cell that takes part in the measurement: unmasked, its bank not gated (R10, R20). -/
def Cell.TakesPart (p : Params) (i : Nat) (c : Cell) : Prop := c.mask = false ∧ p.bankGate.getLsbD (i / 64) = false

/-- The conditions 1 to 7 of R39. -/
def Cell.CountsDwell (p : Params) (h : Half) (i : Nat) (c : Cell) : Prop :=
  c.activity = .hot ∧ c.mask = false ∧ p.bankGate.getLsbD (i / 64) = false
    ∧ (p.mode = .seqDw12On20 ∨ p.mode = .seqDw16On16 ∨ p.mode = .conDw12Ep4 ∨ p.mode = .conDw16)
    ∧ c.quantity p.mode h .dwell < p.mode.largest .dwell ∧ c.truncated = false
    ∧ (p.dwellLaw = .cumulative ∨ c.firstDone = false)

/-- The cells that a direct-path pulse drives (R15, R141). -/
def Cell.PulseDriven (p : Params) (i : Nat) (c : Cell) : Prop :=
  c.test = true ∧ p.bankGate.getLsbD (i / 64) = false ∧ ¬ c.DeepMasked p

/-- A row delivers a dwell tick: an expiry of the settle cap that waits, and that ends settling, leaves no tick to deliver (R88, log 5). -/
def DeliversDwell (c : Instr) (s : State) : Prop := BringsDwell c s ∧ ¬ (s.CapWaits ∧ s.engine.applying = none)

/-- The end of the pulse that a dwell tick brings has stopped a cell that counted: it turned COLD, and would be counting still. -/
def State.PulseStops (s : State) : Prop :=
  ∃ (i : Nat) (c d : Cell), s.cells[i]? = some c ∧ (dwellTaken s.dwellRestarted).cells[i]? = some d ∧ d.activity = .cold
    ∧ c.CountsDwell s.params s.ctl.liveHalf i
    ∧ { d with activity := .hot, firstDone := c.firstDone }.CountsDwell s.params s.ctl.liveHalf i

/-- What a snapshot that is taken together with an event, whose row takes `s` to `t`, finds (R186): each owner before its part of the
event or after it; the controller and the Occupancy Counter also between two notices that the row sends to them (R20, R66); the
Readout Engine also between the end of one frame and the start of the next; some of the causes that the event sets. No effect is found
without its sender's part: a frame starts, the array rests, and a window opens at a notice of the controller, and a cause is pending only
where the controller or the counter that sends it has sent it. -/
structure FoundAmid (c : Instr) (s t v : State) : Prop where
  port : v.port = s.port
  ctl : v.ctl = s.ctl ∨ v.ctl = t.ctl ∨ PartlyTold c s t v.ctl
  engine : v.engine = s.engine ∨ v.engine = t.engine
  tpg : v.tpg = s.tpg ∨ (v.tpg = t.tpg ∧ v.ctl = t.ctl)
    ∨ BringsDwell c s ∧ v.tpg = (match s.tpg with | .active (n + 2) => .active (n + 1) | _ => .idle)
  /-- With the generator still TP_ACTIVE before a tick that ends its pulse, nothing shows that the end of the pulse brings: the counter
  has taken no notice of it, and no settling has ended that waits for it. -/
  pulse : DeliversDwell c s → s.tpg.LastTick → v.tpg ≠ .idle →
    (v.occ.current = s.occ.current ∨ v.ctl = t.ctl ∧ (t.measuring = false ∨ t.ctl.nextFrame ≠ s.ctl.nextFrame))
      ∧ (v.ctl = t.ctl → t.measuring = false ∨ t.ctl.nextFrame ≠ s.ctl.nextFrame → ¬ s.PulseStops)
  /-- After some of the notices of the row's cells, in some order; with the controller after the row, at rest, or after some of the
  notices of an open. OCCUPANCY is newly pending only where one of the notices taken has raised the count above OCC_LIMIT. -/
  occupancy : ∃ taken left : List Notice, (taken ++ left).Perm (cellNotices c s)
    ∧ (v.occ.current = countAfter s.occ.current taken
      ∨ v.ctl = t.ctl ∧ s.measuring = true ∧ (t.measuring = false ∨ t.ctl.nextFrame ≠ s.ctl.nextFrame) ∧ v.occ.current = 0
      ∨ v.ctl = t.ctl ∧ t.ctl.nextFrame ≠ s.ctl.nextFrame ∧ v.occ.current ≤ t.occ.current)
    ∧ (v.attn.getLsbD 5 = true → s.attn.getLsbD 5 = true ∨ RisesAbove s.params.occLimit s.occ.current taken
      ∨ v.ctl = t.ctl ∧ t.ctl.nextFrame ≠ s.ctl.nextFrame ∧ s.params.occLimit < v.occ.current)
  attn : ∃ causes : BitVec 8, v.attn = s.attn ||| (t.attn &&& causes)
  /-- OVERRUN, MISSED_OPEN and TRUNCATED come with the controller's part of the row, SHED with the notice that sets it. -/
  sender : (v.attn.getLsbD 1 = true → s.attn.getLsbD 1 = true ∨ v.ctl = t.ctl)
    ∧ (v.attn.getLsbD 6 = true → s.attn.getLsbD 6 = true ∨ v.ctl = t.ctl)
    ∧ (v.attn.getLsbD 2 = true → s.attn.getLsbD 2 = true ∨ v.ctl = t.ctl ∨ PartlyTold c s t v.ctl)
    ∧ (v.attn.getLsbD 4 = true → s.attn.getLsbD 4 = true ∨ v.ctl = t.ctl)
  readout : (t.readout.emitted = s.readout.emitted → v.readout = s.readout ∨ (v.readout = t.readout ∧ v.ctl = t.ctl))
    ∧ (t.readout.emitted ≠ s.readout.emitted → v = s ∨ v.readout = { frame := none, emitted := t.readout.emitted }
        ∨ (v.readout = t.readout ∧ v.ctl = t.ctl))

/-- A row of an event that can come together with a request: no row of the management port and none of RST_N (R153, R175), and no
delivery of a byte where the TBCLK period has had its own, which FSTB tells (R126, R127). -/
def IsEvent (c : Instr) (s : State) : Prop :=
  match c with
  | .aresetNAsserted | .handshakePresented _ _ | .holdTimerExpiry _ | .recordTake | .recordApplied | .decayTick | .dwellTick
  | .onsetTick | .windowTimerExpiry | .settleCapExpiry | .pulseEnd | .winNFallingEdge | .winNRisingEdge | .auxAsserted _
  | .auxDeasserted _ | .loadStep | .readStep => True
  | .frameByteDelivery => s.pins.fstb = false
  | _ => False

/-- Both conditions of the end of settling (R39, R86). -/
def State.SettlingOver (s : State) : Prop :=
  s.ctl.state = .settling ∧ s.queue.records = [] ∧ s.engine.applying = none
    ∧ ∀ (i : Nat) (c : Cell), s.cells[i]? = some c → ¬ c.CountsDwell s.params s.ctl.liveHalf i

/-- What a part of a tick does at a cell (R8, R33, R40, R47, R141, R142, R143). `s` is the state that the tick meets. At a decay tick the cell goes by the
parameter table in force, or by that which a SET_PARAM directly behind writes (R170, log 23). -/
def TakesPart (s : State) (part : TickPart) (i : Nat) (c : Cell) (o : CellOut) : Prop :=
  let h := s.ctl.liveHalf
  match part with
  | .decay =>
    if i < 4096 then
      ∃ p, (p = s.params ∨ s.WrittenBehind p) ∧ o = evaluate p h (decide (s.tpg ≠ .idle)) i { c with level := c.level - p.decayStep }
    else o = quietly c
  | .dwell =>
    (c.CountsDwell s.params h i → o = quietly (c.bump s.params.mode h .dwell)) ∧ (¬ c.CountsDwell s.params h i → o = quietly c)
  | .pulseEnd =>
    let held : Prop := s.params.testPath = .direct ∧ c.PulseDriven s.params i ∧ c.activity = .hot
    (held → o = turnCold s.params i c) ∧ (¬ held → o = quietly c)
  | .pulseStart =>
    (¬ c.PulseDriven s.params i → o = quietly c)
    ∧ (s.params.testPath = .direct → c.PulseDriven s.params i →
        o = if c.activity = .cold then turnHot s.params h i c else quietly c)
    ∧ (s.params.testPath = .integrator → c.PulseDriven s.params i → 4096 ≤ i → o = quietly c)
    ∧ (s.params.testPath = .integrator → c.PulseDriven s.params i → i < 4096 →
        let x := evaluate s.params h true i { c with level := min 4095 (c.level + s.params.testWeight) }
        o = { x with cell := if x.cell.mask then x.cell else x.cell.bump s.params.mode h .accesses })

/-- What parts of ticks do at a cell that takes them one after the other. -/
def TakesParts (s : State) : List TickPart → Nat → Cell → CellOut → Prop
  | [], _, c, o => o = quietly c
  | part :: parts, i, c, o => ∃ a b, TakesPart s part i c a ∧ TakesParts s parts i a.cell b
      ∧ o = { cell := b.cell, report := a.report || b.report, notices := a.notices ++ b.notices }

/-- A tick that takes `v` to `u`, each cell taking its parts in its order. With `late` the array comes to rest in the event, and the
Occupancy Counter may take the last notices of a cell after it, where they change nothing (R20; which, the model draws freely: DESIGN
CHOICE, log 1). -/
def TickTaken (s : State) (parts : Nat → List TickPart) (late : Prop) (v u : State) : Prop :=
  ∃ f, ArrayOutcome f v u
    ∧ ∀ i c, ∃ o, TakesParts s (parts i) i c o ∧ (f i c = o ∨ late ∧ ∃ k, f i c = { o with notices := o.notices.take k })

/-- The parts that a dwell tick has for each cell: the tick, the end of the pulse where it is the last of one (R143), and a decay tick that
has waited for it (log 24). -/
def State.dwellDue (s : State) : List TickPart :=
  .dwell :: (match s.tpg with | .active 0 | .active 1 => [.pulseEnd] | _ => []) ++ (if s.decayWaits then [.decay] else [])

/-- The truncation of every counting cell (R88 step 4, R89): `u` is `v` after it. -/
structure TruncationOf (v u : State) : Prop where
  kept : u = { v with cells := u.cells, ctl := { v.ctl with desc := u.ctl.desc } }
  cut : ∀ (i : Nat) (c : Cell), v.cells[i]? = some c → c.CountsDwell v.params v.ctl.liveHalf i → u.cells[i]? = some { c with truncated := true }
  spared : ∀ (i : Nat) (c : Cell), v.cells[i]? = some c → ¬ c.CountsDwell v.params v.ctl.liveHalf i → u.cells[i]? = some c
  absent : ∀ i : Nat, v.cells[i]? = none → u.cells[i]? = none
  desc : ∀ d, v.ctl.desc = some d → ∃ e, u.ctl.desc = some e
    ∧ e = { d with truncated := d.truncated + (countingCells v).length, bankTruncated := e.bankTruncated }
    ∧ e.bankTruncated.length = d.bankTruncated.length
    ∧ ∀ b n, d.bankTruncated[b]? = some n →
        e.bankTruncated[b]? = some (n + ((countingCells v).filter fun i => i / 64 == b).length)

/-- The whole array at rest, the generator idle, the decay and dwell dividers stopped (R19, R31). -/
def State.rested (s : State) : State :=
  { s with
    cells := s.cells.map fun c => { c with level := 0, activity := .cold }
    occ := { s.occ with current := 0 }
    tpg := .idle
    ticks := { s.ticks with decay := { s.ticks.decay with running := false }, dwell := { s.ticks.dwell with running := false } } }

/-- The frame that starts with a final descriptor (R118). The kind item is DATA before the first bank record, where R117 and R118 give
it no value (DESIGN CHOICE, log 8). -/
def State.freshFrame (s : State) (d : Descriptor) : Frame where
  desc := d
  unit := s.params.unitId
  suppress := s.params.zeroSuppress
  gated := s.params.bankGate
  position := .header 0
  kind := .data
  abortTaken := false
  crc := 0xFFFFFFFF
  byteCount := 0

/-- The cycle in progress continues (R100). -/
def State.cycleContinues (s : State) : Prop := s.ctl.cycleOn = true ∧ (s.params.cycleCount = 0 ∨ 0 < s.ctl.cyclesLeft)

/-- A state whose gates are open, each held handshake passed to the memory side (R50, R69). -/
def State.gatesOpened (s : State) : State :=
  { s with path := {
      rd := none
      wr := none
      memRd := match s.path.rd with | some h => some h.handshake | none => s.path.memRd
      memWr := match s.path.wr with | some h => some h.handshake | none => s.path.memWr } }

/-- The meaning of a handshake on one channel alone. -/
def presentedOn (ch : Channel) (hs : Handshake) : Instr :=
  match ch with
  | .read => .handshakePresented (some hs) none
  | .write => .handshakePresented none (some hs)

/-- The record of a bank in a frame that starts at `s` (R119, R122, R123). -/
def Frame.bankRecord (s : State) (f : Frame) (b : Nat) : List Byte :=
  let words := (s.bankOf b).map fun c => valueWord f.desc.mode s.frozenHalf c
  let truncated := BitVec.ofNat 8 (f.desc.bankTruncated.getD b 0)
  if f.gated.getLsbD b then [BitVec.ofNat 8 b, 0x03, truncated]
  else if f.suppress = true ∧ ∀ w ∈ words, w = 0 then [BitVec.ofNat 8 b, 0x02, truncated]
  else [BitVec.ofNat 8 b, 0x01, truncated] ++ words.flatMap (beBytes (if f.desc.mode.sequential then 4 else 2))

/-- The trailer behind the bytes of a frame that have been sent: end marker, completion, the count of all bytes of the frame, the CRC of
the bytes before it (R129, R130, R192). -/
def trailerAfter (sent : List Byte) (completion : Byte) : List Byte :=
  let counted := [0xE7, completion] ++ beBytes 4 (sent.length + 10)
  counted ++ beBytes 4 (crc32 (sent ++ counted)).toNat

/-- The bytes of a frame that starts at `s` and completes (R119, R129, R130, R192). -/
def Frame.image (s : State) (f : Frame) : List Byte :=
  let body := f.headerBytes ++ f.desc.onsets.flatMap OnsetEntry.bytes ++ (List.range 65).flatMap (f.bankRecord s)
  body ++ trailerAfter body 0x01

/-- What an abort leaves to be sent before the trailer, by the position at its take (R134). -/
def Frame.afterAbort (s : State) (f : Frame) : List Byte :=
  match f.position with
  | .header k => f.headerBytes.drop k ++ f.desc.onsets.flatMap OnsetEntry.bytes
  | .onsets e k => (f.desc.onsets.flatMap OnsetEntry.bytes).drop (5 * e + k)
  | .bank _ 0 => []
  | .bank b k => (f.bankRecord s b).drop k
  | .trailer _ => []

/-- A position that a frame reaches before its trailer, the kind of a bank record that has begun decided as the record has it (R117,
R119, R122). -/
def Frame.BeforeTrailer (s : State) (f : Frame) : Prop :=
  match f.position with
  | .header k => k < 28
  | .onsets e k => e < f.desc.onsets.length ∧ k < 5
  | .bank b k => b ≤ 64 ∧ (0 < k → k < (f.bankRecord s b).length ∧ (f.bankRecord s b)[1]? = some f.kind.code)
  | .trailer _ => False

/-- The running CRC and the byte count of a frame are those of the bytes that it has sent (R127, R130). -/
def Frame.HasSent (f : Frame) (sent : List Byte) : Prop :=
  f.crc = sent.foldl crc32Byte 0xFFFFFFFF ∧ f.byteCount = sent.length

/-- The bytes that `n` deliveries put on FD, and the state after them. -/
def delivered : Nat → State → List Byte × State
  | 0, s => ([], s)
  | n + 1, s =>
    match exec .frameByteDelivery s with
    | .next t => (t.pins.fd :: (delivered n t).1, (delivered n t).2)
    | _ => ([], s)

end Sys2Proof.Machine
end

