-- ==== Sys2Proof/Certificates/Slice0/Obligations.lean ====
section
/-! DEFINITION. The statements for the provers, in the terms of the rules. A statement about a request says what
`Sys2Proof.Machine.exec` answers for every argument list that the request can carry. -/

open Sys2Proof Sys2Proof.Machine

/-! ## The machine -/

/-- The step on a queue that is not empty (the row's form of a block). -/
def Obligations.StepRunsTheFrontCommand : Prop :=
  ∀ (c : Instr) (rest : List Instr) (s : State), s.pending = c :: rest → step s = exec c { s with pending := rest }

/-- No command stops the part, and none touches the commands that wait behind it (logs 6, 16). -/
def Obligations.EveryCommandCompletesAndKeepsTheQueue : Prop :=
  ∀ (c : Instr) (s : State), ∃ t, exec c s = .next t ∧ t.pending = s.pending

/-- The model's step on an empty queue (log 3, DESIGN CHOICE): a settle cap's expiry that waits comes first (R88, log 5); otherwise one
TBCLK period passes. What a period is, is said for every state, since one passes as well between two deliveries of a byte (log 3): each
RUNNING divider and each hold timer counts it, up to one below its period or limit (R29, R30, R67), and the frame port delivers nothing.
Then the events that the period brings happen, each as its own row does: a tick where a divider reaches its period (R30), a hold's expiry
where its timer reaches its limit (R67); several one after the other in some order, each with the rows of the rest directly behind it, so
that two ticks of one period can come together at the cells as two rows can (R33; logs 22, 24), and none that another has stopped or that
belongs to a window that is over. In a period no row of a sender comes together with an event: the queue is empty, or hidden where the
period passes before a delivery. -/
def Obligations.OnePeriodPassesOnAnEmptyQueue : Prop :=
  ∀ s : State,
    let count (d : Divider) (period : Nat) : Divider :=
      { d with count := if d.running = true ∧ d.count + 1 < period then d.count + 1 else d.count }
    let countHold (h : Hold) : Hold := { h with timer := if h.timer + 1 < h.limit then h.timer + 1 else h.timer }
    let counted : State := { s with
      pins := { s.pins with fstb := false, fsof := false }
      ticks := {
        decay := count s.ticks.decay s.params.decayDiv
        dwell := count s.ticks.dwell s.params.dwellDiv
        onset := count s.ticks.onset s.params.onsetDiv }
      path := { s.path with rd := s.path.rd.map countHold, wr := s.path.wr.map countHold } }
    let brings (u : State) (e : Due) : Prop :=
      match e with
      | .decay => u.ticks.decay.running = true ∧ u.params.decayDiv ≤ u.ticks.decay.count + 1
      | .dwell => u.ticks.dwell.running = true ∧ u.params.dwellDiv ≤ u.ticks.dwell.count + 1
      | .onset => u.ticks.onset.running = true ∧ u.params.onsetDiv ≤ u.ticks.onset.count + 1
      | .hold ch => ∃ h, u.hold ch = some h ∧ h.limit ≤ h.timer + 1
    let last (u : State) (r : State) : Prop :=
      (u.CapWaits → exec .settleCapExpiry u = .next r) ∧ (¬ u.CapWaits → r = u)
    (s.pending = [] → s.CapWaits → step s = exec .settleCapExpiry s)
    ∧ (s.pending = [] → ¬ s.CapWaits → step s = .next (tbclkPeriod s))
    ∧ ((∀ e, ¬ brings s e) → tbclkPeriod s = counted)
    ∧ (s.pending = [] → ∀ e, brings s e → (∀ x, brings s x → x = e) →
        ∃ u, exec e.row { counted with free := s.free + 1 } = .next u ∧ last u (tbclkPeriod s))
    ∧ (s.pending = [] → ∀ e, brings s e →
        ∃ (order : List Due) (u : State), (∀ x, x ∈ order ↔ brings s x) ∧ order.Nodup
          ∧ u = happenAll s.ctl.nextFrame order { counted with free := s.free + 1 } ∧ last u (tbclkPeriod s))
    ∧ ∀ (n : Nat) (u : State), happenAll n [] u = u
        ∧ ∀ (e : Due) (l : List Due), ∃ v : State, happenAll n (e :: l) u = happenAll n l v
            ∧ (u.ctl.nextFrame = n → brings u e → exec e.row { u with pending := l.map Due.row } = .next v)
            ∧ (u.ctl.nextFrame ≠ n ∨ ¬ brings u e → v = { u with pending := l.map Due.row })

/-- The state right after reset meets every invariant that a statement says the step keeps. -/
def Obligations.ResetMeetsTheInvariants : Prop :=
  State.reset.Sized ∧ State.reset.AttnFollows ∧ State.reset.HandOffInv ∧ State.reset.RestInv ∧ State.reset.OccupancyExact
    ∧ State.reset.params.Legal ∧ State.reset.StorageInv ∧ State.reset.WindowsAccounted ∧ State.reset.OnsetListInv

/-! ## Transactions and requests -/

/-- NOP (R163). -/
def Obligations.NopIsTakenInEveryState : Prop :=
  ∀ (args : List Byte) (s : State), s.port.decoder = .receiving → args.length ≤ 255 →
    exec (.nop args) s = .next (s.answered 0x01 args (if args = [] then .ok else .badLength) [])

/-- Steps 2 and 3 of the take (R157), for every length that a length byte can carry (R155). -/
def Obligations.LongOrUnknownRequestIsRefused : Prop :=
  (∀ p ∈ requests, ∀ (args : List Byte) (s : State), s.port.decoder = .receiving → 72 < args.length → args.length ≤ 255 →
      exec (p.2 args) s = .next (s.answered p.1 args .badLength []))
    ∧ ∀ (code : Byte) (args : List Byte) (s : State), s.port.decoder = .receiving → args.length ≤ 255 →
        (∀ p ∈ requests, p.1 ≠ code) → exec (.unknownCommand code args) s = .next (s.answered code args .unknown [])

/-- Step 1 of the take (R157): BAD_CHECK, and cause COMMAND_FAULT. -/
def Obligations.BadCheckIsRefusedAndSetsCommandFault : Prop :=
  ∀ (code : Byte) (args : List Byte) (check : Byte) (s : State), s.port.decoder = .receiving → args.length ≤ 255 →
    check ≠ crc8 (code :: BitVec.ofNat 8 args.length :: args) →
    exec (.badCheckRequest code args check) s =
      .next { s.withPending (s.attn ||| 0x80) with port := s.port.afterTake code args check .badCheck [] }

/-- The transaction decoder (R154) and the serial lines (R153): MCS_N falls, the response is sent, MCS_N rises in each state; MSO is
high impedance while MCS_N is high or RST_N is asserted, and else driven. The bits of a request are taken at the rising edges of
MSCK, most significant first, with MSO low; those of the response are on MSO at the rising edges, whatever the host drives on MSI; in
TRAILING MSO is low. In IGNORING it is low too, by the model's choice (log 15). -/
def Obligations.TransactionEventsMoveTheDecoder : Prop :=
  ∀ s : State,
    (s.mso = if s.pins.rstLow = true ∨ s.pins.mcsLow = false then .released else .driven s.port.mso)
    ∧ (s.pins.rstLow = false → s.port.decoder = .deselected →
      exec .transactionStart s = .next { s with pins := { s.pins with mcsLow := true }, port := s.port.between .receiving })
    ∧ ((s.pins.rstLow = true ∨ s.port.decoder ≠ .deselected) →
      exec .transactionStart s = .next { s with pins := { s.pins with mcsLow := true } })
    ∧ (∀ (code : Byte) (args : List Byte) (check : Byte), s.port.decoder = .receiving → args.length ≤ 255 →
      let bits := bitsOf ([code, BitVec.ofNat 8 args.length] ++ args ++ [check])
      let start : Port :=
        { s.port with bitCount := 0, requestBytes := 0, declaredLength := 0, code := 0, args := [], runningCheck := 0 }
      Port.sampled bits start = List.replicate (8 * (args.length + 3)) false
        ∧ start.clockAll bits = { s.port.afterTake code args check .ok [] with
            decoder := .receiving, response := s.port.response, responseSent := s.port.responseSent })
    ∧ (∀ r, s.port.decoder = .responding → s.port.response = some r →
      exec .responseSent s = .next { s with port := { s.port with
          msck := true, mso := r.check.getLsbD 0, decoder := .trailing, bitCount := 0, responseSent := r.data.length + 3 } }
        ∧ ∀ driven : List Bool, driven.length = 8 * (r.data.length + 3) →
          let start : Port := { s.port with bitCount := 0, responseSent := 0 }
          Port.sampled driven start =
              bitsOf ([BitVec.ofNat 8 r.status.number, BitVec.ofNat 8 r.data.length] ++ r.data ++ [r.check])
            ∧ (start.clockAll driven).decoder = .trailing)
    ∧ (s.port.decoder = .trailing ∨ s.port.decoder = .ignoring → ∀ driven : List Bool,
      Port.sampled driven s.port = List.replicate driven.length false ∧ (s.port.clockAll driven).decoder = s.port.decoder)
    ∧ (s.pins.rstLow = false →
      let ended : State := { s with pins := { s.pins with mcsLow := false }, port := s.port.between .deselected }
      exec .responseAbandoned s = .next ended ∧ exec .transactionEnd s = .next ended
        ∧ ∀ bits, exec (.truncatedRequest bits) s =
            .next (if s.port.decoder = .receiving ∧ 0 < bits then ended.withPending (s.attn ||| 0x80) else ended))
    ∧ (s.pins.rstLow = true →
      let lifted : State := { s with pins := { s.pins with mcsLow := false }, port := { s.port with msck := false } }
      exec .responseAbandoned s = .next lifted ∧ exec .transactionEnd s = .next lifted
        ∧ ∀ bits, exec (.truncatedRequest bits) s = .next lifted)

/-- The CRC-8 of a request finds every damage that lies within one byte, and a message with its own check byte behind it has check
0 (R156). -/
def Obligations.OneDamagedByteChangesTheCheck : Prop :=
  (∀ (before after : List Byte) (x y : Byte), x ≠ y → crc8 (before ++ x :: after) ≠ crc8 (before ++ y :: after))
    ∧ ∀ bytes : List Byte, crc8 (bytes ++ [crc8 bytes]) = 0

/-- GET_STATUS: the 27 bytes of the snapshot, field by field (R164, R185, section 10.2.4). An event that comes together with the take
stands directly behind it in the queue (log 21, DESIGN CHOICE): the fields are then read amid the event (R186), which itself is still to
come. `FoundAmid` says what such a reading can find: each owner before or after its part, or between two notices that the row really
sends it, and no effect without its sender's part. -/
def Obligations.GetStatusReportsEveryField : Prop :=
  ∀ s : State, s.port.decoder = .receiving →
    (∀ args : List Byte, args ≠ [] → args.length ≤ 255 → exec (.getStatus args) s = .next (s.answered 0x02 args .badLength []))
    ∧ ((∀ c, s.pending.head? = some c → ¬ IsEvent c s) →
        ∃ data : List Byte, exec (.getStatus []) s = .next (s.answered 0x02 [] .ok data) ∧ SnapshotOf s data)
    ∧ ∀ c : Instr, s.pending.head? = some c → IsEvent c s →
        let read : State := { s with free := s.free + 1 }
        ∃ (t v : State) (data : List Byte), exec c read = .next t ∧ FoundAmid c read t v ∧ SnapshotOf v data
          ∧ exec (.getStatus []) s = .next (read.answered 0x02 [] .ok data)

/-! ## Parameters, attention, resets -/

/-- SET_PARAM: the five checks in order, and the write (R167, R168), with the identifier, the value length and the class of each
parameter as the table gives them (R166, R194). -/
def Obligations.SetParamChecksAndWrites : Prop :=
  (∀ id : ParamId, (id.code, id.length, id.paramClass) = id.row)
    ∧ ∀ s : State, s.port.decoder = .receiving →
    exec (.setParam []) s = .next (s.answered 0x10 [] .badLength [])
    ∧ (∀ (b : Byte) (value : List Byte), value.length < 72 → (∀ id : ParamId, id.row.1 ≠ b) →
        exec (.setParam (b :: value)) s = .next (s.answered 0x10 (b :: value) .badArg []))
    ∧ ∀ (id : ParamId) (value : List Byte),
        let args := id.row.1 :: value
        (value.length ≠ id.row.2.1 → value.length < 255 → exec (.setParam args) s = .next (s.answered 0x10 args .badLength []))
        ∧ (value.length = id.row.2.1 → s.params.write id (beNat value) = none →
          exec (.setParam args) s = .next (s.answered 0x10 args .badArg []))
        ∧ ∀ p, value.length = id.row.2.1 → s.params.write id (beNat value) = some p →
            let met := id.row.2.2 = .any ∨ (s.ctl.state = .idle ∧ s.engine.op = .idle
              ∧ (id.row.2.2 = .rest → s.ctl.frozen = none ∧ s.readout.frame = none))
            (¬ met → exec (.setParam args) s = .next (s.answered 0x10 args .wrongState []))
            ∧ (met → id ≠ .attnEnable → exec (.setParam args) s = .next ({ s with params := p }.answered 0x10 args .ok []))
            ∧ (met → id = .attnEnable →
                exec (.setParam args) s = .next (({ s with params := p }.withPending s.attn).answered 0x10 args .ok []))

/-- Check 4 of R168 passes exactly the numbers of the table (R194) that keep the alignment of R169; the table then holds the value of
that number, by the encodings of R194, and every other parameter its own. -/
def Obligations.ParameterWritesFollowTheTable : Prop :=
  ∀ (p : Params) (id : ParamId) (v : Nat),
    ((p.write id v).isSome = true ↔
      id.range.1 ≤ v ∧ v ≤ id.range.2
        ∧ (id = .mapBase → v % (4096 * 2 ^ p.mapGranule) = 0) ∧ (id = .mapGranule → p.mapBase % (4096 * 2 ^ v) = 0))
    ∧ ∀ q, p.write id v = some q → q.number id = v ∧ ∀ j, j ≠ id → q.number j = p.number j

/-- GET_PARAM returns the value held, in its value length (R171), by the encodings of R194; after a write it is the bytes written,
byte for byte. -/
def Obligations.GetParamReturnsTheBytesWritten : Prop :=
  (∀ s : State, s.port.decoder = .receiving →
      (∀ id : ParamId, exec (.getParam [id.row.1]) s =
        .next (s.answered 0x11 [id.row.1] .ok (beBytes id.row.2.1 (s.params.number id))))
      ∧ (∀ b : Byte, (∀ id : ParamId, id.row.1 ≠ b) → exec (.getParam [b]) s = .next (s.answered 0x11 [b] .badArg []))
      ∧ ∀ args : List Byte, args.length ≠ 1 → args.length ≤ 255 →
          exec (.getParam args) s = .next (s.answered 0x11 args .badLength []))
    ∧ ∀ (p q : Params) (id : ParamId) (value : List Byte), value.length = id.row.2.1 → p.write id (beNat value) = some q →
        beBytes id.row.2.1 (q.number id) = value

/-- CLEAR_ATTENTION (R165, R183): the named causes leave the pending set, ATTN_N follows, nothing else changes. Causes on their way from
the event directly before it arrive after the clear (R184); that they are held in a field of the model's own is its form (log 21,
DESIGN CHOICE), as is their arrival where no request comes (log 6). -/
def Obligations.ClearAttentionRemovesTheNamedCauses : Prop :=
  ∀ s : State, s.port.decoder = .receiving →
    (∀ set : Byte, exec (.clearAttention [set]) s =
      .next ({ s.withPending ((s.attn &&& ~~~ set) ||| s.arriving) with arriving := 0 }.answered 0x48 [set] .ok []))
    ∧ (∀ args : List Byte, args.length ≠ 1 → args.length ≤ 255 →
        exec (.clearAttention args) s = .next (s.answered 0x48 args .badLength []))
    ∧ ∀ (args : List Byte) (t : State), t.port.decoder ≠ .receiving → exec (.clearAttention args) t = .next t.arrived

/-- SOFT_RESET (R172): every item of section 8.8, reset or kept. Where section 8.8 is silent the clauses are the model's: the
bank number and the entries of a result buffer that is not valid stay (log 8, DESIGN CHOICE), and FD keeps its byte. Causes on their way
from the event directly before the reset arrive after it, and are then pending (R173, R180); that they are held in a field of the model's
own is its form (log 21, DESIGN CHOICE), as are the fields of logs 22 and 24, which the reset empties, and their arrival where no request
comes (log 6). -/
def Obligations.SoftResetKeepsConfigurationAlone : Prop :=
  ∀ s : State, s.port.decoder = .receiving →
    let reset (u : State) : State :=
      { u.gatesOpened with
        pins := { u.pins with fstb := false, fsof := false, attnLow := false }
        port := { u.port with lastRefusal := none }
        cells := u.cells.map fun c => { Cell.reset with mask := c.mask, test := c.test, trim := c.trim }
        occ := { current := 0, peak := 0 }
        engine := { op := .idle, result := { u.engine.result with valid := false }, mirror := u.engine.mirror, applying := none }
        ticks := { decay := { running := false, count := 0 }, dwell := { running := false, count := 0 }
                   onset := { running := false, count := 0 } }
        filter := u.filter.map fun e => { e with hits := 0 }
        queue := { records := [], history := .write }
        ctl := {
          state := .idle, desc := none, waiting := none, nextFrame := 0, windowCount := 0, settleCount := 0, cycleOn := false
          cyclesLeft := 0, missedOpens := 0, discardCarry := 0, heldCarry := false, liveHalf := .h0, frozen := none
          discardedTotal := 0 }
        readout := { frame := none, emitted := 0 }
        tpg := .idle
        attn := 0
        arriving := 0
        crossing := .reset
        decayWaits := false }
    (∀ args : List Byte, args ≠ [] → args.length ≤ 255 → exec (.softReset args) s = .next (s.answered 0x5A args .badLength []))
    ∧ exec (.softReset []) s = .next (((reset s).withPending s.arriving).answered 0x5A [] .ok [])
    ∧ ∀ (args : List Byte) (t : State), t.port.decoder ≠ .receiving → exec (.softReset args) t = .next t.arrived

/-- RST_N (R175, R176, R177): its assertion writes every block, every parameter the value of the table; its deassertion starts the
part, the decoder by MCS_N. The held handshakes pass (R70). The contents of items that have no meaning are the model's (log 8). -/
def Obligations.RstNResetsAndStartsThePart : Prop :=
  ∀ s : State,
    exec .rstNAsserted s = .next
      { State.reset with
        pending := s.pending
        free := s.free
        pins := { s.pins with rstLow := true, fd := 0, fstb := false, fsof := false, attnLow := false }
        port := { Port.reset with
          msck := s.port.msck, msi := s.port.msi, decoder := if s.pins.mcsLow then .ignoring else .deselected }
        path := s.gatesOpened.path }
    ∧ (∀ id : ParamId, State.reset.params.number id = id.resetValue)
    ∧ (s.pins.rstLow = true → exec .rstNDeasserted s = .next (State.withPending
        { s with
          pins := { s.pins with rstLow := false }
          port := { s.port with decoder := if s.pins.mcsLow then .ignoring else .deselected } } s.attn))

/-! ## The Source Filter Table -/

/-- SET_FILTER writes one entry and clears its hit count; GET_FILTER returns an entry; malformed requests are refused (R60, R61). The
bits of the entry byte are those of section 10.2.3. -/
def Obligations.FilterEntriesAreWrittenAndReadBack : Prop :=
  ∀ s : State, s.port.decoder = .receiving →
    (∀ (i : Nat) (e : FilterEntry) (x : Byte), i < 8 → e.idValue ≤ 4095 → e.idMask ≤ 4095 → e.SpelledBy x →
      let args := [BitVec.ofNat 8 i, x] ++ beBytes 2 e.idValue ++ beBytes 2 e.idMask
      (s.ctl.state = .idle ∧ s.engine.op = .idle →
          exec (.setFilter args) s =
            .next ({ s with filter := s.filter.set i { e with hits := 0 } }.answered 0x18 args .ok []))
        ∧ (¬ (s.ctl.state = .idle ∧ s.engine.op = .idle) →
          exec (.setFilter args) s = .next (s.answered 0x18 args .wrongState []))
        ∧ (s.filter[i]? = some e →
          exec (.getFilter [BitVec.ofNat 8 i]) s = .next (s.answered 0x19 [BitVec.ofNat 8 i] .ok
            (x :: (beBytes 2 e.idValue ++ beBytes 2 e.idMask ++ beBytes 4 e.hits)))))
    ∧ (∀ e : FilterEntry, e.shift ≤ 3 → e.SpelledBy e.entryByte)
    ∧ (∀ args : List Byte, args.length ≠ 6 → args.length ≤ 255 →
        exec (.setFilter args) s = .next (s.answered 0x18 args .badLength []))
    ∧ (∀ i x v1 v0 m1 m0 : Byte,
        7 < i.toNat ∨ x.getLsbD 6 = true ∨ x.getLsbD 7 = true ∨ (x.getLsbD 1 = true ∧ x.getLsbD 2 = true)
          ∨ 16 ≤ v1.toNat ∨ 16 ≤ m1.toNat →
        exec (.setFilter [i, x, v1, v0, m1, m0]) s = .next (s.answered 0x18 [i, x, v1, v0, m1, m0] .badArg []))
    ∧ (∀ args : List Byte, args.length ≠ 1 → args.length ≤ 255 →
        exec (.getFilter args) s = .next (s.answered 0x19 args .badLength []))
    ∧ ∀ i : Byte, 7 < i.toNat → exec (.getFilter [i]) s = .next (s.answered 0x19 [i] .badArg [])

/-- The table decides (R58, R59): the first entry that matches, and its hit count alone gains 1; else the default action. -/
def Obligations.FirstMatchingEntryDecides : Prop :=
  ∀ (dflt : Action) (ch : Channel) (id : BitVec 12) (table : List FilterEntry),
    let matched (e : FilterEntry) : Prop := e.valid = true ∧ (id.toNat &&& e.idMask) = (e.idValue &&& e.idMask)
      ∧ (e.direction = .any ∨ (e.direction = .read ∧ ch = .read) ∨ (e.direction = .write ∧ ch = .write))
    (∀ k e, table[k]? = some e → matched e → (∀ j x, j < k → table[j]? = some x → ¬ matched x) →
      filterDecide dflt ch id table =
        { table := table.set k { e with hits := (e.hits + 1) % 2 ^ 32 }, action := e.action, shift := e.shift })
    ∧ ((∀ e ∈ table, ¬ matched e) → filterDecide dflt ch id table = { table := table, action := dflt, shift := 0 })

/-! ## Configuration operations -/

/-- LOAD_BANK's six checks in order and its take (R23), and one LOAD_STEP: one cell takes its config, an array cell's mirror entry
the mask (R24). -/
def Obligations.LoadBankIsCheckedAndSteppedBySlot : Prop :=
  ∀ s : State,
    (s.port.decoder = .receiving →
      exec (.loadBank []) s = .next (s.answered 0x20 [] .badLength [])
      ∧ ∀ (b : Byte) (bytes : List Byte), bytes.length < 72 →
        exec (.loadBank (b :: bytes)) s = .next (
          if 64 < b.toNat then s.answered 0x20 (b :: bytes) .badArg []
          else if bytes.length ≠ (if b.toNat = 64 then 4 else 64) then s.answered 0x20 (b :: bytes) .badLength []
          else if bytes.any (fun x => x.getLsbD 7) then s.answered 0x20 (b :: bytes) .badArg []
          else if s.engine.op ≠ .idle then s.answered 0x20 (b :: bytes) .busy []
          else if s.ctl.state ≠ .idle then s.answered 0x20 (b :: bytes) .wrongState []
          else { s with engine := { s.engine with
              op := .loading b.toNat 0 bytes, result := { s.engine.result with valid := false } } }.answered
                0x20 (b :: bytes) .ok []))
    ∧ ∀ (b k : Nat) (bytes : List Byte) (x : Byte), s.engine.op = .loading b k bytes → bytes[k]? = some x →
        x.getLsbD 7 = false →
        exec .loadStep s = .next { s with
          cells := s.cells.modify (64 * b + k) fun c =>
            { c with mask := x.getLsbD 6, test := x.getLsbD 5, trim := (x.setWidth 5).toInt }
          engine := { s.engine with
            op := if k + 1 < (if b = 64 then 4 else 64) then .loading b (k + 1) bytes else .idle
            mirror := if 64 * b + k < 4096 then s.engine.mirror.set (64 * b + k) (x.getLsbD 6) else s.engine.mirror } }

/-- The steps of a LOAD_BANK, run one after the other: every cell of the bank and no other holds the config of its byte, the mirror
holds the masks, and the operation has completed (R24). -/
def Obligations.LoadStepsConfigureTheWholeBank : Prop :=
  ∀ (b : Nat) (bytes : List Byte) (s : State), b ≤ 64 → bytes.length = (if b = 64 then 4 else 64) →
    (∀ x ∈ bytes, x.getLsbD 7 = false) → s.cells.length = 4100 → s.engine.mirror.length = 4096 →
    s.engine.op = .loading b 0 bytes → s.pending = List.replicate bytes.length .loadStep →
    ∃ t : State, Host.Core.run Sys2Proof.core bytes.length s = .next t
      ∧ t = { s with pending := [], cells := t.cells, engine := { s.engine with op := .idle, mirror := t.engine.mirror } }
      ∧ t.cells.length = 4100 ∧ t.engine.mirror.length = 4096
      ∧ (∀ (i : Nat) (c : Cell), s.cells[i]? = some c → t.cells[i]? = some (
          if i / 64 = b then
            { c with mask := (bytes.getD (i % 64) 0).getLsbD 6, test := (bytes.getD (i % 64) 0).getLsbD 5
                     trim := ((bytes.getD (i % 64) 0).setWidth 5).toInt }
          else c))
      ∧ ∀ (i : Nat) (m : Bool), s.engine.mirror[i]? = some m →
          t.engine.mirror[i]? = some (if i / 64 = b then (bytes.getD (i % 64) 0).getLsbD 6 else m)

/-- READ_BANK and FETCH_RESULT by their checks (R25, R26). -/
def Obligations.ReadBankAndFetchAreCheckedInOrder : Prop :=
  ∀ s : State, s.port.decoder = .receiving →
    (∀ args : List Byte, args.length ≠ 1 → args.length ≤ 255 → exec (.readBank args) s = .next (s.answered 0x21 args .badLength []))
    ∧ (∀ b : Byte, exec (.readBank [b]) s = .next (
        if 64 < b.toNat then s.answered 0x21 [b] .badArg []
        else if s.engine.op ≠ .idle then s.answered 0x21 [b] .busy []
        else if s.ctl.state ≠ .idle then s.answered 0x21 [b] .wrongState []
        else { s with engine := { s.engine with
            op := .reading b.toNat 0, result := { bank := b.toNat, entries := [], valid := false } } }.answered 0x21 [b] .ok []))
    ∧ (∀ args : List Byte, args ≠ [] → args.length ≤ 255 → exec (.fetchResult args) s = .next (s.answered 0x22 args .badLength []))
    ∧ (∀ b k, s.engine.op = .reading b k → exec (.fetchResult []) s = .next (s.answered 0x22 [] .busy []))
    ∧ (∀ b k bytes, s.engine.op = .loading b k bytes → exec (.fetchResult []) s = .next (s.answered 0x22 [] .wrongState []))
    ∧ (s.engine.op = .idle → s.engine.result.valid = false →
        exec (.fetchResult []) s = .next (s.answered 0x22 [] .wrongState []))
    ∧ (s.engine.op = .idle → s.engine.result.valid = true →
        exec (.fetchResult []) s = .next (s.answered 0x22 [] .ok
          (BitVec.ofNat 8 s.engine.result.bank :: s.engine.result.entries.map CellConfig.encode)))

/-- READ_STEP: the entry of the slot takes mask, test and reported trim of its cell (R4, R25); and the steps of a READ_BANK run one
after the other fill the buffer with the whole bank. -/
def Obligations.ReadStepsFillTheResultBuffer : Prop :=
  ∀ (b : Nat) (s : State),
    let reported (c : Cell) : CellConfig :=
      { mask := c.mask, test := c.test, trim := if s.params.deepMask = true ∧ c.mask = true then 15 else c.trim }
    let size := if b = 64 then 4 else 64
    (∀ k c, s.engine.op = .reading b k → s.cells[64 * b + k]? = some c →
      exec .readStep s = .next { s with engine := { s.engine with
        op := if k + 1 < size then .reading b (k + 1) else .idle
        result := { s.engine.result with
          entries := s.engine.result.entries ++ [reported c], valid := decide (size ≤ k + 1) } } })
    ∧ (b ≤ 64 → s.cells.length = 4100 → s.engine.op = .reading b 0 → s.engine.result.entries = [] →
        s.pending = List.replicate size .readStep →
        Host.Core.run Sys2Proof.core size s = .next { s with
          pending := []
          engine := { s.engine with
            op := .idle
            result := { s.engine.result with
              entries := ((s.cells.drop (64 * b)).take size).map reported, valid := true } } })

/-- A configuration byte and the config it spells determine each other (R191). -/
def Obligations.ConfigurationByteRoundTrip : Prop :=
  (∀ c : CellConfig, -16 ≤ c.trim → c.trim ≤ 15 → CellConfig.decode c.encode = some c)
    ∧ (∀ x : Byte, x.getLsbD 7 = false → ∃ c, CellConfig.decode x = some c ∧ c.encode = x ∧ -16 ≤ c.trim ∧ c.trim ≤ 15)
    ∧ ∀ x : Byte, x.getLsbD 7 = true → CellConfig.decode x = none

/-- PROBE_CELL: the probe record of a cell, field by field (R149, R150, R151, section 10.3.2). -/
def Obligations.ProbeCellReturnsTheRecord : Prop :=
  ∀ s : State, s.port.decoder = .receiving →
    (∀ args : List Byte, args.length ≠ 2 → args.length ≤ 255 → exec (.probeCell args) s = .next (s.answered 0x28 args .badLength []))
    ∧ (∀ a b : Byte, 4099 < beNat [a, b] → exec (.probeCell [a, b]) s = .next (s.answered 0x28 [a, b] .badArg []))
    ∧ ∀ (i : Nat) (c : Cell), i < 4100 → s.cells[i]? = some c →
        let live (q : Quantity) : Nat :=
          if s.params.mode.sequential = true ∧ s.ctl.frozen.isSome = true then 0
          else c.quantity s.params.mode s.ctl.liveHalf q
        let frozen (q : Quantity) : Nat :=
          match s.ctl.frozen with
          | none => 0
          | some .whole => c.quantity s.params.mode .h0 q
          | some (.half h) => c.quantity s.params.mode h q
        ∃ data : List Byte, exec (.probeCell (beBytes 2 i)) s = .next (s.answered 0x28 (beBytes 2 i) .ok data)
          ∧ data.length = 8 + 8 * s.params.mode.carried.length
          ∧ fieldOf data 0 2 = i
          ∧ data[2]? = some (BitVec.ofInt 8 c.trim)
          ∧ data[3]? = some (CellConfig.encode
              { mask := c.mask, test := c.test
                trim := if s.params.deepMask = true ∧ c.mask = true then 15 else c.trim })
          ∧ fieldOf data 4 2 = (if i < 4096 then c.level % 2 ^ 16 else 0)
          ∧ (fieldOf data 6 1).testBit 0 = decide (c.activity = .hot)
          ∧ (fieldOf data 6 1).testBit 1 = c.onsetSeen
          ∧ (fieldOf data 6 1).testBit 2 = c.firstDone
          ∧ (fieldOf data 6 1).testBit 3 = c.truncated
          ∧ fieldOf data 6 1 < 16
          ∧ fieldOf data 7 1 = s.params.mode.number
          ∧ data.drop 8 = (s.params.mode.carried.map live ++ s.params.mode.carried.map frozen).flatMap (beBytes 4)

/-! ## Windows -/

/-- OPEN_WINDOW's checks in order, its open, and the cycle that it begins under TIMER with CYCLE ON (R76, R99). -/
def Obligations.OpenWindowIsCheckedInOrder : Prop :=
  ∀ s : State, s.port.decoder = .receiving →
    (∀ args : List Byte, args ≠ [] → args.length ≤ 255 → exec (.openWindow args) s = .next (s.answered 0x30 args .badLength []))
    ∧ exec (.openWindow []) s = .next (
        if s.engine.op ≠ .idle then s.answered 0x30 [] .busy []
        else if s.params.winSrc = .line then s.answered 0x30 [] .wrongState []
        else if s.ctl.state ≠ .idle then s.answered 0x30 [] .wrongState []
        else if s.params.winSrc = .timer ∧ s.params.cycle = true then
          (openWindowAs .command
            { s with ctl := { s.ctl with cycleOn := true, cyclesLeft := s.params.cycleCount } }).answered 0x30 [] .ok []
        else (openWindowAs .command s).answered 0x30 [] .ok [])

/-- The open of a window (R80, R81, R31, R17): `o` is the state with the new descriptor, the counts, the cleared window flags and the
started dividers; then the aux cells take the levels of their lines, and no onset tick comes together with that: the first one comes a
full period later (R31, R98). With no line asserted `o` is all. A cause set here may arrive after
a CLEAR_ATTENTION or SOFT_RESET directly behind (log 21, DESIGN CHOICE). -/
def Obligations.OpenStartsAFreshWindow : Prop :=
  ∀ (cause : OpenCause) (s : State),
    let o : State := { s with
      ctl := { s.ctl with
        state := .opened
        desc := some {
          frameNumber := s.ctl.nextFrame, mode := s.params.mode, dwellLaw := s.params.dwellLaw
          onsetWrap := s.params.onsetWrap, openCause := cause, closeCause := .line, windowLength := 0, settleLength := 0
          shed := 0, released := 0, truncated := 0, bankTruncated := List.replicate 65 0, settleCap := false, peak := 0
          exceeded := false, testPulses := 0, discardedBefore := s.ctl.discardCarry, heldBefore := s.ctl.heldCarry
          onsets := [], overflow := false }
        nextFrame := (s.ctl.nextFrame + 1) % 2 ^ 32
        windowCount := 0
        settleCount := 0
        discardCarry := 0
        heldCarry := false }
      cells := s.cells.map fun c => { c with onsetSeen := false, firstDone := false, truncated := false }
      occ := { s.occ with peak := s.occ.current }
      ticks := { decay := { running := true, count := 0 }, dwell := { running := true, count := 0 }
                 onset := { running := true, count := 0 } }
      crossing := .reset }
    ArrayOutcome
        (fun i c =>
          if 4096 ≤ i ∧ s.pins.aux.getLsbD (i - 4096) = true ∧ c.test = false
              ∧ ¬ (s.params.deepMask = true ∧ c.mask = true) ∧ c.activity = .cold then
            turnHot s.params s.ctl.liveHalf i c
          else quietly c)
        o (openWindowAs cause s)
      ∧ (openWindowAs cause s).crossing = .reset
      ∧ (s.pins.aux = 0 → openWindowAs cause s = { o with free := s.free + 1 })

/-- CLOSE_WINDOW by the controller's state (R77, R101). In SETTLING the end of settling is considered after the cycle is stopped: it waits
where the request came together with the timer's expiry (R78, log 21), so that the window in hand is then the last of the cycle. Where
no request comes (log 6) such an end is considered all the same. -/
def Obligations.CloseWindowIsAnsweredByState : Prop :=
  ∀ s : State, s.port.decoder = .receiving →
    let stopped : State := { s with ctl := { s.ctl with cycleOn := false, cyclesLeft := 0 } }
    (∀ args : List Byte, args ≠ [] → args.length ≤ 255 → exec (.closeWindow args) s = .next (s.answered 0x31 args .badLength []))
    ∧ (s.params.winSrc = .line ∨ s.ctl.state = .idle →
        exec (.closeWindow []) s = .next (s.answered 0x31 [] .wrongState []))
    ∧ (s.params.winSrc ≠ .line → s.ctl.state = .opened →
        exec (.closeWindow []) s = .next
          ((closeWindowAs .command (if s.ctl.cycleOn then stopped else s)).answered 0x31 [] .ok []))
    ∧ (s.params.winSrc ≠ .line → s.ctl.state = .settling ∨ s.ctl.state = .held →
        exec (.closeWindow []) s = .next (
          if s.ctl.cycleOn then
            (if s.ctl.state = .settling then considerEnd stopped else stopped).answered 0x31 [] .ok []
          else s.answered 0x31 [] .wrongState []))
    ∧ ∀ (args : List Byte) (t : State), t.port.decoder ≠ .receiving → exec (.closeWindow args) t = .next (considerEnd t)

/-- The close of a window (R83, R69): SETTLING, cause and length in the descriptor, the onset divider stopped, every hold shed, one
window less of a limited cycle; then the end of settling is considered. `shutWindow` is the close up to there. A cause set here may
arrive after a CLEAR_ATTENTION or SOFT_RESET directly behind (log 21, DESIGN CHOICE). -/
def Obligations.CloseShedsHoldsAndStopsOnsets : Prop :=
  ∀ (cause : CloseCause) (d : Descriptor) (s : State), s.ctl.desc = some d → d.shed ≤ 65535 →
    let u : State := { s.gatesOpened with
      ctl := { s.ctl with
        state := .settling
        desc := some { d with closeCause := cause, windowLength := s.ctl.windowCount, shed := min 65535 (d.shed + s.holding) }
        settleCount := 0
        cyclesLeft := if s.ctl.cycleOn = true ∧ s.params.cycleCount ≠ 0 then s.ctl.cyclesLeft - 1 else s.ctl.cyclesLeft }
      ticks := { s.ticks with onset := { s.ticks.onset with running := false } } }
    shutWindow cause s = (if d.shed = 0 ∧ 0 < s.holding then u.sets 0x04 else u)
      ∧ closeWindowAs cause s = considerEnd (shutWindow cause s)

/-- WIN_N (R73, R74, R75, R79): under LINE a falling edge opens from IDLE with no configuration operation in flight and is a missed open
otherwise, and a rising edge closes an OPEN window; under another source, or with RST_N asserted, no edge is taken. A cause set here may
arrive after a CLEAR_ATTENTION or SOFT_RESET directly behind (log 21, DESIGN CHOICE). -/
def Obligations.WindowLineOpensAndCloses : Prop :=
  ∀ s : State,
    let low : State := { s with pins := { s.pins with winLow := true } }
    let high : State := { s with pins := { s.pins with winLow := false } }
    (s.pins.rstLow = false → s.params.winSrc = .line →
      exec .winNFallingEdge s = .next (
        if s.ctl.state = .idle ∧ s.engine.op = .idle then openWindowAs .line low
        else { low with ctl := { s.ctl with missedOpens := min 65535 (s.ctl.missedOpens + 1) } }.sets 0x40)
      ∧ exec .winNRisingEdge s = .next (if s.ctl.state = .opened then closeWindowAs .line high else high))
    ∧ (s.pins.rstLow = true ∨ s.params.winSrc ≠ .line →
      exec .winNFallingEdge s = .next low ∧ exec .winNRisingEdge s = .next high)

/-- An onset tick (R32, R43, R44, R82): while OPEN the window length count gains 1 and the running onset quantities count. The tick that
brings the count to WIN_LEN under TIMER closes the window with cause TIMER (R78); WINDOW_TIMER_EXPIRY is that tick (log 5). Where a cycle
is in progress and a CLOSE_WINDOW, an INJECT or a handshake stands directly behind, the end of settling may wait for it, so that it finds
SETTLING: the CLOSE_WINDOW makes the window the last of the cycle, the INJECT is refused, the handshake is not classified (R52, R78, R101,
R140); that it may is the model's form of the two coming together (log 21, DESIGN CHOICE). A cell
that took the tick before its first onset at the event directly before has had it, and a report of that event that waits for the tick
enters the list after it, at the larger count (R33, R98); that `crossing` holds the two is the model's form (log 22, DESIGN CHOICE). -/
def Obligations.OnsetTicksMeasureTheWindow : Prop :=
  ∀ s : State,
    let restarted : State := { s with ticks := { s.ticks with onset := { s.ticks.onset with count := 0 } } }
    let w := min 16777215 (s.ctl.windowCount + 1)
    (s.ticks.onset.running = true → s.ctl.state = .opened →
      ∃ t : State, t = { restarted with cells := t.cells, ctl := s.afterOnsetTick, crossing := .reset }
        ∧ (∀ i ∈ s.crossing.ticked, t.cells[i]? = s.cells[i]?)
        ∧ (∀ i, i ∉ s.crossing.ticked → t.cells[i]? = (s.cells[i]?).map fun c =>
            let m := s.params.mode
            let h := s.ctl.liveHalf
            if c.onsetSeen = true ∧ c.mask = false ∧ s.params.bankGate.getLsbD (i / 64) = false ∧ m.keeps .onset = true then
              if c.quantity m h .onset < m.largest .onset then c.bump m h .onset
              else if s.params.onsetWrap = true then c.setSegs (m.places h .onset) 0
              else c
            else c)
        ∧ (s.params.winSrc = .timer → s.params.winLen ≤ w →
            (exec .onsetTick s = .next (closeWindowAs .timer t)
              ∨ s.ctl.cycleOn = true ∧ exec .onsetTick s = .next (shutWindow .timer t)
                ∧ (s.pending.head? = some (.closeWindow []) ∨ s.pending.head? = some (.inject [])
                  ∨ ∃ rd wr, s.pending.head? = some (.handshakePresented rd wr)))
            ∧ exec .windowTimerExpiry s = exec .onsetTick s)
        ∧ (s.params.winSrc ≠ .timer ∨ w < s.params.winLen → exec .onsetTick s = .next t))
    ∧ (s.ticks.onset.running = true → s.ctl.state ≠ .opened → exec .onsetTick s = .next restarted)
    ∧ (s.ticks.onset.running = false → exec .onsetTick s = .next s)
    ∧ (s.ctl.state = .opened ∧ s.params.winSrc = .timer ∧ s.params.winLen ≤ s.ctl.windowCount + 1 →
        exec .windowTimerExpiry s = exec .onsetTick s)
    ∧ (s.ctl.state ≠ .opened ∨ s.params.winSrc ≠ .timer ∨ s.ctl.windowCount + 1 < s.params.winLen →
        exec .windowTimerExpiry s = .next s)

/-- The settle cap (R88, R89): at its expiry the flag and TRUNCATED are set and the queue is emptied; with no application in progress
every counting cell is truncated and settling ends, and otherwise at the completion of the application. Where the next dwell tick makes
the expiry due, SETTLE_CAP_EXPIRY is that tick and then the expiry, unless the tick has ended settling (R90, log 5). A cause set here
may arrive after a CLEAR_ATTENTION or SOFT_RESET directly behind (log 21, DESIGN CHOICE). -/
def Obligations.SettleCapCutsTheSettling : Prop :=
  ∀ (d : Descriptor) (s : State), s.ctl.desc = some d →
    let expired : State :=
      { s with queue := { s.queue with records := [] }, ctl := { s.ctl with desc := some { d with settleCap := true } } }.sets
        0x10
    (s.CapWaits →
      (s.engine.applying.isSome = true → exec .settleCapExpiry s = .next expired)
      ∧ (s.engine.applying = none → ∃ u, TruncationOf expired u ∧ exec .settleCapExpiry s = .next (endSettling u)))
    ∧ (s.ctl.state = .settling → d.settleCap = false → s.params.settleCap = s.ctl.settleCount + 1 →
        ∃ t, exec .dwellTick s = .next t
          ∧ (t.CapWaits → exec .settleCapExpiry s = exec .settleCapExpiry t)
          ∧ (¬ t.CapWaits → exec .settleCapExpiry s = .next t))
    ∧ (s.ctl.state ≠ .settling ∨ d.settleCap = true ∨ s.ctl.settleCount + 1 < s.params.settleCap →
        exec .settleCapExpiry s = .next s)

/-- The end of settling is taken exactly when the queue is drained and no cell is counting (R39, R86). -/
def Obligations.SettlingEndsWhenDrainedAndQuiet : Prop :=
  ∀ s : State, (s.SettlingOver → considerEnd s = endSettling s) ∧ (¬ s.SettlingOver → considerEnd s = s)

/-- The end of settling in a sequential mode (R91, R92, R118): the descriptor final, the array at rest, the whole storage frozen, the
frame started, the controller HELD. The started frame holds its kind item as DATA, where R117 and R118 give it no value: that is the
model's (log 8, DESIGN CHOICE). -/
def Obligations.SequentialWindowIsFrozenWhole : Prop :=
  ∀ (d : Descriptor) (s : State), s.ctl.desc = some d → s.params.mode.sequential = true →
    endSettling s = { s.rested with
      ctl := { s.ctl with state := .held, desc := none, frozen := some .whole }
      readout := { s.readout with
        frame := some (s.freshFrame { d with settleLength := s.ctl.settleCount, peak := s.occ.peak }) } }

/-- The end of settling in a continuous mode (R105, R106, R107, R108), and what follows when storage has been dealt with (R100): the
cycle reopens, or the controller enters IDLE. The frame that a swap starts holds its kind item as DATA, where R117 and R118 give it no
value: that is the model's (log 8, DESIGN CHOICE). A cause set here may arrive after a CLEAR_ATTENTION or SOFT_RESET directly behind
(log 21, DESIGN CHOICE). -/
def Obligations.ContinuousHandOffFollowsTheIndication : Prop :=
  ∀ s : State,
    (s.cycleContinues → dealtWith s = openWindowAs .cycle s)
    ∧ (¬ s.cycleContinues → dealtWith s = { s with ctl := { s.ctl with state := .idle, cycleOn := false } })
    ∧ ∀ d : Descriptor, s.ctl.desc = some d → s.params.mode.sequential = false →
        let final : Descriptor := { d with settleLength := s.ctl.settleCount, peak := s.occ.peak }
        let r := s.rested
        (s.ctl.frozen = none → endSettling s = dealtWith { r with
            ctl := { s.ctl with
              frozen := some (.half s.ctl.liveHalf), liveHalf := s.ctl.liveHalf.other, desc := none, waiting := none }
            readout := { s.readout with frame := some (s.freshFrame final) } })
        ∧ (s.ctl.frozen.isSome = true → s.params.overrunPolicy = .discard →
            endSettling s = dealtWith (State.sets { r with
              cells := r.cells.map fun c => c.clearHalf s.ctl.liveHalf
              ctl := { s.ctl with
                desc := none, discardCarry := min 255 (d.discardedBefore + 1)
                discardedTotal := (s.ctl.discardedTotal + 1) % 2 ^ 32 } } 0x02))
        ∧ (s.ctl.frozen.isSome = true → s.params.overrunPolicy = .wait →
            endSettling s = State.sets { r with
              ctl := { s.ctl with state := .held, desc := none, waiting := some final, heldCarry := true } } 0x02)

/-! ## Cells and ticks -/

/-- The effective threshold and the evaluation (R3, R5, R14, R15), and what an onset and an episode end send (R10, R11). -/
def Obligations.EvaluationFollowsTheDeadBand : Prop :=
  ∀ (p : Params) (h : Half) (pulse : Bool) (i : Nat) (c : Cell),
    (c.effTh p : Int) = max 1 (min 4095 (p.threshold + (if p.deepMask = true ∧ c.mask = true then 15 else c.trim) * p.trimStep))
    ∧ (c.activity = .cold → c.effTh p ≤ c.level → ¬ c.DeepMasked p → evaluate p h pulse i c = turnHot p h i c)
    ∧ (c.activity = .cold → c.level < c.effTh p ∨ c.DeepMasked p → evaluate p h pulse i c = quietly c)
    ∧ (c.activity = .hot → c.level + p.hysteresis < c.effTh p →
        ¬ (pulse = true ∧ p.testPath = .direct ∧ c.PulseDriven p i) → evaluate p h pulse i c = turnCold p i c)
    ∧ (c.activity = .hot → c.effTh p ≤ c.level + p.hysteresis ∨ (pulse = true ∧ p.testPath = .direct ∧ c.PulseDriven p i) →
        evaluate p h pulse i c = quietly c)
    ∧ (c.TakesPart p i → turnHot p h i c =
        { cell := Cell.bump { c with activity := .hot, onsetSeen := true } p.mode h .episodes
          report := !c.onsetSeen, notices := [.becameHot] })
    ∧ (¬ c.TakesPart p i → turnHot p h i c = quietly { c with activity := .hot, onsetSeen := true })
    ∧ (c.TakesPart p i → turnCold p i c =
        { cell := { c with activity := .cold, firstDone := true }, report := false, notices := [.becameCold] })
    ∧ (¬ c.TakesPart p i → turnCold p i c = quietly { c with activity := .cold, firstDone := true })

/-- A counting event moves its quantity by 1 up to the maximum of the mode, across the segments (R37, R48), moves no other quantity of
the mode, nothing of the other half in a continuous mode (R35), and nothing where the mode does not keep the quantity. -/
def Obligations.CountingMovesOneQuantityByOne : Prop :=
  ∀ (m : Mode) (h : Half) (q : Quantity) (c : Cell), c.Ranged →
    let d := c.bump m h q
    d.Ranged ∧ d = { c with seg0 := d.seg0, seg1 := d.seg1, seg2 := d.seg2, seg3 := d.seg3 }
      ∧ (m.keeps q = true ↔ q ∈ m.carried)
      ∧ (m.keeps q = true → d.quantity m h q = min (m.largest q) (c.quantity m h q + 1))
      ∧ (m.keeps q = false → d = c)
      ∧ (∀ r, r ≠ q → d.quantity m h r = c.quantity m h r)
      ∧ (m.sequential = false → ∀ r, d.quantity m h.other r = c.quantity m h.other r)
      ∧ (m.keeps q = true → (c.setSegs (m.places h q) 0).quantity m h q = 0)

/-- RECORD_APPLIED (R7, R47, R86, R88): what the application does at its cell by the cell's config; then the end of settling is
considered, or, after an expiry of the settle cap, the counting cells are truncated and settling ends. That a gated cell is left as it
is rests on R16 (section 1.8), by which it is inert and no record reaches it: R7 alone would add the weight (DEDUCED, log 18). A record
names an array cell (R56, log 14). A cause set here may arrive after a CLEAR_ATTENTION or SOFT_RESET directly behind (log 21, DESIGN
CHOICE), and a first onset may come before or after an onset tick directly behind (R33, R98; log 22, DESIGN CHOICE). -/
def Obligations.RecordApplicationAddsItsWeight : Prop :=
  ∀ s : State,
    (s.engine.applying = none → exec .recordApplied s = .next s)
    ∧ ∀ r : Record, s.engine.applying = some r → r.cell ≤ 4095 →
        let p := s.params
        let h := s.ctl.liveHalf
        let pulse := decide (s.tpg ≠ .idle)
        ∃ u : State,
          ArrayOutcome
            (fun i c =>
              if i ≠ r.cell ∨ c.test = true ∨ p.bankGate.getLsbD (i / 64) = true then quietly c
              else if p.deepMask = true ∧ c.mask = true then evaluate p h pulse i c
              else
                let o := evaluate p h pulse i { c with level := min 4095 (c.level + r.weight) }
                { o with cell := if c.mask then o.cell else o.cell.bump p.mode h .accesses })
            { s with engine := { s.engine with applying := none } } u
          ∧ ((s.ctl.state = .settling ∧ ∃ d, s.ctl.desc = some d ∧ d.settleCap = true) →
              ∃ v, TruncationOf u v ∧ exec .recordApplied s = .next (endSettling v))
          ∧ (¬ (s.ctl.state = .settling ∧ ∃ d, s.ctl.desc = some d ∧ d.settleCap = true) →
              exec .recordApplied s = .next (considerEnd u))

/-- A decay tick (R8, R30, R32): while OPEN or SETTLING every array cell loses DECAY_STEP and is evaluated, the aux cells stay. Settling
ends at the notice that leaves no cell counting: a cell that has not taken the tick by then stays as it was and comes to rest (R86;
which cells, the model draws freely: DESIGN CHOICE, log 1), and a notice that the Occupancy Counter takes after rest changes nothing (R20;
which, is free: DESIGN CHOICE, log 1). Each cell goes by the parameter table in force, or by that which a SET_PARAM of
THRESHOLD, TRIM_STEP, HYSTERESIS or DECAY_STEP directly behind writes, each cell for itself, since each is a reader that takes the value
before or after the write (R3, R6, R8, R170; which it takes is free: DESIGN CHOICE, log 23). Where a dwell tick or an INJECT that is taken is
directly behind, the decay tick may wait for it, and each cell then takes the two in an order of its own (R33, R142; `DwellTickCountsOnce`,
`InjectStartsAndPulseEndEnds`; DESIGN CHOICE, log 24). Where the row directly behind brings the array to rest, that rest may come first at
some of the cells, which then do not take the tick (R19, R33; DESIGN CHOICE, log 24). A cause set here may arrive after a
CLEAR_ATTENTION or SOFT_RESET directly behind (log 21, DESIGN CHOICE), and a first onset may come before or after an onset tick directly
behind (R33, R98; log 22, DESIGN CHOICE). -/
def Obligations.DecayTickDrainsEveryArrayCell : Prop :=
  ∀ s : State,
    let restarted : State := { s with ticks := { s.ticks with decay := { s.ticks.decay with count := 0 } } }
    (s.ticks.decay.running = true → s.ctl.state = .opened ∨ s.ctl.state = .settling →
      ((s.DwellTickBehind ∨ s.InjectBehind) ∧ exec .decayTick s = .next { restarted with decayWaits := true })
      ∨ ∃ (parts : Nat → List TickPart) (u r : State),
          TickTaken s parts u.SettlingOver restarted u ∧ exec .decayTick s = .next r
            ∧ (¬ u.SettlingOver → r = u ∧ ((∀ i, parts i = [.decay])
                ∨ (∀ i, parts i = [.decay] ∨ parts i = []) ∧ RestBehind s u))
            ∧ (u.SettlingOver → r = endSettling u ∧ ∀ i, parts i = [.decay] ∨ parts i = []))
    ∧ (s.ticks.decay.running = true → s.ctl.state = .idle ∨ s.ctl.state = .held → exec .decayTick s = .next restarted)
    ∧ (s.ticks.decay.running = false → exec .decayTick s = .next s)

/-- A dwell tick (R32, R33, R40, R87, R88, R89, R90, R143): every counting cell gains 1 dwell, a pulse loses one tick and ends with its
last, and while SETTLING the settle length gains 1. PULSE_END is the tick that ends the pulse (log 5). Each cell takes the tick, the end of
the pulse where the tick brings it, and a decay tick that has waited for it (log 24), in an order of its own (R33): a cell that the ending
pulse holds HOT turns COLD and counts the tick or not. While SETTLING, settling can end at the tick before every cell has taken it, and
before the settle length counts it (R86, R90), and the settle cap's expiry, where the tick makes it due and no application is in progress,
can come before the rest of the cells take the tick (R89); a notice that the Occupancy Counter then takes after rest changes nothing (R20).
Which of these orders occurs the model draws freely (DESIGN CHOICE, log 1). An expiry that an earlier tick made due comes first (log 5). A
cause set here may arrive after a CLEAR_ATTENTION or SOFT_RESET directly behind (log 21, DESIGN CHOICE); the cells go by the parameters and
onset ticks directly behind as at a decay tick (logs 22, 23). -/
def Obligations.DwellTickCountsOnce : Prop :=
  ∀ s : State,
    let restarted : State := { s with ticks := { s.ticks with dwell := { s.ticks.dwell with count := 0 } } }
    let counts : Prop := s.ctl.state = .settling ∧ (∀ d, s.ctl.desc = some d → d.settleCap = false)
      ∧ s.ctl.settleCount < s.params.settleCap
    (s.ticks.dwell.running = true → s.ctl.state = .opened ∨ s.ctl.state = .settling → ¬ s.CapWaits →
      ∃ (parts : Nat → List TickPart) (late : Prop) (settle : Nat) (u r : State),
        TickTaken s parts late
            { restarted with
              decayWaits := false
              tpg := match s.tpg with
                | .active (n + 2) => .active (n + 1)
                | _ => .idle
              ctl := { s.ctl with settleCount := settle } } u
          ∧ exec .dwellTick s = .next r ∧ (s.tpg.LastTick → exec .pulseEnd s = .next r)
          ∧ (∀ i, (parts i).Subperm s.dwellDue)
          ∧ (settle = s.ctl.settleCount ∨ (counts ∧ settle = s.ctl.settleCount + 1))
          ∧ (r = endSettling u ∧ u.SettlingOver
            ∨ (counts → settle = s.ctl.settleCount + 1)
              ∧ (r = u ∧ ¬ late ∧ ¬ u.SettlingOver ∧ (∀ i, (parts i).Perm s.dwellDue)
                ∨ u.CapWaits ∧ s.engine.applying = none ∧ exec .settleCapExpiry u = .next r)))
    ∧ (s.ticks.dwell.running = true → s.CapWaits → ∃ v, exec .settleCapExpiry restarted = .next v
        ∧ (v.ctl.state = .settling → exec .dwellTick s = exec .dwellTick v)
        ∧ (v.ctl.state ≠ .settling → exec .dwellTick s = .next v))
    ∧ (s.ticks.dwell.running = true → s.ctl.state = .idle ∨ s.ctl.state = .held → exec .dwellTick s = .next restarted)
    ∧ (s.ticks.dwell.running = false → exec .dwellTick s = .next s)

/-- AUX lines (R12, R17, R18, R144): the aux cell of the line, unless it is a test cell or deep-masked, turns HOT at an assertion while
OPEN and COLD at a deassertion while OPEN or SETTLING; otherwise only the level of the line is kept. A cause set here may arrive after a
CLEAR_ATTENTION or SOFT_RESET directly behind (log 21, DESIGN CHOICE), and a first onset may come before or after an onset tick directly
behind (R33, R98; log 22, DESIGN CHOICE). -/
def Obligations.AuxLinesDriveTheirCells : Prop :=
  ∀ (n : Fin 4) (s : State),
    let up : State := { s with pins := { s.pins with aux := s.pins.aux ||| (1#4 <<< n.val) } }
    let down : State := { s with pins := { s.pins with aux := s.pins.aux &&& ~~~ (1#4 <<< n.val) } }
    let follows (i : Nat) (c : Cell) : Prop := i = 4096 + n.val ∧ c.test = false ∧ ¬ (s.params.deepMask = true ∧ c.mask = true)
    (s.ctl.state = .opened → ∃ u, exec (.auxAsserted n) s = .next u ∧ ∃ f, ArrayOutcome f up u
      ∧ (∀ i c, follows i c → c.activity = .cold → f i c = turnHot s.params s.ctl.liveHalf i c)
      ∧ ∀ i c, ¬ follows i c ∨ c.activity = .hot → f i c = quietly c)
    ∧ (s.ctl.state ≠ .opened → exec (.auxAsserted n) s = .next up)
    ∧ (s.ctl.state = .opened ∨ s.ctl.state = .settling →
      ∃ u, exec (.auxDeasserted n) s = .next (considerEnd u) ∧ ∃ f, ArrayOutcome f down u
        ∧ (∀ i c, follows i c → c.activity = .hot → f i c = turnCold s.params i c)
        ∧ ∀ i c, ¬ follows i c ∨ c.activity = .cold → f i c = quietly c)
    ∧ (s.ctl.state = .idle ∨ s.ctl.state = .held → exec (.auxDeasserted n) s = .next down)

/-! ## Test pulses -/

/-- INJECT's checks in order and its pulse start (R140, R141, R142; `TakesPart` says what the start does at a cell), with a decay tick that
has waited for it, before or after at each cell (R142; DESIGN CHOICE, log 24). In SETTLING the end of settling is considered after the
refusal: it waits where the request came together with the timer's expiry and after the close (R78, log 21), and then the window that a
cycle opens comes after the refused request. Where no request comes (log 6) such an end is considered all the same. PULSE_END is the dwell
tick that leaves no tick remaining (R143, log 5); where that tick is not next, it cannot occur (log 6). A cause set here may arrive after a CLEAR_ATTENTION or SOFT_RESET directly
behind (log 21, DESIGN CHOICE), and a first onset may come before or after an onset tick directly behind, the later reports then one
higher (R33, R98, R141, R147; log 22, DESIGN CHOICE). -/
def Obligations.InjectStartsAndPulseEndEnds : Prop :=
  ∀ s : State,
    (s.port.decoder = .receiving →
      (∀ args : List Byte, args ≠ [] → args.length ≤ 255 → exec (.inject args) s = .next (s.answered 0x38 args .badLength []))
      ∧ (s.engine.op ≠ .idle → exec (.inject []) s = .next ((considerEnd s).answered 0x38 [] .busy []))
      ∧ (s.engine.op = .idle → s.ctl.state ≠ .opened →
          exec (.inject []) s = .next ((considerEnd s).answered 0x38 [] .wrongState []))
      ∧ (s.engine.op = .idle → s.ctl.state = .opened → s.tpg ≠ .idle →
          exec (.inject []) s = .next (s.answered 0x38 [] .busy []))
      ∧ (s.engine.op = .idle → s.ctl.state = .opened → s.tpg = .idle →
          ∃ (parts : Nat → List TickPart) (u : State), exec (.inject []) s = .next (u.answered 0x38 [] .ok [])
            ∧ TickTaken { s with pending := [], tpg := .active s.params.tpLen } parts False
                { s with
                  tpg := .active s.params.tpLen
                  decayWaits := false
                  ctl := { s.ctl with desc := s.ctl.desc.map fun d => { d with testPulses := min 255 (d.testPulses + 1) } } } u
            ∧ ∀ i, (parts i).Perm (if s.decayWaits then [.pulseStart, .decay] else [.pulseStart])))
    ∧ (s.port.decoder ≠ .receiving → exec (.inject []) s = .next (considerEnd s))
    ∧ (s.tpg.LastTick → exec .pulseEnd s = exec .dwellTick s)
    ∧ (¬ s.tpg.LastTick → exec .pulseEnd s = .next s)

/-! ## Capture -/

/-- HANDSHAKE_PRESENTED on one channel whose gate is open (R50, R52 to R55, R59, R62, R65, R67): not classified outside OPEN; stopped by
a step of the classification; or an observation, granted a slot, shed or held. In SETTLING the end of settling is considered behind the
handshake: it waits where the handshake came together with the timer's expiry and after the close (R69, R78, log 21, DESIGN CHOICE). A
cause set here may arrive after a CLEAR_ATTENTION or
SOFT_RESET directly behind (log 21, DESIGN CHOICE). -/
def Obligations.HandshakeIsClassifiedStepByStep : Prop :=
  ∀ (ch : Channel) (hs : Handshake) (s : State), s.hold ch = none →
    let p := s.params
    let a := hs.addr.toNat
    let selected : Prop := p.dirSel = .both ∨ (p.dirSel = .reads ∧ ch = .read) ∨ (p.dirSel = .writes ∧ ch = .write)
    let mapped : Prop := p.mapBase ≤ a ∧ a < p.mapBase + 4096 * 2 ^ p.mapGranule
    let cell := (a - p.mapBase) / 2 ^ p.mapGranule
    let d := filterDecide p.defaultAction ch hs.id s.filter
    let decided : State := { s with filter := d.table }
    let stopped : Prop := d.action = .ignore ∨ p.bankGate.getLsbD (cell / 64) = true
      ∨ (p.deepMask = true ∧ s.engine.mirror.getD cell false = true)
    let base := match p.weightLaw with | .linear => hs.beats | .compressed => 1 + hs.beats.log2
    let r : Record := { cell := cell, weight := base * 2 ^ d.shift }
    (s.ctl.state ≠ .opened → exec (presentedOn ch hs) s = .next (considerEnd (passHandshake ch hs s)))
    ∧ (s.ctl.state = .opened → ¬ (selected ∧ mapped) → exec (presentedOn ch hs) s = .next (passHandshake ch hs s))
    ∧ (s.ctl.state = .opened → selected ∧ mapped → stopped →
        exec (presentedOn ch hs) s = .next (passHandshake ch hs decided))
    ∧ (s.ctl.state = .opened → selected ∧ mapped → ¬ stopped → s.queue.records.length < 32 →
        exec (presentedOn ch hs) s =
          .next (passHandshake ch hs { decided with queue := { records := s.queue.records ++ [r], history := ch } }))
    ∧ (s.ctl.state = .opened → selected ∧ mapped → ¬ stopped → 32 ≤ s.queue.records.length → p.capturePolicy = .hold →
        exec (presentedOn ch hs) s =
          .next (setHold ch (some { handshake := hs, record := r, limit := p.holdLimit, timer := 0 }) decided))
    ∧ ∀ e, s.ctl.desc = some e → s.ctl.state = .opened → selected ∧ mapped → ¬ stopped → 32 ≤ s.queue.records.length →
        p.capturePolicy = .shed →
        let shed : State := { passHandshake ch hs decided with
          ctl := { s.ctl with desc := some { e with shed := min 65535 (e.shed + 1) } } }
        exec (presentedOn ch hs) s = .next (if e.shed = 0 then shed.sets 0x04 else shed)

/-- What an observation record can hold (R54, R55, R56). -/
def Obligations.ObservationRecordIsInRange : Prop :=
  ∀ (p : Params) (d : Decision) (hs : Handshake), p.mapBase ≤ hs.addr.toNat →
    hs.addr.toNat < p.mapBase + 4096 * 2 ^ p.mapGranule → 1 ≤ hs.beats → hs.beats ≤ 256 → d.shift ≤ 3 →
    let r := recordOf p d hs
    r.cell ≤ 4095 ∧ p.mapBase + r.cell * 2 ^ p.mapGranule ≤ hs.addr.toNat
      ∧ hs.addr.toNat < p.mapBase + (r.cell + 1) * 2 ^ p.mapGranule
      ∧ 1 ≤ r.weight ∧ r.weight ≤ 2048
      ∧ (p.weightLaw = .compressed → r.weight ≤ 72
          ∧ ∃ b, r.weight = (b + 1) * 2 ^ d.shift ∧ 2 ^ b ≤ hs.beats ∧ hs.beats < 2 ^ (b + 1))

/-- A handshake on each channel at one event (R52, R65): each that is no observation passes; one that is an observation asks for a slot
as if alone; of two observations the preferred channel's is served first, with two, one or no free slot. A channel whose gate holds
presents nothing more (R50). In SETTLING the end of settling is considered behind them, where it waited for them (log 21, DESIGN
CHOICE). -/
def Obligations.PreferredChannelIsServedFirst : Prop :=
  ∀ (hr hw : Handshake) (s : State),
    let both := exec (.handshakePresented (some hr) (some hw)) s
    (s.hold .read ≠ none → both = exec (.handshakePresented none (some hw)) s)
    ∧ (s.hold .write ≠ none → both = exec (.handshakePresented (some hr) none) s)
    ∧ (s.ctl.state ≠ .opened → s.hold .read = none → s.hold .write = none →
        both = .next (considerEnd (passHandshake .write hw (passHandshake .read hr s))))
    ∧ (s.ctl.state = .opened → s.hold .read = none → s.hold .write = none → ∀ t u : State,
      (classify .read hr s = (t, none) → classify .write hw t = (u, none) →
        both = .next (passHandshake .write hw (passHandshake .read hr u)))
      ∧ (∀ r, classify .read hr s = (t, some r) → classify .write hw t = (u, none) →
        (s.queue.records.length < 32 → both = .next (passHandshake .read hr (passHandshake .write hw
          { u with queue := { records := s.queue.records ++ [r], history := .read } })))
        ∧ (32 ≤ s.queue.records.length → both = .next (noSlot .read r hr (passHandshake .write hw u))))
      ∧ (∀ w, classify .read hr s = (t, none) → classify .write hw t = (u, some w) →
        (s.queue.records.length < 32 → both = .next (passHandshake .write hw (passHandshake .read hr
          { u with queue := { records := s.queue.records ++ [w], history := .write } })))
        ∧ (32 ≤ s.queue.records.length → both = .next (noSlot .write w hw (passHandshake .read hr u))))
      ∧ ∀ r w, classify .read hr s = (t, some r) → classify .write hw t = (u, some w) →
        (s.queue.history = .write →
          (s.queue.records.length + 2 ≤ 32 → both = .next
            (passHandshake .write hw (passHandshake .read hr
              { u with queue := { records := s.queue.records ++ [r, w], history := .write } })))
          ∧ (s.queue.records.length + 1 = 32 → both = .next
            (noSlot .write w hw (passHandshake .read hr
              { u with queue := { records := s.queue.records ++ [r], history := .read } })))
          ∧ (32 ≤ s.queue.records.length → both = .next (noSlot .write w hw (noSlot .read r hr u))))
        ∧ (s.queue.history = .read →
          (s.queue.records.length + 2 ≤ 32 → both = .next
            (passHandshake .read hr (passHandshake .write hw
              { u with queue := { records := s.queue.records ++ [w, r], history := .read } })))
          ∧ (s.queue.records.length + 1 = 32 → both = .next
            (noSlot .read r hr (passHandshake .write hw
              { u with queue := { records := s.queue.records ++ [w], history := .write } })))
          ∧ (32 ≤ s.queue.records.length → both = .next (noSlot .read r hr (noSlot .write w hw u)))))

/-- RECORD_TAKE (R63, R65, R68): the head record goes into application; the freed slot goes to the preferred channel that waits. -/
def Obligations.RecordTakeFreesOneSlot : Prop :=
  ∀ s : State,
    (s.queue.records = [] ∨ s.engine.applying.isSome = true ∨ s.ctl.state = .idle ∨ s.ctl.state = .held →
      exec .recordTake s = .next s)
    ∧ ∀ (r : Record) (rs : List Record), s.queue.records = r :: rs → rs.length < 32 → s.engine.applying = none →
        let taken : State :=
          { s with queue := { s.queue with records := rs }, engine := { s.engine with applying := some r } }
        let preferred := otherChannel s.queue.history
        let granted (ch : Channel) (h : Hold) : State := passHandshake ch h.handshake
          (setHold ch none { taken with queue := { records := rs ++ [h.record], history := ch } })
        (s.ctl.state = .settling → exec .recordTake s = .next taken)
        ∧ (s.ctl.state = .opened → s.hold .read = none → s.hold .write = none → exec .recordTake s = .next taken)
        ∧ (∀ h, s.ctl.state = .opened → s.hold preferred = some h → exec .recordTake s = .next (granted preferred h))
        ∧ (∀ h, s.ctl.state = .opened → s.hold preferred = none → s.hold s.queue.history = some h →
            exec .recordTake s = .next (granted s.queue.history h))

/-- The ends of a hold without a grant: the expiry of its timer lets the handshake pass (R68), ARESET_N withdraws it (R51); both release
the observation (R66). Where no gate holds neither changes anything. A cause set here may arrive after a CLEAR_ATTENTION or SOFT_RESET
directly behind (log 21, DESIGN CHOICE). -/
def Obligations.HoldsEndReleased : Prop :=
  ∀ s : State,
    (∀ ch, s.hold ch = none → exec (.holdTimerExpiry ch) s = .next s)
    ∧ (s.holding = 0 → exec .aresetNAsserted s = .next s)
    ∧ ∀ d, s.ctl.desc = some d →
        (∀ ch h, s.hold ch = some h → exec (.holdTimerExpiry ch) s = .next (State.sets
          { passHandshake ch h.handshake (setHold ch none s) with
            ctl := { s.ctl with desc := some { d with released := min 65535 (d.released + 1) } } } 0x08))
        ∧ (0 < s.holding → exec .aresetNAsserted s = .next (State.sets
          { s with
            path := { s.path with rd := none, wr := none }
            ctl := { s.ctl with desc := some { d with released := min 65535 (d.released + s.holding) } } } 0x08))

/-! ## Readout -/

/-- FRAME_BYTE_DELIVERY before the last trailer byte (R122, R125, R126, R127): the next byte on FD, the CRC, the byte count, the
position; the last byte of a bank record clears the frozen counters of its bank and of no other. In R_IDLE FRDY has no effect. At most
one byte is delivered in a TBCLK period (R127): where FSTB tells that this one has had its byte, it passes first, with a settle cap's
expiry that waits and all that the period brings (R30, R67), and the delivery is one of the next period (log 3, DESIGN CHOICE); the rows
that wait come after the delivery, and together with nothing of the period. -/
def Obligations.FrameByteDeliverySendsTheNextByte : Prop :=
  ∀ s : State,
    (s.pins.fstb = true → ∃ r : State, (s.CapWaits → exec .settleCapExpiry { s with pending := [] } = .next r)
      ∧ (¬ s.CapWaits → r = { s with pending := [] }) ∧ (tbclkPeriod r).pins.fstb = false
      ∧ exec .frameByteDelivery s = exec .frameByteDelivery { tbclkPeriod r with pending := s.pending })
    ∧ (s.pins.fstb = false → s.readout.frame = none → exec .frameByteDelivery s = .next s)
    ∧ ∀ f : Frame, s.pins.fstb = false → s.readout.frame = some f →
        let g := match f.position with
          | .bank b 0 => { f with kind := bankKind s f b }
          | _ => f
        let byte := nextByte s g
        let sent (p : Position) : State := { s with
          pins := { s.pins with fd := byte, fstb := true, fsof := decide (f.byteCount = 0) }
          readout := { s.readout with frame := some { g with
            position := p
            byteCount := f.byteCount + 1
            crc := match f.position with
              | .trailer k => if k < 6 then crc32Byte f.crc byte else f.crc
              | _ => crc32Byte f.crc byte } } }
        (∀ p, g.advance = .goOn p → exec .frameByteDelivery s = .next (sent p))
        ∧ ∀ b p, g.advance = .emit b p → ∃ t, exec .frameByteDelivery s = .next t ∧ t = { sent p with cells := t.cells }
            ∧ t.cells.length = s.cells.length
            ∧ ∀ (i : Nat) (c : Cell), s.cells[i]? = some c → t.cells[i]? = some (
                match s.ctl.frozen with
                | some z => if i / 64 = b then c.clearFrozen z else c
                | none => c)

/-- Readout complete (R109, R131, R132, section 6.5): the last trailer byte is driven on FD with FSTB, the frame is dropped, the total
counts it, FRAME_DONE is set, the storage is free; in HELD a waiting window is swapped, or storage has been dealt with. That FSTB stays
asserted for the period of this delivery although the engine is R_IDLE from it on is read from R127 step 1 against R126 (log 12, DEDUCED,
unsafe). A delivery in a period that has had its byte is one of the next (R127, log 3, `FrameByteDeliverySendsTheNextByte`). The frame
that the swap starts holds its kind item as DATA, where R117 and R118 give it no value: that is the model's (log 8, DESIGN CHOICE). A
cause set here may arrive after a CLEAR_ATTENTION or SOFT_RESET directly behind (log 21, DESIGN CHOICE). -/
def Obligations.ReadoutCompleteReleasesTheStorage : Prop :=
  ∀ (f : Frame) (s : State), s.pins.fstb = false → s.readout.frame = some f → f.position = .trailer 9 →
    let t : State := State.sets { s with
      pins := { s.pins with fd := BitVec.ofNat 8 ((~~~ f.crc).toNat % 256), fstb := true, fsof := decide (f.byteCount = 0) }
      readout := { frame := none, emitted := (s.readout.emitted + 1) % 2 ^ 32 }
      ctl := { s.ctl with frozen := none } } 0x01
    (s.ctl.state ≠ .held → exec .frameByteDelivery s = .next t)
    ∧ (s.ctl.state = .held → s.ctl.waiting = none → exec .frameByteDelivery s = .next (dealtWith t))
    ∧ ∀ d, s.ctl.state = .held → s.ctl.waiting = some d → exec .frameByteDelivery s = .next (dealtWith { t with
        ctl := { t.ctl with
          frozen := some (.half s.ctl.liveHalf), liveHalf := s.ctl.liveHalf.other, desc := none, waiting := none }
        readout := { t.readout with frame := some (s.freshFrame d) } })

/-- ABORT_READOUT (R133, R134): its checks in order; at the take abort taken is set, the banks not begun are cleared and no other, and at
the boundary before a bank the position becomes the trailer. What is sent from there on says
`WholeAndAbortedFramesAreTheirImages`. -/
def Obligations.AbortReadoutClearsUnsentBanks : Prop :=
  ∀ s : State, s.port.decoder = .receiving →
    (∀ args : List Byte, args ≠ [] → args.length ≤ 255 → exec (.abortReadout args) s = .next (s.answered 0x40 args .badLength []))
    ∧ (s.readout.frame = none → exec (.abortReadout []) s = .next (s.answered 0x40 [] .wrongState []))
    ∧ ∀ f : Frame, s.readout.frame = some f →
        (f.abortTaken = true ∨ (∃ k, f.position = .trailer k) →
          exec (.abortReadout []) s = .next (s.answered 0x40 [] .wrongState []))
        ∧ (f.abortTaken = false → (∀ k, f.position ≠ .trailer k) →
          let cleared (b : Nat) : Prop :=
            match f.position with
            | .bank n 0 => n ≤ b
            | .bank n (_ + 1) => n < b
            | _ => True
          ∃ t : State, exec (.abortReadout []) s = .next (t.answered 0x40 [] .ok [])
            ∧ t = { s with
                cells := t.cells
                readout := { s.readout with frame := some { f with
                  abortTaken := true
                  position := match f.position with
                    | .bank _ 0 => .trailer 0
                    | p => p } } }
            ∧ t.cells.length = s.cells.length
            ∧ (∀ (i : Nat) (c : Cell) (z : Frozen), s.ctl.frozen = some z → s.cells[i]? = some c → cleared (i / 64) →
                t.cells[i]? = some (c.clearFrozen z))
            ∧ (∀ (i : Nat) (c : Cell), s.cells[i]? = some c → s.ctl.frozen = none ∨ ¬ cleared (i / 64) →
                t.cells[i]? = some c))

/-- The header, field by field (section 10.4.2), and the value word of a cell, from which every quantity of the mode is read back and
which is 0 exactly when all are 0 (R193). -/
def Obligations.FrameFieldsCarryTheWindow : Prop :=
  (∀ f : Frame,
      let x := f.headerBytes
      let d := f.desc
      x.length = 28 ∧ fieldOf x 0 1 = 0xC3 ∧ fieldOf x 1 4 = f.unit % 2 ^ 32 ∧ fieldOf x 5 4 = d.frameNumber % 2 ^ 32
        ∧ fieldOf x 9 1 % 8 = d.mode.number ∧ (fieldOf x 9 1).testBit 3 = decide (d.dwellLaw = .first)
        ∧ (fieldOf x 9 1).testBit 4 = d.onsetWrap ∧ (fieldOf x 9 1).testBit 5 = f.suppress ∧ fieldOf x 9 1 < 64
        ∧ fieldOf x 10 1 = d.openCause.number + 4 * d.closeCause.number
        ∧ fieldOf x 11 3 = d.windowLength % 2 ^ 24 ∧ fieldOf x 14 2 = d.settleLength % 2 ^ 16
        ∧ fieldOf x 16 2 = d.shed % 2 ^ 16 ∧ fieldOf x 18 2 = d.released % 2 ^ 16 ∧ fieldOf x 20 2 = d.truncated % 2 ^ 16
        ∧ fieldOf x 22 2 = d.peak % 2 ^ 16
        ∧ (fieldOf x 24 1).testBit 0 = d.settleCap ∧ (fieldOf x 24 1).testBit 1 = d.exceeded
        ∧ (fieldOf x 24 1).testBit 2 = d.heldBefore ∧ (fieldOf x 24 1).testBit 3 = d.overflow ∧ fieldOf x 24 1 < 16
        ∧ fieldOf x 25 1 = d.testPulses % 2 ^ 8 ∧ fieldOf x 26 1 = d.discardedBefore % 2 ^ 8
        ∧ fieldOf x 27 1 = d.onsets.length % 2 ^ 8)
    ∧ ∀ (m : Mode) (h : Half) (c : Cell), c.Ranged →
        let v := valueWord m h c
        (m.sequential = true → v < 2 ^ 32) ∧ (m.sequential = false → v < 2 ^ 16)
          ∧ (v = 0 ↔ ∀ q ∈ m.carried, c.quantity m h q = 0)
          ∧ (m = .seqDw12On20 → v / 2 ^ 20 = c.quantity m h .dwell ∧ v % 2 ^ 20 = c.quantity m h .onset)
          ∧ (m = .seqDw16On16 → v / 2 ^ 16 = c.quantity m h .dwell ∧ v % 2 ^ 16 = c.quantity m h .onset)
          ∧ (m = .conDw12Ep4 → v / 2 ^ 4 = c.quantity m h .dwell ∧ v % 2 ^ 4 = c.quantity m h .episodes)
          ∧ (∀ q, m.carried = [q] → v = c.quantity m h q)

/-! ## What every step keeps, and the whole frame -/

/-- A frame byte for byte. One that nothing interrupts is the sequence of R119: header, onset entries, the 65 bank records from the
frozen storage as it stood at the start, the trailer with the count and the CRC of the bytes before it. After an ABORT_READOUT taken
before the trailer, at whatever position, the frame sends what R134 gives (the rest of the header and every onset entry, the rest of the
onset entries, the rest of the bank record in hand, or nothing more) and then the trailer with completion ABORTED, the count of all bytes
sent and the CRC over them (R129, R130). Then readout is complete: the total counts the frame, and FRAME_DONE is set (pending, or on its
way: log 21). Between two deliveries a TBCLK period passes, with what it brings (log 3): it does not reach the frozen storage, by the
roles that `StorageRolesAreKeptByEveryStep` keeps. -/
def Obligations.WholeAndAbortedFramesAreTheirImages : Prop :=
  ∀ (f : Frame) (s : State), s.readout.frame = some f → f.abortTaken = false → s.cells.length = 4100 → s.HandOffInv →
    let completes (t : State) (bytes : List Byte) : Prop :=
      let u := (delivered bytes.length t).2
      (delivered bytes.length t).1 = bytes ∧ u.readout.emitted = (s.readout.emitted + 1) % 2 ^ 32
        ∧ (u.attn ||| u.arriving) &&& 0x01 = 0x01
    (f.position = .header 0 → f.HasSent [] → completes s (f.image s))
    ∧ ∀ (sent : List Byte) (t : State), f.HasSent sent → f.BeforeTrailer s → s.port.decoder = .receiving →
        exec (.abortReadout []) s = .next t →
        completes t (f.afterAbort s ++ trailerAfter (sent ++ f.afterAbort s) 0x02)

/-- The fixed sizes and ranges of the part (R1, R22, R24, R34, R57, R62, R94, R97). -/
def Obligations.SizesAreKeptByEveryStep : Prop := ∀ s t : State, s.Sized → step s = .next t → t.Sized

/-- ATTN_N follows the pending set and ATTN_ENABLE at every event (R182). -/
def Obligations.AttentionLineFollowsAtEveryStep : Prop := ∀ s t : State, s.AttnFollows → step s = .next t → t.AttnFollows

/-- Every parameter keeps a value that its range and alignment allow (R169, R194). -/
def Obligations.ParametersStayLegal : Prop := ∀ s t : State, s.params.Legal → step s = .next t → t.params.Legal

/-- The roles of storage and descriptors (R92, R95, R103, R104, R108), and that each window in hand has the mode in force (R38). -/
def Obligations.StorageRolesAreKeptByEveryStep : Prop := ∀ s t : State, s.HandOffInv → step s = .next t → t.HandOffInv

/-- Rest outside OPEN and SETTLING, what settling keeps, and the ranges of the counts of the dividers, the window, the settling, the
pulse and the holds (R19, R23, R29, R31, R50, R67, R78, R87, R88, R139); and that a cause is on its way to the Attention Unit only between
an event and the request directly behind it that clears causes, and that a first onset meets an onset tick only between its event and the
tick directly behind it, and that a decay tick waits only for the dwell tick or the INJECT directly behind it, which are the model's own
fields (logs 21, 22, 24). -/
def Obligations.RestIsKeptByEveryStep : Prop :=
  ∀ s t : State, s.params.Legal → s.RestInv → step s = .next t → t.RestInv

/-- The occupancy is at every moment the number of HOT cells that are unmasked and not in a gated bank (R20). -/
def Obligations.OccupancyCountsTheHotCells : Prop :=
  ∀ s t : State, s.RestInv → s.OccupancyExact → step s = .next t → t.OccupancyExact

/-- Where counters are zero (R36, R104, R106), kept by every step; so that in IDLE with nothing frozen every counter is zero. -/
def Obligations.CountersAreZeroBetweenWindows : Prop :=
  (∀ s t : State, s.Sized → s.HandOffInv → s.RestInv → s.StorageInv → step s = .next t → t.StorageInv)
    ∧ ∀ s : State, s.StorageInv → s.ctl.state = .idle → s.ctl.frozen = none → ∀ c ∈ s.cells,
        c.seg0 = 0 ∧ c.seg1 = 0 ∧ c.seg2 = 0 ∧ c.seg3 = 0

/-- Every window opened since the reset is emitted, discarded or in hand (R187). -/
def Obligations.EveryWindowIsAccountedFor : Prop :=
  ∀ s t : State, s.HandOffInv → s.WindowsAccounted → step s = .next t → t.WindowsAccounted

/-- The first-onset list (R97, R98): at most 16 entries, no cell twice, offsets that do not decrease; and no cell that has a report that
waits for an onset tick directly behind (the model's own field, log 22) is in it. -/
def Obligations.OnsetListStaysOrdered : Prop := ∀ s t : State, s.OnsetListInv → step s = .next t → t.OnsetListInv
end

