-- ==== Sys2Proof/Laws/State.lean ====
section
/-! SUPPORT. One lemma per field per update: what a named update of the state leaves alone, and the few fields it sets.
Later proofs cite these and unfold no record update. -/

namespace Sys2Proof.Machine

/-! ### driveAttn -/

@[simp] theorem driveAttn_pending  (s : State) : (driveAttn s).pending = s.pending := rfl
@[simp] theorem driveAttn_free  (s : State) : (driveAttn s).free = s.free := rfl
@[simp] theorem driveAttn_port  (s : State) : (driveAttn s).port = s.port := rfl
@[simp] theorem driveAttn_params  (s : State) : (driveAttn s).params = s.params := rfl
@[simp] theorem driveAttn_cells  (s : State) : (driveAttn s).cells = s.cells := rfl
@[simp] theorem driveAttn_occ  (s : State) : (driveAttn s).occ = s.occ := rfl
@[simp] theorem driveAttn_engine  (s : State) : (driveAttn s).engine = s.engine := rfl
@[simp] theorem driveAttn_ticks  (s : State) : (driveAttn s).ticks = s.ticks := rfl
@[simp] theorem driveAttn_path  (s : State) : (driveAttn s).path = s.path := rfl
@[simp] theorem driveAttn_filter  (s : State) : (driveAttn s).filter = s.filter := rfl
@[simp] theorem driveAttn_queue  (s : State) : (driveAttn s).queue = s.queue := rfl
@[simp] theorem driveAttn_ctl  (s : State) : (driveAttn s).ctl = s.ctl := rfl
@[simp] theorem driveAttn_readout  (s : State) : (driveAttn s).readout = s.readout := rfl
@[simp] theorem driveAttn_tpg  (s : State) : (driveAttn s).tpg = s.tpg := rfl
@[simp] theorem driveAttn_attn  (s : State) : (driveAttn s).attn = s.attn := rfl
@[simp] theorem driveAttn_arriving  (s : State) : (driveAttn s).arriving = s.arriving := rfl
@[simp] theorem driveAttn_crossing  (s : State) : (driveAttn s).crossing = s.crossing := rfl
@[simp] theorem driveAttn_decayWaits  (s : State) : (driveAttn s).decayWaits = s.decayWaits := rfl

/-! ### raiseCause -/

@[simp] theorem raiseCause_pending (c : Cause) (s : State) : (raiseCause c s).pending = s.pending := rfl
@[simp] theorem raiseCause_free (c : Cause) (s : State) : (raiseCause c s).free = s.free := rfl
@[simp] theorem raiseCause_port (c : Cause) (s : State) : (raiseCause c s).port = s.port := rfl
@[simp] theorem raiseCause_params (c : Cause) (s : State) : (raiseCause c s).params = s.params := rfl
@[simp] theorem raiseCause_cells (c : Cause) (s : State) : (raiseCause c s).cells = s.cells := rfl
@[simp] theorem raiseCause_occ (c : Cause) (s : State) : (raiseCause c s).occ = s.occ := rfl
@[simp] theorem raiseCause_engine (c : Cause) (s : State) : (raiseCause c s).engine = s.engine := rfl
@[simp] theorem raiseCause_ticks (c : Cause) (s : State) : (raiseCause c s).ticks = s.ticks := rfl
@[simp] theorem raiseCause_path (c : Cause) (s : State) : (raiseCause c s).path = s.path := rfl
@[simp] theorem raiseCause_filter (c : Cause) (s : State) : (raiseCause c s).filter = s.filter := rfl
@[simp] theorem raiseCause_queue (c : Cause) (s : State) : (raiseCause c s).queue = s.queue := rfl
@[simp] theorem raiseCause_ctl (c : Cause) (s : State) : (raiseCause c s).ctl = s.ctl := rfl
@[simp] theorem raiseCause_readout (c : Cause) (s : State) : (raiseCause c s).readout = s.readout := rfl
@[simp] theorem raiseCause_tpg (c : Cause) (s : State) : (raiseCause c s).tpg = s.tpg := rfl
@[simp] theorem raiseCause_crossing (c : Cause) (s : State) : (raiseCause c s).crossing = s.crossing := rfl
@[simp] theorem raiseCause_decayWaits (c : Cause) (s : State) : (raiseCause c s).decayWaits = s.decayWaits := rfl

/-! ### raiseCommandFault -/

@[simp] theorem raiseCommandFault_pending  (s : State) : (raiseCommandFault s).pending = s.pending := rfl
@[simp] theorem raiseCommandFault_free  (s : State) : (raiseCommandFault s).free = s.free := rfl
@[simp] theorem raiseCommandFault_port  (s : State) : (raiseCommandFault s).port = s.port := rfl
@[simp] theorem raiseCommandFault_params  (s : State) : (raiseCommandFault s).params = s.params := rfl
@[simp] theorem raiseCommandFault_cells  (s : State) : (raiseCommandFault s).cells = s.cells := rfl
@[simp] theorem raiseCommandFault_occ  (s : State) : (raiseCommandFault s).occ = s.occ := rfl
@[simp] theorem raiseCommandFault_engine  (s : State) : (raiseCommandFault s).engine = s.engine := rfl
@[simp] theorem raiseCommandFault_ticks  (s : State) : (raiseCommandFault s).ticks = s.ticks := rfl
@[simp] theorem raiseCommandFault_path  (s : State) : (raiseCommandFault s).path = s.path := rfl
@[simp] theorem raiseCommandFault_filter  (s : State) : (raiseCommandFault s).filter = s.filter := rfl
@[simp] theorem raiseCommandFault_queue  (s : State) : (raiseCommandFault s).queue = s.queue := rfl
@[simp] theorem raiseCommandFault_ctl  (s : State) : (raiseCommandFault s).ctl = s.ctl := rfl
@[simp] theorem raiseCommandFault_readout  (s : State) : (raiseCommandFault s).readout = s.readout := rfl
@[simp] theorem raiseCommandFault_tpg  (s : State) : (raiseCommandFault s).tpg = s.tpg := rfl
@[simp] theorem raiseCommandFault_arriving  (s : State) : (raiseCommandFault s).arriving = s.arriving := rfl
@[simp] theorem raiseCommandFault_crossing  (s : State) : (raiseCommandFault s).crossing = s.crossing := rfl
@[simp] theorem raiseCommandFault_decayWaits  (s : State) : (raiseCommandFault s).decayWaits = s.decayWaits := rfl

/-! ### clearCauses -/

@[simp] theorem clearCauses_pending (set : BitVec 8) (s : State) : (clearCauses set s).pending = s.pending := rfl
@[simp] theorem clearCauses_free (set : BitVec 8) (s : State) : (clearCauses set s).free = s.free := rfl
@[simp] theorem clearCauses_port (set : BitVec 8) (s : State) : (clearCauses set s).port = s.port := rfl
@[simp] theorem clearCauses_params (set : BitVec 8) (s : State) : (clearCauses set s).params = s.params := rfl
@[simp] theorem clearCauses_cells (set : BitVec 8) (s : State) : (clearCauses set s).cells = s.cells := rfl
@[simp] theorem clearCauses_occ (set : BitVec 8) (s : State) : (clearCauses set s).occ = s.occ := rfl
@[simp] theorem clearCauses_engine (set : BitVec 8) (s : State) : (clearCauses set s).engine = s.engine := rfl
@[simp] theorem clearCauses_ticks (set : BitVec 8) (s : State) : (clearCauses set s).ticks = s.ticks := rfl
@[simp] theorem clearCauses_path (set : BitVec 8) (s : State) : (clearCauses set s).path = s.path := rfl
@[simp] theorem clearCauses_filter (set : BitVec 8) (s : State) : (clearCauses set s).filter = s.filter := rfl
@[simp] theorem clearCauses_queue (set : BitVec 8) (s : State) : (clearCauses set s).queue = s.queue := rfl
@[simp] theorem clearCauses_ctl (set : BitVec 8) (s : State) : (clearCauses set s).ctl = s.ctl := rfl
@[simp] theorem clearCauses_readout (set : BitVec 8) (s : State) : (clearCauses set s).readout = s.readout := rfl
@[simp] theorem clearCauses_tpg (set : BitVec 8) (s : State) : (clearCauses set s).tpg = s.tpg := rfl
@[simp] theorem clearCauses_arriving (set : BitVec 8) (s : State) : (clearCauses set s).arriving = s.arriving := rfl
@[simp] theorem clearCauses_crossing (set : BitVec 8) (s : State) : (clearCauses set s).crossing = s.crossing := rfl
@[simp] theorem clearCauses_decayWaits (set : BitVec 8) (s : State) : (clearCauses set s).decayWaits = s.decayWaits := rfl

/-! ### onDesc -/

@[simp] theorem onDesc_pending (f : Descriptor → Descriptor) (s : State) : (onDesc f s).pending = s.pending := rfl
@[simp] theorem onDesc_free (f : Descriptor → Descriptor) (s : State) : (onDesc f s).free = s.free := rfl
@[simp] theorem onDesc_pins (f : Descriptor → Descriptor) (s : State) : (onDesc f s).pins = s.pins := rfl
@[simp] theorem onDesc_port (f : Descriptor → Descriptor) (s : State) : (onDesc f s).port = s.port := rfl
@[simp] theorem onDesc_params (f : Descriptor → Descriptor) (s : State) : (onDesc f s).params = s.params := rfl
@[simp] theorem onDesc_cells (f : Descriptor → Descriptor) (s : State) : (onDesc f s).cells = s.cells := rfl
@[simp] theorem onDesc_occ (f : Descriptor → Descriptor) (s : State) : (onDesc f s).occ = s.occ := rfl
@[simp] theorem onDesc_engine (f : Descriptor → Descriptor) (s : State) : (onDesc f s).engine = s.engine := rfl
@[simp] theorem onDesc_ticks (f : Descriptor → Descriptor) (s : State) : (onDesc f s).ticks = s.ticks := rfl
@[simp] theorem onDesc_path (f : Descriptor → Descriptor) (s : State) : (onDesc f s).path = s.path := rfl
@[simp] theorem onDesc_filter (f : Descriptor → Descriptor) (s : State) : (onDesc f s).filter = s.filter := rfl
@[simp] theorem onDesc_queue (f : Descriptor → Descriptor) (s : State) : (onDesc f s).queue = s.queue := rfl
@[simp] theorem onDesc_readout (f : Descriptor → Descriptor) (s : State) : (onDesc f s).readout = s.readout := rfl
@[simp] theorem onDesc_tpg (f : Descriptor → Descriptor) (s : State) : (onDesc f s).tpg = s.tpg := rfl
@[simp] theorem onDesc_attn (f : Descriptor → Descriptor) (s : State) : (onDesc f s).attn = s.attn := rfl
@[simp] theorem onDesc_arriving (f : Descriptor → Descriptor) (s : State) : (onDesc f s).arriving = s.arriving := rfl
@[simp] theorem onDesc_crossing (f : Descriptor → Descriptor) (s : State) : (onDesc f s).crossing = s.crossing := rfl
@[simp] theorem onDesc_decayWaits (f : Descriptor → Descriptor) (s : State) : (onDesc f s).decayWaits = s.decayWaits := rfl

/-! ### takeReport -/

@[simp] theorem takeReport_pending (i : Nat) (s : State) : (takeReport s i).pending = s.pending := rfl
@[simp] theorem takeReport_free (i : Nat) (s : State) : (takeReport s i).free = s.free := rfl
@[simp] theorem takeReport_pins (i : Nat) (s : State) : (takeReport s i).pins = s.pins := rfl
@[simp] theorem takeReport_port (i : Nat) (s : State) : (takeReport s i).port = s.port := rfl
@[simp] theorem takeReport_params (i : Nat) (s : State) : (takeReport s i).params = s.params := rfl
@[simp] theorem takeReport_cells (i : Nat) (s : State) : (takeReport s i).cells = s.cells := rfl
@[simp] theorem takeReport_occ (i : Nat) (s : State) : (takeReport s i).occ = s.occ := rfl
@[simp] theorem takeReport_engine (i : Nat) (s : State) : (takeReport s i).engine = s.engine := rfl
@[simp] theorem takeReport_ticks (i : Nat) (s : State) : (takeReport s i).ticks = s.ticks := rfl
@[simp] theorem takeReport_path (i : Nat) (s : State) : (takeReport s i).path = s.path := rfl
@[simp] theorem takeReport_filter (i : Nat) (s : State) : (takeReport s i).filter = s.filter := rfl
@[simp] theorem takeReport_queue (i : Nat) (s : State) : (takeReport s i).queue = s.queue := rfl
@[simp] theorem takeReport_readout (i : Nat) (s : State) : (takeReport s i).readout = s.readout := rfl
@[simp] theorem takeReport_tpg (i : Nat) (s : State) : (takeReport s i).tpg = s.tpg := rfl
@[simp] theorem takeReport_attn (i : Nat) (s : State) : (takeReport s i).attn = s.attn := rfl
@[simp] theorem takeReport_arriving (i : Nat) (s : State) : (takeReport s i).arriving = s.arriving := rfl
@[simp] theorem takeReport_crossing (i : Nat) (s : State) : (takeReport s i).crossing = s.crossing := rfl
@[simp] theorem takeReport_decayWaits (i : Nat) (s : State) : (takeReport s i).decayWaits = s.decayWaits := rfl

/-! ### exceedNotice -/

@[simp] theorem exceedNotice_pending  (s : State) : (exceedNotice s).pending = s.pending := rfl
@[simp] theorem exceedNotice_free  (s : State) : (exceedNotice s).free = s.free := rfl
@[simp] theorem exceedNotice_port  (s : State) : (exceedNotice s).port = s.port := rfl
@[simp] theorem exceedNotice_params  (s : State) : (exceedNotice s).params = s.params := rfl
@[simp] theorem exceedNotice_cells  (s : State) : (exceedNotice s).cells = s.cells := rfl
@[simp] theorem exceedNotice_occ  (s : State) : (exceedNotice s).occ = s.occ := rfl
@[simp] theorem exceedNotice_engine  (s : State) : (exceedNotice s).engine = s.engine := rfl
@[simp] theorem exceedNotice_ticks  (s : State) : (exceedNotice s).ticks = s.ticks := rfl
@[simp] theorem exceedNotice_path  (s : State) : (exceedNotice s).path = s.path := rfl
@[simp] theorem exceedNotice_filter  (s : State) : (exceedNotice s).filter = s.filter := rfl
@[simp] theorem exceedNotice_queue  (s : State) : (exceedNotice s).queue = s.queue := rfl
@[simp] theorem exceedNotice_readout  (s : State) : (exceedNotice s).readout = s.readout := rfl
@[simp] theorem exceedNotice_tpg  (s : State) : (exceedNotice s).tpg = s.tpg := rfl
@[simp] theorem exceedNotice_crossing  (s : State) : (exceedNotice s).crossing = s.crossing := rfl
@[simp] theorem exceedNotice_decayWaits  (s : State) : (exceedNotice s).decayWaits = s.decayWaits := rfl

/-! ### setHold -/

@[simp] theorem setHold_pending (ch : Channel) (h : Option Hold) (s : State) : (setHold ch h s).pending = s.pending := by cases ch <;> rfl
@[simp] theorem setHold_free (ch : Channel) (h : Option Hold) (s : State) : (setHold ch h s).free = s.free := by cases ch <;> rfl
@[simp] theorem setHold_pins (ch : Channel) (h : Option Hold) (s : State) : (setHold ch h s).pins = s.pins := by cases ch <;> rfl
@[simp] theorem setHold_port (ch : Channel) (h : Option Hold) (s : State) : (setHold ch h s).port = s.port := by cases ch <;> rfl
@[simp] theorem setHold_params (ch : Channel) (h : Option Hold) (s : State) : (setHold ch h s).params = s.params := by cases ch <;> rfl
@[simp] theorem setHold_cells (ch : Channel) (h : Option Hold) (s : State) : (setHold ch h s).cells = s.cells := by cases ch <;> rfl
@[simp] theorem setHold_occ (ch : Channel) (h : Option Hold) (s : State) : (setHold ch h s).occ = s.occ := by cases ch <;> rfl
@[simp] theorem setHold_engine (ch : Channel) (h : Option Hold) (s : State) : (setHold ch h s).engine = s.engine := by cases ch <;> rfl
@[simp] theorem setHold_ticks (ch : Channel) (h : Option Hold) (s : State) : (setHold ch h s).ticks = s.ticks := by cases ch <;> rfl
@[simp] theorem setHold_filter (ch : Channel) (h : Option Hold) (s : State) : (setHold ch h s).filter = s.filter := by cases ch <;> rfl
@[simp] theorem setHold_queue (ch : Channel) (h : Option Hold) (s : State) : (setHold ch h s).queue = s.queue := by cases ch <;> rfl
@[simp] theorem setHold_ctl (ch : Channel) (h : Option Hold) (s : State) : (setHold ch h s).ctl = s.ctl := by cases ch <;> rfl
@[simp] theorem setHold_readout (ch : Channel) (h : Option Hold) (s : State) : (setHold ch h s).readout = s.readout := by cases ch <;> rfl
@[simp] theorem setHold_tpg (ch : Channel) (h : Option Hold) (s : State) : (setHold ch h s).tpg = s.tpg := by cases ch <;> rfl
@[simp] theorem setHold_attn (ch : Channel) (h : Option Hold) (s : State) : (setHold ch h s).attn = s.attn := by cases ch <;> rfl
@[simp] theorem setHold_arriving (ch : Channel) (h : Option Hold) (s : State) : (setHold ch h s).arriving = s.arriving := by cases ch <;> rfl
@[simp] theorem setHold_crossing (ch : Channel) (h : Option Hold) (s : State) : (setHold ch h s).crossing = s.crossing := by cases ch <;> rfl
@[simp] theorem setHold_decayWaits (ch : Channel) (h : Option Hold) (s : State) : (setHold ch h s).decayWaits = s.decayWaits := by cases ch <;> rfl

/-! ### passHandshake -/

@[simp] theorem passHandshake_pending (ch : Channel) (hs : Handshake) (s : State) : (passHandshake ch hs s).pending = s.pending := by cases ch <;> rfl
@[simp] theorem passHandshake_free (ch : Channel) (hs : Handshake) (s : State) : (passHandshake ch hs s).free = s.free := by cases ch <;> rfl
@[simp] theorem passHandshake_pins (ch : Channel) (hs : Handshake) (s : State) : (passHandshake ch hs s).pins = s.pins := by cases ch <;> rfl
@[simp] theorem passHandshake_port (ch : Channel) (hs : Handshake) (s : State) : (passHandshake ch hs s).port = s.port := by cases ch <;> rfl
@[simp] theorem passHandshake_params (ch : Channel) (hs : Handshake) (s : State) : (passHandshake ch hs s).params = s.params := by cases ch <;> rfl
@[simp] theorem passHandshake_cells (ch : Channel) (hs : Handshake) (s : State) : (passHandshake ch hs s).cells = s.cells := by cases ch <;> rfl
@[simp] theorem passHandshake_occ (ch : Channel) (hs : Handshake) (s : State) : (passHandshake ch hs s).occ = s.occ := by cases ch <;> rfl
@[simp] theorem passHandshake_engine (ch : Channel) (hs : Handshake) (s : State) : (passHandshake ch hs s).engine = s.engine := by cases ch <;> rfl
@[simp] theorem passHandshake_ticks (ch : Channel) (hs : Handshake) (s : State) : (passHandshake ch hs s).ticks = s.ticks := by cases ch <;> rfl
@[simp] theorem passHandshake_filter (ch : Channel) (hs : Handshake) (s : State) : (passHandshake ch hs s).filter = s.filter := by cases ch <;> rfl
@[simp] theorem passHandshake_queue (ch : Channel) (hs : Handshake) (s : State) : (passHandshake ch hs s).queue = s.queue := by cases ch <;> rfl
@[simp] theorem passHandshake_ctl (ch : Channel) (hs : Handshake) (s : State) : (passHandshake ch hs s).ctl = s.ctl := by cases ch <;> rfl
@[simp] theorem passHandshake_readout (ch : Channel) (hs : Handshake) (s : State) : (passHandshake ch hs s).readout = s.readout := by cases ch <;> rfl
@[simp] theorem passHandshake_tpg (ch : Channel) (hs : Handshake) (s : State) : (passHandshake ch hs s).tpg = s.tpg := by cases ch <;> rfl
@[simp] theorem passHandshake_attn (ch : Channel) (hs : Handshake) (s : State) : (passHandshake ch hs s).attn = s.attn := by cases ch <;> rfl
@[simp] theorem passHandshake_arriving (ch : Channel) (hs : Handshake) (s : State) : (passHandshake ch hs s).arriving = s.arriving := by cases ch <;> rfl
@[simp] theorem passHandshake_crossing (ch : Channel) (hs : Handshake) (s : State) : (passHandshake ch hs s).crossing = s.crossing := by cases ch <;> rfl
@[simp] theorem passHandshake_decayWaits (ch : Channel) (hs : Handshake) (s : State) : (passHandshake ch hs s).decayWaits = s.decayWaits := by cases ch <;> rfl

/-! ### receiveRequest -/

@[simp] theorem receiveRequest_pending (code : Byte) (args : List Byte) (check : Byte) (s : State) : (receiveRequest code args check s).pending = s.pending := rfl
@[simp] theorem receiveRequest_free (code : Byte) (args : List Byte) (check : Byte) (s : State) : (receiveRequest code args check s).free = s.free := rfl
@[simp] theorem receiveRequest_pins (code : Byte) (args : List Byte) (check : Byte) (s : State) : (receiveRequest code args check s).pins = s.pins := rfl
@[simp] theorem receiveRequest_params (code : Byte) (args : List Byte) (check : Byte) (s : State) : (receiveRequest code args check s).params = s.params := rfl
@[simp] theorem receiveRequest_cells (code : Byte) (args : List Byte) (check : Byte) (s : State) : (receiveRequest code args check s).cells = s.cells := rfl
@[simp] theorem receiveRequest_occ (code : Byte) (args : List Byte) (check : Byte) (s : State) : (receiveRequest code args check s).occ = s.occ := rfl
@[simp] theorem receiveRequest_engine (code : Byte) (args : List Byte) (check : Byte) (s : State) : (receiveRequest code args check s).engine = s.engine := rfl
@[simp] theorem receiveRequest_ticks (code : Byte) (args : List Byte) (check : Byte) (s : State) : (receiveRequest code args check s).ticks = s.ticks := rfl
@[simp] theorem receiveRequest_path (code : Byte) (args : List Byte) (check : Byte) (s : State) : (receiveRequest code args check s).path = s.path := rfl
@[simp] theorem receiveRequest_filter (code : Byte) (args : List Byte) (check : Byte) (s : State) : (receiveRequest code args check s).filter = s.filter := rfl
@[simp] theorem receiveRequest_queue (code : Byte) (args : List Byte) (check : Byte) (s : State) : (receiveRequest code args check s).queue = s.queue := rfl
@[simp] theorem receiveRequest_ctl (code : Byte) (args : List Byte) (check : Byte) (s : State) : (receiveRequest code args check s).ctl = s.ctl := rfl
@[simp] theorem receiveRequest_readout (code : Byte) (args : List Byte) (check : Byte) (s : State) : (receiveRequest code args check s).readout = s.readout := rfl
@[simp] theorem receiveRequest_tpg (code : Byte) (args : List Byte) (check : Byte) (s : State) : (receiveRequest code args check s).tpg = s.tpg := rfl
@[simp] theorem receiveRequest_attn (code : Byte) (args : List Byte) (check : Byte) (s : State) : (receiveRequest code args check s).attn = s.attn := rfl
@[simp] theorem receiveRequest_arriving (code : Byte) (args : List Byte) (check : Byte) (s : State) : (receiveRequest code args check s).arriving = s.arriving := rfl
@[simp] theorem receiveRequest_crossing (code : Byte) (args : List Byte) (check : Byte) (s : State) : (receiveRequest code args check s).crossing = s.crossing := rfl
@[simp] theorem receiveRequest_decayWaits (code : Byte) (args : List Byte) (check : Byte) (s : State) : (receiveRequest code args check s).decayWaits = s.decayWaits := rfl

/-! ### respond -/

@[simp] theorem respond_pending (st : Status) (data : List Byte) (s : State) : (respond st data s).pending = s.pending := rfl
@[simp] theorem respond_free (st : Status) (data : List Byte) (s : State) : (respond st data s).free = s.free := rfl
@[simp] theorem respond_pins (st : Status) (data : List Byte) (s : State) : (respond st data s).pins = s.pins := rfl
@[simp] theorem respond_params (st : Status) (data : List Byte) (s : State) : (respond st data s).params = s.params := rfl
@[simp] theorem respond_cells (st : Status) (data : List Byte) (s : State) : (respond st data s).cells = s.cells := rfl
@[simp] theorem respond_occ (st : Status) (data : List Byte) (s : State) : (respond st data s).occ = s.occ := rfl
@[simp] theorem respond_engine (st : Status) (data : List Byte) (s : State) : (respond st data s).engine = s.engine := rfl
@[simp] theorem respond_ticks (st : Status) (data : List Byte) (s : State) : (respond st data s).ticks = s.ticks := rfl
@[simp] theorem respond_path (st : Status) (data : List Byte) (s : State) : (respond st data s).path = s.path := rfl
@[simp] theorem respond_filter (st : Status) (data : List Byte) (s : State) : (respond st data s).filter = s.filter := rfl
@[simp] theorem respond_queue (st : Status) (data : List Byte) (s : State) : (respond st data s).queue = s.queue := rfl
@[simp] theorem respond_ctl (st : Status) (data : List Byte) (s : State) : (respond st data s).ctl = s.ctl := rfl
@[simp] theorem respond_readout (st : Status) (data : List Byte) (s : State) : (respond st data s).readout = s.readout := rfl
@[simp] theorem respond_tpg (st : Status) (data : List Byte) (s : State) : (respond st data s).tpg = s.tpg := rfl
@[simp] theorem respond_attn (st : Status) (data : List Byte) (s : State) : (respond st data s).attn = s.attn := rfl
@[simp] theorem respond_arriving (st : Status) (data : List Byte) (s : State) : (respond st data s).arriving = s.arriving := rfl
@[simp] theorem respond_crossing (st : Status) (data : List Byte) (s : State) : (respond st data s).crossing = s.crossing := rfl
@[simp] theorem respond_decayWaits (st : Status) (data : List Byte) (s : State) : (respond st data s).decayWaits = s.decayWaits := rfl

/-! ### refuse -/

@[simp] theorem refuse_pending (code : Byte) (st : Status) (s : State) : (refuse code st s).pending = s.pending := rfl
@[simp] theorem refuse_free (code : Byte) (st : Status) (s : State) : (refuse code st s).free = s.free := rfl
@[simp] theorem refuse_pins (code : Byte) (st : Status) (s : State) : (refuse code st s).pins = s.pins := rfl
@[simp] theorem refuse_params (code : Byte) (st : Status) (s : State) : (refuse code st s).params = s.params := rfl
@[simp] theorem refuse_cells (code : Byte) (st : Status) (s : State) : (refuse code st s).cells = s.cells := rfl
@[simp] theorem refuse_occ (code : Byte) (st : Status) (s : State) : (refuse code st s).occ = s.occ := rfl
@[simp] theorem refuse_engine (code : Byte) (st : Status) (s : State) : (refuse code st s).engine = s.engine := rfl
@[simp] theorem refuse_ticks (code : Byte) (st : Status) (s : State) : (refuse code st s).ticks = s.ticks := rfl
@[simp] theorem refuse_path (code : Byte) (st : Status) (s : State) : (refuse code st s).path = s.path := rfl
@[simp] theorem refuse_filter (code : Byte) (st : Status) (s : State) : (refuse code st s).filter = s.filter := rfl
@[simp] theorem refuse_queue (code : Byte) (st : Status) (s : State) : (refuse code st s).queue = s.queue := rfl
@[simp] theorem refuse_ctl (code : Byte) (st : Status) (s : State) : (refuse code st s).ctl = s.ctl := rfl
@[simp] theorem refuse_readout (code : Byte) (st : Status) (s : State) : (refuse code st s).readout = s.readout := rfl
@[simp] theorem refuse_tpg (code : Byte) (st : Status) (s : State) : (refuse code st s).tpg = s.tpg := rfl
@[simp] theorem refuse_attn (code : Byte) (st : Status) (s : State) : (refuse code st s).attn = s.attn := rfl
@[simp] theorem refuse_arriving (code : Byte) (st : Status) (s : State) : (refuse code st s).arriving = s.arriving := rfl
@[simp] theorem refuse_crossing (code : Byte) (st : Status) (s : State) : (refuse code st s).crossing = s.crossing := rfl
@[simp] theorem refuse_decayWaits (code : Byte) (st : Status) (s : State) : (refuse code st s).decayWaits = s.decayWaits := rfl

/-! ### startFrame -/

@[simp] theorem startFrame_pending (d : Descriptor) (s : State) : (startFrame d s).pending = s.pending := rfl
@[simp] theorem startFrame_free (d : Descriptor) (s : State) : (startFrame d s).free = s.free := rfl
@[simp] theorem startFrame_pins (d : Descriptor) (s : State) : (startFrame d s).pins = s.pins := rfl
@[simp] theorem startFrame_port (d : Descriptor) (s : State) : (startFrame d s).port = s.port := rfl
@[simp] theorem startFrame_params (d : Descriptor) (s : State) : (startFrame d s).params = s.params := rfl
@[simp] theorem startFrame_cells (d : Descriptor) (s : State) : (startFrame d s).cells = s.cells := rfl
@[simp] theorem startFrame_occ (d : Descriptor) (s : State) : (startFrame d s).occ = s.occ := rfl
@[simp] theorem startFrame_engine (d : Descriptor) (s : State) : (startFrame d s).engine = s.engine := rfl
@[simp] theorem startFrame_ticks (d : Descriptor) (s : State) : (startFrame d s).ticks = s.ticks := rfl
@[simp] theorem startFrame_path (d : Descriptor) (s : State) : (startFrame d s).path = s.path := rfl
@[simp] theorem startFrame_filter (d : Descriptor) (s : State) : (startFrame d s).filter = s.filter := rfl
@[simp] theorem startFrame_queue (d : Descriptor) (s : State) : (startFrame d s).queue = s.queue := rfl
@[simp] theorem startFrame_ctl (d : Descriptor) (s : State) : (startFrame d s).ctl = s.ctl := rfl
@[simp] theorem startFrame_tpg (d : Descriptor) (s : State) : (startFrame d s).tpg = s.tpg := rfl
@[simp] theorem startFrame_attn (d : Descriptor) (s : State) : (startFrame d s).attn = s.attn := rfl
@[simp] theorem startFrame_arriving (d : Descriptor) (s : State) : (startFrame d s).arriving = s.arriving := rfl
@[simp] theorem startFrame_crossing (d : Descriptor) (s : State) : (startFrame d s).crossing = s.crossing := rfl
@[simp] theorem startFrame_decayWaits (d : Descriptor) (s : State) : (startFrame d s).decayWaits = s.decayWaits := rfl

/-! ### frameTo -/

@[simp] theorem frameTo_pending (f : Frame) (p : Position) (s : State) : (frameTo f p s).pending = s.pending := rfl
@[simp] theorem frameTo_free (f : Frame) (p : Position) (s : State) : (frameTo f p s).free = s.free := rfl
@[simp] theorem frameTo_pins (f : Frame) (p : Position) (s : State) : (frameTo f p s).pins = s.pins := rfl
@[simp] theorem frameTo_port (f : Frame) (p : Position) (s : State) : (frameTo f p s).port = s.port := rfl
@[simp] theorem frameTo_params (f : Frame) (p : Position) (s : State) : (frameTo f p s).params = s.params := rfl
@[simp] theorem frameTo_cells (f : Frame) (p : Position) (s : State) : (frameTo f p s).cells = s.cells := rfl
@[simp] theorem frameTo_occ (f : Frame) (p : Position) (s : State) : (frameTo f p s).occ = s.occ := rfl
@[simp] theorem frameTo_engine (f : Frame) (p : Position) (s : State) : (frameTo f p s).engine = s.engine := rfl
@[simp] theorem frameTo_ticks (f : Frame) (p : Position) (s : State) : (frameTo f p s).ticks = s.ticks := rfl
@[simp] theorem frameTo_path (f : Frame) (p : Position) (s : State) : (frameTo f p s).path = s.path := rfl
@[simp] theorem frameTo_filter (f : Frame) (p : Position) (s : State) : (frameTo f p s).filter = s.filter := rfl
@[simp] theorem frameTo_queue (f : Frame) (p : Position) (s : State) : (frameTo f p s).queue = s.queue := rfl
@[simp] theorem frameTo_ctl (f : Frame) (p : Position) (s : State) : (frameTo f p s).ctl = s.ctl := rfl
@[simp] theorem frameTo_tpg (f : Frame) (p : Position) (s : State) : (frameTo f p s).tpg = s.tpg := rfl
@[simp] theorem frameTo_attn (f : Frame) (p : Position) (s : State) : (frameTo f p s).attn = s.attn := rfl
@[simp] theorem frameTo_arriving (f : Frame) (p : Position) (s : State) : (frameTo f p s).arriving = s.arriving := rfl
@[simp] theorem frameTo_crossing (f : Frame) (p : Position) (s : State) : (frameTo f p s).crossing = s.crossing := rfl
@[simp] theorem frameTo_decayWaits (f : Frame) (p : Position) (s : State) : (frameTo f p s).decayWaits = s.decayWaits := rfl

/-! ### drivePort -/

@[simp] theorem drivePort_pending (f : Frame) (b : Byte) (s : State) : (drivePort f b s).pending = s.pending := rfl
@[simp] theorem drivePort_free (f : Frame) (b : Byte) (s : State) : (drivePort f b s).free = s.free := rfl
@[simp] theorem drivePort_port (f : Frame) (b : Byte) (s : State) : (drivePort f b s).port = s.port := rfl
@[simp] theorem drivePort_params (f : Frame) (b : Byte) (s : State) : (drivePort f b s).params = s.params := rfl
@[simp] theorem drivePort_cells (f : Frame) (b : Byte) (s : State) : (drivePort f b s).cells = s.cells := rfl
@[simp] theorem drivePort_occ (f : Frame) (b : Byte) (s : State) : (drivePort f b s).occ = s.occ := rfl
@[simp] theorem drivePort_engine (f : Frame) (b : Byte) (s : State) : (drivePort f b s).engine = s.engine := rfl
@[simp] theorem drivePort_ticks (f : Frame) (b : Byte) (s : State) : (drivePort f b s).ticks = s.ticks := rfl
@[simp] theorem drivePort_path (f : Frame) (b : Byte) (s : State) : (drivePort f b s).path = s.path := rfl
@[simp] theorem drivePort_filter (f : Frame) (b : Byte) (s : State) : (drivePort f b s).filter = s.filter := rfl
@[simp] theorem drivePort_queue (f : Frame) (b : Byte) (s : State) : (drivePort f b s).queue = s.queue := rfl
@[simp] theorem drivePort_ctl (f : Frame) (b : Byte) (s : State) : (drivePort f b s).ctl = s.ctl := rfl
@[simp] theorem drivePort_readout (f : Frame) (b : Byte) (s : State) : (drivePort f b s).readout = s.readout := rfl
@[simp] theorem drivePort_tpg (f : Frame) (b : Byte) (s : State) : (drivePort f b s).tpg = s.tpg := rfl
@[simp] theorem drivePort_attn (f : Frame) (b : Byte) (s : State) : (drivePort f b s).attn = s.attn := rfl
@[simp] theorem drivePort_arriving (f : Frame) (b : Byte) (s : State) : (drivePort f b s).arriving = s.arriving := rfl
@[simp] theorem drivePort_crossing (f : Frame) (b : Byte) (s : State) : (drivePort f b s).crossing = s.crossing := rfl
@[simp] theorem drivePort_decayWaits (f : Frame) (b : Byte) (s : State) : (drivePort f b s).decayWaits = s.decayWaits := rfl

/-! ### setLine -/

@[simp] theorem setLine_pending (n : Fin 4) (up : Bool) (s : State) : (setLine n up s).pending = s.pending := rfl
@[simp] theorem setLine_free (n : Fin 4) (up : Bool) (s : State) : (setLine n up s).free = s.free := rfl
@[simp] theorem setLine_port (n : Fin 4) (up : Bool) (s : State) : (setLine n up s).port = s.port := rfl
@[simp] theorem setLine_params (n : Fin 4) (up : Bool) (s : State) : (setLine n up s).params = s.params := rfl
@[simp] theorem setLine_cells (n : Fin 4) (up : Bool) (s : State) : (setLine n up s).cells = s.cells := rfl
@[simp] theorem setLine_occ (n : Fin 4) (up : Bool) (s : State) : (setLine n up s).occ = s.occ := rfl
@[simp] theorem setLine_engine (n : Fin 4) (up : Bool) (s : State) : (setLine n up s).engine = s.engine := rfl
@[simp] theorem setLine_ticks (n : Fin 4) (up : Bool) (s : State) : (setLine n up s).ticks = s.ticks := rfl
@[simp] theorem setLine_path (n : Fin 4) (up : Bool) (s : State) : (setLine n up s).path = s.path := rfl
@[simp] theorem setLine_filter (n : Fin 4) (up : Bool) (s : State) : (setLine n up s).filter = s.filter := rfl
@[simp] theorem setLine_queue (n : Fin 4) (up : Bool) (s : State) : (setLine n up s).queue = s.queue := rfl
@[simp] theorem setLine_ctl (n : Fin 4) (up : Bool) (s : State) : (setLine n up s).ctl = s.ctl := rfl
@[simp] theorem setLine_readout (n : Fin 4) (up : Bool) (s : State) : (setLine n up s).readout = s.readout := rfl
@[simp] theorem setLine_tpg (n : Fin 4) (up : Bool) (s : State) : (setLine n up s).tpg = s.tpg := rfl
@[simp] theorem setLine_attn (n : Fin 4) (up : Bool) (s : State) : (setLine n up s).attn = s.attn := rfl
@[simp] theorem setLine_arriving (n : Fin 4) (up : Bool) (s : State) : (setLine n up s).arriving = s.arriving := rfl
@[simp] theorem setLine_crossing (n : Fin 4) (up : Bool) (s : State) : (setLine n up s).crossing = s.crossing := rfl
@[simp] theorem setLine_decayWaits (n : Fin 4) (up : Bool) (s : State) : (setLine n up s).decayWaits = s.decayWaits := rfl

/-! ### stopCycle -/

@[simp] theorem stopCycle_pending  (s : State) : (stopCycle s).pending = s.pending := rfl
@[simp] theorem stopCycle_free  (s : State) : (stopCycle s).free = s.free := rfl
@[simp] theorem stopCycle_pins  (s : State) : (stopCycle s).pins = s.pins := rfl
@[simp] theorem stopCycle_port  (s : State) : (stopCycle s).port = s.port := rfl
@[simp] theorem stopCycle_params  (s : State) : (stopCycle s).params = s.params := rfl
@[simp] theorem stopCycle_cells  (s : State) : (stopCycle s).cells = s.cells := rfl
@[simp] theorem stopCycle_occ  (s : State) : (stopCycle s).occ = s.occ := rfl
@[simp] theorem stopCycle_engine  (s : State) : (stopCycle s).engine = s.engine := rfl
@[simp] theorem stopCycle_ticks  (s : State) : (stopCycle s).ticks = s.ticks := rfl
@[simp] theorem stopCycle_path  (s : State) : (stopCycle s).path = s.path := rfl
@[simp] theorem stopCycle_filter  (s : State) : (stopCycle s).filter = s.filter := rfl
@[simp] theorem stopCycle_queue  (s : State) : (stopCycle s).queue = s.queue := rfl
@[simp] theorem stopCycle_readout  (s : State) : (stopCycle s).readout = s.readout := rfl
@[simp] theorem stopCycle_tpg  (s : State) : (stopCycle s).tpg = s.tpg := rfl
@[simp] theorem stopCycle_attn  (s : State) : (stopCycle s).attn = s.attn := rfl
@[simp] theorem stopCycle_arriving  (s : State) : (stopCycle s).arriving = s.arriving := rfl
@[simp] theorem stopCycle_crossing  (s : State) : (stopCycle s).crossing = s.crossing := rfl
@[simp] theorem stopCycle_decayWaits  (s : State) : (stopCycle s).decayWaits = s.decayWaits := rfl

/-! ### comeToRest -/

@[simp] theorem comeToRest_pending  (s : State) : (comeToRest s).pending = s.pending := rfl
@[simp] theorem comeToRest_free  (s : State) : (comeToRest s).free = s.free := rfl
@[simp] theorem comeToRest_pins  (s : State) : (comeToRest s).pins = s.pins := rfl
@[simp] theorem comeToRest_port  (s : State) : (comeToRest s).port = s.port := rfl
@[simp] theorem comeToRest_params  (s : State) : (comeToRest s).params = s.params := rfl
@[simp] theorem comeToRest_engine  (s : State) : (comeToRest s).engine = s.engine := rfl
@[simp] theorem comeToRest_path  (s : State) : (comeToRest s).path = s.path := rfl
@[simp] theorem comeToRest_filter  (s : State) : (comeToRest s).filter = s.filter := rfl
@[simp] theorem comeToRest_queue  (s : State) : (comeToRest s).queue = s.queue := rfl
@[simp] theorem comeToRest_ctl  (s : State) : (comeToRest s).ctl = s.ctl := rfl
@[simp] theorem comeToRest_readout  (s : State) : (comeToRest s).readout = s.readout := rfl
@[simp] theorem comeToRest_attn  (s : State) : (comeToRest s).attn = s.attn := rfl
@[simp] theorem comeToRest_arriving  (s : State) : (comeToRest s).arriving = s.arriving := rfl
@[simp] theorem comeToRest_crossing  (s : State) : (comeToRest s).crossing = s.crossing := rfl
@[simp] theorem comeToRest_decayWaits  (s : State) : (comeToRest s).decayWaits = s.decayWaits := rfl

/-! ### missedOpen -/

@[simp] theorem missedOpen_pending  (s : State) : (missedOpen s).pending = s.pending := rfl
@[simp] theorem missedOpen_free  (s : State) : (missedOpen s).free = s.free := rfl
@[simp] theorem missedOpen_port  (s : State) : (missedOpen s).port = s.port := rfl
@[simp] theorem missedOpen_params  (s : State) : (missedOpen s).params = s.params := rfl
@[simp] theorem missedOpen_cells  (s : State) : (missedOpen s).cells = s.cells := rfl
@[simp] theorem missedOpen_occ  (s : State) : (missedOpen s).occ = s.occ := rfl
@[simp] theorem missedOpen_engine  (s : State) : (missedOpen s).engine = s.engine := rfl
@[simp] theorem missedOpen_ticks  (s : State) : (missedOpen s).ticks = s.ticks := rfl
@[simp] theorem missedOpen_path  (s : State) : (missedOpen s).path = s.path := rfl
@[simp] theorem missedOpen_filter  (s : State) : (missedOpen s).filter = s.filter := rfl
@[simp] theorem missedOpen_queue  (s : State) : (missedOpen s).queue = s.queue := rfl
@[simp] theorem missedOpen_readout  (s : State) : (missedOpen s).readout = s.readout := rfl
@[simp] theorem missedOpen_tpg  (s : State) : (missedOpen s).tpg = s.tpg := rfl
@[simp] theorem missedOpen_crossing  (s : State) : (missedOpen s).crossing = s.crossing := rfl
@[simp] theorem missedOpen_decayWaits  (s : State) : (missedOpen s).decayWaits = s.decayWaits := rfl

/-! ### beginClose -/

@[simp] theorem beginClose_pending (cause : CloseCause) (s : State) : (beginClose cause s).pending = s.pending := rfl
@[simp] theorem beginClose_free (cause : CloseCause) (s : State) : (beginClose cause s).free = s.free := rfl
@[simp] theorem beginClose_pins (cause : CloseCause) (s : State) : (beginClose cause s).pins = s.pins := rfl
@[simp] theorem beginClose_port (cause : CloseCause) (s : State) : (beginClose cause s).port = s.port := rfl
@[simp] theorem beginClose_params (cause : CloseCause) (s : State) : (beginClose cause s).params = s.params := rfl
@[simp] theorem beginClose_cells (cause : CloseCause) (s : State) : (beginClose cause s).cells = s.cells := rfl
@[simp] theorem beginClose_occ (cause : CloseCause) (s : State) : (beginClose cause s).occ = s.occ := rfl
@[simp] theorem beginClose_engine (cause : CloseCause) (s : State) : (beginClose cause s).engine = s.engine := rfl
@[simp] theorem beginClose_path (cause : CloseCause) (s : State) : (beginClose cause s).path = s.path := rfl
@[simp] theorem beginClose_filter (cause : CloseCause) (s : State) : (beginClose cause s).filter = s.filter := rfl
@[simp] theorem beginClose_queue (cause : CloseCause) (s : State) : (beginClose cause s).queue = s.queue := rfl
@[simp] theorem beginClose_readout (cause : CloseCause) (s : State) : (beginClose cause s).readout = s.readout := rfl
@[simp] theorem beginClose_tpg (cause : CloseCause) (s : State) : (beginClose cause s).tpg = s.tpg := rfl
@[simp] theorem beginClose_attn (cause : CloseCause) (s : State) : (beginClose cause s).attn = s.attn := rfl
@[simp] theorem beginClose_arriving (cause : CloseCause) (s : State) : (beginClose cause s).arriving = s.arriving := rfl
@[simp] theorem beginClose_crossing (cause : CloseCause) (s : State) : (beginClose cause s).crossing = s.crossing := rfl
@[simp] theorem beginClose_decayWaits (cause : CloseCause) (s : State) : (beginClose cause s).decayWaits = s.decayWaits := rfl

/-! ### restPort -/

@[simp] theorem restPort_pending  (s : State) : (restPort s).pending = s.pending := rfl
@[simp] theorem restPort_free  (s : State) : (restPort s).free = s.free := rfl
@[simp] theorem restPort_port  (s : State) : (restPort s).port = s.port := rfl
@[simp] theorem restPort_params  (s : State) : (restPort s).params = s.params := rfl
@[simp] theorem restPort_cells  (s : State) : (restPort s).cells = s.cells := rfl
@[simp] theorem restPort_occ  (s : State) : (restPort s).occ = s.occ := rfl
@[simp] theorem restPort_engine  (s : State) : (restPort s).engine = s.engine := rfl
@[simp] theorem restPort_ticks  (s : State) : (restPort s).ticks = s.ticks := rfl
@[simp] theorem restPort_path  (s : State) : (restPort s).path = s.path := rfl
@[simp] theorem restPort_filter  (s : State) : (restPort s).filter = s.filter := rfl
@[simp] theorem restPort_queue  (s : State) : (restPort s).queue = s.queue := rfl
@[simp] theorem restPort_ctl  (s : State) : (restPort s).ctl = s.ctl := rfl
@[simp] theorem restPort_readout  (s : State) : (restPort s).readout = s.readout := rfl
@[simp] theorem restPort_tpg  (s : State) : (restPort s).tpg = s.tpg := rfl
@[simp] theorem restPort_attn  (s : State) : (restPort s).attn = s.attn := rfl
@[simp] theorem restPort_arriving  (s : State) : (restPort s).arriving = s.arriving := rfl
@[simp] theorem restPort_crossing  (s : State) : (restPort s).crossing = s.crossing := rfl
@[simp] theorem restPort_decayWaits  (s : State) : (restPort s).decayWaits = s.decayWaits := rfl

/-! ### dwellRestarted -/

@[simp] theorem dwellRestarted_pending  (s : State) : (s.dwellRestarted).pending = s.pending := rfl
@[simp] theorem dwellRestarted_free  (s : State) : (s.dwellRestarted).free = s.free := rfl
@[simp] theorem dwellRestarted_pins  (s : State) : (s.dwellRestarted).pins = s.pins := rfl
@[simp] theorem dwellRestarted_port  (s : State) : (s.dwellRestarted).port = s.port := rfl
@[simp] theorem dwellRestarted_params  (s : State) : (s.dwellRestarted).params = s.params := rfl
@[simp] theorem dwellRestarted_cells  (s : State) : (s.dwellRestarted).cells = s.cells := rfl
@[simp] theorem dwellRestarted_occ  (s : State) : (s.dwellRestarted).occ = s.occ := rfl
@[simp] theorem dwellRestarted_engine  (s : State) : (s.dwellRestarted).engine = s.engine := rfl
@[simp] theorem dwellRestarted_path  (s : State) : (s.dwellRestarted).path = s.path := rfl
@[simp] theorem dwellRestarted_filter  (s : State) : (s.dwellRestarted).filter = s.filter := rfl
@[simp] theorem dwellRestarted_queue  (s : State) : (s.dwellRestarted).queue = s.queue := rfl
@[simp] theorem dwellRestarted_ctl  (s : State) : (s.dwellRestarted).ctl = s.ctl := rfl
@[simp] theorem dwellRestarted_readout  (s : State) : (s.dwellRestarted).readout = s.readout := rfl
@[simp] theorem dwellRestarted_tpg  (s : State) : (s.dwellRestarted).tpg = s.tpg := rfl
@[simp] theorem dwellRestarted_attn  (s : State) : (s.dwellRestarted).attn = s.attn := rfl
@[simp] theorem dwellRestarted_arriving  (s : State) : (s.dwellRestarted).arriving = s.arriving := rfl
@[simp] theorem dwellRestarted_crossing  (s : State) : (s.dwellRestarted).crossing = s.crossing := rfl
@[simp] theorem dwellRestarted_decayWaits  (s : State) : (s.dwellRestarted).decayWaits = s.decayWaits := rfl

/-! ### decayRestarted -/

@[simp] theorem decayRestarted_pending  (s : State) : (s.decayRestarted).pending = s.pending := rfl
@[simp] theorem decayRestarted_free  (s : State) : (s.decayRestarted).free = s.free := rfl
@[simp] theorem decayRestarted_pins  (s : State) : (s.decayRestarted).pins = s.pins := rfl
@[simp] theorem decayRestarted_port  (s : State) : (s.decayRestarted).port = s.port := rfl
@[simp] theorem decayRestarted_params  (s : State) : (s.decayRestarted).params = s.params := rfl
@[simp] theorem decayRestarted_cells  (s : State) : (s.decayRestarted).cells = s.cells := rfl
@[simp] theorem decayRestarted_occ  (s : State) : (s.decayRestarted).occ = s.occ := rfl
@[simp] theorem decayRestarted_engine  (s : State) : (s.decayRestarted).engine = s.engine := rfl
@[simp] theorem decayRestarted_path  (s : State) : (s.decayRestarted).path = s.path := rfl
@[simp] theorem decayRestarted_filter  (s : State) : (s.decayRestarted).filter = s.filter := rfl
@[simp] theorem decayRestarted_queue  (s : State) : (s.decayRestarted).queue = s.queue := rfl
@[simp] theorem decayRestarted_ctl  (s : State) : (s.decayRestarted).ctl = s.ctl := rfl
@[simp] theorem decayRestarted_readout  (s : State) : (s.decayRestarted).readout = s.readout := rfl
@[simp] theorem decayRestarted_tpg  (s : State) : (s.decayRestarted).tpg = s.tpg := rfl
@[simp] theorem decayRestarted_attn  (s : State) : (s.decayRestarted).attn = s.attn := rfl
@[simp] theorem decayRestarted_arriving  (s : State) : (s.decayRestarted).arriving = s.arriving := rfl
@[simp] theorem decayRestarted_crossing  (s : State) : (s.decayRestarted).crossing = s.crossing := rfl
@[simp] theorem decayRestarted_decayWaits  (s : State) : (s.decayRestarted).decayWaits = s.decayWaits := rfl

/-! ### arrive -/

@[simp] theorem arrive_pending  (s : State) : (arrive s).pending = s.pending := by unfold arrive; split <;> rfl
@[simp] theorem arrive_free  (s : State) : (arrive s).free = s.free := by unfold arrive; split <;> rfl
@[simp] theorem arrive_port  (s : State) : (arrive s).port = s.port := by unfold arrive; split <;> rfl
@[simp] theorem arrive_params  (s : State) : (arrive s).params = s.params := by unfold arrive; split <;> rfl
@[simp] theorem arrive_cells  (s : State) : (arrive s).cells = s.cells := by unfold arrive; split <;> rfl
@[simp] theorem arrive_occ  (s : State) : (arrive s).occ = s.occ := by unfold arrive; split <;> rfl
@[simp] theorem arrive_engine  (s : State) : (arrive s).engine = s.engine := by unfold arrive; split <;> rfl
@[simp] theorem arrive_ticks  (s : State) : (arrive s).ticks = s.ticks := by unfold arrive; split <;> rfl
@[simp] theorem arrive_path  (s : State) : (arrive s).path = s.path := by unfold arrive; split <;> rfl
@[simp] theorem arrive_filter  (s : State) : (arrive s).filter = s.filter := by unfold arrive; split <;> rfl
@[simp] theorem arrive_queue  (s : State) : (arrive s).queue = s.queue := by unfold arrive; split <;> rfl
@[simp] theorem arrive_ctl  (s : State) : (arrive s).ctl = s.ctl := by unfold arrive; split <;> rfl
@[simp] theorem arrive_readout  (s : State) : (arrive s).readout = s.readout := by unfold arrive; split <;> rfl
@[simp] theorem arrive_tpg  (s : State) : (arrive s).tpg = s.tpg := by unfold arrive; split <;> rfl
@[simp] theorem arrive_crossing  (s : State) : (arrive s).crossing = s.crossing := by unfold arrive; split <;> rfl
@[simp] theorem arrive_decayWaits  (s : State) : (arrive s).decayWaits = s.decayWaits := by unfold arrive; split <;> rfl

/-! ### What the updates set -/

@[simp] theorem driveAttn_pins (s : State) : (driveAttn s).pins = { s.pins with attnLow := s.attnWanted } := rfl
@[simp] theorem raiseCause_attn (c : Cause) (s : State) :
    (raiseCause c s).attn = s.attn ||| (c.bit &&& ~~~ s.lateCauses) := rfl
@[simp] theorem raiseCause_arriving (c : Cause) (s : State) :
    (raiseCause c s).arriving = s.arriving ||| (c.bit &&& s.lateCauses) := rfl
@[simp] theorem raiseCause_attnLow (c : Cause) (s : State) : (raiseCause c s).pins.attnLow = (raiseCause c s).attnWanted := rfl
@[simp] theorem raiseCommandFault_attn (s : State) : (raiseCommandFault s).attn = s.attn ||| 0x80 := rfl
@[simp] theorem arrive_attn (s : State) : (arrive s).attn = s.attn ||| s.arriving := by
  unfold arrive; split <;> simp_all
@[simp] theorem arrive_arriving (s : State) : (arrive s).arriving = 0 := by unfold arrive; split <;> simp_all
@[simp] theorem beginClose_state (cause : CloseCause) (s : State) : (beginClose cause s).ctl.state = .settling := rfl
@[simp] theorem raiseCause_rstLow (c : Cause) (s : State) : (raiseCause c s).pins.rstLow = s.pins.rstLow := rfl
@[simp] theorem clearCauses_attn (x : BitVec 8) (s : State) : (clearCauses x s).attn = s.attn &&& ~~~ x := rfl
@[simp] theorem onDesc_ctl (f : Descriptor → Descriptor) (s : State) :
    (onDesc f s).ctl = { s.ctl with desc := s.ctl.desc.map f } := rfl
@[simp] theorem startFrame_emitted (d : Descriptor) (s : State) : (startFrame d s).readout.emitted = s.readout.emitted := rfl
@[simp] theorem startFrame_isSome (d : Descriptor) (s : State) : (startFrame d s).readout.frame.isSome = true := rfl
@[simp] theorem frameTo_frame (f : Frame) (p : Position) (s : State) :
    (frameTo f p s).readout.frame = some { f with position := p } := rfl
@[simp] theorem comeToRest_cells (s : State) : (comeToRest s).cells = s.cells.map Cell.rest := rfl
@[simp] theorem comeToRest_current (s : State) : (comeToRest s).occ.current = 0 := rfl
@[simp] theorem comeToRest_tpg (s : State) : (comeToRest s).tpg = .idle := rfl
@[simp] theorem respond_decoder (st : Status) (data : List Byte) (s : State) :
    (respond st data s).port.decoder = .responding := rfl
@[simp] theorem setHold_read_rd (h : Option Hold) (s : State) : (setHold .read h s).path.rd = h := rfl
@[simp] theorem setHold_write_wr (h : Option Hold) (s : State) : (setHold .write h s).path.wr = h := rfl

end Sys2Proof.Machine
end

