-- ==== Sys2Proof/Laws/Lists.lean ====
section
/-! SUPPORT. The lists of the model: what an event at every cell does to each place, and that a free order is a
permutation. -/

namespace Sys2Proof.Machine

/-! ### Events and changes at every cell -/

@[simp] theorem length_eachCell (f : Nat → Cell → CellOut) (i : Nat) (l : List Cell) :
    (eachCell f i l).length = l.length := by
  induction l generalizing i with
  | nil => rfl
  | cons c cs ih => simp [eachCell, ih]

@[simp] theorem length_mapCells (f : Nat → Cell → Cell) (i : Nat) (l : List Cell) :
    (mapCells f i l).length = l.length := by
  induction l generalizing i with
  | nil => rfl
  | cons c cs ih => simp [mapCells, ih]

theorem getElem?_eachCell (f : Nat → Cell → CellOut) (i k : Nat) (l : List Cell) :
    (eachCell f i l)[k]? = (l[k]?).map (f (i + k)) := by
  induction l generalizing i k with
  | nil => rfl
  | cons c cs ih =>
    cases k with
    | zero => simp [eachCell]
    | succ k => simp [eachCell, ih, Nat.add_assoc, Nat.add_comm 1 k]

theorem getElem?_mapCells (f : Nat → Cell → Cell) (i k : Nat) (l : List Cell) :
    (mapCells f i l)[k]? = (l[k]?).map (f (i + k)) := by
  induction l generalizing i k with
  | nil => rfl
  | cons c cs ih =>
    cases k with
    | zero => simp [mapCells]
    | succ k => simp [mapCells, ih, Nat.add_assoc, Nat.add_comm 1 k]

/-- An event at every cell changes the cells as a change of every cell does. -/
theorem map_cell_eachCell (f : Nat → Cell → CellOut) (i : Nat) (l : List Cell) :
    (eachCell f i l).map CellOut.cell = mapCells (fun k c => (f k c).cell) i l := by
  induction l generalizing i with
  | nil => rfl
  | cons c cs ih => simp [eachCell, mapCells, ih]

/-- An event that leaves every cell and sends nothing. -/
theorem eachCell_quietly (i : Nat) (l : List Cell) : eachCell (fun _ c => quietly c) i l = l.map quietly := by
  induction l generalizing i with
  | nil => rfl
  | cons c cs ih => simp [eachCell, ih]

theorem mem_indicesWhere (f : Nat → Cell → Bool) (i : Nat) (l : List Cell) (k : Nat) :
    k ∈ indicesWhere f i l ↔ ∃ j c, l[j]? = some c ∧ k = i + j ∧ f k c = true := by
  induction l generalizing i with
  | nil => simp [indicesWhere]
  | cons c cs ih =>
    have tail : (∃ j d, cs[j]? = some d ∧ k = i + 1 + j ∧ f k d = true) ↔
        ∃ j d, (c :: cs)[j + 1]? = some d ∧ k = i + (j + 1) ∧ f k d = true := by
      simp [Nat.add_assoc, Nat.add_comm 1]
    have all : (∃ j d, (c :: cs)[j]? = some d ∧ k = i + j ∧ f k d = true) ↔
        (k = i ∧ f k c = true) ∨ ∃ j d, (c :: cs)[j + 1]? = some d ∧ k = i + (j + 1) ∧ f k d = true := by
      constructor
      · rintro ⟨j, d, h1, h2, h3⟩
        cases j with
        | zero => simp at h1; subst h1; exact .inl ⟨h2, h3⟩
        | succ j => exact .inr ⟨j, d, h1, h2, h3⟩
      · rintro (⟨h2, h3⟩ | ⟨j, d, h1, h2, h3⟩)
        · exact ⟨0, c, rfl, h2, h3⟩
        · exact ⟨j + 1, d, h1, h2, h3⟩
    rw [all, ← tail, ← ih (i + 1)]
    rw [show indicesWhere f i (c :: cs) =
      if f i c then i :: indicesWhere f (i + 1) cs else indicesWhere f (i + 1) cs from rfl]
    split
    · rename_i h
      simp only [List.mem_cons]
      constructor
      · rintro (rfl | h')
        · exact .inl ⟨rfl, h⟩
        · exact .inr h'
      · rintro (⟨rfl, _⟩ | h')
        · exact .inl rfl
        · exact .inr h'
    · rename_i h
      constructor
      · exact .inr
      · rintro (⟨rfl, h'⟩ | h')
        · exact absurd h' h
        · exact h'

@[simp] theorem noticesOf_nil : noticesOf [] = [] := rfl

@[simp] theorem noticesOf_cons (o : CellOut) (os : List CellOut) : noticesOf (o :: os) = o.notices ++ noticesOf os := rfl

/-- The notices of an event do not depend on its reports. -/
theorem noticesOf_report (f : Nat → Cell → CellOut) (r : Nat → Cell → Bool) (i : Nat) (l : List Cell) :
    noticesOf (eachCell (fun k c => { f k c with report := r k c }) i l) = noticesOf (eachCell f i l) := by
  induction l generalizing i with
  | nil => rfl
  | cons c cs ih => simp only [eachCell, noticesOf_cons, ih]

/-- Events that send the same notices at every cell. -/
theorem noticesOf_congr (f g : Nat → Cell → CellOut) (h : ∀ i c, (f i c).notices = (g i c).notices) (i : Nat) (l : List Cell) :
    noticesOf (eachCell f i l) = noticesOf (eachCell g i l) := by
  induction l generalizing i with
  | nil => rfl
  | cons c cs ih => simp only [eachCell, noticesOf_cons, ih, h]

/-- An event of which not all notices are taken. -/
theorem noticesOf_sublist (f g : Nat → Cell → CellOut) (h : ∀ i c, (f i c).notices.Sublist (g i c).notices) (i : Nat) (l : List Cell) :
    (noticesOf (eachCell f i l)).Sublist (noticesOf (eachCell g i l)) := by
  induction l generalizing i with
  | nil => exact .refl _
  | cons c cs ih =>
    simp only [eachCell, noticesOf_cons]
    exact (h i c).append (ih (i + 1))

/-- The reports of an event but for some that are kept back. -/
theorem reportsOf_late (f : Nat → Cell → CellOut) (late : Nat → Bool) (i : Nat) (l : List Cell) :
    reportsOf i (eachCell (fun k c => { f k c with report := (f k c).report && !late k }) i l) =
      (reportsOf i (eachCell f i l)).filter fun k => !late k := by
  induction l generalizing i with
  | nil => rfl
  | cons c cs ih =>
    simp only [eachCell, reportsOf, ih]
    cases (f i c).report <;> cases h : late i <;> simp [h]

/-! ### A free order is a permutation -/

theorem pickOrder_perm {α : Type} (draw n : Nat) (l : List α) : (pickOrder draw n l).Perm l := by
  induction n generalizing l with
  | zero => cases l <;> simp [pickOrder]
  | succ n ih =>
    match l with
    | [] => simp [pickOrder]
    | [a] => simp [pickOrder]
    | a :: b :: t =>
      simp only [pickOrder]
      generalize hk : Config.freePick draw (t.length + 2) % (t.length + 2) = k
      split
      · exact List.Perm.refl _
      · rename_i x rest hd
        have hl : a :: b :: t = (a :: b :: t).take k ++ x :: rest := by rw [← hd, List.take_append_drop]
        calc x :: pickOrder draw n ((a :: b :: t).take k ++ rest)
            _ |>.Perm (x :: ((a :: b :: t).take k ++ rest)) := (ih _).cons x
            _ |>.Perm ((a :: b :: t).take k ++ x :: rest) := List.perm_middle.symm
            _ |>.Perm (a :: b :: t) := by rw [← hl]

/-- Any order of a list is a permutation of it. -/
theorem anyOrder_perm {α : Type} (draw : Nat) (l : List α) : (anyOrder draw l).Perm l := pickOrder_perm ..

/-- The order of the notices is a permutation of them. -/
theorem noticeOrder_perm (draw : Nat) (os : List CellOut) : (noticeOrder draw os).Perm (noticesOf os) := by
  have sends (os : List CellOut) : noticesOf (os.filter fun o => !o.notices.isEmpty) = noticesOf os := by
    induction os with
    | nil => rfl
    | cons o os ih =>
      rw [List.filter_cons]
      cases h : o.notices with
      | nil => simp [h, ih]
      | cons n l => simp [h, ih]
  unfold noticeOrder
  simp only
  split
  · exact List.Perm.refl _
  · rw [← sends os]
    exact (anyOrder_perm draw _).flatMap_right CellOut.notices

@[simp] theorem anyOrder_nil {α : Type} (draw : Nat) : anyOrder draw ([] : List α) = [] := rfl

@[simp] theorem anyOrder_singleton {α : Type} (draw : Nat) (a : α) : anyOrder draw [a] = [a] := rfl

/-! ### Numbers in bytes -/

@[simp] theorem length_beBytes (n v : Nat) : (beBytes n v).length = n := by
  induction n with
  | zero => rfl
  | succ n ih => simp [beBytes, ih]

end Sys2Proof.Machine
end

