-- ==== Sys2Proof/Laws/Transport.lean ====
section
/-! SUPPORT. What the serial lines do, once for each direction: `receiveRequest_port` for a whole request bit by bit,
`sendResponse_eq` and `sampled_response` for a whole response. -/

namespace Sys2Proof.Machine

/-! ### Bits -/

theorem wireBits_eq_bitsOf (bytes : List Byte) : wireBits bytes = bitsOf bytes := rfl

@[simp] theorem length_byteBits (b : Byte) : (byteBits b).length = 8 := rfl

theorem wireBits_cons (b : Byte) (l : List Byte) : wireBits (b :: l) = byteBits b ++ wireBits l := rfl

@[simp] theorem length_wireBits (l : List Byte) : (wireBits l).length = 8 * l.length := by
  induction l with
  | nil => rfl
  | cons b l ih => simp only [wireBits_cons, List.length_append, length_byteBits, List.length_cons, ih]; omega

@[simp] theorem clockAll_nil (p : Port) : p.clockAll [] = p := rfl

@[simp] theorem clockAll_cons (b : Bool) (l : List Bool) (p : Port) : p.clockAll (b :: l) = (p.clock b).clockAll l := rfl

theorem clockAll_append (l k : List Bool) (p : Port) : p.clockAll (l ++ k) = (p.clockAll l).clockAll k := by
  simp [Port.clockAll, List.foldl_append]

@[simp] theorem sampled_cons (b : Bool) (l : List Bool) (p : Port) :
    Port.sampled (b :: l) p = (p.clock b).mso :: Port.sampled l (p.clock b) := rfl

theorem sampled_append (l k : List Bool) (p : Port) :
    Port.sampled (l ++ k) p = Port.sampled l p ++ Port.sampled k (p.clockAll l) := by
  induction l generalizing p with
  | nil => rfl
  | cons b l ih => simp [ih]

@[simp] theorem length_sampled (l : List Bool) (p : Port) : (Port.sampled l p).length = l.length := by
  induction l generalizing p with
  | nil => rfl
  | cons b l ih => simp [ih]

/-! ### A byte of a request -/

/-- A bit shifted into a byte. -/
def shiftIn (y : Byte) (bit : Bool) : Byte := y <<< 1 ||| (if bit then 1#8 else 0#8)

theorem getLsbD_shiftIn (y : Byte) (bit : Bool) (i : Nat) :
    (shiftIn y bit).getLsbD i = if i = 0 then bit else (decide (i < 8) && y.getLsbD (i - 1)) := by
  unfold shiftIn
  cases bit <;> rcases i with _ | i <;> simp [BitVec.getLsbD_or, BitVec.getLsbD_shiftLeft]

/-- Eight bits, shifted in one after the other, are the byte (R153). -/
theorem shiftIn_byteBits (x b : Byte) : (byteBits b).foldl shiftIn x = b := by
  apply BitVec.eq_of_getLsbD_eq
  intro i hi
  simp only [byteBits, List.foldl_cons, List.foldl_nil, getLsbD_shiftIn]
  rcases i with _ | _ | _ | _ | _ | _ | _ | _ | i <;> simp

/-- A bit that does not complete a byte. -/
theorem clock_receiving_bit (bit : Bool) (p : Port) (hd : p.decoder = .receiving) (hb : p.bitCount < 7) :
    p.clock bit = { p with
      msck := true, msi := bit, mso := false
      inByte := shiftIn p.inByte bit, bitCount := p.bitCount + 1 } := by
  have h7 : p.bitCount ≠ 7 := by omega
  simp [Port.clock, Port.rise, Port.fall, Port.nextBit, hd, h7, shiftIn]

/-- The bit that completes a byte. -/
theorem clock_receiving_last (bit : Bool) (p : Port) (hd : p.decoder = .receiving) (hb : p.bitCount = 7) :
    p.clock bit = Port.takeByte (shiftIn p.inByte bit)
      { p with
        msck := true, msi := bit, mso := false
        inByte := shiftIn p.inByte bit, bitCount := 0 } := by
  simp [Port.clock, Port.rise, Port.fall, Port.nextBit, hd, hb, shiftIn]

/-- Bits that do not complete a byte. -/
theorem clockAll_bits (l : List Bool) (b : Bool) (p : Port) (hd : p.decoder = .receiving) (hb : p.bitCount + l.length < 7) :
    p.clockAll (b :: l) = { p with
      msck := true, msi := l.getLastD b, mso := false
      inByte := (b :: l).foldl shiftIn p.inByte, bitCount := p.bitCount + (l.length + 1) } := by
  induction l generalizing b p with
  | nil => exact clock_receiving_bit b p hd (by simpa using hb)
  | cons c l ih =>
    simp only [List.length_cons] at hb
    rw [clockAll_cons, clock_receiving_bit b p hd (by omega), ih]
    · simp only [List.getLastD_cons, List.foldl_cons, List.length_cons]
      congr 1
      omega
    · exact hd
    · show p.bitCount + 1 + l.length < 7
      omega

/-- A whole byte in RECEIVING (R153, R155). -/
theorem clockAll_byteBits (b : Byte) (p : Port) (hd : p.decoder = .receiving) (hb : p.bitCount = 0) :
    p.clockAll (byteBits b) =
      Port.takeByte b { p with msck := true, msi := b.getLsbD 0, mso := false, inByte := b, bitCount := 0 } := by
  have hx := shiftIn_byteBits p.inByte b
  have hs : byteBits b = (b.getLsbD 7 ::
      [b.getLsbD 6, b.getLsbD 5, b.getLsbD 4, b.getLsbD 3, b.getLsbD 2, b.getLsbD 1]) ++ [b.getLsbD 0] := rfl
  rw [hs, List.foldl_append, List.foldl_cons, List.foldl_nil] at hx
  rw [hs, clockAll_append, clockAll_bits _ _ p hd (by simp [hb]), clockAll_cons, clockAll_nil]
  rw [clock_receiving_last]
  · simp only [hx]
  · exact hd
  · simp [hb]

/-! ### A whole request -/

/-- The check byte ends the request and does not enter the running check (R155). -/
theorem takeByte_check (b : Byte) (p : Port) (h : p.requestBytes = p.declaredLength + 2) :
    p.takeByte b = { p with requestBytes := p.requestBytes + 1 } := by
  unfold Port.takeByte
  rw [h]
  simp

/-- The port amid a request of `n` argument bytes, of which `done` have come. -/
def Port.amidArgs (p : Port) (code : Byte) (n : Nat) (done : List Byte) (last : Byte) : Port :=
  { p with
    msck := true
    msi := last.getLsbD 0
    mso := false
    inByte := last
    bitCount := 0
    requestBytes := done.length + 2
    declaredLength := n
    code := code
    args := done.take 72
    runningCheck := crc8 (code :: BitVec.ofNat 8 n :: done) }

theorem crc8_concat (l : List Byte) (b : Byte) : crc8 (l ++ [b]) = crc8Byte (crc8 l) b := by simp [crc8, List.foldl_append]

/-- One argument byte. -/
theorem clockAll_arg (p : Port) (code : Byte) (n : Nat) (done : List Byte) (last b : Byte) (hd : p.decoder = .receiving)
    (hn : done.length < n) :
    (p.amidArgs code n done last).clockAll (byteBits b) = p.amidArgs code n (done ++ [b]) b := by
  rw [clockAll_byteBits b (p.amidArgs code n done last) hd rfl]
  have hc : crc8 (code :: BitVec.ofNat 8 n :: (done ++ [b])) = crc8Byte (crc8 (code :: BitVec.ofNat 8 n :: done)) b := by
    rw [← crc8_concat]; rfl
  have ha : (if (done.take 72).length < Config.maxArgs then done.take 72 ++ [b] else done.take 72) = (done ++ [b]).take 72 := by
    unfold Config.maxArgs
    by_cases h : done.length < 72
    · rw [if_pos (by rw [List.length_take]; omega), List.take_of_length_le (by omega), List.take_of_length_le (by simp; omega)]
    · rw [if_neg (by rw [List.length_take]; omega), List.take_append_of_le_length (by omega)]
  simp only [Port.amidArgs, Port.takeByte, hn, if_true, List.length_append, List.length_cons, List.length_nil, hc]
  congr 1

/-- All argument bytes. -/
theorem clockAll_args (rest : List Byte) (p : Port) (code : Byte) (n : Nat) (done : List Byte) (last : Byte)
    (hd : p.decoder = .receiving) (hn : done.length + rest.length ≤ n) :
    (p.amidArgs code n done last).clockAll (wireBits rest) =
      p.amidArgs code n (done ++ rest) (rest.getLastD last) := by
  induction rest generalizing done last with
  | nil => simp [wireBits]
  | cons b rest ih =>
    simp only [List.length_cons] at hn
    rw [wireBits_cons, clockAll_append, clockAll_arg p code n done last b hd (by omega), ih (done ++ [b]) b (by simp; omega)]
    simp only [List.append_assoc, List.singleton_append, List.getLastD_cons]

/-- What a whole request leaves on the port (R153, R154, R155). -/
theorem receiveRequest_port (code : Byte) (args : List Byte) (check : Byte) (s : State) (hd : s.port.decoder = .receiving)
    (hl : args.length ≤ 255) :
    (receiveRequest code args check s).port = { s.port with
      msck := true
      msi := check.getLsbD 0
      mso := false
      inByte := check
      bitCount := 0
      requestBytes := args.length + 3
      declaredLength := args.length
      code := code
      args := args.take 72
      runningCheck := requestCheck code args } := by
  have hn : (BitVec.ofNat 8 args.length : Byte).toNat = args.length := by
    rw [BitVec.toNat_ofNat]
    exact Nat.mod_eq_of_lt (by omega)
  have h2 : s.port.startRequest.clockAll (byteBits code ++ byteBits (BitVec.ofNat 8 args.length)) =
      s.port.amidArgs code args.length [] (BitVec.ofNat 8 args.length) := by
    rw [clockAll_append, clockAll_byteBits code s.port.startRequest hd rfl, clockAll_byteBits]
    · simp only [Port.takeByte, Port.startRequest, hn]
      rfl
    · exact hd
    · rfl
  have h3 := clockAll_args args s.port code args.length [] (BitVec.ofNat 8 args.length) hd (by simp)
  simp only [receiveRequest, requestWire, wireBits, List.flatMap_append, List.flatMap_cons, List.flatMap_nil,
    List.append_nil]
  rw [← List.append_assoc, ← List.append_assoc, clockAll_append, clockAll_append, h2]
  rw [wireBits] at h3
  rw [h3, clockAll_byteBits]
  · rw [takeByte_check _ _ (by simp [Port.amidArgs])]
    rfl
  · exact hd
  · rfl

/-! ### A whole response -/

/-- The port when `k` bits of the response in hand have been sent. -/
def Port.amidResponse (p : Port) (msi : Bool) (k : Nat) : Port :=
  { p with
    msck := decide (0 < k) || p.msck
    msi := msi
    mso := if k = 0 then p.mso else (wireBits p.wire).getD (k - 1) false
    bitCount := k % 8
    responseSent := k / 8
    decoder := if k = 8 * p.wire.length then .trailing else .responding }

theorem Response.length_wire (r : Response) : r.wire.length = r.data.length + 3 := by
  simp [Response.wire]

/-- One bit of a response. -/
theorem clock_response (p : Port) (m b : Bool) (k : Nat) (hk : k < 8 * p.wire.length) :
    (p.amidResponse m k).clock b = p.amidResponse b (k + 1) := by
  have hw : (p.amidResponse m k).wire = p.wire := rfl
  have hd : (p.amidResponse m k).decoder = .responding := if_neg (by omega)
  have h8 : 8 * (k / 8) + k % 8 = k := by omega
  have hm : (p.amidResponse m k).nextBit = (wireBits p.wire).getD k false := by
    unfold Port.nextBit
    rw [hd, hw]
    simp only [Port.amidResponse, h8]
  by_cases h7 : k % 8 = 7
  · have e1 : (k + 1) % 8 = 0 := by omega
    have e2 : (k + 1) / 8 = k / 8 + 1 := by omega
    have e3 : (k + 1 = 8 * p.wire.length) ↔ (k / 8 + 1 = p.wire.length) := by omega
    simp only [Port.clock, Port.rise, Port.fall, hm, hd]
    simp only [Port.amidResponse, h7, e1, e2, if_true, Nat.zero_lt_succ, decide_true, Bool.true_or,
      Nat.succ_ne_zero, if_false, Nat.add_sub_cancel]
    congr 1
    exact if_congr e3.symm rfl rfl
  · have e1 : (k + 1) % 8 = k % 8 + 1 := by omega
    have e2 : (k + 1) / 8 = k / 8 := by omega
    have e3 : k + 1 ≠ 8 * p.wire.length := by omega
    have e4 : k ≠ 8 * p.wire.length := by omega
    simp only [Port.clock, Port.rise, Port.fall, hm, hd]
    simp [Port.amidResponse, h7, e1, e2, e3, e4]

/-- Bits of a response: the host samples them on MSO, whatever it drives on MSI (R153, R158). -/
theorem clockAll_response (l : List Bool) (p : Port) (m : Bool) (k : Nat) (hk : k + l.length ≤ 8 * p.wire.length) :
    (p.amidResponse m k).clockAll l = p.amidResponse (l.getLastD m) (k + l.length)
      ∧ Port.sampled l (p.amidResponse m k) = ((wireBits p.wire).drop k).take l.length := by
  induction l generalizing m k with
  | nil => simp [Port.sampled]
  | cons b l ih =>
    simp only [List.length_cons] at hk
    have h1 := ih b (k + 1) (by omega)
    rw [clockAll_cons, sampled_cons, clock_response p m b k (by omega), h1.1, h1.2]
    have hlt : k < (wireBits p.wire).length := by rw [length_wireBits]; omega
    constructor
    · simp only [List.getLastD_cons, List.length_cons]
      congr 1
      omega
    · rw [List.drop_eq_getElem_cons hlt, List.length_cons, List.take_succ_cons]
      congr 1
      simp [Port.amidResponse, List.getD_eq_getElem?_getD, List.getElem?_eq_getElem hlt]

theorem startResponse_eq (p : Port) (r : Response) (hd : p.decoder = .responding) (hr : p.response = some r) :
    p.startResponse = p.amidResponse p.msi 0 := by
  have hw : p.wire = r.wire := by simp [Port.wire, hr]
  have h0 : ¬ 0 = 8 * p.wire.length := by rw [hw, Response.length_wire]; omega
  simp [Port.startResponse, Port.amidResponse, h0, ← hd]

/-- The last bit of a response is the last of its check byte. -/
theorem wireBits_wire_last (r : Response) : (wireBits r.wire).getD (8 * r.wire.length - 1) false = r.check.getLsbD 0 := by
  have hs : wireBits r.wire = wireBits (r.status.code :: BitVec.ofNat 8 r.data.length :: r.data) ++ byteBits r.check := by
    simp [wireBits, Response.wire]
  have hl : r.wire.length = r.data.length + 3 := r.length_wire
  rw [hs, List.getD_append_right _ _ _ _ (by rw [length_wireBits, hl]; simp; omega)]
  rw [length_wireBits, hl]
  have : 8 * (r.data.length + 3) - 1 - 8 * (r.status.code :: BitVec.ofNat 8 r.data.length :: r.data).length = 7 := by
    simp only [List.length_cons]
    omega
  rw [this]
  rfl

/-- What RESPONSE_SENT leaves on the port (R158). -/
theorem sendResponse_eq (p : Port) (r : Response) (hd : p.decoder = .responding) (hr : p.response = some r) :
    p.sendResponse = { p with
      msck := true, mso := r.check.getLsbD 0, bitCount := 0, responseSent := r.data.length + 3, decoder := .trailing } := by
  have hw : p.wire = r.wire := by simp [Port.wire, hr]
  have hl : r.wire.length = r.data.length + 3 := r.length_wire
  have h := (clockAll_response (List.replicate (8 * p.wire.length) p.msi) p p.msi 0 (by simp)).1
  unfold Port.sendResponse
  rw [startResponse_eq p r hd hr, h]
  have hm : (List.replicate (8 * p.wire.length) p.msi).getLastD p.msi = p.msi := by
    rw [hw, hl]
    simp [List.getLastD_eq_getLast?, List.getLast?_replicate]
  simp only [hm, List.length_replicate, Nat.zero_add, Port.amidResponse, if_true]
  rw [if_neg (by rw [hw, hl]; omega), hw, wireBits_wire_last, hl]
  congr 1 <;> simp

/-- What the host samples of a response, whatever it drives on MSI (R153, R158). -/
theorem sampled_response (p : Port) (r : Response) (l : List Bool) (hd : p.decoder = .responding) (hr : p.response = some r)
    (hl : l.length = 8 * (r.data.length + 3)) : Port.sampled l p.startResponse = bitsOf r.wire := by
  have hw : p.wire = r.wire := by simp [Port.wire, hr]
  have hn : r.wire.length = r.data.length + 3 := r.length_wire
  rw [startResponse_eq p r hd hr, (clockAll_response l p p.msi 0 (by rw [hw, hn]; omega)).2, hw, List.drop_zero, hl, ← hn,
    ← length_wireBits, List.take_length, wireBits_eq_bitsOf]

end Sys2Proof.Machine
end

