-- ==== Sys2Proof/Laws/Ops.lean ====
section
/-! SUPPORT. One lemma for each shared operation that says once what it can do: `arrayEvent_outcome` for an event of the whole
array, what each operation keeps, and that no operation of the blocks reads or writes the port (`…_withPort`). -/

namespace Sys2Proof.Machine

/-! ### Causes that a block sets -/

/-- A cause is late only where the row directly behind clears causes. -/
theorem lateCauses_zero (s : State) (h : ¬ s.ClearBehind) : s.lateCauses = 0 := by
  unfold State.lateCauses
  split
  · rename_i set hp
    exact absurd (.inl ⟨set, hp⟩) h
  · rename_i hp
    exact absurd (.inr hp) h
  · rfl

/-- What setting a cause does, in the statements' term. -/
theorem raiseCause_eq (c : Cause) (s : State) : raiseCause c s = s.sets c.bit := rfl

theorem and_not_or_and (a b : BitVec 8) : (a &&& ~~~ b) ||| (a &&& b) = a := by
  rw [← BitVec.and_or_distrib_left, BitVec.or_comm]
  exact (congrArg (a &&& ·) (BitVec.or_not_self b)).trans (BitVec.and_allOnes)

/-- Setting a cause is one of the ways in which an event can set it. -/
theorem raiseCause_causesSet (c : Cause) (s : State) : CausesSet c.bit s (raiseCause c s) := by
  refine ⟨c.bit &&& ~~~ s.lateCauses, c.bit &&& s.lateCauses, and_not_or_and .., ?_, rfl, rfl, rfl⟩
  intro h
  by_contra hb
  exact h (by rw [lateCauses_zero s hb]; simp)

/-! ### Reports and notices one at a time -/

/-- The descriptor after a list of reports, taken at a window length count. -/
def Descriptor.addReports (w : Nat) (d : Descriptor) (order : List Nat) : Descriptor :=
  { d with
    onsets := d.onsets ++ (order.map fun i => ({ cell := i, offset := w } : OnsetEntry)).take (16 - d.onsets.length)
    overflow := d.overflow || decide (16 - d.onsets.length < order.length) }

theorem Descriptor.addReports_one (w i : Nat) (d : Descriptor) :
    (if d.onsets.length < Config.onsetListMax then { d with onsets := d.onsets ++ [{ cell := i, offset := w }] }
      else { d with overflow := true }) = d.addReports w [i] := by
  unfold Config.onsetListMax
  split
  · obtain ⟨n, hn⟩ : ∃ n, 16 - d.onsets.length = n + 1 := ⟨16 - d.onsets.length - 1, by omega⟩
    simp [Descriptor.addReports, hn]
  · have h1 : 16 - d.onsets.length = 0 := by omega
    simp [Descriptor.addReports, h1]

theorem takeReport_eq (s : State) (i : Nat) : takeReport s i = onDesc (fun d => d.addReports s.ctl.windowCount [i]) s := by
  unfold takeReport
  simp only [Descriptor.addReports_one]

theorem Descriptor.addReports_nil (w : Nat) (d : Descriptor) : d.addReports w [] = d := by
  simp [Descriptor.addReports]

theorem Descriptor.addReports_cons (w i : Nat) (d : Descriptor) (order : List Nat) :
    (d.addReports w [i]).addReports w order = d.addReports w (i :: order) := by
  by_cases h : d.onsets.length < 16
  · obtain ⟨n, hn⟩ : ∃ n, 16 - d.onsets.length = n + 1 := ⟨16 - d.onsets.length - 1, by omega⟩
    have h3 : 16 - (d.onsets.length + 1) = n := by omega
    simp [Descriptor.addReports, hn, h3]
  · have h1 : 16 - d.onsets.length = 0 := by omega
    simp [Descriptor.addReports, h1]

/-- What a list of reports does: it changes the descriptor in progress and nothing else. -/
theorem foldl_takeReport (order : List Nat) (s : State) :
    order.foldl takeReport s =
      { s with ctl := { s.ctl with desc := s.ctl.desc.map fun d => d.addReports s.ctl.windowCount order } } := by
  induction order generalizing s with
  | nil =>
    simp only [List.foldl_nil, Descriptor.addReports_nil]
    cases h : s.ctl.desc <;> simp [← h]
  | cons i order ih =>
    rw [List.foldl_cons, ih, takeReport_eq]
    simp only [onDesc, Option.map_map, Function.comp_def, Descriptor.addReports_cons]

/-- All that a list of notices can do. -/
structure NoticesOutcome (l : List Notice) (s t : State) : Prop where
  kept : t = { s with
    occ := t.occ, attn := t.attn, arriving := t.arriving
    pins := { s.pins with attnLow := t.pins.attnLow }, ctl := { s.ctl with desc := t.ctl.desc } }
  current : s.measuring = true → l.count .becameCold ≤ s.occ.current →
    t.occ.current = s.occ.current + l.count .becameHot - l.count .becameCold
  rise : t.occ.current ≤ s.occ.current + l.count .becameHot
  fall : s.measuring = true → s.occ.current + l.count .becameHot ≤ t.occ.current + l.count .becameCold
  still : s.measuring = false → t.occ = s.occ
  peakReached : s.measuring = true → 0 < l.count .becameHot →
    s.occ.current + l.count .becameHot ≤ t.occ.peak + l.count .becameCold
  peakRange : s.occ.peak ≤ t.occ.peak ∧ t.occ.peak ≤ max s.occ.peak (s.occ.current + l.count .becameHot)
  peak : s.measuring = true → l.count .becameCold = 0 → 0 < l.count .becameHot → t.occ.peak = max s.occ.peak t.occ.current
  peakKept : l.count .becameHot = 0 → t.occ.peak = s.occ.peak
  desc : ∃ e : Bool, t.ctl.desc = s.ctl.desc.map (fun d => { d with exceeded := d.exceeded || e })
    ∧ (if e then CausesSet 0x20 s t else t.attn = s.attn ∧ t.arriving = s.arriving ∧ t.pins.attnLow = s.pins.attnLow)
    ∧ (e = true → s.measuring = true ∧ 0 < l.count .becameHot ∧ s.params.occLimit < s.occ.current + l.count .becameHot)
    ∧ (s.measuring = true → 0 < l.count .becameHot →
        s.params.occLimit + l.count .becameCold < s.occ.current + l.count .becameHot → e = true)

theorem attnWanted_congr {s t : State} (h1 : t.attn = s.attn) (h2 : t.pins.rstLow = s.pins.rstLow)
    (h3 : t.params = s.params) : t.attnWanted = s.attnWanted := by
  simp [State.attnWanted, h1, h2, h3]

/-- One notice. -/
theorem takeNotice_outcome (s : State) (n : Notice) : NoticesOutcome [n] s (takeNotice s n) := by
  unfold takeNotice
  split
  · rename_i hm
    cases n with
    | becameHot =>
      simp only
      split
      · rename_i ho
        have hset := raiseCause_causesSet .occupancy (onDesc (fun d => { d with exceeded := true })
          { s with occ := { current := s.occ.current + 1, peak := max s.occ.peak (s.occ.current + 1) } })
        exact ⟨rfl, fun _ _ => by simp [exceedNotice], by simp [exceedNotice],
          fun _ => by simp [exceedNotice], fun h => absurd hm (by simp [h]), fun _ _ => by simp [exceedNotice], by simp [exceedNotice],
          fun _ _ _ => by simp [exceedNotice], fun h => by simp at h, true,
          by simp [exceedNotice, raiseCause, driveAttn, onDesc], hset,
          fun _ => ⟨hm, by simp, by simpa using ho⟩, fun _ _ _ => rfl⟩
      · rename_i ho
        exact ⟨rfl, fun _ _ => by simp, by simp, fun _ => by simp, fun h => absurd hm (by simp [h]), fun _ _ => by simp, by simp,
          fun _ _ _ => by simp, fun h => by simp at h, false, by simp, by simp,
          by simp, fun _ _ h => absurd (by simpa using h) ho⟩
    | becameCold =>
      exact ⟨rfl, fun _ _ => by simp, by simp, fun _ => by simp; omega, fun h => absurd hm (by simp [h]), fun _ h => by simp at h,
        by simp,
        fun _ h => by simp at h, fun _ => rfl, false, by simp, by simp, by simp, fun _ h => by simp at h⟩
  · rename_i hm
    exact ⟨rfl, fun h => absurd h hm, by simp, fun h => absurd h hm, fun _ => rfl, fun h => absurd h hm, by simp,
      fun h => absurd h hm, fun _ => rfl, false, by simp, by simp, by simp, fun h => absurd h hm⟩

/-- Two events that set one cause, one after the other. -/
theorem CausesSet.trans {c : BitVec 8} {s t u : State} (h1 : CausesSet c s t) (h2 : CausesSet c t u)
    (hp : t.pending = s.pending) : CausesSet c s u := by
  obtain ⟨n1, l1, c1, b1, a1, r1, -⟩ := h1
  obtain ⟨n2, l2, c2, b2, a2, r2, w2⟩ := h2
  have hb : t.ClearBehind ↔ s.ClearBehind := by simp [State.ClearBehind, hp]
  refine ⟨n1 ||| n2, l1 ||| l2, ?_, ?_, by rw [a2, a1, BitVec.or_assoc], by rw [r2, r1, BitVec.or_assoc], w2⟩
  · have h : n1 ||| n2 ||| (l1 ||| l2) = n1 ||| l1 ||| (n2 ||| l2) := by ac_rfl
    rw [h, c1, c2, BitVec.or_self]
  · intro h
    by_contra hn
    have z1 : l1 = 0 := by_contra fun h1 => hn (b1 h1)
    have z2 : l2 = 0 := by_contra fun h2 => hn (hb.1 (b2 h2))
    exact h (by rw [z1, z2]; rfl)

/-- A cause set before or after an event that leaves the causes alone. -/
theorem CausesSet.congr {c : BitVec 8} {s s' t t' : State} (h : CausesSet c s t) (hp : s'.pending = s.pending)
    (ha : s'.attn = s.attn) (hr : s'.arriving = s.arriving) (ha' : t'.attn = t.attn) (hr' : t'.arriving = t.arriving)
    (hw : t'.pins.attnLow = t.pins.attnLow) (hw' : t'.attnWanted = t.attnWanted) : CausesSet c s' t' := by
  obtain ⟨n, l, h1, h2, h3, h4, h5⟩ := h
  refine ⟨n, l, h1, fun hl => ?_, by rw [ha', ha, h3], by rw [hr', hr, h4], by rw [hw, hw', h5]⟩
  simpa [State.ClearBehind, hp] using h2 hl

/-- Outcomes of two lists follow one another. -/
theorem NoticesOutcome.append {l k : List Notice} {s t u : State} (h1 : NoticesOutcome l s t) (h2 : NoticesOutcome k t u) :
    NoticesOutcome (l ++ k) s u := by
  have ht := h1.kept
  have hm : t.measuring = s.measuring := by rw [ht]; rfl
  have hp : t.params = s.params := by rw [ht]
  have hq : t.pending = s.pending := by rw [ht]
  obtain ⟨e1, d1, a1, m1, x1⟩ := h1.desc
  obtain ⟨e2, d2, a2, m2, x2⟩ := h2.desc
  have hu := h2.kept
  have hpu : u.params = t.params := by rw [hu]
  have hru : u.pins.rstLow = t.pins.rstLow := by rw [hu]
  have r1 := h1.rise
  have r2 := h2.rise
  have k1 := h1.peakRange
  have k2 := h2.peakRange
  refine ⟨?_, ?_, ?_, ?_, ?_, ?_, ?_, ?_, ?_, e1 || e2, ?_, ?_, ?_, ?_⟩
  · rw [hu, ht]
  · intro hs hc
    simp only [List.count_append] at hc ⊢
    have c1 := h1.current hs (by omega)
    have c2 := h2.current (hm.trans hs) (by omega)
    omega
  · simp only [List.count_append]
    omega
  · intro hs
    simp only [List.count_append]
    have n1 := h1.fall hs
    have n2 := h2.fall (hm.trans hs)
    omega
  · intro hs
    rw [h2.still (hm.trans hs), h1.still hs]
  · intro hs hh
    simp only [List.count_append] at hh ⊢
    have n1 := h1.fall hs
    by_cases hk : 0 < k.count .becameHot
    · have p2 := h2.peakReached (hm.trans hs) hk
      omega
    · have p1 := h1.peakReached hs (by omega)
      have p2 := h2.peakKept (by omega)
      omega
  · simp only [List.count_append]
    omega
  · intro hs hc hh
    simp only [List.count_append] at hc hh ⊢
    have c1 := h1.current hs (by omega)
    have c2 := h2.current (hm.trans hs) (by omega)
    by_cases hl : 0 < l.count .becameHot
    · have p1 := h1.peak hs (by omega) hl
      by_cases hk : 0 < k.count .becameHot
      · have p2 := h2.peak (hm.trans hs) (by omega) hk
        omega
      · have p2 := h2.peakKept (by omega)
        omega
    · have p1 := h1.peakKept (by omega)
      have p2 := h2.peak (hm.trans hs) (by omega) (by omega)
      omega
  · intro hh
    simp only [List.count_append] at hh
    rw [h2.peakKept (by omega), h1.peakKept (by omega)]
  · rw [d2, d1]
    simp [Option.map_map, Function.comp_def, Bool.or_assoc]
  · cases e1 <;> cases e2 <;> simp only [Bool.false_eq_true, if_false, if_true, Bool.or_false, Bool.or_true] at a1 a2 ⊢
    · exact ⟨a2.1.trans a1.1, a2.2.1.trans a1.2.1, a2.2.2.trans a1.2.2⟩
    · exact a2.congr hq.symm a1.1.symm a1.2.1.symm rfl rfl rfl rfl
    · exact a1.congr rfl rfl rfl a2.1 a2.2.1 a2.2.2 (attnWanted_congr a2.1 hru hpu)
    · exact a1.trans a2 hq
  · intro he
    simp only [List.count_append]
    cases e1 with
    | true => exact ⟨(m1 rfl).1, by have := (m1 rfl).2.1; omega, by have := (m1 rfl).2.2; omega⟩
    | false =>
      simp only [Bool.false_or] at he
      have := (m2 he).2
      rw [hp] at this
      exact ⟨hm ▸ (m2 he).1, by omega, by omega⟩
  · intro hs hh hx
    simp only [List.count_append] at hh hx
    have n1 := h1.fall hs
    by_cases hk : 0 < k.count .becameHot
    · rw [x2 (hm.trans hs) hk (by rw [hp]; omega), Bool.or_true]
    · rw [x1 hs (by omega) (by omega), Bool.true_or]

theorem NoticesOutcome.nil (s : State) : NoticesOutcome [] s s :=
  ⟨rfl, fun _ _ => by simp, by simp, fun _ => by simp, fun _ => rfl, fun _ h => by simp at h, by simp, fun _ _ h => by simp at h,
    fun _ => rfl, false, by simp, by simp, by simp, fun _ h => by simp at h⟩

/-- All that a list of notices does. -/
theorem foldl_takeNotice (l : List Notice) (s : State) : NoticesOutcome l s (l.foldl takeNotice s) := by
  induction l generalizing s with
  | nil => exact .nil s
  | cons n l ih => exact (takeNotice_outcome s n).append (ih (takeNotice s n))

/-! ### An event of the whole array -/

/-- An event of the whole array without those of its reports that `late` keeps back: all that it does to the rest. -/
theorem arrayEvent_late (f : Nat → Cell → CellOut) (late ticked : Nat → Bool) (draw : Nat) (s : State)
    (hb : s.OnsetTickBehind ∨ (∀ i, late i = false) ∧ ∀ i, ticked i = false) :
    ArrayOutcome f s
      { arrayEvent (fun i c => { f i c with report := (f i c).report && !late i }) s with
        crossing := {
          reports := s.crossing.reports ++ anyOrder draw ((reportsOf 0 (eachCell f 0 s.cells)).filter late)
          ticked := s.crossing.ticked ++ (reportsOf 0 (eachCell f 0 s.cells)).filter ticked } } := by
  set g : Nat → Cell → CellOut := fun i c => { f i c with report := (f i c).report && !late i } with hg
  have hnot : noticesOf (eachCell g 0 s.cells) = noticesOf (eachCell f 0 s.cells) := noticesOf_report ..
  have hrep : reportsOf 0 (eachCell g 0 s.cells) = (reportsOf 0 (eachCell f 0 s.cells)).filter fun i => !late i :=
    reportsOf_late ..
  set order := anyOrder (2 * s.free + 1) (reportsOf 0 (eachCell g 0 s.cells)) with horder
  set l := noticeOrder (2 * s.free) (eachCell g 0 s.cells) with hl
  set t : State := { s with cells := (eachCell g 0 s.cells).map CellOut.cell, free := s.free + 1 } with ht
  have hf := foldl_takeReport order t
  set r := order.foldl takeReport t with hr
  have hn := foldl_takeNotice l r
  have hev : arrayEvent g s = l.foldl takeNotice r := rfl
  have hcount : ∀ n, l.count n = noticeCount n f s.cells := fun n => by
    rw [hl, (noticeOrder_perm _ _).count_eq n, hnot]; rfl
  have hm : r.measuring = s.measuring := by rw [hf]; rfl
  have hc : (arrayEvent g s).cells = (eachCell g 0 s.cells).map CellOut.cell := by rw [hev, hn.kept, hf]
  have ho : r.occ = s.occ := by rw [hf]
  have hp : r.params = s.params := by rw [hf]
  rw [← hev] at hn
  refine ⟨?_, ?_, ?_, ?_, ?_, ?_, ?_, ?_, ?_, ?_, ?_⟩
  · rw [hn.kept, hf]
  · intro i
    show (arrayEvent g s).cells[i]? = _
    rw [hc, List.getElem?_map, getElem?_eachCell]
    simp [Option.map_map, Function.comp_def, hg]
  · intro hs hcold
    rw [← hcount, ← hcount, ← ho]
    rw [← hcount, ← ho] at hcold
    exact hn.current (hm.trans hs) hcold
  · rw [← hcount, ← ho]
    exact hn.rise
  · intro hs
    rw [← hcount, ← hcount, ← ho]
    exact hn.fall (hm.trans hs)
  · intro hs
    rw [← ho]
    exact hn.still (hm.trans hs)
  · rw [← hcount, ← ho]
    exact hn.peakRange
  · intro hs hhot
    rw [← hcount, ← hcount, ← ho]
    rw [← hcount] at hhot
    exact hn.peakReached (hm.trans hs) hhot
  · intro hs hcold hhot
    rw [← ho]
    rw [← hcount] at hcold hhot
    exact hn.peak (hm.trans hs) hcold hhot
  · intro hhot
    rw [← ho]
    rw [← hcount] at hhot
    exact hn.peakKept hhot
  · obtain ⟨e, d, a, m, x⟩ := hn.desc
    refine ⟨order, anyOrder draw ((reportsOf 0 (eachCell f 0 s.cells)).filter late),
      (reportsOf 0 (eachCell f 0 s.cells)).filter ticked, e, ?_, fun i hi => (List.mem_filter.1 hi).1, ?_, rfl, ?_, ?_, ?_, ?_, ?_⟩
    · refine ((anyOrder_perm _ _).append (anyOrder_perm _ _)).trans ?_
      rw [hrep]
      exact (List.perm_append_comm).trans (List.filter_append_perm ..)
    · intro hne
      rcases hb with hb | ⟨h1, h2⟩
      · exact hb
      · refine absurd ?_ hne
        have e1 : (reportsOf 0 (eachCell f 0 s.cells)).filter late = [] := List.filter_eq_nil_iff.2 fun i _ => by simp [h1]
        have e2 : (reportsOf 0 (eachCell f 0 s.cells)).filter ticked = [] := List.filter_eq_nil_iff.2 fun i _ => by simp [h2]
        rw [e1, e2]
        rfl
    · show (arrayEvent g s).ctl.desc = _
      rw [d, hf]
      simp only [ht, Option.map_map, Function.comp_def, Descriptor.addReports]
    · cases e
      · simp only [Bool.false_eq_true, if_false] at a ⊢
        rw [a.1, a.2.1, a.2.2, hf]; exact ⟨rfl, rfl, rfl⟩
      · simp only [if_true] at a ⊢
        exact a.congr (by rw [hf]) (by rw [hf]) (by rw [hf]) rfl rfl rfl rfl
    · intro he
      rw [← hcount, ← hm, ← ho, ← hp]
      exact m he
    · intro hs hhot hx
      rw [← hcount] at hhot
      rw [← hcount, ← hcount, ← ho, ← hp] at hx
      exact x (hm.trans hs) hhot hx
    · intro hs hcold hhot
      rw [← hcount] at hcold hhot ⊢
      refine ⟨fun he => ho ▸ hp ▸ (m he).2.2, fun hx => x (hm.trans hs) hhot ?_⟩
      rw [hcold, ho, hp]
      exact hx

/-- All that an event of the whole array does where no tick comes together with it. -/
theorem arrayEvent_outcome (f : Nat → Cell → CellOut) (s : State) : ArrayOutcome f s (arrayEvent f s) := by
  have h := arrayEvent_late f (fun _ => false) (fun _ => false) 0 s (.inr ⟨fun _ => rfl, fun _ => rfl⟩)
  have hk := (foldl_takeNotice (noticeOrder (2 * s.free) (eachCell f 0 s.cells))
    ((anyOrder (2 * s.free + 1) (reportsOf 0 (eachCell f 0 s.cells))).foldl takeReport
      { s with cells := (eachCell f 0 s.cells).map CellOut.cell, free := s.free + 1 })).kept
  have hc : (arrayEvent f s).crossing = s.crossing := by
    show (List.foldl takeNotice _ _).crossing = _
    rw [hk, foldl_takeReport]
  simp only [Bool.not_false, Bool.and_true, List.filter_false, anyOrder_nil, List.append_nil] at h
  have he : { arrayEvent f s with crossing := { reports := s.crossing.reports, ticked := s.crossing.ticked } } = arrayEvent f s := by
    rw [show ({ reports := s.crossing.reports, ticked := s.crossing.ticked } : Crossing) = s.crossing from rfl, ← hc]
  rw [← he]
  exact h

/-- The row directly behind is an onset tick that will be delivered. -/
theorem tickBehind_iff (s : State) : s.tickBehind = true ↔ s.OnsetTickBehind := by
  unfold State.tickBehind State.OnsetTickBehind State.timerNext
  simp only [Bool.and_eq_true, decide_eq_true_eq, and_assoc]
  constructor
  · rintro ⟨h1, h2, h3⟩
    refine ⟨h1, h2, ?_⟩
    split at h3
    · rename_i h
      exact .inl h
    · rename_i h
      simp only [Bool.and_eq_true, decide_eq_true_eq] at h3
      exact .inr ⟨h, h3.1.2, h3.2⟩
    · cases h3
  · rintro ⟨h1, h2, h3⟩
    refine ⟨h1, h2, ?_⟩
    rcases h3 with h | ⟨h, h4, h5⟩
    · rw [h]
    · rw [h]
      simp [h1, h4, h5]

/-- All that an event of the whole array does that can bring first onsets. -/
theorem onsetEvent_outcome (f : Nat → Cell → CellOut) (s : State) : ArrayOutcome f s (onsetEvent f s) := by
  unfold onsetEvent
  split
  · rename_i h
    exact arrayEvent_late f _ _ _ s (.inl ((tickBehind_iff s).1 h))
  · exact arrayEvent_outcome f s

/-! ### No operation of the blocks reads or writes the port -/

/-- The state with another port. -/
def State.withPort (s : State) (p : Port) : State := { s with port := p }

@[simp] theorem withPort_port (s : State) (p : Port) : (s.withPort p).port = p := rfl
@[simp] theorem withPort_pending (s : State) (p : Port) : (s.withPort p).pending = s.pending := rfl
@[simp] theorem withPort_free (s : State) (p : Port) : (s.withPort p).free = s.free := rfl
@[simp] theorem withPort_pins (s : State) (p : Port) : (s.withPort p).pins = s.pins := rfl
@[simp] theorem withPort_params (s : State) (p : Port) : (s.withPort p).params = s.params := rfl
@[simp] theorem withPort_cells (s : State) (p : Port) : (s.withPort p).cells = s.cells := rfl
@[simp] theorem withPort_occ (s : State) (p : Port) : (s.withPort p).occ = s.occ := rfl
@[simp] theorem withPort_engine (s : State) (p : Port) : (s.withPort p).engine = s.engine := rfl
@[simp] theorem withPort_ticks (s : State) (p : Port) : (s.withPort p).ticks = s.ticks := rfl
@[simp] theorem withPort_path (s : State) (p : Port) : (s.withPort p).path = s.path := rfl
@[simp] theorem withPort_filter (s : State) (p : Port) : (s.withPort p).filter = s.filter := rfl
@[simp] theorem withPort_queue (s : State) (p : Port) : (s.withPort p).queue = s.queue := rfl
@[simp] theorem withPort_ctl (s : State) (p : Port) : (s.withPort p).ctl = s.ctl := rfl
@[simp] theorem withPort_readout (s : State) (p : Port) : (s.withPort p).readout = s.readout := rfl
@[simp] theorem withPort_tpg (s : State) (p : Port) : (s.withPort p).tpg = s.tpg := rfl
@[simp] theorem withPort_attn (s : State) (p : Port) : (s.withPort p).attn = s.attn := rfl
@[simp] theorem withPort_crossing (s : State) (p : Port) : (s.withPort p).crossing = s.crossing := rfl
@[simp] theorem withPort_decayWaits (s : State) (p : Port) : (s.withPort p).decayWaits = s.decayWaits := rfl
@[simp] theorem withPort_arriving (s : State) (p : Port) : (s.withPort p).arriving = s.arriving := rfl

theorem withPort_ite (c : Prop) [Decidable c] (a b : State) (p : Port) :
    (if c then a else b).withPort p = if c then a.withPort p else b.withPort p := apply_ite (fun t => t.withPort p) c a b

theorem raiseCause_withPort (c : Cause) (s : State) (p : Port) : raiseCause c (s.withPort p) = (raiseCause c s).withPort p := rfl

theorem takeNotice_withPort (s : State) (n : Notice) (p : Port) :
    takeNotice (s.withPort p) n = (takeNotice s n).withPort p := by
  cases n <;> simp only [takeNotice, withPort_ite] <;> rfl

theorem foldl_takeNotice_withPort (l : List Notice) (s : State) (p : Port) :
    l.foldl takeNotice (s.withPort p) = (l.foldl takeNotice s).withPort p := by
  induction l generalizing s with
  | nil => rfl
  | cons n l ih => rw [List.foldl_cons, List.foldl_cons, takeNotice_withPort, ih]

theorem arrayEvent_withPort (f : Nat → Cell → CellOut) (s : State) (p : Port) :
    arrayEvent f (s.withPort p) = (arrayEvent f s).withPort p := by
  unfold arrayEvent
  simp only [foldl_takeReport]
  rw [← foldl_takeNotice_withPort]
  rfl

theorem onsetEvent_withPort (f : Nat → Cell → CellOut) (s : State) (p : Port) :
    onsetEvent f (s.withPort p) = (onsetEvent f s).withPort p := by
  unfold onsetEvent
  have h : (s.withPort p).tickBehind = s.tickBehind := rfl
  rw [h, arrayEvent_withPort]
  simp only [arrayEvent_withPort, withPort_ite]
  rfl

theorem openWindowAs_withPort (cause : OpenCause) (s : State) (p : Port) :
    openWindowAs cause (s.withPort p) = (openWindowAs cause s).withPort p := by
  unfold openWindowAs
  rw [← arrayEvent_withPort]
  rfl

theorem dealtWith_withPort (s : State) (p : Port) : dealtWith (s.withPort p) = (dealtWith s).withPort p := by
  unfold dealtWith
  simp only [withPort_ite, openWindowAs_withPort]
  rfl

theorem swap_withPort (d : Descriptor) (s : State) (p : Port) : swap d (s.withPort p) = (swap d s).withPort p := by
  unfold swap
  rw [← dealtWith_withPort]
  rfl

theorem discardWindow_withPort (d : Descriptor) (s : State) (p : Port) :
    discardWindow d (s.withPort p) = (discardWindow d s).withPort p := by
  unfold discardWindow
  rw [← dealtWith_withPort]
  rfl

theorem handOff_withPort (d : Descriptor) (s : State) (p : Port) : handOff d (s.withPort p) = (handOff d s).withPort p := by
  unfold handOff
  simp only [withPort_ite, withPort_ctl, withPort_params]
  congr 1
  cases s.ctl.frozen with
  | none => exact swap_withPort d s p
  | some z =>
    cases s.params.overrunPolicy with
    | discard => exact discardWindow_withPort d s p
    | wait => rfl

theorem endSettling_withPort (s : State) (p : Port) : endSettling (s.withPort p) = (endSettling s).withPort p := by
  unfold endSettling
  simp only [withPort_ctl, withPort_occ]
  cases s.ctl.desc with
  | none => exact dealtWith_withPort (comeToRest s) p
  | some d => exact handOff_withPort _ (comeToRest s) p

theorem considerEnd_withPort (s : State) (p : Port) : considerEnd (s.withPort p) = (considerEnd s).withPort p := by
  unfold considerEnd
  simp only [withPort_ite, endSettling_withPort]
  rfl

/-- Outside SETTLING there is no end of settling to consider. -/
@[simp] theorem considerEnd_of_ne (s : State) (h : s.ctl.state ≠ .settling) : considerEnd s = s := by
  simp [considerEnd, State.mayEnd, h]

theorem shedNotice_withPort (s : State) (p : Port) : shedNotice (s.withPort p) = (shedNotice s).withPort p := by
  unfold shedNotice
  simp only [withPort_ite]
  rfl

theorem openGate_withPort (ch : Channel) (s : State) (p : Port) : openGate ch (s.withPort p) = (openGate ch s).withPort p := by
  unfold openGate
  have h1 : (s.withPort p).hold ch = s.hold ch := by cases ch <;> rfl
  rw [h1]
  cases s.hold ch with
  | none => rfl
  | some h => cases ch <;> rfl

theorem shedHold_withPort (ch : Channel) (s : State) (p : Port) : shedHold ch (s.withPort p) = (shedHold ch s).withPort p := by
  unfold shedHold
  have h1 : (s.withPort p).hold ch = s.hold ch := by cases ch <;> rfl
  rw [h1]
  cases s.hold ch with
  | none => rfl
  | some h => simp only [openGate_withPort, shedNotice_withPort]

theorem shutWindow_withPort (cause : CloseCause) (s : State) (p : Port) :
    shutWindow cause (s.withPort p) = (shutWindow cause s).withPort p := by
  unfold shutWindow
  rw [← shedHold_withPort, ← shedHold_withPort]
  rfl

theorem closeWindowAs_withPort (cause : CloseCause) (s : State) (p : Port) :
    closeWindowAs cause (s.withPort p) = (closeWindowAs cause s).withPort p := by
  unfold closeWindowAs
  rw [← considerEnd_withPort, shutWindow_withPort]

theorem clearBanks_withPort (f : Nat → Bool) (s : State) (p : Port) :
    clearBanks f (s.withPort p) = (clearBanks f s).withPort p := by
  unfold clearBanks
  simp only [withPort_ctl]
  cases s.ctl.frozen <;> rfl

theorem abortFrame_withPort (f : Frame) (s : State) (p : Port) : abortFrame f (s.withPort p) = (abortFrame f s).withPort p := by
  unfold abortFrame
  rw [← clearBanks_withPort]
  rfl

theorem onDesc_withPort (f : Descriptor → Descriptor) (s : State) (p : Port) :
    onDesc f (s.withPort p) = (onDesc f s).withPort p := rfl

theorem arrive_withPort (s : State) (p : Port) : arrive (s.withPort p) = (arrive s).withPort p := by
  unfold arrive
  simp only [withPort_ite]
  rfl

theorem softReset_withPort (s : State) (p : Port) :
    softReset (s.withPort p) = (softReset s).withPort { p with lastRefusal := none } := rfl

/-! ### A write together with a tick (R170) -/

theorem canReceive_eq (s : State) (args : List Byte) :
    s.canReceive args = true ↔ s.port.decoder = .receiving ∧ args.length ≤ 255 := by
  simp [State.canReceive]

/-- A write of a parameter that is of none of the four leaves what a cell reads at a tick as it is. -/
theorem write_read_kept (p q : Params) (id : ParamId) (v : Nat) (h : p.write id v = some q)
    (hid : ¬ (id = .threshold ∨ id = .trimStep ∨ id = .hysteresis ∨ id = .decayStep)) :
    q.threshold = p.threshold ∧ q.trimStep = p.trimStep ∧ q.hysteresis = p.hysteresis ∧ q.decayStep = p.decayStep := by
  cases id <;> simp at hid
  all_goals
    simp only [Params.write, Option.map_eq_some_iff, Option.ite_none_right_eq_some, Option.some.injEq] at h
    obtain ⟨_, _, rfl⟩ := h
    exact ⟨rfl, rfl, rfl, rfl⟩

/-- A write of one of the four changes nothing else. -/
theorem write_rest_kept (p q : Params) (id : ParamId) (v : Nat) (h : p.write id v = some q)
    (hid : id = .threshold ∨ id = .trimStep ∨ id = .hysteresis ∨ id = .decayStep) :
    q = { p with threshold := q.threshold, trimStep := q.trimStep, hysteresis := q.hysteresis, decayStep := q.decayStep } := by
  rcases hid with rfl | rfl | rfl | rfl
  all_goals
    simp only [Params.write, Option.ite_none_right_eq_some, Option.some.injEq] at h
    obtain ⟨-, rfl⟩ := h
    rfl

/-- With no SET_PARAM directly behind, no write comes together with a tick. -/
theorem paramsBehind_none (s : State) (h : ∀ args, s.pending.head? ≠ some (.setParam args)) : s.paramsBehind = none := by
  unfold State.paramsBehind
  split
  · rename_i args rest hp
    exact absurd (by rw [hp]; rfl) (h args)
  · rfl

/-- The table after a write together with a tick differs from the one in force in the four values alone. -/
theorem paramsBehind_eq (s : State) (q : Params) (h : s.paramsBehind = some q) :
    q = { s.params with threshold := q.threshold, trimStep := q.trimStep, hysteresis := q.hysteresis, decayStep := q.decayStep } := by
  unfold State.paramsBehind at h
  split at h
  · split at h
    · split at h
      · cases h
        rfl
      · cases h
    · cases h
  · cases h

/-- The table after a write together with a tick is the one in force, or the one that the SET_PARAM directly behind writes. -/
theorem paramsBehind_written (s : State) (a : Params) (h : s.paramsBehind = some a) : a = s.params ∨ s.WrittenBehind a := by
  unfold State.paramsBehind at h
  split at h
  · rename_i args rest hp
    split at h
    · rename_i id q hw
      split at h
      · rename_i hr
        cases h
        unfold writeAsked at hw
        split at hw
        · cases hw
        · rename_i b value
          split at hw
          · cases hw
          · rename_i id' hb
            split at hw
            · cases hw
            · rename_i hl
              split at hw
              · cases hw
              · rename_i q' hq
                cases hw
                by_cases hid : id = .threshold ∨ id = .trimStep ∨ id = .hysteresis ∨ id = .decayStep
                · right
                  have he := write_rest_kept _ _ _ _ hq hid
                  rw [← he]
                  have hrow : id.row.1 = b ∧ id.row.2.1 = id.length := by
                    have hc := List.find?_some hb
                    simp only [beq_iff_eq] at hc
                    rcases hid with rfl | rfl | rfl | rfl <;> exact ⟨hc, rfl⟩
                  refine ⟨((canReceive_eq s _).1 hr).1, id, value, ?_, ?_, hq, hid⟩
                  · rw [hp, hrow.1]
                    rfl
                  · rw [hrow.2]
                    exact Decidable.not_not.1 hl
                · left
                  obtain ⟨h1, h2, h3, h4⟩ := write_read_kept _ _ _ _ hq hid
                  rw [h1, h2, h3, h4]
      · cases h
    · cases h
  · cases h

/-! ### The take of a request -/

theorem receiveRequest_withPort (code : Byte) (args : List Byte) (check : Byte) (s : State) :
    receiveRequest code args check s = s.withPort (receiveRequest code args check s).port := by
  simp only [receiveRequest, State.withPort]

/-- A refused take with a right check byte: the answer stands on the port, all else is as it was (R157). -/
theorem refuse_receiveRequest (code : Byte) (args : List Byte) (st : Status) (s : State) (h : st ≠ .ok)
    (hr : s.port.decoder = .receiving) (hl : args.length ≤ 255) :
    refuse code st (receiveRequest code args (requestCheck code args) s) = s.answered code args st [] := by
  have hp := receiveRequest_port code args (requestCheck code args) s hr hl
  rw [receiveRequest_withPort]
  simp only [refuse, respond, State.answered, Port.afterTake, h, if_false, State.withPort, hp]
  rfl

/-- A taken command whose effect leaves the port alone: the effect, and the answer on the port (R157). -/
theorem respond_withPort (code : Byte) (args : List Byte) (data : List Byte) (s t : State) (ht : t.port = s.port)
    (hr : s.port.decoder = .receiving) (hl : args.length ≤ 255) :
    respond .ok data (t.withPort (receiveRequest code args (requestCheck code args) s).port) = t.answered code args .ok data := by
  have hp := receiveRequest_port code args (requestCheck code args) s hr hl
  simp only [respond, State.answered, Port.afterTake, State.withPort, hp, ht, if_true]
  rfl

/-- A take of more than 72 argument bytes is refused (R157 step 3). -/
theorem takeCommand_long (code : Byte) (args : List Byte) (own : State → Answer) (s : State)
    (hr : s.port.decoder = .receiving) (h255 : args.length ≤ 255) (hl : 72 < args.length) :
    takeCommand code args own s = s.answered code args .badLength [] := by
  unfold takeCommand
  have h2 : Config.maxArgs < args.length := hl
  rw [if_pos ((canReceive_eq s args).2 ⟨hr, h255⟩)]
  simp only [if_pos h2]
  exact refuse_receiveRequest code args .badLength s (by decide) hr h255

/-- A take that the command's own checks refuse. -/
theorem takeCommand_error (code : Byte) (args : List Byte) (own : State → Answer) (s : State) (st : Status)
    (hr : s.port.decoder = .receiving) (hl : args.length ≤ 72)
    (ho : own (receiveRequest code args (requestCheck code args) s) = .error st) (hst : st ≠ .ok) :
    takeCommand code args own s = s.answered code args st [] := by
  unfold takeCommand
  have h2 : ¬ Config.maxArgs < args.length := by unfold Config.maxArgs; omega
  rw [if_pos ((canReceive_eq s args).2 ⟨hr, by omega⟩)]
  simp only [if_neg h2, ho]
  exact refuse_receiveRequest code args st s hst hr (by omega)

/-- A take that the command's own checks pass, with an effect that leaves the port alone. -/
theorem takeCommand_ok (code : Byte) (args : List Byte) (own : State → Answer) (s t : State) (data : List Byte)
    (hr : s.port.decoder = .receiving) (hl : args.length ≤ 72)
    (ho : own (receiveRequest code args (requestCheck code args) s) =
      .ok (t.withPort (receiveRequest code args (requestCheck code args) s).port, data))
    (ht : t.port = s.port) : takeCommand code args own s = t.answered code args .ok data := by
  unfold takeCommand
  have h2 : ¬ Config.maxArgs < args.length := by unfold Config.maxArgs; omega
  rw [if_pos ((canReceive_eq s args).2 ⟨hr, by omega⟩)]
  simp only [if_neg h2, ho]
  exact respond_withPort code args data s t ht hr (by omega)

/-- Outside RECEIVING, and with more argument bytes than the length byte can count, no request comes whole (log 6). -/
theorem takeCommand_absent (code : Byte) (args : List Byte) (own : State → Answer) (s : State)
    (h : s.port.decoder ≠ .receiving ∨ 255 < args.length) : takeCommand code args own s = s := by
  unfold takeCommand
  rw [if_neg]
  rw [canReceive_eq]
  rintro ⟨h1, h2⟩
  rcases h with h | h
  · exact h h1
  · omega

end Sys2Proof.Machine
end

