-- ==== Sys2Proof/Laws/Ticks.lean ====
section
/-! SUPPORT. The ticks cell by cell: the model's tests in the words of the rules; which parts of a tick each cell takes, and that an event
at which the cells take them is a tick as the statements have it (`tick_taken`). -/

namespace Sys2Proof.Machine

/-! ### The model's tests in the words of the rules -/

theorem keeps_dwell_iff (m : Mode) :
    m.keeps .dwell = true ↔ m = .seqDw12On20 ∨ m = .seqDw16On16 ∨ m = .conDw12Ep4 ∨ m = .conDw16 := by cases m <;> decide

theorem maximum_dwell (m : Mode) (h : m.keeps .dwell = true) : m.maximum .dwell = m.largest .dwell := by
  cases m <;> first | rfl | cases h

/-- Counting is the seven conditions of R39. -/
theorem counting_iff (p : Params) (h : Half) (i : Nat) (c : Cell) : c.counting p h i = true ↔ c.CountsDwell p h i := by
  unfold Cell.counting Cell.CountsDwell Cell.eligible gated
  simp only [Bool.and_eq_true, decide_eq_true_eq, Bool.not_eq_true', Bool.or_eq_true, ← keeps_dwell_iff, Config.bankCells]
  by_cases hk : p.mode.keeps .dwell = true
  · rw [maximum_dwell _ hk]; tauto
  · simp [hk]

theorem pulsed_iff (p : Params) (i : Nat) (c : Cell) : c.pulsed p i = true ↔ c.PulseDriven p i := by
  unfold Cell.pulsed Cell.PulseDriven Cell.DeepMasked gated Cell.deepMasked
  simp only [Bool.and_eq_true, Bool.not_eq_true', Config.bankCells, and_assoc, Bool.and_eq_false_iff]
  cases p.deepMask <;> simp

theorem capDue_iff (s : State) : s.capDue = true ↔ s.CapWaits := by
  unfold State.capDue State.CapWaits State.capFlag
  cases h : s.ctl.desc <;> simp [and_assoc]

theorem endsNext_iff (g : Tpg) : g.endsNext = true ↔ g.LastTick := by
  unfold Tpg.LastTick Tpg.endsNext
  cases g with
  | idle => simp
  | active n => simp only [decide_eq_true_eq, Tpg.active.injEq]; omega

theorem capFlag_iff (s : State) : s.capFlag = false ↔ ∀ d, s.ctl.desc = some d → d.settleCap = false := by
  unfold State.capFlag
  cases h : s.ctl.desc <;> simp

theorem capHit_iff (s : State) : (s.capHit && !s.capDue) = true ↔
    s.ctl.state = .settling ∧ (∀ d, s.ctl.desc = some d → d.settleCap = false) ∧ s.params.settleCap = s.ctl.settleCount + 1 := by
  rw [← capFlag_iff]
  unfold State.capHit State.capDue
  by_cases h1 : s.ctl.state = .settling <;> cases h2 : s.capFlag <;> simp [h1]
  omega

theorem bringsDwell_iff (c : Instr) (s : State) : bringsDwell c s = true ↔ BringsDwell c s := by
  unfold bringsDwell BringsDwell
  cases c <;> simp [← endsNext_iff, ← capHit_iff, and_assoc]

theorem dwellBehind_iff (s : State) : s.dwellBehind = true ↔ s.DwellTickBehind := by
  unfold State.dwellBehind State.DwellTickBehind
  rw [Bool.and_eq_true, Bool.not_eq_true', ← Bool.not_eq_true, capDue_iff]
  refine and_congr_right fun _ => ?_
  cases s.pending.head? <;> simp [bringsDwell_iff]

theorem injectBehind_iff (s : State) : s.injectBehind = true ↔ s.InjectBehind := by
  simp [State.injectBehind, State.InjectBehind, State.cfgInFlight, State.canReceive, and_assoc]

theorem endsCold_iff (p : Params) (i : Nat) (c : Cell) :
    (decide (p.testPath = .direct) && c.pulsed p i && decide (c.activity = .hot)) = true ↔
      p.testPath = .direct ∧ c.PulseDriven p i ∧ c.activity = .hot := by
  simp [pulsed_iff, and_assoc]

/-! ### What counting leaves of a cell -/

/-- Two cells that differ in counters alone. -/
def Cell.SameBut (c d : Cell) : Prop := d.mask = c.mask ∧ d.test = c.test ∧ d.activity = c.activity

theorem setSegs_sameBut (l : List Seg) (c : Cell) (v : Nat) : c.SameBut (c.setSegs l v) := by
  induction l generalizing c v with
  | nil => exact ⟨rfl, rfl, rfl⟩
  | cons g l ih =>
    have h1 := ih (c.setSeg g (v % g.size)) (v / g.size)
    have h2 : c.SameBut (c.setSeg g (v % g.size)) := by cases g <;> exact ⟨rfl, rfl, rfl⟩
    exact ⟨h1.1.trans h2.1, h1.2.1.trans h2.2.1, h1.2.2.trans h2.2.2⟩

theorem bump_sameBut (c : Cell) (m : Mode) (h : Half) (q : Quantity) : c.SameBut (c.bump m h q) := by
  unfold Cell.bump
  split
  · exact setSegs_sameBut ..
  · exact ⟨rfl, rfl, rfl⟩

theorem dwellAtCell_sameBut (p : Params) (h : Half) (i : Nat) (c : Cell) : c.SameBut (dwellAtCell p h i c) := by
  unfold dwellAtCell
  split
  · exact bump_sameBut ..
  · exact ⟨rfl, rfl, rfl⟩

theorem dwellAtCell_cold (p : Params) (h : Half) (i : Nat) (c : Cell) (hc : c.activity = .cold) : dwellAtCell p h i c = c := by
  simp [dwellAtCell, Cell.counting, hc]

/-! ### The end of the pulse at a cell -/

/-- The end of a direct-path pulse turns the cell COLD (R143). -/
def Cell.EndsCold (p : Params) (i : Nat) (c : Cell) : Prop := p.testPath = .direct ∧ c.pulsed p i = true ∧ c.activity = .hot

theorem endsCold_dwellAtCell (p : Params) (h : Half) (i : Nat) (c : Cell) :
    (dwellAtCell p h i c).EndsCold p i ↔ c.EndsCold p i := by
  have hs := dwellAtCell_sameBut p h i c
  simp [Cell.EndsCold, Cell.pulsed, Cell.deepMasked, hs.1, hs.2.1, hs.2.2]

theorem pulseEndAtCell_ends (p : Params) (i : Nat) (c : Cell) (h : c.EndsCold p i) : pulseEndAtCell p i c = turnCold p i c := by
  simp [pulseEndAtCell, h.1, h.2.1, h.2.2]

theorem pulseEndAtCell_stays (p : Params) (i : Nat) (c : Cell) (h : ¬ c.EndsCold p i) : pulseEndAtCell p i c = quietly c := by
  unfold pulseEndAtCell
  rw [if_neg]
  simp only [Bool.and_eq_true, decide_eq_true_eq, Cell.EndsCold] at h ⊢
  tauto

/-! ### What the parts of a tick do at a cell -/

@[simp] theorem andThen_quietly (o : CellOut) : o.andThen (quietly o.cell) = o := by simp [CellOut.andThen, quietly]

/-- A cell that takes one part. -/
@[simp] theorem partsAtCell_one (s : State) (part : TickPart) (i : Nat) (c : Cell) :
    s.partsAtCell [part] i c = s.partAtCell part i c := andThen_quietly _

/-- A cell goes by the table in force or by one that a write directly behind gives. -/
theorem tableAt_eq (s : State) (i : Nat) : s.tableAt i = s.params ∨ s.WrittenBehind (s.tableAt i) := by
  unfold State.tableAt
  cases h : s.paramsBehind with
  | none => exact .inl rfl
  | some q =>
    simp only
    split
    · exact paramsBehind_written s q h
    · exact .inl rfl

/-- No write that comes together with a tick changes the mode. -/
@[simp] theorem tableAt_mode (s : State) (i : Nat) : (s.tableAt i).mode = s.params.mode := by
  unfold State.tableAt
  cases h : s.paramsBehind with
  | none => rfl
  | some q =>
    simp only
    split
    · rw [paramsBehind_eq s q h]
    · rfl

/-- With no write together with the tick every cell goes by the table in force. -/
theorem tableAt_none (s : State) (h : s.paramsBehind = none) (i : Nat) : s.tableAt i = s.params := by simp [State.tableAt, h]

theorem partAtCell_takes (s : State) (part : TickPart) (i : Nat) (c : Cell) : TakesPart s part i c (s.partAtCell part i c) := by
  unfold TakesPart State.partAtCell
  cases part with
  | decay =>
    have h0 : Config.arrayCells = 4096 := rfl
    simp only [decayAtCell]
    by_cases h : i < 4096
    · rw [if_pos h, if_pos (h0 ▸ h)]
      exact ⟨_, tableAt_eq s i, rfl⟩
    · rw [if_neg h, if_neg (h0 ▸ h)]
  | dwell =>
    simp only [← counting_iff, dwellAtCell]
    exact ⟨fun h => by rw [if_pos h], fun h => by rw [if_neg h]⟩
  | pulseEnd =>
    simp only [← endsCold_iff, pulseEndAtCell]
    exact ⟨fun h => by rw [if_pos h], fun h => by rw [if_neg h]⟩
  | pulseStart =>
    have h0 : Config.arrayCells = 4096 := rfl
    simp only [← pulsed_iff, pulseStartAtCell, h0]
    refine ⟨fun h => ?_, fun ht h => ?_, fun ht h hi => ?_, fun ht h hi => ?_⟩
    · cases s.params.testPath <;> simp [h]
    · simp [ht, h]
    · simp [ht, hi]
    · rw [ht]
      exact if_pos (by simp [h, hi])

theorem partsAtCell_takes (s : State) (parts : List TickPart) (i : Nat) (c : Cell) :
    TakesParts s parts i c (s.partsAtCell parts i c) := by
  induction parts generalizing c with
  | nil => rfl
  | cons part parts ih => exact ⟨_, _, partAtCell_takes s part i c, ih _, rfl⟩

@[simp] theorem tickAtCell_cell (s : State) (parts : Nat → List TickPart) (late : Bool) (i : Nat) (c : Cell) :
    (s.tickAtCell parts late i c).cell = (s.partsAtCell (parts i) i c).cell := by
  unfold State.tickAtCell
  simp only
  split <;> rfl

/-- An event at which the cells take parts of ticks, in the words of the statements. -/
theorem tick_taken (s v : State) (parts : Nat → List TickPart) (late : Bool) :
    TickTaken s parts (late = true) v (onsetEvent (s.tickAtCell parts late) v) := by
  refine ⟨_, onsetEvent_outcome _ v, fun i c => ⟨_, partsAtCell_takes s (parts i) i c, ?_⟩⟩
  unfold State.tickAtCell
  simp only
  split
  · rename_i h
    exact .inr ⟨h, _, rfl⟩
  · exact .inl rfl

/-- What a cell takes of a tick does not depend on the dividers. -/
theorem takesParts_ticks (s : State) (k : TickGen) (parts : List TickPart) :
    TakesParts { s with ticks := k } parts = TakesParts s parts := by
  induction parts with
  | nil => rfl
  | cons part parts ih =>
    funext i c o
    simp only [TakesParts, ih]
    rfl

theorem tickTaken_ticks (s : State) (k : TickGen) (parts : Nat → List TickPart) (late : Prop) (v u : State) :
    TickTaken { s with ticks := k } parts late v u ↔ TickTaken s parts late v u := by
  simp only [TickTaken, takesParts_ticks]

/-- A cell takes a pulse start, and a decay tick that has waited for it, once. -/
theorem startParts_perm (s : State) (i : Nat) :
    (startParts s i).Perm (if s.decayWaits then [.pulseStart, .decay] else [.pulseStart]) := by
  unfold startParts
  cases s.decayWaits with
  | false => exact .refl _
  | true =>
    simp only [Bool.not_true, Bool.false_eq_true, if_false, if_true]
    split
    · exact .swap _ _ _
    · exact .refl _

/-- A pulse start, in the words of the statements. -/
theorem startPulse_taken (s : State) :
    TickTaken s.atPulseStart (startParts s) False
      (onDesc (fun d => { d with testPulses := min 255 (d.testPulses + 1) }) { s with tpg := .active s.params.tpLen, decayWaits := false })
      (startPulse s) := by
  obtain ⟨f, h1, h2⟩ := tick_taken s.atPulseStart
    (onDesc (fun d => { d with testPulses := min 255 (d.testPulses + 1) }) { s with tpg := .active s.params.tpLen, decayWaits := false })
    (startParts s) false
  exact ⟨f, h1, fun i c => (h2 i c).imp fun o => And.imp_right (Or.imp_right fun h => absurd h.1 Bool.false_ne_true)⟩

/-! ### Where settling ends -/

/-- The cells after an event of the whole array. -/
theorem ArrayOutcome.cells_eq {f : Nat → Cell → CellOut} {s t : State} (h : ArrayOutcome f s t) :
    t.cells = (eachCell f 0 s.cells).map CellOut.cell := by
  apply List.ext_getElem?
  intro i
  rw [h.cells, List.getElem?_map, getElem?_eachCell]
  simp [Option.map_map, Function.comp_def]

/-- Both conditions of the end of settling hold after the parts exactly where they hold after the event. -/
theorem mayEnd_after {s v : State} (parts : Nat → List TickPart) (late : Bool) (hs : v.ctl.state = s.ctl.state)
    (hh : v.ctl.liveHalf = s.ctl.liveHalf) (hp : v.params = s.params) (hq : v.queue = s.queue) (he : v.engine = s.engine)
    (hc : v.cells = s.cells) : (onsetEvent (s.tickAtCell parts late) v).mayEnd = s.overAfter parts := by
  have h := onsetEvent_outcome (s.tickAtCell parts late) v
  have hcells : (onsetEvent (s.tickAtCell parts late) v).cells = mapCells (fun i c => (s.partsAtCell (parts i) i c).cell) 0 s.cells := by
    rw [h.cells_eq, map_cell_eachCell, hc]
    simp
  unfold State.mayEnd State.overAfter State.drained State.quiet countingCells
  simp only [hcells]
  rw [h.kept]
  simp only [hs, hh, hp, hq, he]

/-! ### Which parts a cell has taken -/

/-- The parts after some rounds: those of the first rounds, and of all where settling has not ended. -/
theorem takeRounds_prefix (s : State) (l : List (Nat → Option TickPart)) (parts : Nat → List TickPart) :
    ∃ n, (∀ i, s.takeRounds l parts i = parts i ++ (l.take n).filterMap fun r => r i)
      ∧ (s.overAfter (s.takeRounds l parts) = false → n = l.length) := by
  induction l generalizing parts with
  | nil => exact ⟨0, fun i => by simp [State.takeRounds], fun _ => rfl⟩
  | cons r l ih =>
    have one (i : Nat) : ([r] : List (Nat → Option TickPart)).filterMap (fun r => r i) = (r i).toList := by
      cases h : r i <;> simp [h]
    have step (n i : Nat) : ((r :: l).take (n + 1)).filterMap (fun r => r i) = (r i).toList ++ (l.take n).filterMap fun r => r i := by
      rw [List.take_succ_cons, ← one i, ← List.filterMap_append]
      rfl
    unfold State.takeRounds
    simp only
    split
    · rename_i ho
      exact ⟨1, fun i => by rw [step 0 i]; simp, fun h => absurd ho (by simp [h])⟩
    · obtain ⟨n, h1, h2⟩ := ih fun i => parts i ++ (r i).toList
      exact ⟨n + 1, fun i => by rw [h1, step, List.append_assoc], fun h => by rw [h2 h]; rfl⟩

/-- What a run of rounds adds is of the rounds, and all of them where settling has not ended. -/
theorem takeRounds_adds (s : State) (l : List (Nat → Option TickPart)) (parts : Nat → List TickPart) (i : Nat) :
    ∃ k, s.takeRounds l parts i = parts i ++ k ∧ k.Sublist (l.filterMap fun r => r i)
      ∧ (s.overAfter (s.takeRounds l parts) = false → k = l.filterMap fun r => r i) := by
  obtain ⟨n, h1, h2⟩ := takeRounds_prefix s l parts
  refine ⟨_, h1 i, (List.take_sublist n l).filterMap _, fun h => by rw [h2 h, List.take_length]⟩

/-- A cell takes a decay tick once, or not at all where settling ends at it. -/
theorem decayParts_eq (s : State) (i : Nat) :
    decayParts s i = [.decay] ∨ s.overAfter (decayParts s) = true ∧ decayParts s i = [] := by
  obtain ⟨k, h1, h2, h3⟩ := takeRounds_adds s (decayRounds s) (fun _ => []) i
  have hall : (decayRounds s).filterMap (fun r => r i) = [.decay] := by
    unfold decayRounds
    split
    · by_cases h : s.tickPhase 2 i = .early <;> simp [h]
    · rfl
  rw [hall] at h2 h3
  change decayParts s i = [] ++ k at h1
  rw [h1, List.nil_append]
  rcases List.sublist_singleton.1 h2 with rfl | rfl
  · cases ho : s.overAfter (decayParts s)
    · exact .inl (h3 ho)
    · exact .inr ⟨rfl, rfl⟩
  · exact .inl rfl

/-- All the rounds of a dwell tick have for a cell what the tick has for it. -/
theorem dwellRounds_all (s : State) (i : Nat) :
    ((dwellRounds s .early).filterMap (fun r => r i) ++ (dwellRounds s .middle).filterMap (fun r => r i)
      ++ (dwellRounds s .late).filterMap fun r => r i).Perm s.dwellDue := by
  have hdue : s.dwellDue = .dwell :: (if s.tpg.endsNext then [.pulseEnd] else []) ++ (if s.decayWaits then [.decay] else []) := by
    unfold State.dwellDue Tpg.endsNext
    match s.tpg with
    | .idle => rfl
    | .active 0 => rfl
    | .active 1 => rfl
    | .active (n + 2) => simp
  rw [hdue]
  have phase (ph : Phase) : (dwellRounds s ph).filterMap (fun r => r i) =
      [TickPart.decay.onlyIf (s.decayWaits && decide (s.tickPhase 2 i = ph) && s.decayFirst i),
        TickPart.dwell.onlyIf (decide (s.tickPhase 0 i = ph)),
        TickPart.pulseEnd.onlyIf (s.tpg.endsNext && decide (s.tickPhase 1 i = ph)),
        TickPart.decay.onlyIf (s.decayWaits && decide (s.tickPhase 2 i = ph) && !s.decayFirst i)].filterMap id := rfl
  rw [phase, phase, phase]
  generalize s.tickPhase 0 i = a
  generalize s.tickPhase 1 i = b
  generalize s.tickPhase 2 i = c
  generalize s.decayFirst i = d
  generalize s.decayWaits = e
  generalize s.tpg.endsNext = f
  cases a <;> cases b <;> cases c <;> cases d <;> cases e <;> cases f <;> decide +kernel

/-- Of the parts that a dwell tick has for it a cell has taken some, and all of them where settling goes on. -/
theorem dwellReached_parts (s : State) (i : Nat) :
    ((dwellReached s).1 i).Subperm s.dwellDue ∧ ((dwellReached s).2 = .goesOn → ((dwellReached s).1 i).Perm s.dwellDue) := by
  have hall := dwellRounds_all s i
  unfold dwellReached
  split
  · obtain ⟨k1, a1, a2, a3⟩ := takeRounds_adds s (dwellRounds s .early) (fun _ => []) i
    simp only
    split
    · refine ⟨?_, fun h => by cases h⟩
      simp only [a1, List.nil_append]
      exact ((a2.trans (List.sublist_append_left _ _)).trans (List.sublist_append_left _ _)).subperm.trans hall.subperm
    · rename_i h1
      have e1 := a3 (Bool.eq_false_iff.2 h1)
      obtain ⟨k2, b1, b2, b3⟩ := takeRounds_adds s (dwellRounds s .middle) (s.takeRounds (dwellRounds s .early) fun _ => []) i
      have hb : (s.takeRounds (dwellRounds s .middle) (s.takeRounds (dwellRounds s .early) fun _ => []) i).Subperm s.dwellDue := by
        rw [b1, a1, e1, List.nil_append]
        exact (((List.Sublist.refl _).append b2).trans (List.sublist_append_left _ _)).subperm.trans hall.subperm
      split
      · exact ⟨hb, fun h => by cases h⟩
      · rename_i h2
        have e2 := b3 (Bool.eq_false_iff.2 h2)
        split
        · exact ⟨hb, fun h => by cases h⟩
        · obtain ⟨k3, c1, c2, c3⟩ := takeRounds_adds s (dwellRounds s .late)
            (s.takeRounds (dwellRounds s .middle) (s.takeRounds (dwellRounds s .early) fun _ => [])) i
          simp only [c1, b1, a1, e1, e2, List.nil_append]
          refine ⟨((List.Sublist.refl _).append c2).subperm.trans hall.subperm, fun h => ?_⟩
          split at h
          · cases h
          · rename_i h3
            rw [c3 (Bool.eq_false_iff.2 h3)]
            exact hall
  · rename_i h
    simp only [State.tickMixes, Bool.or_eq_true, not_or, Bool.not_eq_true] at h
    have hdue : s.dwellDue = [.dwell] := by
      have he := h.1.2
      unfold State.dwellDue
      rw [h.2]
      unfold Tpg.endsNext at he
      match hg : s.tpg with
      | .idle => rfl
      | .active 0 => simp [hg] at he
      | .active 1 => simp [hg] at he
      | .active (n + 2) => rfl
    rw [hdue]
    exact ⟨.refl _, fun _ => .refl _⟩

/-- What the controller does after a dwell tick, by whether settling is over. -/
theorem dwellReached_over (s : State) :
    match (dwellReached s).2 with
    | .goesOn => s.overAfter (dwellReached s).1 = false
    | .ends | .endsCounted => s.overAfter (dwellReached s).1 = true
    | .expires => s.capHit = true ∧ s.engine.applying = none := by
  unfold dwellReached
  by_cases h0 : s.tickMixes = true
  · rw [if_pos h0]
    simp only
    by_cases h1 : s.overAfter (s.takeRounds (dwellRounds s .early) fun _ => []) = true
    · rw [if_pos h1]
      exact h1
    · rw [if_neg h1]
      by_cases h2 : s.overAfter (s.takeRounds (dwellRounds s .middle) (s.takeRounds (dwellRounds s .early) fun _ => [])) = true
      · rw [if_pos h2]
        exact h2
      · rw [if_neg h2]
        by_cases h3 : (s.capHit && s.engine.applying.isNone && Config.freeCapFirst s.free) = true
        · rw [if_pos h3]
          simp only [Bool.and_eq_true, Option.isNone_iff_eq_none] at h3
          exact h3.1
        · rw [if_neg h3]
          by_cases h4 : s.overAfter (s.takeRounds (dwellRounds s .late)
              (s.takeRounds (dwellRounds s .middle) (s.takeRounds (dwellRounds s .early) fun _ => []))) = true
          · rw [if_pos h4]
            exact h4
          · rw [if_neg h4]
            exact Bool.eq_false_iff.2 h4
  · rw [if_neg h0]
    simp only [State.tickMixes, Bool.or_eq_true, not_or, Bool.not_eq_true] at h0
    simp [State.overAfter, h0.1.1]

end Sys2Proof.Machine
end

