-- ==== Sys2Proof/Laws/Keeps.lean ====
section
/-! SUPPORT. What an event keeps of the queue, the pending set and the pins, whatever it does. -/

namespace Sys2Proof.Machine

/-! ### What every event keeps -/

/-- What an event keeps: the rows that wait are as they were, each cause that was pending is pending still, and of the pins ATTN_N alone
may change (R126, R180, R182). -/
structure State.Keeps (s t : State) : Prop where
  pending : t.pending = s.pending
  attn : ∀ i, s.attn.getLsbD i = true → t.attn.getLsbD i = true
  pins : t.pins = { s.pins with attnLow := t.pins.attnLow }

theorem State.Keeps.of_eq {s t : State} (hp : t.pending = s.pending) (ha : t.attn = s.attn) (hn : t.pins = s.pins) : s.Keeps t :=
  ⟨hp, fun i h => by rw [ha]; exact h, by rw [hn]⟩

theorem State.Keeps.trans {s t u : State} (h1 : s.Keeps t) (h2 : t.Keeps u) : s.Keeps u :=
  ⟨h2.pending.trans h1.pending, fun i h => h2.attn i (h1.attn i h), by rw [h2.pins, h1.pins]⟩

theorem State.Keeps.before {s t u : State} (h : t.Keeps u) (hp : t.pending = s.pending) (ha : t.attn = s.attn)
    (hn : t.pins = s.pins) : s.Keeps u := (State.Keeps.of_eq hp ha hn).trans h

theorem raiseCause_keeps (c : Cause) (s : State) : s.Keeps (raiseCause c s) :=
  ⟨rfl, fun i h => by
    show (s.attn ||| (c.bit &&& ~~~ s.lateCauses)).getLsbD i = true
    rw [BitVec.getLsbD_or, h, Bool.true_or], rfl⟩

theorem ArrayOutcome.keeps {f : Nat → Cell → CellOut} {s t : State} (h : ArrayOutcome f s t) : s.Keeps t := by
  refine ⟨by rw [h.kept], fun i hi => ?_, by conv_lhs => rw [h.kept]⟩
  obtain ⟨-, -, -, e, -, -, -, -, -, a, -⟩ := h.desc
  cases e
  · simp only [Bool.false_eq_true, if_false] at a
    rw [a.1]
    exact hi
  · simp only [if_true] at a
    obtain ⟨now, -, -, -, h1, -⟩ := a
    rw [h1, BitVec.getLsbD_or, hi, Bool.true_or]

theorem openWindowAs_keeps (cause : OpenCause) (s : State) : s.Keeps (openWindowAs cause s) := by
  unfold openWindowAs
  exact (arrayEvent_outcome _ _).keeps.before rfl rfl rfl

theorem dealtWith_keeps (s : State) : s.Keeps (dealtWith s) := by
  unfold dealtWith
  split
  · exact openWindowAs_keeps .cycle s
  · exact .of_eq rfl rfl rfl

theorem swap_keeps (d : Descriptor) (s : State) : s.Keeps (swap d s) := by
  unfold swap
  exact (dealtWith_keeps _).before rfl rfl rfl

theorem discardWindow_keeps (d : Descriptor) (s : State) : s.Keeps (discardWindow d s) := by
  unfold discardWindow
  exact ((raiseCause_keeps .overrun _).trans (dealtWith_keeps _)).before rfl rfl rfl

theorem handOff_keeps (d : Descriptor) (s : State) : s.Keeps (handOff d s) := by
  unfold handOff
  split
  · exact .of_eq rfl rfl rfl
  · split
    · exact swap_keeps d s
    · split
      · exact discardWindow_keeps d s
      · exact (raiseCause_keeps .overrun _).before rfl rfl rfl

theorem endSettling_keeps (s : State) : s.Keeps (endSettling s) := by
  unfold endSettling
  split
  · exact (dealtWith_keeps (comeToRest s)).before rfl rfl rfl
  · exact (handOff_keeps _ (comeToRest s)).before rfl rfl rfl

theorem capExpires_keeps (s : State) : s.Keeps (capExpires s) := by
  unfold capExpires
  exact (raiseCause_keeps .truncated _).before rfl rfl rfl

/-- After an expiry of the settle cap settling may end, or an application is awaited. -/
theorem capExpiry_after (s : State) (h : s.capDue = true) : (capExpires s).Keeps (capExpiry s) := by
  unfold capExpiry
  rw [if_pos h]
  split
  · exact (endSettling_keeps (truncateCounting (capExpires s))).before rfl rfl rfl
  · exact .of_eq rfl rfl rfl

theorem capExpiry_keeps (s : State) : s.Keeps (capExpiry s) := by
  by_cases h : s.capDue = true
  · exact (capExpires_keeps s).trans (capExpiry_after s h)
  · unfold capExpiry
    rw [if_neg h]
    exact .of_eq rfl rfl rfl

theorem endAtTick_keeps (draw : Nat) (s : State) : s.Keeps (endAtTick draw s) := by
  unfold endAtTick
  split
  · exact capExpiry_keeps s
  · exact endSettling_keeps s

/-! ### The ticks, the holds, and one TBCLK period -/

theorem considerEnd_keeps (s : State) : s.Keeps (considerEnd s) := by
  unfold considerEnd
  split
  · exact endSettling_keeps s
  · exact .of_eq rfl rfl rfl

theorem onsetEvent_keeps (f : Nat → Cell → CellOut) (s : State) : s.Keeps (onsetEvent f s) := (onsetEvent_outcome f s).keeps

theorem dwellTaken_keeps (s : State) : s.Keeps (dwellTaken s) := (onsetEvent_keeps _ _).before rfl rfl rfl

theorem dwellDelivered_keeps (s : State) : s.Keeps (dwellDelivered s) := by
  refine (dwellTaken_keeps s).trans ?_
  unfold dwellDelivered
  split
  · exact .of_eq rfl rfl rfl
  · exact endSettling_keeps _
  · exact endAtTick_keeps _ _
  · exact capExpiry_keeps _

theorem dwellTick_keeps (s : State) : s.Keeps (dwellTick s) := by
  have h := (capExpiry_keeps s.dwellRestarted).before (s := s) rfl rfl rfl
  unfold dwellTick
  simp only
  split
  · split
    · exact .of_eq rfl rfl rfl
    · split
      · split
        · exact h.trans (dwellDelivered_keeps _)
        · exact h
      · exact (dwellDelivered_keeps s.dwellRestarted).before rfl rfl rfl
  · exact .of_eq rfl rfl rfl

theorem decayDelivered_keeps (s : State) : s.Keeps (decayDelivered s) := by
  unfold decayDelivered
  simp only
  split
  · exact (onsetEvent_keeps _ _).trans (endSettling_keeps _)
  · exact onsetEvent_keeps _ _

theorem decayTick_keeps (s : State) : s.Keeps (decayTick s) := by
  unfold decayTick
  simp only
  split
  · split
    · exact .of_eq rfl rfl rfl
    · split
      · exact .of_eq rfl rfl rfl
      · split
        · exact (onsetEvent_keeps _ s.decayRestarted).before rfl rfl rfl
        · exact (decayDelivered_keeps s.decayRestarted).before rfl rfl rfl
  · exact .of_eq rfl rfl rfl

theorem shedNotice_keeps (s : State) : s.Keeps (shedNotice s) := by
  unfold shedNotice
  simp only
  split
  · exact (raiseCause_keeps .shed _).before rfl rfl rfl
  · exact .of_eq rfl rfl rfl

theorem openGate_keeps (ch : Channel) (s : State) : s.Keeps (openGate ch s) := by
  unfold openGate
  split
  · exact .of_eq rfl rfl rfl
  · cases ch <;> exact .of_eq rfl rfl rfl

theorem shedHold_keeps (ch : Channel) (s : State) : s.Keeps (shedHold ch s) := by
  unfold shedHold
  split
  · exact .of_eq rfl rfl rfl
  · exact (openGate_keeps ch s).trans (shedNotice_keeps _)

theorem expireHold_keeps (ch : Channel) (s : State) : s.Keeps (expireHold ch s) := by
  unfold expireHold
  split
  · exact .of_eq rfl rfl rfl
  · exact (openGate_keeps ch s).trans ((raiseCause_keeps .release _).before rfl rfl rfl)

theorem shutWindow_keeps (cause : CloseCause) (s : State) : s.Keeps (shutWindow cause s) :=
  ((shedHold_keeps .read (beginClose cause s)).trans (shedHold_keeps .write _)).before rfl rfl rfl

theorem onsetDelivered_keeps (s : State) : s.Keeps (onsetDelivered s) := by
  unfold onsetDelivered
  rw [foldl_takeReport]
  exact .of_eq rfl rfl rfl

theorem closeAtLength_keeps (s : State) : s.Keeps (closeAtLength s) := by
  unfold closeAtLength
  split
  · exact shutWindow_keeps .timer s
  · exact (shutWindow_keeps .timer s).trans (considerEnd_keeps _)

theorem onsetTick_keeps (s : State) : s.Keeps (onsetTick s) := by
  unfold onsetTick
  simp only
  split
  · refine State.Keeps.before ?_ rfl rfl rfl (t := s.onsetRestarted)
    split
    · split
      · exact (onsetDelivered_keeps _).trans (closeAtLength_keeps _)
      · exact onsetDelivered_keeps _
    · exact .of_eq rfl rfl rfl
  · exact .of_eq rfl rfl rfl

theorem happenIn_keeps (n : Nat) (s : State) (d : Due) : s.Keeps (happenIn n s d) := by
  unfold happenIn
  split
  · cases d with
    | decay => exact decayTick_keeps s
    | dwell => exact dwellTick_keeps s
    | onset => exact onsetTick_keeps s
    | hold ch => exact expireHold_keeps ch s
  · exact .of_eq rfl rfl rfl

/-- What an event keeps that stands before other rows than those that wait. -/
theorem State.Keeps.behind {s t : State} {q : List Instr} (h : ({ s with pending := q } : State).Keeps t) :
    s.Keeps { t with pending := s.pending } := ⟨rfl, h.attn, h.pins⟩

theorem happenAll_keeps (n : Nat) (l : List Due) (s : State) : s.Keeps { happenAll n l s with pending := s.pending } := by
  induction l generalizing s with
  | nil => exact .of_eq rfl rfl rfl
  | cons d l ih =>
    set u := happenIn n { s with pending := l.map Due.row } d
    have h : s.Keeps { u with pending := s.pending } := (happenIn_keeps n { s with pending := l.map Due.row } d).behind
    have h1 : (happenAll n l u).pins = { u.pins with attnLow := (happenAll n l u).pins.attnLow } := (ih u).pins
    have h2 : u.pins = { s.pins with attnLow := u.pins.attnLow } := h.pins
    exact ⟨rfl, fun i hi => (ih u).attn i (h.attn i hi), h1.trans (by rw [h2]; rfl)⟩

/-- In a TBCLK period that begins without a delivery the frame port rests: FSTB and FSOF deasserted, FD as it was (R126, R127). -/
theorem tbclkPeriod_port (s : State) :
    (tbclkPeriod s).pins = { s.pins with fstb := false, fsof := false, attnLow := (tbclkPeriod s).pins.attnLow } := by
  have h : (countPeriod s).Keeps (tbclkPeriod s) := by
    unfold tbclkPeriod
    split
    · exact .of_eq rfl rfl rfl
    · rename_i d l _
      have ha := happenAll_keeps s.ctl.nextFrame (anyOrder (2 * s.free) (d :: l)) { countPeriod s with free := s.free + 1 }
      have hc := (capExpiry_keeps { happenAll s.ctl.nextFrame (anyOrder (2 * s.free) (d :: l))
        { countPeriod s with free := s.free + 1 } with pending := [] })
      exact (ha.before (s := countPeriod s) rfl rfl rfl).trans ⟨rfl, hc.attn, hc.pins⟩
  rw [h.pins]
  rfl

end Sys2Proof.Machine
end

