-- ==== Sys2Proof/Laws/Events.lean ====
section
/-! SUPPORT. No event reads or writes the port: `eventEffect_withPort`, and what it needs for each operation of an event. -/

namespace Sys2Proof.Machine

@[simp] theorem withPort_hold (s : State) (p : Port) (ch : Channel) : (s.withPort p).hold ch = s.hold ch := by cases ch <;> rfl

/-- A choice between two operations that keep the port. -/
theorem ite_withPort {c : Prop} [Decidable c] {a b a' b' : State} {p : Port} (ha : a' = a.withPort p) (hb : b' = b.withPort p) :
    (if c then a' else b') = (if c then a else b).withPort p := by
  rw [ha, hb, withPort_ite]

theorem setHold_withPort (ch : Channel) (h : Option Hold) (s : State) (p : Port) :
    setHold ch h (s.withPort p) = (setHold ch h s).withPort p := by cases ch <;> rfl

theorem passHandshake_withPort (ch : Channel) (hs : Handshake) (s : State) (p : Port) :
    passHandshake ch hs (s.withPort p) = (passHandshake ch hs s).withPort p := by cases ch <;> rfl

theorem releaseNotice_withPort (s : State) (p : Port) : releaseNotice (s.withPort p) = (releaseNotice s).withPort p := rfl

theorem expireHold_withPort (ch : Channel) (s : State) (p : Port) : expireHold ch (s.withPort p) = (expireHold ch s).withPort p := by
  unfold expireHold
  simp only [withPort_hold, openGate_withPort, releaseNotice_withPort]
  cases s.hold ch <;> rfl

theorem withdrawHold_withPort (ch : Channel) (s : State) (p : Port) :
    withdrawHold ch (s.withPort p) = (withdrawHold ch s).withPort p := by
  unfold withdrawHold
  simp only [withPort_hold, setHold_withPort, releaseNotice_withPort]
  cases s.hold ch <;> rfl

theorem grant_withPort (ch : Channel) (r : Record) (hs : Handshake) (s : State) (p : Port) :
    grant ch r hs (s.withPort p) = (grant ch r hs s).withPort p := by cases ch <;> rfl

theorem noSlot_withPort (ch : Channel) (r : Record) (hs : Handshake) (s : State) (p : Port) :
    noSlot ch r hs (s.withPort p) = (noSlot ch r hs s).withPort p := by
  unfold noSlot
  simp only [withPort_params, passHandshake_withPort, shedNotice_withPort, setHold_withPort]
  cases s.params.capturePolicy <;> rfl

theorem request_withPort (ch : Channel) (r : Record) (hs : Handshake) (s : State) (p : Port) :
    request ch r hs (s.withPort p) = (request ch r hs s).withPort p := by
  unfold request
  simp only [grant_withPort, noSlot_withPort, withPort_ite, withPort_queue]

theorem offerSlot_withPort (s : State) (p : Port) : offerSlot (s.withPort p) = (offerSlot s).withPort p := by
  unfold offerSlot
  simp only [withPort_ctl, withPort_queue, withPort_hold, grant_withPort, withPort_ite]
  split
  · cases s.hold (otherChannel s.queue.history) with
    | some h => rfl
    | none => cases s.hold s.queue.history <;> rfl
  · rfl

theorem classify_withPort (ch : Channel) (hs : Handshake) (s : State) (p : Port) :
    classify ch hs (s.withPort p) = ((classify ch hs s).1.withPort p, (classify ch hs s).2) := by
  have step (c : Prop) [Decidable c] (a b : State × Option Record) :
      (if c then (a.1.withPort p, a.2) else (b.1.withPort p, b.2)) =
        ((if c then a else b).1.withPort p, (if c then a else b).2) := by split <;> rfl
  unfold classify
  rw [← step, ← step]
  rfl

theorem presentOn_withPort (ch : Channel) (o : Option Handshake) (s : State) (p : Port) :
    presentOn ch o (s.withPort p) = ((presentOn ch o s).1.withPort p, (presentOn ch o s).2) := by
  unfold presentOn
  cases o with
  | none => rfl
  | some hs =>
    simp only [withPort_hold, withPort_ctl, classify_withPort, passHandshake_withPort]
    split
    · rfl
    · split
      · rcases classify ch hs s with ⟨t, _ | r⟩ <;> simp only [passHandshake_withPort]
      · rfl

theorem requestIf_withPort (ch : Channel) (q : Option (Record × Handshake)) (s : State) (p : Port) :
    requestIf ch q (s.withPort p) = (requestIf ch q s).withPort p := by
  unfold requestIf
  cases q with
  | none => rfl
  | some q => exact request_withPort ch q.1 q.2 s p

theorem arbitrate_withPort (rd wr : Option (Record × Handshake)) (s : State) (p : Port) :
    arbitrate rd wr (s.withPort p) = (arbitrate rd wr s).withPort p := by
  unfold arbitrate
  simp only [withPort_queue, requestIf_withPort]
  cases s.queue.history <;> rfl

theorem truncateCounting_withPort (s : State) (p : Port) : truncateCounting (s.withPort p) = (truncateCounting s).withPort p := rfl

@[simp] theorem withPort_capDue (s : State) (p : Port) : (s.withPort p).capDue = s.capDue := rfl
@[simp] theorem withPort_capHit (s : State) (p : Port) : (s.withPort p).capHit = s.capHit := rfl
@[simp] theorem withPort_mayEnd (s : State) (p : Port) : (s.withPort p).mayEnd = s.mayEnd := rfl
@[simp] theorem withPort_measuring (s : State) (p : Port) : (s.withPort p).measuring = s.measuring := rfl
@[simp] theorem withPort_drained (s : State) (p : Port) : (s.withPort p).drained = s.drained := rfl
@[simp] theorem withPort_settleTicked (s : State) (p : Port) : (s.withPort p).settleTicked = s.settleTicked := rfl
@[simp] theorem withPort_tickMixes (s : State) (p : Port) : (s.withPort p).tickMixes = s.tickMixes := rfl
@[simp] theorem withPort_dwellBehind (s : State) (p : Port) : (s.withPort p).dwellBehind = s.dwellBehind := rfl
@[simp] theorem withPort_timerNext (s : State) (p : Port) : (s.withPort p).timerNext = s.timerNext := rfl
@[simp] theorem withPort_timerAtLength (s : State) (p : Port) : (s.withPort p).timerAtLength = s.timerAtLength := rfl

theorem capExpiry_withPort (s : State) (p : Port) : capExpiry (s.withPort p) = (capExpiry s).withPort p := by
  unfold capExpiry
  exact ite_withPort (ite_withPort (by rw [← endSettling_withPort]; rfl) rfl) rfl

/-- The cells take a tick without the port, where no write comes together with it. -/
theorem partsAtCell_withPort (s : State) (p : Port) (h : s.paramsBehind = none) (h' : (s.withPort p).paramsBehind = none)
    (parts : List TickPart) (i : Nat) (c : Cell) : (s.withPort p).partsAtCell parts i c = s.partsAtCell parts i c := by
  have one (part : TickPart) (c : Cell) : (s.withPort p).partAtCell part i c = s.partAtCell part i c := by
    cases part with
    | decay => simp only [State.partAtCell, tableAt_none _ h, tableAt_none _ h']; rfl
    | _ => rfl
  induction parts generalizing c with
  | nil => rfl
  | cons part parts ih => simp only [State.partsAtCell, one, ih]

theorem overAfter_withPort (s : State) (p : Port) (h : s.paramsBehind = none) (h' : (s.withPort p).paramsBehind = none)
    (parts : Nat → List TickPart) : (s.withPort p).overAfter parts = s.overAfter parts := by
  unfold State.overAfter
  simp only [partsAtCell_withPort s p h h']
  rfl

theorem takeRounds_withPort (s : State) (p : Port) (h : s.paramsBehind = none) (h' : (s.withPort p).paramsBehind = none)
    (l : List (Nat → Option TickPart)) (parts : Nat → List TickPart) : (s.withPort p).takeRounds l parts = s.takeRounds l parts := by
  induction l generalizing parts with
  | nil => rfl
  | cons r l ih => simp only [State.takeRounds, overAfter_withPort s p h h', ih]

theorem tickAtCell_withPort (s : State) (p : Port) (h : s.paramsBehind = none) (h' : (s.withPort p).paramsBehind = none)
    (parts : Nat → List TickPart) (late : Bool) : (s.withPort p).tickAtCell parts late = s.tickAtCell parts late := by
  funext i c
  unfold State.tickAtCell
  rw [partsAtCell_withPort s p h h']
  rfl

theorem decayParts_withPort (s : State) (p : Port) (h : s.paramsBehind = none) (h' : (s.withPort p).paramsBehind = none) :
    decayParts (s.withPort p) = decayParts s := takeRounds_withPort s p h h' (decayRounds s) _

theorem auxEvent_withPort (n : Fin 4) (f : Nat → Cell → CellOut) (s : State) (p : Port) :
    auxEvent n f (s.withPort p) = (auxEvent n f s).withPort p := onsetEvent_withPort _ s p

theorem setLine_withPort (n : Fin 4) (up : Bool) (s : State) (p : Port) :
    setLine n up (s.withPort p) = (setLine n up s).withPort p := rfl

theorem applyRecord_withPort (r : Record) (s : State) (p : Port) :
    applyRecord r (s.withPort p) = (applyRecord r s).withPort p := by
  unfold applyRecord
  rw [← onsetEvent_withPort]
  rfl

theorem onsetDelivered_withPort (s : State) (p : Port) : onsetDelivered (s.withPort p) = (onsetDelivered s).withPort p := by
  unfold onsetDelivered
  simp only [foldl_takeReport]
  rfl

/-- Whether a row brings rest does not hang on the port, but for a close that is asked for there. -/
theorem restsAt_withPort (c : Instr) (s : State) (p : Port) (hc : c ≠ .closeWindow []) : restsAt c (s.withPort p) = restsAt c s := by
  have shut (o : CloseCause) (t : State) : (shutWindow o (t.withPort p)).mayEnd = (shutWindow o t).mayEnd := by
    rw [shutWindow_withPort, withPort_mayEnd]
  cases c <;> try rfl
  case closeWindow args => cases args with
    | nil => exact absurd rfl hc
    | cons _ _ => rfl
  case winNRisingEdge => exact congrArg (_ && ·) (shut .line { s with pins := { s.pins with winLow := false } })
  case auxDeasserted n => exact congrArg (_ && ·) ((congrArg State.mayEnd (auxEvent_withPort n _ (setLine n false s) p)).trans rfl)
  case recordApplied =>
    unfold restsAt
    simp only [withPort_engine]
    cases s.engine.applying with
    | none => rfl
    | some r =>
      have h := congrArg State.mayEnd (applyRecord_withPort r { s with engine := { s.engine with applying := none } } p)
      exact congrArg (fun b => _ && (_ || b)) h
  all_goals
    have h : onsetDelivered (s.onsetRestarted.withPort p) = (onsetDelivered s.onsetRestarted).withPort p := onsetDelivered_withPort _ p
    have e := shut .timer (onsetDelivered s.onsetRestarted)
    unfold restsAt
    show (_ && _ && (onsetDelivered (s.onsetRestarted.withPort p)).timerAtLength && !((onsetDelivered (s.onsetRestarted.withPort p)).ctl.cycleOn
      && (onsetDelivered (s.onsetRestarted.withPort p)).pending.head?.any findsSettling) &&
      (shutWindow .timer (onsetDelivered (s.onsetRestarted.withPort p))).mayEnd) = _
    rw [h, e]
    rfl

theorem restBehind_withPort (s : State) (p : Port) (hc : s.pending.head? ≠ some (.closeWindow [])) :
    (s.withPort p).restBehind = s.restBehind := by
  unfold State.restBehind
  rw [withPort_pending]
  cases h : s.pending with
  | nil => rfl
  | cons c rest => exact restsAt_withPort c { s with pending := rest } p (by rintro rfl; exact hc (by rw [h]; rfl))

/-- With no SET_PARAM, INJECT or CLOSE_WINDOW directly behind, a decay tick does not read the port. -/
theorem decayTick_withPort (s : State) (p : Port) (hq : ∀ args, s.pending.head? ≠ some (.setParam args))
    (hi : s.pending.head? ≠ some (.inject [])) (hc : s.pending.head? ≠ some (.closeWindow [])) :
    decayTick (s.withPort p) = (decayTick s).withPort p := by
  have h : s.paramsBehind = none := paramsBehind_none s hq
  have h' : (s.withPort p).paramsBehind = none := paramsBehind_none (s.withPort p) hq
  have h1 : s.decayRestarted.paramsBehind = none := h
  have h2 : (s.decayRestarted.withPort p).paramsBehind = none := h'
  have hj : (s.withPort p).decayJoins = s.decayJoins := by simp [State.decayJoins, State.injectBehind, hi]
  have hd : decayDelivered (s.decayRestarted.withPort p) = (decayDelivered s.decayRestarted).withPort p := by
    unfold decayDelivered
    rw [decayParts_withPort _ _ h1 h2, overAfter_withPort _ _ h1 h2, tickAtCell_withPort _ _ h1 h2, onsetEvent_withPort]
    exact ite_withPort (endSettling_withPort _ p) rfl
  have hp : decayPartly (s.decayRestarted.withPort p) = (decayPartly s.decayRestarted).withPort p := by
    unfold decayPartly
    rw [tickAtCell_withPort _ _ h1 h2, onsetEvent_withPort]
    rfl
  have hcut : (s.withPort p).decayCut = s.decayCut := by
    show (_ && _ && !(s.decayRestarted.withPort p).overAfter _ && (decayPartly (s.decayRestarted.withPort p)).restBehind) = _
    rw [hp, overAfter_withPort _ _ h1 h2, restBehind_withPort _ _ (by
      rw [show (decayPartly s.decayRestarted).pending = s.pending from (onsetEvent_keeps _ s.decayRestarted).pending]; exact hc)]
    rfl
  unfold decayTick
  rw [hj, hcut]
  exact ite_withPort (ite_withPort rfl (ite_withPort rfl (ite_withPort hp hd))) rfl

theorem startPulse_withPort (s : State) (p : Port) : startPulse (s.withPort p) = (startPulse s).withPort p := by
  have h : (s.withPort p).atPulseStart.tickAtCell (startParts (s.withPort p)) false = s.atPulseStart.tickAtCell (startParts s) false :=
    tickAtCell_withPort s.atPulseStart p (paramsBehind_none _ (by simp [State.atPulseStart])) (paramsBehind_none _ (by simp [State.atPulseStart])) _ _
  unfold startPulse
  rw [h, ← onsetEvent_withPort]
  rfl

theorem endAtTick_withPort (draw : Nat) (s : State) (p : Port) : endAtTick draw (s.withPort p) = (endAtTick draw s).withPort p := by
  unfold endAtTick
  exact ite_withPort (capExpiry_withPort s p) (endSettling_withPort s p)

theorem dwellReached_withPort (s : State) (p : Port) (h : s.paramsBehind = none) (h' : (s.withPort p).paramsBehind = none) :
    dwellReached (s.withPort p) = dwellReached s := by
  unfold dwellReached
  simp only [takeRounds_withPort s p h h', overAfter_withPort s p h h']
  rfl

theorem dwellTakenAt_withPort (s : State) (p : Port) (h : s.paramsBehind = none) (h' : (s.withPort p).paramsBehind = none) :
    dwellTakenAt (s.withPort p) = dwellTakenAt s := by
  unfold dwellTakenAt
  rw [dwellReached_withPort s p h h', tickAtCell_withPort s p h h']

theorem dwellTaken_withPort (s : State) (p : Port) (h : s.paramsBehind = none) (h' : (s.withPort p).paramsBehind = none) :
    dwellTaken (s.withPort p) = (dwellTaken s).withPort p := by
  unfold dwellTaken
  rw [dwellTakenAt_withPort s p h h', dwellReached_withPort s p h h', ← onsetEvent_withPort]
  rfl

theorem dwellDelivered_withPort (s : State) (p : Port) (h : s.paramsBehind = none) (h' : (s.withPort p).paramsBehind = none) :
    dwellDelivered (s.withPort p) = (dwellDelivered s).withPort p := by
  unfold dwellDelivered
  rw [dwellReached_withPort s p h h', dwellTaken_withPort s p h h']
  cases (dwellReached s).2 with
  | goesOn => rfl
  | ends => exact endSettling_withPort _ p
  | endsCounted => exact endAtTick_withPort _ _ p
  | expires => exact capExpiry_withPort _ p

theorem dwellTick_withPort (s : State) (p : Port) (hq : ∀ args, s.pending.head? ≠ some (.setParam args)) :
    dwellTick (s.withPort p) = (dwellTick s).withPort p := by
  have delivered (u : State) (hu : u.pending = s.pending) : dwellDelivered (u.withPort p) = (dwellDelivered u).withPort p :=
    dwellDelivered_withPort u p (paramsBehind_none u (by rw [hu]; exact hq))
      (paramsBehind_none (u.withPort p) (by rw [withPort_pending, hu]; exact hq))
  have hc : (capExpiry s.dwellRestarted).pending = s.pending := (capExpiry_keeps s.dwellRestarted).pending
  have hcap : capExpiry (s.dwellRestarted.withPort p) = (capExpiry s.dwellRestarted).withPort p := capExpiry_withPort _ p
  have expired : (if (capExpiry (s.dwellRestarted.withPort p)).ctl.state = .settling
      then dwellDelivered (capExpiry (s.dwellRestarted.withPort p)) else capExpiry (s.dwellRestarted.withPort p)) =
        (if (capExpiry s.dwellRestarted).ctl.state = .settling then dwellDelivered (capExpiry s.dwellRestarted)
          else capExpiry s.dwellRestarted).withPort p := by
    rw [hcap]
    exact ite_withPort (delivered _ hc) rfl
  unfold dwellTick
  exact ite_withPort (ite_withPort rfl (ite_withPort expired (delivered s.dwellRestarted rfl))) rfl

theorem closeAtLength_withPort (s : State) (p : Port) : closeAtLength (s.withPort p) = (closeAtLength s).withPort p := by
  unfold closeAtLength
  exact ite_withPort (shutWindow_withPort .timer s p) (closeWindowAs_withPort .timer s p)

theorem onsetTick_withPort (s : State) (p : Port) : onsetTick (s.withPort p) = (onsetTick s).withPort p := by
  have after (u u' : State) (hu : u' = u.withPort p) :
      (if u'.timerAtLength then closeAtLength u' else u') = (if u.timerAtLength then closeAtLength u else u).withPort p := by
    subst hu
    exact ite_withPort (closeAtLength_withPort u p) rfl
  unfold onsetTick
  exact ite_withPort (ite_withPort (after _ _ (by rw [← onsetDelivered_withPort]; rfl)) rfl) rfl

theorem happenIn_withPort (n : Nat) (s : State) (d : Due) (p : Port) (hq : ∀ args, s.pending.head? ≠ some (.setParam args))
    (hi : s.pending.head? ≠ some (.inject [])) (hc : s.pending.head? ≠ some (.closeWindow [])) :
    happenIn n (s.withPort p) d = (happenIn n s d).withPort p := by
  have hd : isDue (s.withPort p) d = isDue s d := by
    cases d with
    | hold ch => simp only [isDue, withPort_hold]
    | _ => rfl
  have hh : happen d (s.withPort p) = (happen d s).withPort p := by
    cases d with
    | decay => exact decayTick_withPort s p hq hi hc
    | dwell => exact dwellTick_withPort s p hq
    | onset => exact onsetTick_withPort s p
    | hold ch => exact expireHold_withPort ch s p
  unfold happenIn
  rw [withPort_ctl, hd]
  exact ite_withPort hh rfl

theorem happenAll_withPort (n : Nat) (l : List Due) (s : State) (p : Port) :
    happenAll n l (s.withPort p) = (happenAll n l s).withPort p := by
  induction l generalizing s with
  | nil => rfl
  | cons d l ih =>
    have h : happenIn n { s.withPort p with pending := l.map Due.row } d = (happenIn n { s with pending := l.map Due.row } d).withPort p :=
      happenIn_withPort n { s with pending := l.map Due.row } d p
        (fun args => by
          cases l with
          | nil => simp
          | cons e l => cases e <;> simp [Due.row])
        (by
          cases l with
          | nil => simp
          | cons e l => cases e <;> simp [Due.row])
        (by
          cases l with
          | nil => simp
          | cons e l => cases e <;> simp [Due.row])
    unfold happenAll
    rw [h, ih]

theorem tbclkPeriod_withPort (s : State) (p : Port) : tbclkPeriod (s.withPort p) = (tbclkPeriod s).withPort p := by
  have hd : dueNext (s.withPort p) = dueNext s := rfl
  unfold tbclkPeriod
  rw [hd]
  cases dueNext s with
  | nil => rfl
  | cons d l =>
    simp only
    have hf : happenAll (s.withPort p).ctl.nextFrame (anyOrder (2 * (s.withPort p).free) (d :: l))
        { countPeriod (s.withPort p) with free := (s.withPort p).free + 1 } =
          (happenAll s.ctl.nextFrame (anyOrder (2 * s.free) (d :: l)) { countPeriod s with free := s.free + 1 }).withPort p :=
      happenAll_withPort _ _ { countPeriod s with free := s.free + 1 } p
    rw [hf]
    exact congrArg (fun u : State => { u with pending := s.pending }) (capExpiry_withPort
      { happenAll s.ctl.nextFrame (anyOrder (2 * s.free) (d :: l)) { countPeriod s with free := s.free + 1 } with pending := [] } p)

theorem periodOfDelivery_withPort (s : State) (p : Port) : periodOfDelivery (s.withPort p) = (periodOfDelivery s).withPort p := by
  unfold periodOfDelivery
  refine ite_withPort ?_ rfl
  have h : capExpiry { s.withPort p with pending := [] } = (capExpiry { s with pending := [] }).withPort p :=
    capExpiry_withPort { s with pending := [] } p
  rw [h, tbclkPeriod_withPort]
  rfl

theorem deliverByte_withPort (s : State) (p : Port) : deliverByte (s.withPort p) = (deliverByte s).withPort p := by
  have hnotice (t : State) : readoutNotice (t.withPort p) = (readoutNotice t).withPort p := by
    unfold readoutNotice
    refine ite_withPort ?_ rfl
    rw [withPort_ctl]
    cases t.ctl.waiting with
    | none => exact dealtWith_withPort { t with ctl := { t.ctl with frozen := none } } p
    | some d => exact swap_withPort d { t with ctl := { t.ctl with frozen := none } } p
  have hdone (t : State) : readoutComplete (t.withPort p) = (readoutComplete t).withPort p := by
    unfold readoutComplete
    rw [← hnotice]
    rfl
  have hdrive (f : Frame) (b : Byte) (t : State) : drivePort f b (t.withPort p) = (drivePort f b t).withPort p := rfl
  have hto (f : Frame) (q : Position) (t : State) : frameTo f q (t.withPort p) = (frameTo f q t).withPort p := rfl
  have hkind (u : State) (f : Frame) : decideKind (u.withPort p) f = decideKind u f := rfl
  have hbyte (u : State) (f : Frame) : nextByte (u.withPort p) f = nextByte u f := rfl
  unfold deliverByte
  rw [periodOfDelivery_withPort]
  simp only [withPort_readout]
  cases (periodOfDelivery s).readout.frame with
  | none => rfl
  | some f =>
    simp only [hkind]
    unfold deliver
    simp only [hbyte, hdrive, hto, hdone, clearBanks_withPort]
    cases (decideKind (periodOfDelivery s) f).advance <;> rfl

/-- No event reads or writes the port; with the row itself directly behind the request, no write comes together with it. -/
theorem eventEffect_withPort (c : Instr) (s : State) (p : Port) (hq : s.pending.head? = some c) :
    eventEffect c (s.withPort p) = (eventEffect c s).map fun t => t.withPort p := by
  have ite (c : Prop) [Decidable c] (a b a' b' : State) (ha : a' = a.withPort p) (hb : b' = b.withPort p) :
      Result.next? (if c then .next a' else .next b') =
        (Result.next? (if c then .next a else .next b)).map fun t => t.withPort p := by
    subst ha hb
    split <;> rfl
  cases c <;> simp only [eventEffect, Option.map_none]
  case aresetNAsserted => simp [execAresetNAsserted, withdrawHold_withPort, Result.next?]
  case handshakePresented rd wr =>
    simp [execHandshakePresented, presentOn_withPort, arbitrate_withPort, considerEnd_withPort, Result.next?]
  case holdTimerExpiry ch => simp [execHoldTimerExpiry, expireHold_withPort, Result.next?]
  case recordTake =>
    unfold execRecordTake
    rw [withPort_queue]
    cases s.queue.records with
    | nil => rfl
    | cons r rs => exact ite _ _ _ _ _ (by rw [← offerSlot_withPort]; rfl) rfl
  case recordApplied =>
    unfold execRecordApplied
    rw [withPort_engine]
    cases s.engine.applying with
    | none => rfl
    | some r =>
      have h := applyRecord_withPort r { s with engine := { s.engine with applying := none } } p
      refine ite _ _ _ _ _ ?_ ?_
      · exact (congrArg (fun t => endSettling (truncateCounting t)) h).trans (by rw [← endSettling_withPort]; rfl)
      · exact (congrArg considerEnd h).trans (considerEnd_withPort _ p)
  case decayTick =>
    simp [execDecayTick, decayTick_withPort s p (by simp [hq]) (by simp [hq]) (by simp [hq]), Result.next?]
  case dwellTick => simp [execDwellTick, dwellTick_withPort s p (by simp [hq]), Result.next?]
  case onsetTick => simp [execOnsetTick, onsetTick_withPort, Result.next?]
  case windowTimerExpiry => exact congrArg some (ite_withPort (onsetTick_withPort s p) rfl)
  case settleCapExpiry =>
    exact congrArg some ((congrArg capExpiry (ite_withPort (dwellTick_withPort s p (by simp [hq])) rfl)).trans (capExpiry_withPort _ p))
  case pulseEnd => exact congrArg some (ite_withPort (dwellTick_withPort s p (by simp [hq])) rfl)
  case winNFallingEdge =>
    unfold execWinNFallingEdge
    by_cases h : s.pins.rstLow = false ∧ s.params.winSrc = .line
    · simp only [withPort_pins, withPort_params, h, and_self, if_true]
      exact ite _ _ _ _ _ (by rw [← openWindowAs_withPort]; rfl) (by unfold missedOpen; rfl)
    · simp only [withPort_pins, withPort_params, h, if_false]
      rfl
  case winNRisingEdge =>
    exact ite _ _ _ _ _ (closeWindowAs_withPort .line { s with pins := { s.pins with winLow := false } } p) rfl
  case auxAsserted line => exact ite _ _ _ _ _ (auxEvent_withPort line _ (setLine line true s) p) rfl
  case auxDeasserted line =>
    refine ite _ _ _ _ _ ?_ rfl
    exact (congrArg considerEnd (auxEvent_withPort line _ (setLine line false s) p)).trans (considerEnd_withPort _ p)
  case frameByteDelivery =>
    rw [withPort_pins, deliverByte_withPort]
    cases s.pins.fstb <;> rfl
  case loadStep =>
    unfold execLoadStep
    rw [withPort_engine]
    cases s.engine.op with
    | loading b k bytes =>
      dsimp only
      cases (bytes[k]?).bind CellConfig.decode <;> rfl
    | _ => rfl
  case readStep =>
    unfold execReadStep
    rw [withPort_engine]
    cases s.engine.op <;> rfl

/-- The effect of an event is what its row answers. -/
theorem eventEffect_exec (c : Instr) (s : State) (h : IsEvent c s) : ∃ t, eventEffect c s = some t ∧ exec c s = .next t := by
  have rows (r : Result) (hr : r.next?.isSome = true) : ∃ t, r.next? = some t ∧ r = .next t := by
    cases r with
    | next t => exact ⟨t, rfl, rfl⟩
    | _ => cases hr
  cases c <;> simp only [IsEvent] at h
  case frameByteDelivery => exact ⟨deliverByte s, by simp [eventEffect, h], rfl⟩
  all_goals
    simp only [eventEffect, exec]
    refine rows _ ?_
    simp only [execAresetNAsserted, execHandshakePresented, execHoldTimerExpiry, execRecordTake, execRecordApplied, execDecayTick,
      execDwellTick, execOnsetTick, execWindowTimerExpiry, execSettleCapExpiry, execPulseEnd, execWinNFallingEdge,
      execWinNRisingEdge, execAuxAsserted, execAuxDeasserted, execLoadStep, execReadStep]
    repeat' split
    all_goals rfl

/-- A row that is no event has no effect of one. -/
theorem eventEffect_none (c : Instr) (s : State) (h : ¬ IsEvent c s) : eventEffect c s = none := by
  cases c
  case frameByteDelivery =>
    simp only [IsEvent, Bool.not_eq_false] at h
    simp [eventEffect, h]
  all_goals first | rfl | exact absurd trivial h

/-! ## A row that brings rest (`restsAt`) -/

/-- Settling has ended: the array is at rest outside OPEN and SETTLING, or the next window has opened. -/
theorem endSettling_rests (s : State) :
    (endSettling s).measuring = false ∨ ((endSettling s).ctl.state = .opened ∧ (endSettling s).ctl.nextFrame ≠ s.ctl.nextFrame) := by
  have dealt (t : State) (h : t.ctl.nextFrame = s.ctl.nextFrame) :
      (dealtWith t).measuring = false ∨ ((dealtWith t).ctl.state = .opened ∧ (dealtWith t).ctl.nextFrame ≠ s.ctl.nextFrame) := by
    unfold dealtWith
    split
    · refine .inr ?_
      unfold openWindowAs
      rw [(arrayEvent_outcome _ _).kept, ← h]
      exact ⟨rfl, by show (t.ctl.nextFrame + 1) % 2 ^ 32 ≠ _; omega⟩
    · exact .inl rfl
  unfold endSettling
  split
  · exact dealt _ rfl
  · unfold handOff
    split
    · exact .inl rfl
    · split
      · exact dealt _ rfl
      · split
        · exact dealt _ rfl
        · exact .inl rfl

theorem shutWindow_nextFrame (cause : CloseCause) (s : State) : (shutWindow cause s).ctl.nextFrame = s.ctl.nextFrame := by
  have shed (ch : Channel) (t : State) : (shedHold ch t).ctl.nextFrame = t.ctl.nextFrame := by
    unfold shedHold shedNotice openGate
    cases ch <;> (repeat' split) <;> rfl
  unfold shutWindow
  rw [shed, shed]
  rfl

/-- A row that `restsAt` names brings rest: it answers a state at rest, or one in which the next window has opened. -/
theorem restsAt_exec (c : Instr) (s : State) (h : restsAt c s = true) :
    ∃ v, exec c s = .next v ∧ (v.measuring = false ∨ v.ctl.nextFrame ≠ s.ctl.nextFrame) := by
  have ends (t : State) (ht : t.ctl.nextFrame = s.ctl.nextFrame) :
      (endSettling t).measuring = false ∨ (endSettling t).ctl.nextFrame ≠ s.ctl.nextFrame := ht ▸ (endSettling_rests t).imp_right And.right
  have considered (t : State) (hm : t.mayEnd = true) (ht : t.ctl.nextFrame = s.ctl.nextFrame) :
      (considerEnd t).measuring = false ∨ (considerEnd t).ctl.nextFrame ≠ s.ctl.nextFrame := by
    rw [considerEnd, if_pos hm]
    exact ends t ht
  have expires (t : State) (hd : t.capDue = true) (ha : t.engine.applying.isNone = true) (ht : t.ctl.nextFrame = s.ctl.nextFrame) :
      capExpiry t = endSettling (truncateCounting (capExpires t)) ∧ (truncateCounting (capExpires t)).ctl.nextFrame = s.ctl.nextFrame := by
    rw [capExpiry, if_pos hd, if_pos ha]
    exact ⟨rfl, ht⟩
  cases c <;> simp only [restsAt, Bool.false_eq_true] at h
  case closeWindow args =>
    cases args with
    | cons _ _ => cases h
    | nil =>
      simp only [Bool.and_eq_true, decide_eq_true_eq] at h
      obtain ⟨⟨⟨hr, hsrc⟩, ho⟩, hm⟩ := h
      set u := receiveRequest 0x31 [] (requestCheck 0x31 []) s
      set w := if s.ctl.cycleOn then stopCycle s else s with hw
      have hu : closeWindowAs .command (if u.ctl.cycleOn then stopCycle u else u) = (closeWindowAs .command w).withPort u.port := by
        rw [← closeWindowAs_withPort]
        exact congrArg _ (ite_withPort rfl rfl)
      have hn : w.ctl.nextFrame = s.ctl.nextFrame := by rw [hw]; split <;> rfl
      have hx : exec (.closeWindow []) s = .next (respond .ok [] ((closeWindowAs .command w).withPort u.port)) := by
        have hb : closeByState u = .ok ((closeWindowAs .command w).withPort u.port, []) := by
          unfold closeByState
          rw [show u.ctl.state = .opened from ho, hu]
        show Host.Outcome.next _ = _
        rw [if_pos hr, takeCommand, if_pos hr]
        simp only [List.length_nil, Nat.not_lt_zero, if_false, answerCloseWindow, ne_eq, not_true_eq_false]
        rw [if_neg (show ¬ u.params.winSrc = .line from hsrc), hb]
      exact ⟨_, hx, considered _ hm ((shutWindow_nextFrame ..).trans hn)⟩
  case winNRisingEdge =>
    simp only [Bool.and_eq_true, decide_eq_true_eq, Bool.not_eq_true'] at h
    obtain ⟨⟨⟨hr, hsrc⟩, ho⟩, hm⟩ := h
    exact ⟨_, if_pos ⟨hr, hsrc, ho⟩, considered _ hm (shutWindow_nextFrame ..)⟩
  case auxDeasserted n =>
    simp only [Bool.and_eq_true, decide_eq_true_eq] at h
    have hms : s.measuring = true := by simp [State.measuring, h.1]
    refine ⟨_, if_pos hms, considered _ h.2 ?_⟩
    unfold auxEvent
    rw [(onsetEvent_outcome _ _).kept]
    rfl
  case recordApplied =>
    cases ha : s.engine.applying with
    | none => rw [ha] at h; cases h
    | some r =>
      rw [ha] at h
      simp only [Bool.and_eq_true, decide_eq_true_eq, Bool.or_eq_true] at h
      have hn : (applyRecord r { s with engine := { s.engine with applying := none } }).ctl.nextFrame = s.ctl.nextFrame := by
        unfold applyRecord
        rw [(onsetEvent_outcome _ _).kept]
      by_cases hc : s.capFlag = true
      · exact ⟨endSettling (truncateCounting (applyRecord r { s with engine := { s.engine with applying := none } })),
          by simp [exec, execRecordApplied, ha, h.1, hc], ends _ hn⟩
      · exact ⟨considerEnd (applyRecord r { s with engine := { s.engine with applying := none } }),
          by simp [exec, execRecordApplied, ha, hc], considered _ (h.2.resolve_left hc) hn⟩
  case settleCapExpiry =>
    simp only [Bool.and_eq_true] at h
    obtain ⟨he, hn⟩ := expires s h.1 h.2 rfl
    exact ⟨_, by simp [exec, execSettleCapExpiry, h.1], he ▸ ends _ hn⟩
  case dwellTick =>
    simp only [Bool.and_eq_true] at h
    obtain ⟨he, hn⟩ := expires s.dwellRestarted h.1.2 h.2 rfl
    have hms : s.measuring = true := by
      have := h.1.2
      simp only [State.capDue, Bool.and_eq_true, decide_eq_true_eq] at this
      simp [State.measuring, this.1.1]
    have hr := endSettling_rests (truncateCounting (capExpires s.dwellRestarted))
    have hs : (endSettling (truncateCounting (capExpires s.dwellRestarted))).ctl.state ≠ .settling := by
      rcases hr with h | h
      · intro hx; simp [State.measuring, hx] at h
      · simp [h.1]
    refine ⟨_, by simp [exec, execDwellTick, dwellTick, h.1.1, h.1.2, hms, he, hs], ends _ hn⟩
  all_goals
    simp only [Bool.and_eq_true, Bool.not_eq_true'] at h
    obtain ⟨⟨⟨⟨hr, ht⟩, hl⟩, hc⟩, hm⟩ := h
    have ho : s.ctl.state = .opened := by
      simp only [State.timerNext, Bool.and_eq_true, decide_eq_true_eq] at ht
      exact ht.1.1
    have hx : onsetTick s = considerEnd (shutWindow .timer (onsetDelivered s.onsetRestarted)) := by
      unfold onsetTick closeAtLength
      simp [hr, ho, hl, hc]
      rfl
    refine ⟨onsetTick s, by simp [exec, execOnsetTick, execWindowTimerExpiry, ht], hx ▸ considered _ hm ((shutWindow_nextFrame ..).trans ?_)⟩
    unfold onsetDelivered
    simp only [foldl_takeReport]
    rfl

end Sys2Proof.Machine
end

