-- ==== Sys2Proof/Laws/Amid.lean ====
section
/-! SUPPORT. What a snapshot amid an event finds: `amid_found`, and that no reading amid an event is of the port. -/

namespace Sys2Proof.Machine

/-! ### The controller between two notices of one row -/

/-- A cause that is pending afterwards was pending before. -/
def State.NoNew (s k : State) (i : Nat) : Prop := k.attn.getLsbD i = true → s.attn.getLsbD i = true

theorem raiseCause_noNew (c : Cause) (s : State) (i : Nat) (h : c.bit.getLsbD i = false) : s.NoNew (raiseCause c s) i := by
  intro hi
  have hr : (raiseCause c s).attn = s.attn ||| (c.bit &&& ~~~ s.lateCauses) := rfl
  rw [hr, BitVec.getLsbD_or, BitVec.getLsbD_and, h] at hi
  simpa using hi

/-- A shed at the controller: counted, and no cause but SHED. -/
theorem shedNotice_told (s : State) :
    (shedNotice s).ctl = s.ctl.oneShed ∧ ∀ i, Cause.shed.bit.getLsbD i = false → s.NoNew (shedNotice s) i := by
  unfold shedNotice
  simp only
  split
  · exact ⟨rfl, fun i hi => raiseCause_noNew .shed _ i hi⟩
  · exact ⟨rfl, fun i _ h => h⟩

theorem shedNotice_path (s : State) : (shedNotice s).path = s.path := by
  unfold shedNotice
  simp only
  split <;> rfl

/-- A shed of a hold: nothing where no gate holds. -/
theorem shedHold_told (ch : Channel) (s : State) :
    (shedHold ch s).ctl = (if (s.hold ch).isSome then s.ctl.oneShed else s.ctl)
      ∧ ∀ i, Cause.shed.bit.getLsbD i = false → s.NoNew (shedHold ch s) i := by
  unfold shedHold
  cases h : s.hold ch with
  | none => exact ⟨rfl, fun _ _ h => h⟩
  | some g =>
    have hs := shedNotice_told (openGate ch s)
    have hc : (openGate ch s).ctl = s.ctl ∧ (openGate ch s).attn = s.attn := by
      unfold openGate
      rw [h]
      cases ch <;> exact ⟨rfl, rfl⟩
    rw [hc.1] at hs
    refine ⟨hs.1, fun i hi hk => ?_⟩
    have := hs.2 i hi hk
    rwa [hc.2] at this

/-- A request at the arbiter: nothing for the controller, or a shed. -/
theorem requestIf_told (ch : Channel) (q : Option (Record × Handshake)) (s : State) :
    ((requestIf ch q s).ctl = s.ctl ∧ (requestIf ch q s).attn = s.attn)
      ∨ (requestIf ch q s).ctl = s.ctl.oneShed ∧ ∀ i, Cause.shed.bit.getLsbD i = false → s.NoNew (requestIf ch q s) i := by
  unfold requestIf
  cases q with
  | none => exact .inl ⟨rfl, rfl⟩
  | some q =>
    unfold request noSlot
    simp only
    split
    · left; cases ch <;> exact ⟨rfl, rfl⟩
    · cases s.params.capturePolicy with
      | shed =>
        right
        have hs := shedNotice_told (passHandshake ch q.2 s)
        cases ch <;> exact hs
      | hold => left; cases ch <;> exact ⟨rfl, rfl⟩

theorem presentOn_told (ch : Channel) (o : Option Handshake) (s : State) :
    (presentOn ch o s).1.ctl = s.ctl ∧ (presentOn ch o s).1.attn = s.attn ∧ (presentOn ch o s).1.queue = s.queue
      ∧ ((presentOn ch o s).2 = none ∨ s.ctl.state = .opened) := by
  have hc (hs : Handshake) : (classify ch hs s).1.ctl = s.ctl ∧ (classify ch hs s).1.attn = s.attn
      ∧ (classify ch hs s).1.queue = s.queue := by
    unfold classify
    simp only
    split
    · split <;> exact ⟨rfl, rfl, rfl⟩
    · exact ⟨rfl, rfl, rfl⟩
  have hp (hs : Handshake) (t : State) : (passHandshake ch hs t).ctl = t.ctl ∧ (passHandshake ch hs t).attn = t.attn
      ∧ (passHandshake ch hs t).queue = t.queue := by
    cases ch <;> exact ⟨rfl, rfl, rfl⟩
  unfold presentOn
  cases o with
  | none => exact ⟨rfl, rfl, rfl, .inl rfl⟩
  | some hs =>
    simp only
    split
    · exact ⟨rfl, rfl, rfl, .inl rfl⟩
    · split
      · rename_i ho
        have h := hc hs
        rcases hq : classify ch hs s with ⟨t, _ | r⟩ <;> rw [hq] at h
        · have ht := hp hs t
          exact ⟨ht.1.trans h.1, ht.2.1.trans h.2.1, ht.2.2.trans h.2.2, .inl rfl⟩
        · exact ⟨h.1, h.2.1, h.2.2, .inr ho⟩
      · exact ⟨(hp hs s).1, (hp hs s).2.1, (hp hs s).2.2, .inl rfl⟩

/-- A withdrawal of a held handshake: nothing where no gate holds, or a release. -/
theorem withdrawHold_told (ch : Channel) (s : State) :
    (s.hold ch = none ∧ withdrawHold ch s = s)
      ∨ (s.hold ch).isSome = true ∧ (withdrawHold ch s).ctl = s.ctl.oneRelease
        ∧ ∀ i, Cause.release.bit.getLsbD i = false → s.NoNew (withdrawHold ch s) i := by
  unfold withdrawHold
  cases h : s.hold ch with
  | none => exact .inl ⟨rfl, rfl⟩
  | some g =>
    right
    cases ch <;> exact ⟨rfl, rfl, fun i hi => raiseCause_noNew .release _ i hi⟩

/-- A close after which settling goes on. -/
theorem closeWindowAs_goes_on (cause : CloseCause) (s : State) (h : (shutWindow cause s).mayEnd = false) :
    closeWindowAs cause s = shutWindow cause s := by
  simp [closeWindowAs, considerEnd, h]

/-- The moments of a close: settling does not end at it, and not all of the holds are counted as shed that it sheds; no cause but SHED. -/
theorem mem_closeMoments (cause : CloseCause) (s k : State) (hk : k ∈ closeMoments cause s) :
    (shutWindow cause s).mayEnd = false ∧ (shutWindow cause s).ctl = s.ctl.closing s.params cause s.holding
      ∧ (∃ j, j < s.holding ∧ k.ctl = s.ctl.closing s.params cause j) ∧ ∀ i, Cause.shed.bit.getLsbD i = false → s.NoNew k i := by
  have hb (ch : Channel) : (beginClose cause s).hold ch = s.hold ch := by cases ch <;> rfl
  have hw : (shedHold .read (beginClose cause s)).hold .write = s.hold .write := by
    unfold shedHold
    cases h : (beginClose cause s).hold .read with
    | none => exact hb .write
    | some g =>
      show (shedNotice (openGate .read (beginClose cause s))).path.wr = _
      rw [shedNotice_path]
      simp only [openGate, h]
      rfl
  have r := shedHold_told .read (beginClose cause s)
  have w := shedHold_told .write (shedHold .read (beginClose cause s))
  rw [hb] at r
  rw [hw, r.1] at w
  have h0 : (beginClose cause s).ctl = s.ctl.closing s.params cause 0 := by
    unfold beginClose Controller.closing
    simp
  rw [h0] at r w
  have hone : (s.ctl.closing s.params cause 0).oneShed = s.ctl.closing s.params cause 1 := by
    unfold Controller.oneShed Controller.closing
    simp [Option.map_map, Function.comp_def]
  have htwo : (s.ctl.closing s.params cause 1).oneShed = s.ctl.closing s.params cause 2 := by
    unfold Controller.oneShed Controller.closing
    simp only [Option.map_map, Function.comp_def]
    congr 2
    funext d
    simp only [Descriptor.mk.injEq, true_and, and_true, one_ne_zero, OfNat.ofNat_ne_zero, if_false]
    omega
  have hh : s.holding = (if (s.hold .read).isSome then 1 else 0) + (if (s.hold .write).isSome then 1 else 0) := rfl
  have hr : ∀ i, Cause.shed.bit.getLsbD i = false → s.NoNew (shedHold .read (beginClose cause s)) i := fun i hi h => r.2 i hi h
  have hend : (shutWindow cause s).ctl = s.ctl.closing s.params cause s.holding := by
    unfold shutWindow
    rw [hh, w.1]
    by_cases ha : (s.hold .read).isSome = true <;> by_cases hc : (s.hold .write).isSome = true <;> simp [ha, hc, hone, htwo]
  have begun (hp : 0 < s.holding) : (∃ j, j < s.holding ∧ (beginClose cause s).ctl = s.ctl.closing s.params cause j)
      ∧ ∀ i, Cause.shed.bit.getLsbD i = false → s.NoNew (beginClose cause s) i :=
    ⟨⟨0, hp, h0⟩, fun i _ h => h⟩
  unfold closeMoments at hk
  split at hk
  · cases hk
  · rename_i hm
    refine ⟨Bool.eq_false_iff.2 hm, hend, ?_⟩
    have e1 : s.hold .read = s.path.rd := rfl
    have e2 : s.hold .write = s.path.wr := rfl
    split at hk
    · cases hk
    · rename_i x y hx hy
      simp only [List.mem_cons, List.not_mem_nil, or_false] at hk
      rw [e1, hx] at hh r
      rw [e2, hy] at hh
      rcases hk with rfl | rfl
      · exact begun (by rw [hh]; simp)
      · exact ⟨⟨1, by rw [hh]; simp, by rw [r.1]; exact hone⟩, hr⟩
    · rename_i h1 h2
      rw [List.mem_singleton] at hk
      subst hk
      refine begun ?_
      rw [hh, e1, e2]
      cases hx : s.path.rd with
      | some x => simp
      | none =>
        cases hy : s.path.wr with
        | some y => simp
        | none => exact absurd hy (h1 hx)

/-- An onset tick at the controller. -/
theorem onsetDelivered_told (s : State) : (onsetDelivered s).ctl = s.afterOnsetTick ∧ (onsetDelivered s).attn = s.attn
    ∧ (onsetDelivered s).params = s.params ∧ (onsetDelivered s).holding = s.holding := by
  unfold onsetDelivered
  rw [foldl_takeReport]
  exact ⟨rfl, rfl, rfl, rfl⟩

/-- The moments of the controller within a row: before it or after it, or partly told of what the row sends it; no moment but the last
has OVERRUN, MISSED_OPEN or TRUNCATED sent, and one that is as before has nothing sent. -/
theorem mem_controllerMoments (c : Instr) (s t k : State) (h : exec c s = .next t) (hk : k ∈ controllerMoments c s) :
    (k.ctl = t.ctl ∨ PartlyTold c s t k.ctl ∨ k.ctl = s.ctl ∧ k.attn = s.attn) ∧ s.NoNew k 1 ∧ s.NoNew k 6 ∧ s.NoNew k 4 := by
  cases c
  case handshakePresented rd wr =>
    have two (ch ch' : Channel) (q q' : Option (Record × Handshake)) (u : State) (hc : u.ctl = s.ctl) (ha : u.attn = s.attn)
        (ho : q = none ∨ s.ctl.state = .opened) (hk : k = requestIf ch q u) (ht : t = considerEnd (requestIf ch' q' k)) :
        (k.ctl = t.ctl ∨ PartlyTold (.handshakePresented rd wr) s t k.ctl ∨ k.ctl = s.ctl ∧ k.attn = s.attn)
          ∧ s.NoNew k 1 ∧ s.NoNew k 6 ∧ s.NoNew k 4 := by
      have h1 := requestIf_told ch q u
      have h2 := requestIf_told ch' q' k
      rw [← hk, hc, ha] at h1
      rcases h1 with h1 | ⟨h1, hn⟩
      · exact ⟨.inr (.inr h1), fun h => by rwa [h1.2] at h, fun h => by rwa [h1.2] at h, fun h => by rwa [h1.2] at h⟩
      · refine ⟨?_, fun h => ha ▸ hn 1 (by decide) h, fun h => ha ▸ hn 6 (by decide) h, fun h => ha ▸ hn 4 (by decide) h⟩
        rcases ho with rfl | ho
        · exact .inr (.inr ⟨by rw [hk]; exact hc, by rw [hk]; exact ha⟩)
        have hx : (requestIf ch' q' k).ctl.state = .opened := by
          rcases h2 with ⟨h2, -⟩ | ⟨h2, -⟩ <;> rw [h2, h1] <;> exact ho
        rw [considerEnd_of_ne _ (by rw [hx]; decide)] at ht
        rw [← ht] at h2
        rcases h2 with h2 | ⟨h2, -⟩
        · exact .inl h2.1.symm
        · exact .inr (.inl ⟨h1, h2⟩)
    have ha := presentOn_told .read rd s
    have hw := presentOn_told .write wr (presentOn .read rd s).1
    have hc := hw.1.trans ha.1
    have hn := hw.2.1.trans ha.2.1
    have hh : (presentOn .write wr (presentOn .read rd s).1).1.queue.history = s.queue.history := by rw [hw.2.2.1, ha.2.2.1]
    have ht : t = considerEnd (arbitrate (presentOn .read rd s).2 (presentOn .write wr (presentOn .read rd s).1).2
        (presentOn .write wr (presentOn .read rd s).1).1) := by
      cases h
      rfl
    unfold arbitrate at ht
    simp only [controllerMoments] at hk
    cases hq : s.queue.history <;> simp only [hq, hh, List.mem_singleton] at hk ht <;> rw [← hk] at ht
    · exact two .write .read _ _ _ hc hn (by rw [← ha.1]; exact hw.2.2.2) hk ht
    · exact two .read .write _ _ _ hc hn ha.2.2.2 hk ht
  case aresetNAsserted =>
    simp only [controllerMoments, List.mem_singleton] at hk
    cases h
    rcases withdrawHold_told .read s with ⟨-, h1⟩ | ⟨hr, h1, hn⟩
    · rw [h1] at hk
      subst hk
      exact ⟨.inr (.inr ⟨rfl, rfl⟩), id, id, id⟩
    · rw [← hk] at h1 hn
      refine ⟨?_, hn 1 (by decide), hn 6 (by decide), hn 4 (by decide)⟩
      rw [← hk]
      rcases withdrawHold_told .write k with ⟨-, h2⟩ | ⟨hw, -⟩
      · exact .inl (by rw [h2])
      · refine .inr (.inl ⟨?_, h1⟩)
        have hw' : (s.hold .write).isSome = true := by
          rw [hk] at hw
          unfold withdrawHold at hw
          cases hs : s.hold .read with
          | none => rw [hs] at hr; cases hr
          | some g => rw [hs] at hw; exact hw
        have e1 : s.path.rd.isSome = true := hr
        have e2 : s.path.wr.isSome = true := hw'
        simp [State.holding, e1, e2]
  case winNRisingEdge =>
    simp only [controllerMoments] at hk
    split at hk
    · rename_i hx
      obtain ⟨hm, he, ⟨j, hj, hk1⟩, hn⟩ := mem_closeMoments .line _ k hk
      have ht : t.ctl = s.ctl.closing s.params .line s.holding := by
        have h' : execWinNRisingEdge s = .next t := h
        unfold execWinNRisingEdge at h'
        rw [if_pos hx] at h'
        cases h'
        refine Eq.trans ?_ he
        exact congrArg State.ctl (closeWindowAs_goes_on .line _ hm)
      exact ⟨.inr (.inl ⟨hx.1, hx.2.1, hx.2.2, ht, j, hj, hk1⟩), hn 1 (by decide), hn 6 (by decide), hn 4 (by decide)⟩
    · cases hk
  case onsetTick => exact timer _ (.inl rfl) h hk
  case windowTimerExpiry => exact timer _ (.inr rfl) h hk
  all_goals cases hk
where
  /-- An onset tick that expires the window timer. -/
  timer (c : Instr) {s t k : State} (hc : c = .onsetTick ∨ c = .windowTimerExpiry) (h : exec c s = .next t)
      (hk : k ∈ if s.ticks.onset.running && s.timerNext && (onsetDelivered s.onsetRestarted).timerAtLength then
        closeMoments .timer (onsetDelivered s.onsetRestarted) else []) :
      (k.ctl = t.ctl ∨ PartlyTold c s t k.ctl ∨ k.ctl = s.ctl ∧ k.attn = s.attn) ∧ s.NoNew k 1 ∧ s.NoNew k 6 ∧ s.NoNew k 4 := by
    split at hk
    · rename_i hx
      obtain ⟨hctl, hattn, hpar, hhold⟩ := onsetDelivered_told s.onsetRestarted
      obtain ⟨hm, he, ⟨j, hj, hk1⟩, hn⟩ := mem_closeMoments .timer _ k hk
      simp only [Bool.and_eq_true] at hx
      obtain ⟨⟨hr, hnext⟩, hat⟩ := hx
      have htick : onsetTick s = shutWindow .timer (onsetDelivered s.onsetRestarted) := by
        have ho : s.ctl.state = .opened := by
          simp only [State.timerNext, Bool.and_eq_true, decide_eq_true_eq] at hnext
          exact hnext.1.1
        unfold onsetTick closeAtLength
        simp only [hr, ho, hat, if_true, closeWindowAs_goes_on _ _ hm, ite_self]
      have ht : t = onsetTick s := by
        rcases hc with rfl | rfl
        · cases h
          rfl
        · cases h
          rw [if_pos hnext]
      simp only [State.timerNext, State.timerAtLength, Bool.and_eq_true, decide_eq_true_eq, hctl, hpar] at hnext hat
      rw [hctl, hpar, hhold] at he
      rw [hctl, hpar] at hk1
      rw [hhold] at hj
      have hp : PartlyTold c s t k.ctl := by
        have htc := (congrArg State.ctl (ht.trans htick)).trans he
        rcases hc with rfl | rfl <;> exact ⟨hr, hnext.1.1, hnext.1.2, hat.2, htc, j, hj, hk1⟩
      exact ⟨.inr (.inl hp), fun h => hattn ▸ hn 1 (by decide) h, fun h => hattn ▸ hn 6 (by decide) h,
        fun h => hattn ▸ hn 4 (by decide) h⟩
    · cases hk

/-! ### The Occupancy Counter between two notices -/

/-- The counter after notices: the count, and whether one of them has raised it above the limit. -/
theorem foldl_take (limit : Nat) (l : List Notice) (m : OccMoment) :
    (l.foldl (OccMoment.take limit) m).current = countAfter m.current l
      ∧ ((l.foldl (OccMoment.take limit) m).shows = false → l = [])
      ∧ ((l.foldl (OccMoment.take limit) m).exceeded = true → m.exceeded = true ∨ RisesAbove limit m.current l) := by
  induction l generalizing m with
  | nil => exact ⟨rfl, fun _ => rfl, .inl⟩
  | cons n l ih =>
    obtain ⟨h1, h0, h2⟩ := ih (m.take limit n)
    refine ⟨?_, fun h => ?_, fun h => ?_⟩
    · rw [List.foldl_cons, h1]
      cases n <;> rfl
    · rw [List.foldl_cons, h0 h] at h
      cases n <;> cases h
    · have step (k : Nat) (hk : l[k]? = some .becameHot) (hl : limit < countAfter (m.take limit n).current (l.take (k + 1))) :
          RisesAbove limit m.current (n :: l) :=
        ⟨k + 1, hk, by cases n <;> exact hl⟩
      rcases h2 h with h2 | ⟨k, hk, hl⟩
      · cases n with
        | becameHot =>
          simp only [OccMoment.take, Bool.or_eq_true, decide_eq_true_eq] at h2
          exact h2.imp id fun h => ⟨0, rfl, h⟩
        | becameCold => exact .inl h2
      · exact .inr (step k hk hl)

theorem noticesTaken_perm (f : Nat → Cell → CellOut) (s : State) :
    (noticesTaken f s).Perm (noticesOf (eachCell f 0 s.cells)) := noticeOrder_perm _ _

/-- The notices that the counter takes of an event of which not all are taken. -/
theorem noticesTaken_subperm (f g : Nat → Cell → CellOut) (s : State)
    (h : ∀ i c, (f i c).notices.Sublist (g i c).notices) : (noticesTaken f s).Subperm (noticesOf (eachCell g 0 s.cells)) :=
  (noticesTaken_perm f s).subperm.trans (noticesOf_sublist f g h 0 s.cells).subperm

/-- The notices that are taken of a tick at a cell are the first of those of its parts. -/
theorem tickAtCell_notices (s : State) (parts : Nat → List TickPart) (late : Bool) (i : Nat) (c : Cell) :
    (s.tickAtCell parts late i c).notices.Sublist (s.partsAtCell (parts i) i c).notices := by
  unfold State.tickAtCell
  simp only
  split
  · exact List.take_sublist _ _
  · exact .refl _

/-- A cell that is COLD sends nothing at a dwell tick, nor at the end of a pulse. -/
theorem partsAtCell_cold (s : State) (parts : List TickPart) (i : Nat) (c : Cell)
    (h : ∀ part ∈ parts, part = .dwell ∨ part = .pulseEnd) (hc : c.activity = .cold) : (s.partsAtCell parts i c).notices = [] := by
  induction parts with
  | nil => rfl
  | cons part parts ih =>
    have hp : s.partAtCell part i c = quietly c := by
      rcases h part (List.mem_cons_self ..) with rfl | rfl
      · exact congrArg quietly (dwellAtCell_cold _ _ _ _ hc)
      · simp [State.partAtCell, pulseEndAtCell, hc]
    show (s.partAtCell part i c).notices ++ (s.partsAtCell parts i (s.partAtCell part i c).cell).notices = []
    rw [hp]
    exact ih fun x hx => h x (List.mem_cons_of_mem _ hx)

/-- At a dwell tick that no decay tick comes with, a cell sends nothing, or what it sends at the end of the pulse (R143). -/
theorem partsAtCell_pulse (s : State) (parts : List TickPart) (i : Nat) (c : Cell)
    (h : ∀ part ∈ parts, part = .dwell ∨ part = .pulseEnd) :
    (s.partsAtCell parts i c).notices = [] ∨ (s.partsAtCell parts i c).notices = (pulseEndAtCell s.params i c).notices := by
  induction parts generalizing c with
  | nil => exact .inl rfl
  | cons part parts ih =>
    have hs : ∀ part ∈ parts, part = .dwell ∨ part = .pulseEnd := fun x hx => h x (List.mem_cons_of_mem _ hx)
    have hsplit : (s.partsAtCell (part :: parts) i c).notices =
        (s.partAtCell part i c).notices ++ (s.partsAtCell parts i (s.partAtCell part i c).cell).notices := rfl
    rw [hsplit]
    rcases h part (List.mem_cons_self ..) with rfl | rfl
    · have hb := dwellAtCell_sameBut s.params s.ctl.liveHalf i c
      have he : (pulseEndAtCell s.params i (dwellAtCell s.params s.ctl.liveHalf i c)).notices = (pulseEndAtCell s.params i c).notices := by
        have hx := endsCold_dwellAtCell s.params s.ctl.liveHalf i c
        by_cases h : c.EndsCold s.params i
        · rw [pulseEndAtCell_ends _ _ _ h, pulseEndAtCell_ends _ _ _ (hx.2 h)]
          simp [turnCold, Cell.eligible, hb.1]
        · rw [pulseEndAtCell_stays _ _ _ h, pulseEndAtCell_stays _ _ _ (mt hx.1 h)]
          rfl
      have := ih (dwellAtCell s.params s.ctl.liveHalf i c) hs
      rw [he] at this
      simpa [State.partAtCell, quietly] using this
    · simp only [State.partAtCell]
      by_cases hc : (decide (s.params.testPath = .direct) && c.pulsed s.params i && decide (c.activity = .hot)) = true
      · have hp : pulseEndAtCell s.params i c = turnCold s.params i c := if_pos hc
        rw [hp, partsAtCell_cold s parts i _ hs rfl, List.append_nil]
        exact .inr rfl
      · have hp : pulseEndAtCell s.params i c = quietly c := if_neg hc
        have := ih c hs
        rw [hp] at this ⊢
        simpa [quietly] using this

/-- A row's notices are among those that its cells send, where no write and no waiting decay tick comes together with it. -/
theorem rowNotices_subperm (c : Instr) (s : State) (hq : s.pending.head? = some c) (hw : s.decayWaits = false) :
    (rowNotices c s).Subperm (cellNotices c s) := by
  unfold rowNotices cellNotices
  by_cases hm : s.measuring = true
  · simp only [hm, Bool.not_true, Bool.false_eq_true, if_false, if_true]
    have dwell (c : Instr) (hc : c = .dwellTick ∨ c = .pulseEnd ∨ c = .settleCapExpiry)
        (hd : (deliversDwell c s && s.tpg.endsNext) = true) :
        (noticesTaken (dwellTakenAt s.dwellRestarted) s).Subperm (noticesOf (eachCell (rowAtCell c s) 0 s.cells)) := by
      have he : rowAtCell c s = pulseEndAtCell s.params := by
        funext i x
        rcases hc with rfl | rfl | rfl <;> simp [rowAtCell, hd]
      rw [he]
      refine noticesTaken_subperm _ _ s fun i x => ?_
      have hmem : ∀ part ∈ (dwellReached s.dwellRestarted).1 i, part = .dwell ∨ part = .pulseEnd := fun part h => by
        have hdue := (dwellReached_parts s.dwellRestarted i).1.subset h
        unfold State.dwellDue at hdue
        rw [dwellRestarted_decayWaits, hw] at hdue
        simp only [Bool.false_eq_true, if_false, List.append_nil, List.mem_cons] at hdue
        refine hdue.imp id fun hdue => ?_
        split at hdue <;> simp_all
      refine (tickAtCell_notices s.dwellRestarted (dwellReached s.dwellRestarted).1 _ i x).trans ?_
      rcases partsAtCell_pulse s.dwellRestarted _ i x hmem with h | h <;> rw [h]
      · exact List.nil_sublist _
      · exact .refl _
    cases c
    case decayTick =>
      simp only
      split
      · rename_i hr
        refine noticesTaken_subperm _ _ s fun i x => ?_
        have hp : s.paramsBehind = none := paramsBehind_none s (by simp [hq])
        have ha : rowAtCell .decayTick s i x = s.partAtCell .decay i x := by
          simp [rowAtCell, hr, State.partAtCell, tableAt_none s hp]
        rw [ha]
        refine (tickAtCell_notices s (decayParts s) _ i x).trans ?_
        rcases decayParts_eq s i with he | ⟨-, he⟩ <;> rw [he]
        · rw [partsAtCell_one]
        · exact List.nil_sublist _
      · exact List.nil_subperm
    case dwellTick =>
      simp only
      split
      · rename_i hd
        exact dwell _ (.inl rfl) hd
      · exact List.nil_subperm
    case pulseEnd =>
      simp only
      split
      · rename_i hd
        exact dwell _ (.inr (.inl rfl)) hd
      · exact List.nil_subperm
    case settleCapExpiry =>
      simp only
      split
      · rename_i hd
        exact dwell _ (.inr (.inr rfl)) hd
      · exact List.nil_subperm
    case recordApplied =>
      simp only
      cases h : s.engine.applying with
      | none => exact List.nil_subperm
      | some r =>
        refine (noticesTaken_perm _ s).subperm.trans ?_
        exact (List.Perm.of_eq (noticesOf_congr _ _ (fun i c => by simp [rowAtCell, h]) _ _)).subperm
    case auxAsserted n =>
      simp only
      split
      · rename_i ho
        refine (noticesTaken_perm _ s).subperm.trans ?_
        exact (List.Perm.of_eq (noticesOf_congr _ _ (fun i c => by simp [rowAtCell, ho]) _ _)).subperm
      · exact List.nil_subperm
    case auxDeasserted n => exact (noticesTaken_perm _ s).subperm
    all_goals exact List.nil_subperm
  · simp only [Bool.not_eq_true] at hm
    simp [hm]

/-! ### The generator at the tick that ends its pulse -/

theorem tick_ends (g : Tpg) (h : g.endsNext = true) : g.tick = .idle := by
  cases g with
  | idle => rfl
  | active n => exact if_pos (of_decide_eq_true h)

theorem dealtWith_tpg (s : State) : (dealtWith s).tpg = s.tpg := by
  have ho : (openWindowAs .cycle s).tpg = s.tpg := by
    unfold openWindowAs
    rw [(arrayEvent_outcome _ _).kept]
  unfold dealtWith
  split
  · exact ho
  · rfl

theorem endSettling_tpg (s : State) : (endSettling s).tpg = .idle := by
  unfold endSettling handOff freezeWhole swap discardWindow waitWindow
  repeat' split
  all_goals first | exact dealtWith_tpg _ | rfl

/-- The pulse is over after a tick that ends it. -/
theorem dwellDelivered_tpg (s : State) (h : s.tpg.endsNext = true) : (dwellDelivered s).tpg = .idle := by
  have taken : (dwellTaken s).tpg = .idle := (congrArg State.tpg (onsetEvent_outcome _ _).kept).trans (tick_ends s.tpg h)
  have expired : (capExpiry (dwellTaken s)).tpg = .idle := by
    unfold capExpiry
    split
    · split
      · exact endSettling_tpg _
      · exact taken
    · exact taken
  unfold dwellDelivered endAtTick
  split
  · exact taken
  · exact endSettling_tpg _
  · split
    · exact expired
    · exact endSettling_tpg _
  · exact expired

theorem dwellTick_tpg (s : State) (hr : s.ticks.dwell.running = true) (hm : s.measuring = true)
    (hc : (s.capDue && s.engine.applying.isNone) = false) (he : s.tpg.endsNext = true) : (dwellTick s).tpg = .idle := by
  have hm' : s.dwellRestarted.measuring = true := hm
  have hd' : s.dwellRestarted.capDue = s.capDue := rfl
  unfold dwellTick
  rw [if_pos hr]
  show State.tpg (if !s.dwellRestarted.measuring then _ else if s.dwellRestarted.capDue then _ else _) = _
  rw [hm', hd', if_neg (by simp)]
  split
  · rename_i hd
    rw [hd, Bool.true_and] at hc
    have hx : capExpiry s.dwellRestarted = capExpires s.dwellRestarted := by
      unfold capExpiry
      rw [hd', if_pos hd]
      exact if_neg (by rw [show s.dwellRestarted.engine.applying.isNone = _ from hc]; exact Bool.false_ne_true)
    have hs : (capExpires s.dwellRestarted).ctl.state = .settling := ((capDue_iff s).1 hd).1
    rw [hx, if_pos hs]
    exact dwellDelivered_tpg _ he
  · exact dwellDelivered_tpg _ he

theorem deliversDwell_iff (c : Instr) (s : State) : deliversDwell c s = true ↔ DeliversDwell c s := by
  unfold deliversDwell DeliversDwell
  rw [Bool.and_eq_true, bringsDwell_iff, Bool.not_eq_true', ← Bool.not_eq_true, Bool.and_eq_true, capDue_iff,
    Option.isNone_iff_eq_none]

/-- The generator is idle after a row whose dwell tick ends the pulse (R143), and no notice of such a row finds the controller between two
states. -/
theorem exec_tpg {c : Instr} {s t : State} (h : exec c s = .next t) (hd : deliversDwell c s = true) (he : s.tpg.endsNext = true) :
    t.tpg = .idle ∧ controllerMoments c s = [] := by
  simp only [deliversDwell, bringsDwell, Bool.and_eq_true, Bool.not_eq_true'] at hd
  obtain ⟨⟨⟨hr, hm⟩, hrow⟩, hc⟩ := hd
  have tick := dwellTick_tpg s hr hm hc he
  have none (P : Prop) (h : false = true) : P := by cases h
  cases c <;> simp only at hrow
  case dwellTick =>
    cases h
    exact ⟨tick, rfl⟩
  case pulseEnd =>
    have h' : t = dwellTick s := by
      have : Host.Outcome.next (if s.tpg.endsNext then dwellTick s else s) = Host.Outcome.next t := h
      rw [if_pos he] at this
      cases this
      rfl
    exact ⟨h' ▸ tick, rfl⟩
  case settleCapExpiry =>
    have h' : t = capExpiry (dwellTick s) := by
      have : Host.Outcome.next (capExpiry (if s.capHit && !s.capDue then dwellTick s else s)) = Host.Outcome.next t := h
      rw [if_pos (by simpa using hrow)] at this
      cases this
      rfl
    refine ⟨?_, rfl⟩
    rw [h']
    unfold capExpiry
    split
    · split
      · exact endSettling_tpg _
      · exact tick
    · exact tick
  all_goals exact none _ hrow

/-- The end of the pulse stops a cell, in the words of the rules. -/
theorem pulseStops_iff (s : State) : pulseStops s.dwellRestarted = true ↔ s.PulseStops := by
  have ho : ∀ i, (dwellTaken s.dwellRestarted).cells[i]? = (s.cells[i]?).map fun c => (dwellTakenAt s.dwellRestarted i c).cell :=
    (onsetEvent_outcome _ _).cells
  unfold pulseStops State.PulseStops
  simp only [decide_eq_true_eq, ne_eq, List.eq_nil_iff_forall_not_mem, not_forall, not_not, mem_indicesWhere, ho, ← counting_iff,
    Bool.and_eq_true, Nat.zero_add]
  constructor
  · rintro ⟨k, j, c, h1, rfl, h2, h3, h4⟩
    have h1' : s.cells[k]? = some c := h1
    exact ⟨k, c, _, h1', by rw [h1']; rfl, h3, h2, h4⟩
  · rintro ⟨i, c, d, h1, h2, h3, h4, h5⟩
    rw [h1] at h2
    cases h2
    exact ⟨i, i, c, h1, rfl, h4, h3, h5⟩

/-! ### A snapshot amid an event -/

/-- The counter after some of a row's notices. -/
theorem occAfter_found (c : Instr) (s : State) (hq : s.pending.head? = some c) (hw : s.decayWaits = false) (k : Nat) : ∃ taken left : List Notice, (taken ++ left).Perm (cellNotices c s)
    ∧ (occAfter c s k).current = countAfter s.occ.current taken
    ∧ ((occAfter c s k).shows = false → (occAfter c s k).current = s.occ.current)
    ∧ ((occAfter c s k).exceeded = true → RisesAbove s.params.occLimit s.occ.current taken) := by
  have hsub : ((rowNotices c s).take k).Subperm (cellNotices c s) :=
    (List.take_sublist k _).subperm.trans (rowNotices_subperm c s hq hw)
  have hl := List.subperm_append_diff_self_of_count_le (List.subperm_ext_iff.1 hsub)
  have hf := foldl_take s.params.occLimit ((rowNotices c s).take k) { current := s.occ.current, exceeded := false, shows := false }
  refine ⟨(rowNotices c s).take k, _, hl, hf.1, fun h => ?_, fun h => (hf.2.2 h).resolve_left Bool.false_ne_true⟩
  unfold occAfter at h ⊢
  rw [hf.2.1 h]
  rfl

/-- What the controller, the counter and the others have sent, cause by cause. -/
theorem sent_bits (x : BitVec 8) (e : Bool) :
    let sent := (x &&& controllerCauses) ||| (if e then Cause.occupancy.bit else 0) ||| Cause.frameDone.bit ||| Cause.release.bit
    sent.getLsbD 1 = x.getLsbD 1 ∧ sent.getLsbD 2 = x.getLsbD 2 ∧ sent.getLsbD 4 = x.getLsbD 4 ∧ sent.getLsbD 5 = e
      ∧ sent.getLsbD 6 = x.getLsbD 6 := by
  cases e <;> simp [controllerCauses, Cause.bit]

/-- What a snapshot amid an event row finds, whatever the free values are. -/
theorem amid_found (draw : Nat) (c : Instr) (s t : State) (hq : s.pending.head? = some c)
    (h : exec c s = .next t) : FoundAmid c s t (amid draw c s t) := by
  unfold amid
  by_cases h0 : (Config.freeTaken draw 0 && !waitsBehind c s) = true
  · rw [if_pos h0]
    have hw : s.decayWaits = false := by
      simp only [waitsBehind, Bool.and_eq_true, Bool.not_eq_true', Bool.or_eq_false_iff] at h0
      exact h0.2.1
    set told := Config.freeTaken draw 1 with htold
    set k := if told then t else (controllerMoments c s).getD (Config.freeCount draw 0) s with hk
    set o := occupancyAmid draw told c s t with ho
    set sent : BitVec 8 := (k.attn &&& controllerCauses) ||| (if o.exceeded then Cause.occupancy.bit else 0)
      ||| Cause.frameDone.bit ||| Cause.release.bit with hsent
    have hbit (i : Nat) (hv : (s.attn ||| (t.attn &&& sent &&& Config.freeCauses draw)).getLsbD i = true) :
        s.attn.getLsbD i = true ∨ sent.getLsbD i = true := by
      simp only [BitVec.getLsbD_or, BitVec.getLsbD_and, Bool.or_eq_true, Bool.and_eq_true] at hv
      exact hv.imp id fun h => h.1.2
    obtain ⟨b1, b2, b4, b5, b6⟩ := sent_bits k.attn o.exceeded
    rw [← hsent] at b1 b2 b4 b5 b6
    have hmem : told = true ∧ k = t ∨ told = false ∧ (k = s ∨ k ∈ controllerMoments c s) := by
      cases hto : told
      · right
        refine ⟨rfl, ?_⟩
        simp only [hto, Bool.false_eq_true, if_false] at hk
        by_cases hlt : Config.freeCount draw 0 < (controllerMoments c s).length
        · right
          rw [hk, List.getD_eq_getElem _ _ hlt]
          exact List.getElem_mem hlt
        · left
          rw [hk, List.getD_eq_default _ _ (by omega)]
      · left
        simp only [hto, if_true] at hk
        exact ⟨rfl, hk⟩
    have hctl : (k.ctl = t.ctl ∨ PartlyTold c s t k.ctl ∨ k.ctl = s.ctl ∧ k.attn = s.attn)
        ∧ (s.NoNew k 1 ∧ s.NoNew k 6 ∧ s.NoNew k 4 ∨ k.ctl = t.ctl) := by
      rcases hmem with ⟨-, h1⟩ | ⟨-, h1 | h1⟩
      · rw [h1]
        exact ⟨.inl rfl, .inr rfl⟩
      · rw [h1]
        exact ⟨.inr (.inr ⟨rfl, rfl⟩), .inl ⟨id, id, id⟩⟩
      · have hm := mem_controllerMoments c s t k h h1
        exact ⟨hm.1, .inl hm.2⟩
    have htold (h1 : told = true) : k.ctl = t.ctl := by
      rcases hmem with ⟨-, h2⟩ | ⟨h2, -⟩
      · rw [h2]
      · rw [h1] at h2
        cases h2
    show FoundAmid c s t { s with
      ctl := k.ctl
      readout := readoutAmid (told && Config.freeTaken draw 2) s t
      engine := if Config.freeTaken draw 3 then t.engine else s.engine
      tpg := generatorAmid draw told o c s t
      occ := { s.occ with current := o.current }
      attn := s.attn ||| (t.attn &&& sent &&& Config.freeCauses draw) }
    clear_value sent k o told
    refine ⟨rfl, ?_, ?_, ?_, ?_, ?_, ⟨sent &&& Config.freeCauses draw, by rw [BitVec.and_assoc]⟩, ⟨?_, ?_, ?_, ?_⟩, ?_, ?_⟩
    · rcases hctl.1 with h1 | h1 | h1
      · exact .inr (.inl h1)
      · exact .inr (.inr h1)
      · exact .inl h1.1
    · simp only
      split
      · exact .inr rfl
      · exact .inl rfl
    · simp only [generatorAmid]
      split
      · rename_i h1
        simp only [Bool.and_eq_true] at h1
        exact .inr (.inl ⟨rfl, htold h1.1⟩)
      · split
        · rename_i h1
          simp only [Bool.and_eq_true, deliversDwell] at h1
          refine .inr (.inr ⟨(bringsDwell_iff c s).1 h1.1.1, ?_⟩)
          cases hg : s.tpg with
          | idle => rfl
          | active n =>
            match n with
            | 0 => rfl
            | 1 => rfl
            | m + 2 => simp [Tpg.tick]
        · exact .inl rfl
    · intro hd hl hv
      have he := (endsNext_iff s.tpg).2 hl
      obtain ⟨hidle, hmoments⟩ := exec_tpg h ((deliversDwell_iff c s).2 hd) he
      simp only [generatorAmid, (deliversDwell_iff c s).2 hd, Bool.true_and, tick_ends s.tpg he] at hv
      split at hv
      · exact absurd hidle hv
      · split at hv
        · exact absurd rfl hv
        · rename_i hn
          simp only [Bool.or_eq_true, not_or, showsPulseEnd, he, Bool.true_and, Bool.and_eq_true] at hn
          have hm : s.measuring = true := hd.1.2.1
          refine ⟨?_, fun hc hr hp => ?_⟩
          · have shown (n : Nat) : (occAfter c s n).shows = false → (occAfter c s n).current = s.occ.current := by
              obtain ⟨-, -, -, -, hs, -⟩ := occAfter_found c s hq hw n
              exact hs
            have hsh : o.shows = false := Bool.eq_false_iff.2 fun hx => hn.1.1 hx
            rw [ho] at hsh
            simp only
            rw [ho]
            unfold occupancyAmid at hsh ⊢
            simp only at hsh ⊢
            split
            · rename_i h1
              simp only [Bool.and_eq_true, opensIn, decide_eq_true_eq] at h1
              exact .inr ⟨htold h1.1.1, .inr h1.1.2⟩
            · rename_i h1
              rw [if_neg h1] at hsh
              split
              · rename_i h2
                simp only [Bool.and_eq_true, restsIn, opensIn, Bool.or_eq_true, Bool.not_eq_true', decide_eq_true_eq] at h2
                exact .inr ⟨htold h2.1, h2.2.2⟩
              · rename_i h2
                rw [if_neg h2] at hsh
                exact .inl (shown _ hsh)
          · refine hn.1.2 ⟨⟨?_, ?_⟩, (pulseStops_iff s).2 hp⟩
            · rcases hmem with ⟨h1, -⟩ | ⟨-, h1⟩
              · exact h1
              · exfalso
                rw [hmoments, List.mem_nil_iff, or_false] at h1
                have hc' : s.ctl = t.ctl := h1 ▸ hc
                have hst : t.measuring = s.measuring := by simp only [State.measuring, hc']
                rcases hr with hr | hr
                · rw [hst, hm] at hr
                  cases hr
                · exact hr (by rw [hc'])
            · simp [restsIn, opensIn, hm, hr]
    · have hocc (v : BitVec 8) (hv : v = s.attn ||| (t.attn &&& sent &&& Config.freeCauses draw)) (h5 : v.getLsbD 5 = true) :
          s.attn.getLsbD 5 = true ∨ o.exceeded = true := by
        rw [hv] at h5
        rw [← b5]
        exact hbit 5 h5
      obtain ⟨taken, left, hp, hcur, -, hexc⟩ := occAfter_found c s hq hw (rowNotices c s).length
      simp only [occupancyAmid] at ho
      split at ho
      · rename_i h1
        simp only [Bool.and_eq_true, opensIn, decide_eq_true_eq] at h1
        refine ⟨taken, left, hp, .inr (.inr ⟨htold h1.1.1, h1.1.2, ?_⟩), fun h5 => ?_⟩
        · rw [ho]
          exact Nat.le_of_lt_succ (Nat.mod_lt _ (Nat.succ_pos _))
        · rcases hocc _ rfl h5 with h5 | h5
          · exact .inl h5
          · rw [ho] at h5 ⊢
            simp only [Bool.or_eq_true, decide_eq_true_eq] at h5 ⊢
            rcases h5 with h5 | h5
            · exact .inr (.inl (hexc h5))
            · exact .inr (.inr ⟨htold h1.1.1, h1.1.2, h5⟩)
      · split at ho
        · rename_i h1
          simp only [Bool.and_eq_true, restsIn, opensIn, Bool.or_eq_true, Bool.not_eq_true', decide_eq_true_eq] at h1
          split at ho
          · refine ⟨taken, left, hp, .inr (.inl ⟨htold h1.1, h1.2.1, h1.2.2, by rw [ho]⟩), fun h5 => ?_⟩
            rcases hocc _ rfl h5 with h5 | h5
            · exact .inl h5
            · rw [ho] at h5
              exact .inr (.inl (hexc h5))
          · refine ⟨taken, left, hp, .inl (by rw [ho]; exact hcur), fun h5 => ?_⟩
            rcases hocc _ rfl h5 with h5 | h5
            · exact .inl h5
            · rw [ho] at h5
              exact .inr (.inl (hexc h5))
        · obtain ⟨taken, left, hp, hcur, -, hexc⟩ := occAfter_found c s hq hw (Config.freeCount draw 2 % ((rowNotices c s).length + 1))
          refine ⟨taken, left, hp, .inl (by rw [ho]; exact hcur), fun h5 => ?_⟩
          rcases hocc _ rfl h5 with h5 | h5
          · exact .inl h5
          · rw [ho] at h5
            exact .inr (.inl (hexc h5))
    · intro hv
      rcases hbit 1 hv with h1 | h1
      · exact .inl h1
      · exact hctl.2.imp (fun h2 => h2.1 (b1 ▸ h1)) id
    · intro hv
      rcases hbit 6 hv with h1 | h1
      · exact .inl h1
      · exact hctl.2.imp (fun h2 => h2.2.1 (b6 ▸ h1)) id
    · intro hv
      rcases hbit 2 hv with h1 | h1
      · exact .inl h1
      · rcases hctl.1 with h2 | h2 | h2
        · exact .inr (.inl h2)
        · exact .inr (.inr h2)
        · exact .inl (h2.2 ▸ b2 ▸ h1)
    · intro hv
      rcases hbit 4 hv with h1 | h1
      · exact .inl h1
      · exact hctl.2.imp (fun h2 => h2.2.2 (b4 ▸ h1)) id
    · intro he
      simp only [readoutAmid, he, if_true]
      split
      · rename_i h1
        simp only [Bool.and_eq_true] at h1
        exact .inr ⟨rfl, htold h1.1⟩
      · exact .inl rfl
    · intro he
      simp only [readoutAmid, he, if_false]
      by_cases h1 : (told && Config.freeTaken draw 2) = true
      · simp only [h1, if_true]
        rw [Bool.and_eq_true] at h1
        exact .inr (.inr ⟨trivial, htold h1.1⟩)
      · simp only [h1, Bool.false_eq_true, if_false]
        exact .inr (.inl trivial)
  · rw [if_neg h0]
    have stays (hd : DeliversDwell c s) (hc : s.ctl = t.ctl) : ¬ (t.measuring = false ∨ t.ctl.nextFrame ≠ s.ctl.nextFrame) := by
      have hst : t.measuring = s.measuring := by simp only [State.measuring, hc]
      rw [hst, hd.1.2.1, hc]
      simp
    have hp : ([] ++ cellNotices c s).Perm (cellNotices c s) := .refl _
    exact ⟨rfl, .inl rfl, .inl rfl, .inl rfl, fun hd _ _ => ⟨.inl rfl, fun hc hr => absurd hr (stays hd hc)⟩, ⟨[], _, hp, .inl rfl, .inl⟩, ⟨0, by simp⟩,
      ⟨.inl, .inl, .inl, .inl⟩, fun _ => .inl rfl, fun _ => .inl rfl⟩

/-! ### No reading amid an event is of the port -/

theorem rowNotices_withPort (c : Instr) (s : State) (p : Port) (hq : s.pending.head? = some c) :
    rowNotices c (s.withPort p) = rowNotices c s := by
  unfold rowNotices
  cases c
  case decayTick =>
    have h : s.paramsBehind = none := paramsBehind_none s (by simp [hq])
    have h' : (s.withPort p).paramsBehind = none := paramsBehind_none (s.withPort p) (by simp [hq])
    simp only [decayParts_withPort s p h h', overAfter_withPort s p h h', tickAtCell_withPort s p h h']
    rfl
  case dwellTick => exact dwell (by simp [hq]) rfl
  case pulseEnd => exact dwell (by simp [hq]) rfl
  case settleCapExpiry => exact dwell (by simp [hq]) rfl
  all_goals rfl
where
  dwell {s : State} {p : Port} {a b : Bool} (h : ∀ args, s.pending.head? ≠ some (.setParam args)) (hab : a = b) :
      (if !(s.withPort p).measuring then [] else if a then noticesTaken (dwellTakenAt (s.withPort p).dwellRestarted) (s.withPort p) else [])
        = if !s.measuring then [] else if b then noticesTaken (dwellTakenAt s.dwellRestarted) s else [] := by
    have hx : dwellTakenAt (s.withPort p).dwellRestarted = dwellTakenAt s.dwellRestarted :=
      dwellTakenAt_withPort s.dwellRestarted p (paramsBehind_none _ h) (paramsBehind_none _ h)
    rw [hx, hab]
    rfl

theorem controllerMoments_withPort (c : Instr) (s : State) (p : Port) :
    controllerMoments c (s.withPort p) = (controllerMoments c s).map fun k => k.withPort p := by
  have ite (c : Prop) [Decidable c] (a b a' b' : List State) (ha : a' = a.map fun k => k.withPort p)
      (hb : b' = b.map fun k => k.withPort p) : (if c then a' else b') = (if c then a else b).map fun k => k.withPort p := by
    subst ha hb
    split <;> rfl
  have hclose (cause : CloseCause) (t : State) : closeMoments cause (t.withPort p) = (closeMoments cause t).map fun k => k.withPort p := by
    have h1 : beginClose cause (t.withPort p) = (beginClose cause t).withPort p := rfl
    unfold closeMoments
    rw [shutWindow_withPort, h1, shedHold_withPort]
    refine ite _ _ _ _ _ rfl ?_
    show (match t.path.rd, t.path.wr with | none, none => _ | some _, some _ => _ | _, _ => _) = _
    cases t.path.rd <;> cases t.path.wr <;> rfl
  have htimer : (if s.ticks.onset.running && s.timerNext && (onsetDelivered (s.withPort p).onsetRestarted).timerAtLength then
      closeMoments .timer (onsetDelivered (s.withPort p).onsetRestarted) else []) =
        (if s.ticks.onset.running && s.timerNext && (onsetDelivered s.onsetRestarted).timerAtLength then
          closeMoments .timer (onsetDelivered s.onsetRestarted) else []).map fun k => k.withPort p := by
    have h : onsetDelivered (s.withPort p).onsetRestarted = (onsetDelivered s.onsetRestarted).withPort p :=
      onsetDelivered_withPort s.onsetRestarted p
    rw [h, hclose]
    exact ite _ _ _ _ _ rfl rfl
  cases c
  case handshakePresented rd wr =>
    simp only [controllerMoments, presentOn_withPort, requestIf_withPort, withPort_queue]
    cases s.queue.history <;> rfl
  case aresetNAsserted => simp only [controllerMoments, withdrawHold_withPort, List.map_cons, List.map_nil]
  case winNRisingEdge => exact ite _ _ _ _ _ (hclose .line { s with pins := { s.pins with winLow := false } }) rfl
  case onsetTick => exact htimer
  case windowTimerExpiry => exact htimer
  all_goals rfl

theorem amid_withPort (draw : Nat) (c : Instr) (s t : State) (p q : Port) (hq : s.pending.head? = some c) :
    amid draw c (s.withPort p) (t.withPort q) = (amid draw c s t).withPort p := by
  have hoa (k : Nat) : occAfter c (s.withPort p) k = occAfter c s k := by
    unfold occAfter
    rw [rowNotices_withPort c s p hq]
    rfl
  have ho (told : Bool) : occupancyAmid draw told c (s.withPort p) (t.withPort q) = occupancyAmid draw told c s t := by
    unfold occupancyAmid
    simp only [hoa, rowNotices_withPort c s p hq]
    rfl
  have hget (l : List State) (i : Nat) : (l.map fun k => k.withPort p).getD i (s.withPort p) = (l.getD i s).withPort p := by
    simp only [List.getD_eq_getElem?_getD, List.getElem?_map]
    cases l[i]? <;> rfl
  have hg (told : Bool) (o : OccMoment) : generatorAmid draw told o c (s.withPort p) (t.withPort q) = generatorAmid draw told o c s t := by
    by_cases hd : deliversDwell c s = true
    · have hs : ∀ args, s.pending.head? ≠ some (.setParam args) := by
        rw [hq]
        rintro args ⟨⟩
        simp [deliversDwell, bringsDwell] at hd
      have hp : pulseStops (s.withPort p).dwellRestarted = pulseStops s.dwellRestarted := by
        have hx : dwellTakenAt (s.withPort p).dwellRestarted = dwellTakenAt s.dwellRestarted :=
          dwellTakenAt_withPort s.dwellRestarted p (paramsBehind_none _ hs) (paramsBehind_none _ hs)
        unfold pulseStops
        rw [hx]
        rfl
      have hr : restsIn (s.withPort p) (t.withPort q) = restsIn s t := rfl
      have hs : showsPulseEnd told o (s.withPort p) (t.withPort q) = showsPulseEnd told o s t := by
        unfold showsPulseEnd
        rw [hp, hr, withPort_tpg]
      have hd' : deliversDwell c (s.withPort p) = deliversDwell c s := rfl
      unfold generatorAmid
      rw [hs, hd', withPort_tpg, withPort_tpg]
    · have hd' : deliversDwell c (s.withPort p) = deliversDwell c s := rfl
      simp only [generatorAmid, hd', Bool.eq_false_iff.2 hd, Bool.false_and, Bool.false_eq_true, if_false, withPort_tpg]
  have hwait : waitsBehind c (s.withPort p) = waitsBehind c s := by cases c <;> rfl
  unfold amid
  rw [hwait]
  refine ite_withPort ?_ rfl
  rw [controllerMoments_withPort]
  simp only [hget, ho, hg]
  cases Config.freeTaken draw 1 <;> rfl

end Sys2Proof.Machine
end

