-- ==== Sys2Proof/Laws/Delivery.lean ====
section
/-! SUPPORT. What happens in the part while a frame is in hand does not reach the frame: an event of a TBCLK period keeps the frame, the
frozen counters of every cell, and the roles of storage. -/

namespace Sys2Proof.Machine

/-! ### Counters that an event leaves alone -/

/-- Two cells with the same counters in a storage that the frozen indication names. -/
def Cell.SameIn (c d : Cell) : Frozen → Prop
  | .whole => d.seg0 = c.seg0 ∧ d.seg1 = c.seg1 ∧ d.seg2 = c.seg2 ∧ d.seg3 = c.seg3
  | .half .h0 => d.seg0 = c.seg0 ∧ d.seg2 = c.seg2
  | .half .h1 => d.seg1 = c.seg1 ∧ d.seg3 = c.seg3

theorem Cell.SameIn.of_segs {c d : Cell} (h0 : d.seg0 = c.seg0) (h1 : d.seg1 = c.seg1) (h2 : d.seg2 = c.seg2) (h3 : d.seg3 = c.seg3)
    (z : Frozen) : c.SameIn d z := by
  match z with
  | .whole => exact ⟨h0, h1, h2, h3⟩
  | .half .h0 => exact ⟨h0, h2⟩
  | .half .h1 => exact ⟨h1, h3⟩

theorem Cell.SameIn.refl (c : Cell) (z : Frozen) : c.SameIn c z := .of_segs rfl rfl rfl rfl z

theorem Cell.SameIn.trans {a b c : Cell} {z : Frozen} (h1 : a.SameIn b z) (h2 : b.SameIn c z) : a.SameIn c z := by
  match z with
  | .whole => exact ⟨h2.1.trans h1.1, h2.2.1.trans h1.2.1, h2.2.2.1.trans h1.2.2.1, h2.2.2.2.trans h1.2.2.2⟩
  | .half .h0 => exact ⟨h2.1.trans h1.1, h2.2.trans h1.2⟩
  | .half .h1 => exact ⟨h2.1.trans h1.1, h2.2.trans h1.2⟩

/-- A continuous mode counts into the live half alone (R37, R103). -/
theorem setSegs_sameIn (c : Cell) (m : Mode) (h : Half) (q : Quantity) (v : Nat) (hm : m.sequential = false) :
    c.SameIn (c.setSegs (m.places h q) v) (.half h.other) := by
  cases h <;> cases m <;> cases q <;> first | exact ⟨rfl, rfl⟩ | cases hm

theorem bump_sameIn (c : Cell) (m : Mode) (h : Half) (q : Quantity) (hm : m.sequential = false) :
    c.SameIn (c.bump m h q) (.half h.other) := by
  unfold Cell.bump
  split
  · exact setSegs_sameIn c m h q _ hm
  · exact .refl c _

theorem turnHot_sameIn (p : Params) (h : Half) (i : Nat) (c : Cell) (hm : p.mode.sequential = false) :
    c.SameIn (turnHot p h i c).cell (.half h.other) := by
  unfold turnHot
  simp only
  have h0 : c.SameIn { c with activity := .hot, onsetSeen := true } (.half h.other) := .of_segs rfl rfl rfl rfl _
  split
  · exact h0.trans (bump_sameIn _ _ _ _ hm)
  · exact h0

theorem turnCold_sameIn (p : Params) (i : Nat) (c : Cell) (z : Frozen) : c.SameIn (turnCold p i c).cell z := .of_segs rfl rfl rfl rfl z

theorem evaluate_sameIn (p : Params) (h : Half) (pulse : Bool) (i : Nat) (c : Cell) (hm : p.mode.sequential = false) :
    c.SameIn (evaluate p h pulse i c).cell (.half h.other) := by
  unfold evaluate
  split
  · split
    · exact turnHot_sameIn p h i c hm
    · exact .refl c _
  · split
    · exact turnCold_sameIn p i c _
    · exact .refl c _

theorem decayAtCell_sameIn (p : Params) (h : Half) (pulse : Bool) (i : Nat) (c : Cell) (hm : p.mode.sequential = false) :
    c.SameIn (decayAtCell p h pulse i c).cell (.half h.other) := by
  unfold decayAtCell
  split
  · exact (Cell.SameIn.of_segs rfl rfl rfl rfl _ : c.SameIn { c with level := c.level - p.decayStep } (.half h.other)).trans
      (evaluate_sameIn p h pulse i _ hm)
  · exact .refl c _

theorem dwellAtCell_sameIn (p : Params) (h : Half) (i : Nat) (c : Cell) (hm : p.mode.sequential = false) :
    c.SameIn (dwellAtCell p h i c) (.half h.other) := by
  unfold dwellAtCell
  split
  · exact bump_sameIn c _ _ _ hm
  · exact .refl c _

theorem pulseStartAtCell_sameIn (p : Params) (h : Half) (i : Nat) (c : Cell) (hm : p.mode.sequential = false) :
    c.SameIn (pulseStartAtCell p h i c).cell (.half h.other) := by
  unfold pulseStartAtCell
  split
  · split
    · exact turnHot_sameIn p h i c hm
    · exact .refl c _
  · split
    · have h1 := (Cell.SameIn.of_segs rfl rfl rfl rfl _ : c.SameIn (c.addWeight p.testWeight) (.half h.other)).trans
        (evaluate_sameIn p h true i (c.addWeight p.testWeight) hm)
      refine h1.trans ?_
      unfold CellOut.access
      simp only
      split
      · exact .refl _ _
      · exact bump_sameIn _ _ _ _ hm
    · exact .refl c _

theorem partsAtCell_sameIn (s : State) (parts : List TickPart) (i : Nat) (c : Cell) (hm : s.params.mode.sequential = false) :
    c.SameIn (s.partsAtCell parts i c).cell (.half s.ctl.liveHalf.other) := by
  induction parts generalizing c with
  | nil => exact .refl c _
  | cons part parts ih =>
    refine Cell.SameIn.trans ?_ (ih (s.partAtCell part i c).cell)
    cases part with
    | decay => exact decayAtCell_sameIn _ _ _ i c (by rw [tableAt_mode]; exact hm)
    | dwell => exact dwellAtCell_sameIn _ _ i c hm
    | pulseEnd =>
      unfold State.partAtCell pulseEndAtCell
      simp only
      split
      · exact turnCold_sameIn ..
      · exact .refl c _
    | pulseStart => exact pulseStartAtCell_sameIn _ _ i c hm

theorem onsetAtCell_sameIn (p : Params) (h : Half) (i : Nat) (c : Cell) (hm : p.mode.sequential = false) :
    c.SameIn (onsetAtCell p h i c) (.half h.other) := by
  unfold onsetAtCell
  split
  · split
    · exact bump_sameIn c _ _ _ hm
    · split
      · exact setSegs_sameIn c _ _ _ _ hm
      · exact .refl c _
  · exact .refl c _

theorem lineUpAtCell_sameIn (p : Params) (h : Half) (i : Nat) (c : Cell) (hm : p.mode.sequential = false) :
    c.SameIn (lineUpAtCell p h i c).cell (.half h.other) := by
  unfold lineUpAtCell
  split
  · exact turnHot_sameIn p h i c hm
  · exact .refl c _

theorem clearHalf_sameIn (c : Cell) (h : Half) : c.SameIn (c.clearHalf h) (.half h.other) := by cases h <;> exact ⟨rfl, rfl⟩

/-! ### The frame is out of reach -/

/-- A frame is in hand, its storage frozen (R104, R118). -/
structure State.Sending (s : State) : Prop where
  roles : s.HandOffInv
  frozen : s.ctl.frozen.isSome = true

/-- An event leaves alone the frame in hand and all that the frame is made of: the Readout Engine, the parameters, the frozen storage of
every cell; and the roles of storage go on. -/
structure State.FrameSafe (s t : State) : Prop where
  readout : t.readout = s.readout
  frozen : t.ctl.frozen = s.ctl.frozen
  live : t.ctl.liveHalf = s.ctl.liveHalf
  params : t.params = s.params
  port : t.port = s.port
  length : t.cells.length = s.cells.length
  cells : ∀ z, s.ctl.frozen = some z → ∀ (i : Nat) (c : Cell), s.cells[i]? = some c → ∃ d, t.cells[i]? = some d ∧ c.SameIn d z
  roles : t.HandOffInv

theorem State.FrameSafe.sending {s t : State} (h : s.FrameSafe t) (hs : s.Sending) : t.Sending := ⟨h.roles, by rw [h.frozen]; exact hs.frozen⟩

theorem State.FrameSafe.trans {s t u : State} (h1 : s.FrameSafe t) (h2 : t.FrameSafe u) : s.FrameSafe u where
  readout := h2.readout.trans h1.readout
  frozen := h2.frozen.trans h1.frozen
  live := h2.live.trans h1.live
  params := h2.params.trans h1.params
  port := h2.port.trans h1.port
  length := h2.length.trans h1.length
  cells z hz i c hc := by
    obtain ⟨d, hd, hcd⟩ := h1.cells z hz i c hc
    obtain ⟨e, he, hde⟩ := h2.cells z (h1.frozen.trans hz) i d hd
    exact ⟨e, he, hcd.trans hde⟩
  roles := h2.roles

/-- Two states with the same roles of storage and descriptors. -/
structure State.SameRoles (s t : State) : Prop where
  readout : t.readout = s.readout
  frozen : t.ctl.frozen = s.ctl.frozen
  live : t.ctl.liveHalf = s.ctl.liveHalf
  params : t.params = s.params
  port : t.port = s.port
  modes : t.ctl.desc.map Descriptor.mode = s.ctl.desc.map Descriptor.mode
  waiting : t.ctl.waiting = s.ctl.waiting
  held : t.ctl.state = .held ↔ s.ctl.state = .held
  measuring : t.measuring = s.measuring

theorem State.SameRoles.inv {s t : State} (h : s.SameRoles t) (hs : s.HandOffInv) : t.HandOffInv where
  frozenNotLive := by rw [h.frozen, h.live]; exact hs.frozenNotLive
  frozenWhileSending := by rw [h.frozen, h.readout]; exact hs.frozenWhileSending
  descWhileMeasuring := by
    rw [h.measuring, ← hs.descWhileMeasuring, ← Option.isSome_map (f := Descriptor.mode), h.modes, Option.isSome_map]
  sequential := by rw [h.params, h.frozen, h.waiting, Ne, h.held]; exact hs.sequential
  continuous := by rw [h.params, h.frozen, h.waiting, h.held]; exact hs.continuous
  modes := by
    rw [h.params, h.waiting, h.readout]
    refine ⟨fun d hd => ?_, hs.modes.2⟩
    have hm := h.modes
    rw [hd, Option.map_some] at hm
    obtain ⟨e, he, hde⟩ := Option.map_eq_some_iff.1 hm.symm
    rw [← hde]
    exact hs.modes.1 e he

/-- An event that changes the cells, but none of the frozen counters, and no role. -/
theorem State.SameRoles.frameSafe {s t : State} (h : s.SameRoles t) (hs : s.Sending) (hl : t.cells.length = s.cells.length)
    (hc : ∀ z, s.ctl.frozen = some z → ∀ (i : Nat) (c : Cell), s.cells[i]? = some c → ∃ d, t.cells[i]? = some d ∧ c.SameIn d z) :
    s.FrameSafe t :=
  ⟨h.readout, h.frozen, h.live, h.params, h.port, hl, hc, h.inv hs.roles⟩

/-- An event that changes no cell and no role. -/
theorem State.SameRoles.cellsKept {s t : State} (h : s.SameRoles t) (hs : s.Sending) (hc : t.cells = s.cells) : s.FrameSafe t :=
  h.frameSafe hs (by rw [hc]) fun z _ i c hi => ⟨c, by rw [hc]; exact hi, .refl c z⟩

theorem State.FrameSafe.refl {s : State} (hs : s.Sending) : s.FrameSafe s :=
  State.SameRoles.cellsKept ⟨rfl, rfl, rfl, rfl, rfl, rfl, rfl, .rfl, rfl⟩ hs rfl

/-- While a frame is in hand and the controller measures, the mode is continuous and the half that is not live is frozen (R92, R103). -/
theorem State.Sending.measuring {s : State} (hs : s.Sending) (hm : s.measuring = true) :
    s.params.mode.sequential = false ∧ s.ctl.frozen = some (.half s.ctl.liveHalf.other) := by
  have hh : s.ctl.state ≠ .held := fun h => by simp [State.measuring, h] at hm
  obtain ⟨z, hz⟩ := Option.isSome_iff_exists.1 hs.frozen
  have hq : s.params.mode.sequential = false := by
    rw [Bool.eq_false_iff]
    intro h
    have := (hs.roles.sequential h).2.1 hh
    rw [hz] at this
    cases this
  refine ⟨hq, ?_⟩
  have hw := (hs.roles.continuous hq).1
  cases z with
  | whole => exact absurd hz hw
  | half h =>
    have hn := hs.roles.frozenNotLive h hz
    rw [hz]
    revert hn
    cases h <;> cases s.ctl.liveHalf <;> simp [Half.other]

/-- Two lists of cells one of which is the other after a change of each cell are equally long. -/
theorem length_of_getElem? {l k : List Cell} (g : Nat → Cell → Cell) (h : ∀ i, k[i]? = (l[i]?).map (g i)) : k.length = l.length := by
  refine Nat.le_antisymm ?_ ?_
  · rw [← List.getElem?_eq_none_iff, h, List.getElem?_eq_none (Nat.le_refl _)]
    rfl
  · have hk := h k.length
    rw [List.getElem?_eq_none (Nat.le_refl _)] at hk
    exact List.getElem?_eq_none_iff.1 (Option.map_eq_none_iff.1 hk.symm)

/-- An event at every cell, while a frame is in hand and the controller measures. -/
theorem State.SameRoles.cellsChanged {s t : State} (h : s.SameRoles t) (hs : s.Sending) (hm : s.measuring = true)
    (g : Nat → Cell → Cell) (hg : ∀ i, t.cells[i]? = (s.cells[i]?).map (g i))
    (hf : s.params.mode.sequential = false → ∀ (i : Nat) (c : Cell), c.SameIn (g i c) (.half s.ctl.liveHalf.other)) : s.FrameSafe t := by
  obtain ⟨hq, hz⟩ := hs.measuring hm
  refine h.frameSafe hs (length_of_getElem? g hg) fun z hzz i c hc => ?_
  rw [hz] at hzz
  cases hzz
  exact ⟨g i c, by rw [hg, hc]; rfl, hf hq i c⟩

theorem ArrayOutcome.measuring {f : Nat → Cell → CellOut} {s t : State} (h : ArrayOutcome f s t) : t.measuring = s.measuring := by
  unfold State.measuring
  rw [h.kept]

/-- An event of the whole array while a frame is in hand. -/
theorem ArrayOutcome.frameSafe {f : Nat → Cell → CellOut} {s t : State} (h : ArrayOutcome f s t) (hs : s.Sending)
    (hm : s.measuring = true)
    (hf : s.params.mode.sequential = false → ∀ (i : Nat) (c : Cell), c.SameIn (f i c).cell (.half s.ctl.liveHalf.other)) : s.FrameSafe t := by
  have hk := h.kept
  obtain ⟨_, _, _, _, _, _, _, _, hd, -⟩ := h.desc
  refine State.SameRoles.cellsChanged (g := fun i c => (f i c).cell) ⟨by rw [hk], by rw [hk], by rw [hk], by rw [hk], by rw [hk], ?_, by rw [hk], by rw [hk], h.measuring⟩
    hs hm h.cells hf
  rw [hd, Option.map_map]
  rfl

theorem onDesc_modes (f : Descriptor → Descriptor) (s : State) (hf : ∀ d, (f d).mode = d.mode) :
    (onDesc f s).ctl.desc.map Descriptor.mode = s.ctl.desc.map Descriptor.mode := by
  show (s.ctl.desc.map f).map Descriptor.mode = _
  rw [Option.map_map]
  congr 1
  funext d
  exact hf d

/-! ### The end of settling -/

theorem comeToRest_frameSafe (s : State) (hs : s.Sending) (hm : s.measuring = true) : s.FrameSafe (comeToRest s) :=
  State.SameRoles.cellsChanged ⟨rfl, rfl, rfl, rfl, rfl, rfl, rfl, .rfl, rfl⟩ hs hm (fun _ => Cell.rest)
    (fun _ => List.getElem?_map) fun _ _ _ => .of_segs rfl rfl rfl rfl _

/-- An event of the whole array behind an event that is out of the frame's reach. -/
theorem State.FrameSafe.arrayEvent {s t : State} (h : s.FrameSafe t) (hs : s.Sending) (hm : t.measuring = true)
    (f : Nat → Cell → CellOut)
    (hf : t.params.mode.sequential = false → ∀ (i : Nat) (c : Cell), c.SameIn (f i c).cell (.half t.ctl.liveHalf.other)) :
    s.FrameSafe (arrayEvent f t) :=
  h.trans ((arrayEvent_outcome f t).frameSafe (h.sending hs) hm hf)

/-- A window finished while a half is frozen, under DISCARD: the live half is cleared, and the cycle reopens or ends (R100, R107). -/
theorem discardWindow_frameSafe (d : Descriptor) (s : State) (hs : s.Sending) (hm : s.measuring = true) :
    s.FrameSafe (discardWindow d s) := by
  obtain ⟨hq, hz⟩ := hs.measuring hm
  have hheld : s.ctl.state ≠ .held := fun h => by simp [State.measuring, h] at hm
  have hcells (i : Nat) (g : Cell → Cell) : (s.cells.map g)[i]? = (s.cells[i]?).map g := List.getElem?_map
  unfold discardWindow dealtWith
  split
  · refine State.FrameSafe.arrayEvent ?_ hs rfl _ ?_
    · refine State.SameRoles.cellsChanged ⟨rfl, rfl, rfl, rfl, rfl, ?_, rfl, ?_, hm.symm⟩ hs hm
        (fun _ c => (c.clearHalf s.ctl.liveHalf).clearFlags) (fun i => ?_) fun _ _ c =>
          (clearHalf_sameIn c _).trans (.of_segs rfl rfl rfl rfl _)
      · obtain ⟨e, he⟩ := Option.isSome_iff_exists.1 (hs.roles.descWhileMeasuring.trans hm)
        rw [he]
        exact congrArg some (hs.roles.modes.1 e he).symm
      · exact ⟨fun h => (by cases h), fun h => absurd h hheld⟩
      · show ((s.cells.map fun c => c.clearHalf s.ctl.liveHalf).map Cell.clearFlags)[i]? = _
        rw [List.map_map]
        exact hcells i _
    · intro hq i c
      simp only
      split
      · exact lineUpAtCell_sameIn _ _ _ _ hq
      · exact .refl c _
  · have hw : s.ctl.waiting = none := by
      rw [← Option.not_isSome_iff_eq_none, (hs.roles.continuous hq).2.1]
      exact hheld
    refine ⟨rfl, rfl, rfl, rfl, rfl, List.length_map .., fun z hzz i c hc => ?_, ?_⟩
    · rw [hz] at hzz
      cases hzz
      exact ⟨c.clearHalf s.ctl.liveHalf, (hcells i _).trans (by rw [hc]; rfl), clearHalf_sameIn c _⟩
    · refine ⟨hs.roles.frozenNotLive, hs.roles.frozenWhileSending, rfl, fun h => ?_, fun _ => ⟨(hs.roles.continuous hq).1, ?_, fun h => (by cases h)⟩,
        fun _ h => (by cases h), hs.roles.modes.2⟩
      · exact absurd (hq.symm.trans h) Bool.false_ne_true
      · show s.ctl.waiting.isSome = true ↔ _
        rw [hw]
        exact ⟨fun h => (by cases h), fun h => (by cases h)⟩

/-- A window finished while a half is frozen, under WAIT (R108). -/
theorem waitWindow_frameSafe (d : Descriptor) (s : State) (hs : s.Sending) (hm : s.measuring = true) (hd : d.mode = s.params.mode) :
    s.FrameSafe (waitWindow d s) := by
  obtain ⟨hq, hz⟩ := hs.measuring hm
  refine ⟨rfl, rfl, rfl, rfl, rfl, rfl, fun z _ i c hc => ⟨c, hc, .refl c z⟩, hs.roles.frozenNotLive, hs.roles.frozenWhileSending, rfl,
    fun h => absurd (hq.symm.trans h) Bool.false_ne_true, fun _ => ⟨(hs.roles.continuous hq).1, ⟨fun _ => rfl, fun _ => rfl⟩, fun _ => hs.frozen⟩,
    fun _ h => by (cases h), fun e h => by (cases h; exact hd), hs.roles.modes.2.2⟩

/-- The end of settling while a frame is in hand: the window is discarded or waits, since storage is frozen (R105). -/
theorem endSettling_frameSafe (s : State) (hs : s.Sending) (hm : s.measuring = true) : s.FrameSafe (endSettling s) := by
  have hr := comeToRest_frameSafe s hs hm
  have hs' := hr.sending hs
  have hm' : (comeToRest s).measuring = true := hm
  obtain ⟨e, he⟩ := Option.isSome_iff_exists.1 (hs.roles.descWhileMeasuring.trans hm)
  unfold endSettling
  rw [he]
  refine hr.trans ?_
  have hq := (hs'.measuring hm').1
  simp only [handOff, hq, Bool.false_eq_true, if_false, (hs'.measuring hm').2]
  split
  · exact discardWindow_frameSafe _ _ hs' hm'
  · exact waitWindow_frameSafe _ _ hs' hm' (hs.roles.modes.1 e he)

theorem considerEnd_frameSafe (s : State) (hs : s.Sending) : s.FrameSafe (considerEnd s) := by
  unfold considerEnd
  split
  · rename_i h
    refine endSettling_frameSafe s hs ?_
    simp only [State.mayEnd, Bool.and_eq_true, decide_eq_true_eq] at h
    simp [State.measuring, h.1.1]
  · exact .refl hs

/-! ### The settle cap -/

theorem capExpires_frameSafe (s : State) (hs : s.Sending) : s.FrameSafe (capExpires s) :=
  State.SameRoles.cellsKept ⟨rfl, rfl, rfl, rfl, rfl, onDesc_modes _ s fun _ => rfl, rfl, .rfl, rfl⟩ hs rfl

theorem truncateCounting_frameSafe (s : State) (hs : s.Sending) (hm : s.measuring = true) : s.FrameSafe (truncateCounting s) := by
  refine State.SameRoles.cellsChanged ⟨rfl, rfl, rfl, rfl, rfl, onDesc_modes _ s fun d => ?_, rfl, .rfl, rfl⟩ hs hm
    (truncateAtCell s.params s.ctl.liveHalf) (fun i => ?_) fun _ i c => ?_
  · generalize countingCells s = l
    induction l generalizing d with
    | nil => rfl
    | cons i l ih => exact ih (d.truncate i)
  · have := getElem?_mapCells (truncateAtCell s.params s.ctl.liveHalf) 0 i s.cells
    rwa [Nat.zero_add] at this
  · unfold truncateAtCell
    split
    · exact .of_segs rfl rfl rfl rfl _
    · exact .refl c _

theorem capExpiry_frameSafe (s : State) (hs : s.Sending) : s.FrameSafe (capExpiry s) := by
  unfold capExpiry
  split
  · rename_i h
    have hm : s.measuring = true := by
      simp only [State.capDue, Bool.and_eq_true, decide_eq_true_eq] at h
      simp [State.measuring, h.1.1]
    have h1 := capExpires_frameSafe s hs
    split
    · have h2 := truncateCounting_frameSafe (capExpires s) (h1.sending hs) hm
      exact (h1.trans h2).trans (endSettling_frameSafe _ (h2.sending (h1.sending hs)) hm)
    · exact h1
  · exact .refl hs

/-! ### The ticks and the holds -/

/-- A tick at the cells is out of the frame's reach. -/
theorem tickAtCell_frameSafe (s v : State) (parts : Nat → List TickPart) (late : Bool) (hs : v.Sending) (hm : v.measuring = true)
    (hp : v.params = s.params) (hh : v.ctl.liveHalf = s.ctl.liveHalf) : v.FrameSafe (onsetEvent (s.tickAtCell parts late) v) := by
  refine (onsetEvent_outcome _ v).frameSafe hs hm fun hq i c => ?_
  rw [tickAtCell_cell, hh]
  exact partsAtCell_sameIn s (parts i) i c (hp ▸ hq)

theorem onsetEvent_measuring (f : Nat → Cell → CellOut) (s : State) : (onsetEvent f s).measuring = s.measuring :=
  (onsetEvent_outcome f s).measuring

/-- A divider that restarts, stops or counts is no matter of the frame. -/
theorem State.Sending.withTicks {s : State} (hs : s.Sending) (k : TickGen) : s.FrameSafe { s with ticks := k } :=
  State.SameRoles.cellsKept ⟨rfl, rfl, rfl, rfl, rfl, rfl, rfl, .rfl, rfl⟩ hs rfl

theorem decayDelivered_frameSafe (s : State) (hs : s.Sending) (hm : s.measuring = true) : s.FrameSafe (decayDelivered s) := by
  have h := tickAtCell_frameSafe s s (decayParts s) (s.overAfter (decayParts s)) hs hm rfl rfl
  unfold decayDelivered
  simp only
  split
  · exact h.trans (endSettling_frameSafe _ (h.sending hs) ((onsetEvent_measuring ..).trans hm))
  · exact h

/-- A decay tick that waits is no matter of the frame. -/
theorem State.Sending.withWait {s : State} (hs : s.Sending) (b : Bool) : s.FrameSafe { s with decayWaits := b } :=
  State.SameRoles.cellsKept ⟨rfl, rfl, rfl, rfl, rfl, rfl, rfl, .rfl, rfl⟩ hs rfl

theorem decayTick_frameSafe (s : State) (hs : s.Sending) : s.FrameSafe (decayTick s) := by
  unfold decayTick
  split
  · have ht : s.FrameSafe s.decayRestarted := hs.withTicks _
    have hst := ht.sending hs
    refine ht.trans ?_
    cases hm : s.measuring
    · exact .refl hst
    · simp only [Bool.not_true, Bool.false_eq_true, if_false]
      split
      · exact hst.withWait true
      · split
        · exact tickAtCell_frameSafe _ _ _ _ hst hm rfl rfl
        · exact decayDelivered_frameSafe _ hst hm
  · exact .refl hs

/-- The rows that wait are no matter of the frame. -/
theorem State.Sending.withQueue {s : State} (hs : s.Sending) (q : List Instr) : s.FrameSafe { s with pending := q } :=
  State.SameRoles.cellsKept ⟨rfl, rfl, rfl, rfl, rfl, rfl, rfl, .rfl, rfl⟩ hs rfl

theorem dwellTaken_frameSafe (s : State) (hs : s.Sending) (hm : s.measuring = true) :
    s.FrameSafe (dwellTaken s) ∧ (dwellTaken s).measuring = true := by
  unfold dwellTaken
  set v : State := { s with
    tpg := s.tpg.tick
    ctl := { s.ctl with settleCount := if (dwellReached s).2 = .ends then s.ctl.settleCount else s.settleTicked }
    decayWaits := false } with hv
  have ht : s.FrameSafe v := State.SameRoles.cellsKept ⟨rfl, rfl, rfl, rfl, rfl, rfl, rfl, .rfl, rfl⟩ hs rfl
  exact ⟨ht.trans (tickAtCell_frameSafe s v _ _ (ht.sending hs) hm rfl rfl), (onsetEvent_measuring ..).trans hm⟩

theorem dwellDelivered_frameSafe (s : State) (hs : s.Sending) (hm : s.measuring = true) : s.FrameSafe (dwellDelivered s) := by
  obtain ⟨h, hm'⟩ := dwellTaken_frameSafe s hs hm
  refine h.trans ?_
  have hu := h.sending hs
  unfold dwellDelivered endAtTick
  split
  · exact .refl hu
  · exact endSettling_frameSafe _ hu hm'
  · split
    · exact capExpiry_frameSafe _ hu
    · exact endSettling_frameSafe _ hu hm'
  · exact capExpiry_frameSafe _ hu

theorem dwellTick_frameSafe (s : State) (hs : s.Sending) : s.FrameSafe (dwellTick s) := by
  unfold dwellTick
  split
  · have ht : s.FrameSafe s.dwellRestarted := hs.withTicks _
    have hst := ht.sending hs
    refine ht.trans ?_
    cases hm : s.measuring
    · exact .refl hst
    · simp only [Bool.not_true, Bool.false_eq_true, if_false]
      split
      · have hc := capExpiry_frameSafe _ hst
        split
        · rename_i h
          exact hc.trans (dwellDelivered_frameSafe _ (hc.sending hst) (by simp [State.measuring, h]))
        · exact hc
      · exact dwellDelivered_frameSafe _ hst hm
  · exact .refl hs

theorem onsetDelivered_frameSafe (s : State) (hs : s.Sending) (hm : s.measuring = true) : s.FrameSafe (onsetDelivered s) := by
  unfold onsetDelivered
  rw [foldl_takeReport]
  refine State.SameRoles.cellsChanged ⟨rfl, rfl, rfl, rfl, rfl, onDesc_modes _ _ fun _ => rfl, rfl, .rfl, rfl⟩ hs hm
    (fun i c => if s.crossing.ticked.contains i then c else onsetAtCell s.params s.ctl.liveHalf i c) (fun i => ?_) fun hq i c => ?_
  · have := getElem?_mapCells (fun i c => if s.crossing.ticked.contains i then c else onsetAtCell s.params s.ctl.liveHalf i c) 0 i s.cells
    rwa [Nat.zero_add] at this
  · split
    · exact .refl c _
    · exact onsetAtCell_sameIn _ _ i c hq

theorem State.SameRoles.trans {s t u : State} (h1 : s.SameRoles t) (h2 : t.SameRoles u) : s.SameRoles u :=
  ⟨h2.readout.trans h1.readout, h2.frozen.trans h1.frozen, h2.live.trans h1.live, h2.params.trans h1.params, h2.port.trans h1.port,
    h2.modes.trans h1.modes, h2.waiting.trans h1.waiting, h2.held.trans h1.held, h2.measuring.trans h1.measuring⟩

/-- An event that changes no cell and no role of storage and descriptors. -/
structure State.CellsApart (s t : State) : Prop where
  roles : s.SameRoles t
  cells : t.cells = s.cells

theorem State.CellsApart.refl (s : State) : s.CellsApart s := ⟨⟨rfl, rfl, rfl, rfl, rfl, rfl, rfl, .rfl, rfl⟩, rfl⟩

theorem State.CellsApart.trans {s t u : State} (h1 : s.CellsApart t) (h2 : t.CellsApart u) : s.CellsApart u :=
  ⟨h1.roles.trans h2.roles, h2.cells.trans h1.cells⟩

theorem State.CellsApart.frameSafe {s t : State} (h : s.CellsApart t) (hs : s.Sending) : s.FrameSafe t := h.roles.cellsKept hs h.cells

/-- A notice of a shed or a release at the controller. -/
theorem raiseCause_onDesc_apart (c : Cause) (f : Descriptor → Descriptor) (hf : ∀ d, (f d).mode = d.mode) (s : State) :
    s.CellsApart (raiseCause c (onDesc f s)) :=
  ⟨⟨rfl, rfl, rfl, rfl, rfl, onDesc_modes f s hf, rfl, .rfl, rfl⟩, rfl⟩

theorem shedNotice_apart (s : State) : s.CellsApart (shedNotice s) := by
  unfold shedNotice
  simp only
  split
  · exact raiseCause_onDesc_apart .shed (fun d => { d with shed := min 65535 (d.shed + 1) }) (fun _ => rfl) s
  · exact ⟨⟨rfl, rfl, rfl, rfl, rfl, onDesc_modes _ s fun _ => rfl, rfl, .rfl, rfl⟩, rfl⟩

theorem openGate_apart (ch : Channel) (s : State) : s.CellsApart (openGate ch s) := by
  unfold openGate
  split
  · exact .refl s
  · cases ch <;> exact ⟨⟨rfl, rfl, rfl, rfl, rfl, rfl, rfl, .rfl, rfl⟩, rfl⟩

theorem shedHold_apart (ch : Channel) (s : State) : s.CellsApart (shedHold ch s) := by
  unfold shedHold
  split
  · exact .refl s
  · exact (openGate_apart ch s).trans (shedNotice_apart _)

theorem expireHold_apart (ch : Channel) (s : State) : s.CellsApart (expireHold ch s) := by
  unfold expireHold
  split
  · exact .refl s
  · exact (openGate_apart ch s).trans 
      (raiseCause_onDesc_apart .release (fun d => { d with released := min 65535 (d.released + 1) }) (fun _ => rfl) _)

theorem shutWindow_apart (cause : CloseCause) (s : State) (hm : s.measuring = true) : s.CellsApart (shutWindow cause s) := by
  have hheld : s.ctl.state ≠ .held := fun h => by simp [State.measuring, h] at hm
  have hb : s.CellsApart (beginClose cause s) := by
    refine ⟨⟨rfl, rfl, rfl, rfl, rfl, ?_, rfl, ⟨fun h => (by cases h), fun h => absurd h hheld⟩, hm.symm⟩, rfl⟩
    exact onDesc_modes (fun d => { d with closeCause := cause, windowLength := s.ctl.windowCount }) s fun _ => rfl
  exact hb.trans ((shedHold_apart .read _).trans (shedHold_apart .write _))

theorem closeAtLength_frameSafe (s : State) (hs : s.Sending) (hm : s.measuring = true) : s.FrameSafe (closeAtLength s) := by
  have h := (shutWindow_apart .timer s hm).frameSafe hs
  unfold closeAtLength closeWindowAs
  split
  · exact h
  · exact h.trans (considerEnd_frameSafe _ (h.sending hs))

theorem onsetTick_frameSafe (s : State) (hs : s.Sending) : s.FrameSafe (onsetTick s) := by
  unfold onsetTick
  split
  · have ht : s.FrameSafe s.onsetRestarted := hs.withTicks { s.ticks with onset := s.ticks.onset.restart }
    have hst := ht.sending hs
    refine ht.trans ?_
    by_cases hm : s.ctl.state = .opened
    · simp only [hm, if_true]
      have hm' : s.measuring = true := by simp [State.measuring, hm]
      have hd := onsetDelivered_frameSafe _ hst hm'
      split
      · refine hd.trans (closeAtLength_frameSafe _ (hd.sending hst) ?_)
        rename_i h
        simp only [State.timerAtLength, Bool.and_eq_true, decide_eq_true_eq] at h
        simp [State.measuring, h.1.1]
      · exact hd
    · simp only [hm, if_false]; exact .refl hst
  · exact .refl hs

/-! ### One TBCLK period -/

theorem happenIn_frameSafe (n : Nat) (s : State) (d : Due) (hs : s.Sending) : s.FrameSafe (happenIn n s d) := by
  unfold happenIn
  split
  · cases d with
    | decay => exact decayTick_frameSafe s hs
    | dwell => exact dwellTick_frameSafe s hs
    | onset => exact onsetTick_frameSafe s hs
    | hold ch => exact (expireHold_apart ch s).frameSafe hs
  · exact .refl hs

theorem happenAll_frameSafe (n : Nat) (l : List Due) (s : State) (hs : s.Sending) : s.FrameSafe (happenAll n l s) := by
  induction l generalizing s with
  | nil => exact .refl hs
  | cons d l ih =>
    have hq := hs.withQueue (l.map Due.row)
    have h := hq.trans (happenIn_frameSafe n _ d (hq.sending hs))
    exact h.trans (ih _ (h.sending hs))

/-- A TBCLK period is out of the frame's reach. -/
theorem tbclkPeriod_frameSafe (s : State) (hs : s.Sending) : s.FrameSafe (tbclkPeriod s) := by
  have hc : s.FrameSafe (countPeriod s) := (⟨⟨rfl, rfl, rfl, rfl, rfl, rfl, rfl, .rfl, rfl⟩, rfl⟩ : s.CellsApart (countPeriod s)).frameSafe hs
  unfold tbclkPeriod
  split
  · exact hc
  · rename_i d l _
    have hf : s.FrameSafe { countPeriod s with free := s.free + 1 } :=
      (⟨⟨rfl, rfl, rfl, rfl, rfl, rfl, rfl, .rfl, rfl⟩, rfl⟩ : s.CellsApart { countPeriod s with free := s.free + 1 }).frameSafe hs
    have hl := hf.trans (happenAll_frameSafe s.ctl.nextFrame (anyOrder (2 * s.free) (d :: l)) _ (hf.sending hs))
    have hq := hl.trans ((hl.sending hs).withQueue [])
    have hc := hq.trans (capExpiry_frameSafe _ (hq.sending hs))
    exact hc.trans ((hc.sending hs).withQueue s.pending)

/-- Before the delivery of a byte the period that has had one passes: the frame in hand is out of its reach, and FSTB is deasserted
then (R127, log 3). -/
theorem periodOfDelivery_frameSafe (s : State) (hs : s.Sending) :
    s.FrameSafe (periodOfDelivery s) ∧ (periodOfDelivery s).pins.fstb = false ∧ (periodOfDelivery s).pins.fd = s.pins.fd := by
  unfold periodOfDelivery
  split
  · have hq := hs.withQueue []
    have hc := hq.trans (capExpiry_frameSafe _ (hq.sending hs))
    have ht := hc.trans (tbclkPeriod_frameSafe _ (hc.sending hs))
    refine ⟨ht.trans ((ht.sending hs).withQueue s.pending), ?_, ?_⟩
    · show (tbclkPeriod _).pins.fstb = false
      rw [tbclkPeriod_port]
    · show (tbclkPeriod _).pins.fd = s.pins.fd
      rw [tbclkPeriod_port, (capExpiry_keeps _).pins]
  · rename_i h
    exact ⟨.refl hs, Bool.eq_false_iff.2 h, rfl⟩

/-! ### What the frame is made of -/

/-- The value word of a cell is made of its frozen counters (R193). -/
theorem valueWord_sameIn (m : Mode) (z : Frozen) (c d : Cell) (hz : m.sequential = true → z = .whole) (h : c.SameIn d z)
    (hw : m.sequential = false → z ≠ .whole) (k : Half) (hk : ∀ j, z = .half j → k = j) : valueWord m k d = valueWord m k c := by
  cases hm : m.sequential
  · cases z with
    | whole => exact absurd rfl (hw hm)
    | half j =>
      rw [hk j rfl]
      cases j <;> cases m <;> first | (cases hm; done) | skip
      all_goals simp [valueWord, Cell.quantity, Mode.places, Half.seg12, Half.seg4, Cell.segsValue, Cell.seg, h.1, h.2]
  · rw [hz hm] at h
    obtain ⟨h0, h1, h2, h3⟩ := h
    cases m <;> first | (cases hm; done) | skip
    all_goals simp [valueWord, Cell.quantity, Mode.places, Cell.segsValue, Cell.seg, h0, h1, h2, h3]

theorem valueWord_reset (m : Mode) (k : Half) : valueWord m k Cell.reset = 0 := by cases m <;> cases k <;> decide

/-- The value words of a bank, which an event out of the frame's reach leaves as they are. -/
theorem State.FrameSafe.words {s t : State} (h : s.FrameSafe t) (hs : s.Sending) (b : Nat) :
    (t.bankOf b).map (valueWord s.params.mode t.frozenHalf) = (s.bankOf b).map (valueWord s.params.mode s.frozenHalf) := by
  obtain ⟨z, hz⟩ := Option.isSome_iff_exists.1 hs.frozen
  have hq : s.params.mode.sequential = true → z = .whole := fun hq => by
    have hr := hs.roles.sequential hq
    by_cases hh : s.ctl.state = .held
    · rw [hr.1 hh] at hz; cases hz; rfl
    · rw [hr.2.1 hh] at hz; cases hz
  have hc : s.params.mode.sequential = false → z ≠ .whole := fun hq hw => (hs.roles.continuous hq).1 (hw ▸ hz)
  have hk : t.frozenHalf = s.frozenHalf := by unfold State.frozenHalf; rw [h.frozen]
  have hj : ∀ j, z = .half j → s.frozenHalf = j := fun j hj => by unfold State.frozenHalf; rw [hz, hj]
  have hcell (i : Nat) : (t.cells[i]?).map (valueWord s.params.mode s.frozenHalf)
      = (s.cells[i]?).map (valueWord s.params.mode s.frozenHalf) := by
    cases hi : s.cells[i]? with
    | none => rw [List.getElem?_eq_none (h.length ▸ List.getElem?_eq_none_iff.1 hi)]
    | some c =>
      obtain ⟨d, hd, hcd⟩ := h.cells z hz i c hi
      rw [hd, Option.map_some, Option.map_some, valueWord_sameIn _ z c d hq hcd hc _ hj]
  rw [hk]
  refine List.ext_getElem? fun i => ?_
  simp only [State.bankOf, List.getElem?_map, List.getElem?_take, List.getElem?_drop]
  split
  · exact hcell _
  · rfl

/-- What a frame in hand is still to send is out of the reach of such an event: the kind of a bank, its record, and the next byte. -/
theorem State.FrameSafe.frame {s t : State} (h : s.FrameSafe t) (hs : s.Sending) (f : Frame) (hf : f.desc.mode = s.params.mode) :
    (∀ b, bankKind t f b = bankKind s f b) ∧ (∀ b, f.bankRecord t b = f.bankRecord s b) ∧ nextByte t f = nextByte s f := by
  have hw (b : Nat) := h.words hs b
  have hrec (u : State) (b : Nat) : (u.bankOf b).map (fun c => valueWord f.desc.mode u.frozenHalf c)
      = (u.bankOf b).map (valueWord s.params.mode u.frozenHalf) := by rw [hf]
  refine ⟨fun b => ?_, fun b => ?_, ?_⟩
  · have hall (u : State) : (u.bankOf b).all (fun c => valueWord f.desc.mode u.frozenHalf c == 0)
        = ((u.bankOf b).map (valueWord s.params.mode u.frozenHalf)).all (· == 0) := by
      rw [List.all_map, hf]
      rfl
    unfold bankKind
    rw [hall, hall, hw]
  · unfold Frame.bankRecord
    rw [hrec, hrec, hw]
  · unfold nextByte valueByte
    have hget (u : State) (b j : Nat) : valueWord f.desc.mode u.frozenHalf ((u.bankOf b).getD j Cell.reset)
        = ((u.bankOf b).map (valueWord s.params.mode u.frozenHalf)).getD j 0 := by
      rw [hf]
      simp only [List.getD_eq_getElem?_getD, List.getElem?_map]
      cases (u.bankOf b)[j]? with
      | some c => rfl
      | none => exact valueWord_reset _ _
    simp only [hget, hw]

/-- A delivery while a frame is in hand: the period that has had its byte passes, out of the frame's reach, and the next byte of the frame
is delivered (R127). -/
theorem deliverByte_frame (f : Frame) (s : State) (hs : s.Sending) (hf : s.readout.frame = some f) :
    ∃ u, s.FrameSafe u ∧ u.pins.fstb = false ∧ u.pins.fd = s.pins.fd ∧ deliverByte s = deliver (decideKind s f) u := by
  obtain ⟨h, h1, h2⟩ := periodOfDelivery_frameSafe s hs
  refine ⟨periodOfDelivery s, h, h1, h2, ?_⟩
  have hk : decideKind (periodOfDelivery s) f = decideKind s f := by
    unfold decideKind
    split
    · rw [(h.frame hs f (hs.roles.modes.2.2 f hf)).1]
    · rfl
  unfold deliverByte
  simp only [h.readout, hf, hk]

end Sys2Proof.Machine
end

