-- ==== Sys2Proof/WellFormed.lean ====
section
/-! DEFINITION. Which operands a command can carry: what the port or the channel can present at all. A request with a
wrong length or argument is well formed (it is refused by its rule); these checks are about what cannot be sent. -/

namespace Sys2Proof

/-- The declared length is one byte (R154). -/
def wfArgs (args : List Byte) : Bool := decide (args.length ≤ 255)

/-- The ranges of a handshake: 1..256 beats, 1..128 bytes a beat (R49); address and ID have their widths by type. -/
def wfHandshake (h : Handshake) : Bool :=
  decide (1 ≤ h.beats) && decide (h.beats ≤ 256) && decide (1 ≤ h.size) && decide (h.size ≤ 128)

/-- Whether a command's operands can occur. -/
def Instr.wellFormed : Instr → Bool
  | .nop args => wfArgs args
  | .getStatus args => wfArgs args
  | .setParam args => wfArgs args
  | .getParam args => wfArgs args
  | .setFilter args => wfArgs args
  | .getFilter args => wfArgs args
  | .loadBank args => wfArgs args
  | .readBank args => wfArgs args
  | .fetchResult args => wfArgs args
  | .probeCell args => wfArgs args
  | .openWindow args => wfArgs args
  | .closeWindow args => wfArgs args
  | .inject args => wfArgs args
  | .abortReadout args => wfArgs args
  | .clearAttention args => wfArgs args
  | .softReset args => wfArgs args
  | .unknownCommand code args => wfArgs args && decide (code ∉ Machine.commandCodes)
  | .badCheckRequest code args check => wfArgs args && decide (check ≠ Machine.requestCheck code args)
  | .transactionStart => true
  | .truncatedRequest bits => decide (1 ≤ bits)
  | .responseAbandoned => true
  | .transactionEnd => true
  | .rstNAsserted => true
  | .rstNDeasserted => true
  | .aresetNAsserted => true
  | .handshakePresented rd wr =>
    (rd.isSome || wr.isSome) && rd.all wfHandshake && wr.all wfHandshake
  | .holdTimerExpiry _ => true
  | .recordTake => true
  | .recordApplied => true
  | .decayTick => true
  | .dwellTick => true
  | .onsetTick => true
  | .windowTimerExpiry => true
  | .settleCapExpiry => true
  | .pulseEnd => true
  | .winNFallingEdge => true
  | .winNRisingEdge => true
  | .auxAsserted _ => true
  | .auxDeasserted _ => true
  | .frameByteDelivery => true
  | .loadStep => true
  | .readStep => true
  | .responseSent => true

end Sys2Proof
end

