-- ==== Sys2Proof/Tests/Slice0.lean ====
section
/-! SUPPORT. Tests: the smoke test of the well-formedness checks, the worked examples of the spec, and for every obligation
with hypotheses a witness: a concrete state and operands that meet them, clause by clause, at the ends of their ranges. The
expected values come from the rules and the examples named in the comments. -/

namespace Sys2Proof.Tests

open Sys2Proof Sys2Proof.Machine

-- The tests are elaborated one after another: each waits for the kernel, and a thread for each of them would ask for too much.
set_option Elab.async false

/-! ## Well-formedness refuses what cannot be sent -/

theorem test_wf_takes_255_argument_bytes : (Instr.nop (List.replicate 255 0)).wellFormed = true := by decide +kernel

theorem test_wf_refuses_256_argument_bytes : (Instr.nop (List.replicate 256 0)).wellFormed = false := by decide +kernel

theorem test_wf_refuses_a_known_code_as_unknown : (Instr.unknownCommand 0x5A []).wellFormed = false := by decide +kernel

theorem test_wf_refuses_a_right_check_as_bad : (Instr.badCheckRequest 0x11 [0x32] 0x42).wellFormed = false := by decide +kernel

theorem test_wf_refuses_a_truncation_before_the_first_bit : (Instr.truncatedRequest 0).wellFormed = false := by decide

theorem test_wf_refuses_no_handshake : (Instr.handshakePresented none none).wellFormed = false := by decide

/-- A handshake of the largest burst. -/
def burst : Handshake := { addr := 0, id := 0, beats := 256, size := 128 }

theorem test_wf_takes_the_largest_burst : (Instr.handshakePresented (some burst) none).wellFormed = true := by decide

theorem test_wf_refuses_a_burst_of_0_beats : (Instr.handshakePresented (some { burst with beats := 0 }) none).wellFormed = false := by
  decide

theorem test_wf_refuses_a_burst_of_257_beats :
    (Instr.handshakePresented none (some { burst with beats := 257 })).wellFormed = false := by decide

theorem test_wf_refuses_a_beat_of_0_bytes : (Instr.handshakePresented (some { burst with size := 0 }) none).wellFormed = false := by
  decide

theorem test_wf_refuses_a_beat_of_129_bytes :
    (Instr.handshakePresented none (some { burst with size := 129 })).wellFormed = false := by decide

/-! ## Formats: the check values and examples of R130, R156 and Chapter 10 -/

/-- The nine characters "123456789". -/
def digits : List Byte := [0x31, 0x32, 0x33, 0x34, 0x35, 0x36, 0x37, 0x38, 0x39]

/-- R156: 0xF4. -/
theorem test_crc8_of_the_digits : crc8 digits = 0xF4 := by decide +kernel

/-- R130, R192: 0xCBF43926. -/
theorem test_crc32_of_the_digits : crc32 digits = 0xCBF43926 := by decide +kernel

/-- Section 10.6.1: NOP is 01 00 15. -/
theorem test_check_of_nop : requestCheck 0x01 [] = 0x15 := by decide +kernel

/-- Section 10.6.1: GET_PARAM of THRESHOLD is 11 01 32 42. -/
theorem test_check_of_get_param : requestCheck 0x11 [0x32] = 0x42 := by decide +kernel

/-- Section 10.1: 512, 10000 and 0x8_0000_0000 as sent. -/
theorem test_numbers_as_sent :
    beBytes 2 512 = [0x02, 0x00] ∧ beBytes 3 10000 = [0x00, 0x27, 0x10] ∧ beBytes 5 0x800000000 = [0x08, 0x00, 0x00, 0x00, 0x00] := by
  decide +kernel

/-- Section 10.1: trim −3 is 0b11101. -/
theorem test_trim_as_sent : CellConfig.encode { mask := false, test := false, trim := -3 } = 0x1D := by decide

/-- R191: bit 5 is test, bit 6 is mask, bit 7 is not a valid encoding. -/
theorem test_config_byte_fields :
    CellConfig.decode 0x3D = some { mask := false, test := true, trim := -3 }
      ∧ CellConfig.decode 0x4F = some { mask := true, test := false, trim := 15 } ∧ CellConfig.decode 0x9D = none := by decide

/-- R194: the highest valid number of MODE is 7, and an identifier outside the table names no parameter. -/
theorem test_parameter_codes : Mode.decode 7 = some .conAc16 ∧ Mode.decode 8 = none ∧ ParamId.ofByte 0x32 = some .threshold
    ∧ ParamId.ofByte 0x33 = some .trimStep ∧ ParamId.ofByte 0x00 = none := by decide

/-! ## States for the tests -/

/-- The part in a transaction that awaits its request. -/
def listening : State :=
  { State.reset with pins := { State.reset.pins with mcsLow := true }, port := { Port.reset with decoder := .receiving } }

/-- A descriptor just after an open by command. -/
def fresh : Descriptor := newDescriptor .command State.reset

/-- The part with a controller state, a descriptor and a few cells, awaiting a request. -/
def during (st : CtlState) (d : Option Descriptor) (cells : List Cell) : State :=
  { listening with
    ctl := { Controller.reset with state := st, desc := d }
    cells := cells
    ticks := {
      decay := { running := decide (d.isSome = true), count := 0 }
      dwell := { running := decide (d.isSome = true), count := 0 }
      onset := { running := decide (st = .opened), count := 0 } } }

/-- An OPEN window. -/
def openWith (cells : List Cell) : State := during .opened (some fresh) cells

/-- A SETTLING window. -/
def settlingWith (cells : List Cell) : State := during .settling (some fresh) cells

/-- A HOT cell, unmasked. -/
def hotCell : Cell := { Cell.reset with activity := .hot, level := 600, onsetSeen := true }

/-- An OPEN window under TIMER with WIN_LEN 3, one cell HOT, at a window length count. -/
def nearLength (n : Nat) : State :=
  { openWith [hotCell] with
    params := { Params.reset with winSrc := .timer, winLen := 3 }, ctl := { (openWith []).ctl with windowCount := n } }

/-- A handshake in force at a gate. -/
def held : Hold := { handshake := burst, record := { cell := 0, weight := 256 }, limit := 256, timer := 0 }

/-- A queue that is full. -/
def fullQueue : CaptureQueue := { records := List.replicate 32 { cell := 1, weight := 1 }, history := .write }

/-- What a command answers, read through one field. -/
def after {α : Type} (c : Instr) (s : State) (f : State → α) : Option α :=
  match exec c s with
  | .next t => some (f t)
  | _ => none

/-- The status and data of the response after a request. -/
def answer (c : Instr) (s : State) : Option (Status × List Byte) :=
  (after c s fun t => t.port.response.map fun r => (r.status, r.data)).join

/-! ## Reset (R2, R29, R72, R116, R154, R175, R194) -/

theorem test_reset_state : State.reset.ctl.state = .idle ∧ State.reset.ctl.nextFrame = 0 ∧ State.reset.ctl.liveHalf = .h0
    ∧ State.reset.port.decoder = .deselected ∧ State.reset.queue = { records := [], history := .write }
    ∧ State.reset.ticks.decay = { running := false, count := 0 } := by decide +kernel

theorem test_reset_parameters : State.reset.params.read .threshold = 512 ∧ State.reset.params.read .winLen = 10000
    ∧ State.reset.params.read .mapGranule = 12 ∧ State.reset.params.read .zeroSuppress = 1 := by decide +kernel

/-! ## One command each, by the examples -/

/-- Section 10.6.1: NOP is answered 00 00 00. -/
theorem test_nop : after (.nop []) listening (fun t => t.port.response) = some (some { status := .ok, data := [], check := 0 }) := by
  decide +kernel

/-- Section 10.6.1: the answer to GET_PARAM of THRESHOLD is 00 02 02 00 FC. -/
theorem test_get_param : after (.getParam [0x32]) listening (fun t => t.port.response) =
    some (some { status := .ok, data := [0x02, 0x00], check := 0xFC }) := by decide +kernel

/-- Section 10.6.1: 11 01 32 43 is refused, with COMMAND_FAULT and the record 0x11, BAD_CHECK. -/
theorem test_bad_check : after (.badCheckRequest 0x11 [0x32] 0x43) listening (fun t => (t.attn, t.port.lastRefusal)) =
    some (0x80, some { code := 0x11, status := .badCheck }) := by decide +kernel

/-- R168 check 4: 4096 is out of THRESHOLD's range 1..4095; 4095 is in it. -/
theorem test_set_param : answer (.setParam [0x32, 0x10, 0x00]) listening = some (.badArg, [])
    ∧ after (.setParam [0x32, 0x0F, 0xFF]) listening (fun t => t.params.threshold) = some 4095 := by decide +kernel

/-- R60: an entry in the eighth place. -/
theorem test_set_filter : after (.setFilter [0x07, 0x19, 0x00, 0xF0, 0x0F, 0xF0]) listening (fun t => t.filter[7]?) =
    some (some { valid := true, idValue := 0x0F0, idMask := 0xFF0, direction := .read, action := .ignore, shift := 1, hits := 0 }) := by
  decide +kernel

/-- R61: an entry after RST_N: invalid, ANY, COUNT, shift 0. -/
theorem test_get_filter : answer (.getFilter [0x00]) listening = some (.ok, [0x04, 0, 0, 0, 0, 0, 0, 0, 0]) := by decide +kernel

/-- R23: BUSY, WRONG_STATE and the length of an array bank. -/
theorem test_load_bank : answer (.loadBank (0x40 :: [0, 0, 0, 0])) (openWith []) = some (.wrongState, [])
    ∧ answer (.loadBank (0x00 :: [0, 0, 0, 0])) listening = some (.badLength, []) := by decide +kernel

/-- R24: the step of a slot configures its cell alone. -/
theorem test_load_step :
    after .loadStep { listening with cells := List.replicate 3 Cell.reset, engine := { CellEngine.reset with op := .loading 0 1 [0x7F, 0x3D] } }
      (fun t => t.cells) = some [Cell.reset, { Cell.reset with test := true, trim := -3 }, Cell.reset] := by decide +kernel

/-- R25, R26: a read that is under way, and its last step. -/
theorem test_read_bank : answer (.fetchResult []) { listening with engine := { CellEngine.reset with op := .reading 0 5 } } = some (.busy, [])
    ∧ after (.readBank [0x40]) listening (fun t => t.engine.op) = some (.reading 64 0) := by decide +kernel

/-- R4: with DEEP_MASK ON the reported trim of a masked cell is 15. -/
theorem test_read_step :
    after .readStep
      { listening with
        cells := [{ Cell.reset with mask := true, trim := -4 }]
        params := { Params.reset with deepMask := true }
        engine := { CellEngine.reset with op := .reading 0 0 } }
      (fun t => (t.engine.op, t.engine.result.entries)) = some (.reading 0 1, [{ mask := true, test := false, trim := 15 }]) := by
  decide +kernel

/-- R150: the probe of cell 0 of an OPEN window at level 500: the last byte of its four quantities is the live dwell's word. -/
theorem test_probe : answer (.probeCell [0x00, 0x00]) (openWith [{ hotCell with level := 500, trim := -3, seg0 := 60 }]) =
    some (.ok, [0, 0, 0xFD, 0x1D, 0x01, 0xF4, 0x03, 0x00, 0, 0, 0, 60, 0, 0, 0, 0, 0, 0, 0, 0, 0, 0, 0, 0]) := by decide +kernel

/-- R164, section 10.2.4: the first bytes of the snapshot of an OPEN window. -/
theorem test_get_status : (answer (.getStatus []) (openWith [])).map (fun r => (r.2.length, r.2.take 2)) = some (27, [0x01, 0x00]) := by
  decide +kernel

/-- R76: an open by command counts the frame number on. -/
theorem test_open_window : after (.openWindow []) (during .idle none [Cell.reset]) (fun t => (t.ctl.state, t.ctl.nextFrame)) =
    some (.opened, 1) := by decide +kernel

/-- R77, R86: the close of a window in which nothing is queued and nothing counts ends settling at once, and a sequential mode is HELD. -/
theorem test_close_window : after (.closeWindow []) (openWith [Cell.reset]) (fun t => (t.ctl.state, t.ctl.frozen)) =
    some (.held, some .whole) := by decide +kernel

/-- R79: an open that is missed. -/
theorem test_missed_open :
    after .winNFallingEdge { openWith [] with params := { Params.reset with winSrc := .line } } (fun t => (t.ctl.missedOpens, t.attn)) =
      some (1, 0x40) := by decide +kernel

/-- R75: the rising edge closes with cause LINE; a counting cell keeps the window SETTLING. -/
theorem test_line_close :
    after .winNRisingEdge { openWith [hotCell] with params := { Params.reset with winSrc := .line } }
      (fun t => (t.ctl.state, t.ctl.desc.map Descriptor.closeCause)) = some (.settling, some .line) := by decide +kernel

/-- R140, R141: a pulse on the direct path turns the test cell HOT and no other. -/
theorem test_inject : after (.inject []) (openWith [Cell.reset, { Cell.reset with test := true }])
    (fun t => (t.tpg, t.cells.map Cell.activity)) = some (.active 50, [.cold, .hot]) := by decide +kernel

/-- R139, R143: the tick that leaves none remaining ends the pulse; with two remaining the row cannot occur. -/
theorem test_pulse_end : after .pulseEnd { openWith [] with tpg := .active 1 } (fun t => t.tpg) = some .idle
    ∧ after .pulseEnd { openWith [] with tpg := .active 2 } (fun t => t.tpg) = some (.active 2)
    ∧ after .dwellTick { openWith [] with tpg := .active 1023 } (fun t => t.tpg) = some (.active 1022) := by decide +kernel

/-- R143: under DIRECT the pulse end turns the test cell COLD, in whichever order the cell takes it and the tick. -/
theorem test_pulse_end_cell : (pulseEndAtCell Params.reset 0 { hotCell with test := true, level := 0 }).cell.activity = .cold
    ∧ (pulseEndAtCell Params.reset 0 hotCell).cell.activity = .hot := by decide +kernel

/-- R183: a clear of one cause of two. -/
theorem test_clear_attention : after (.clearAttention [0x04]) { listening with attn := 0x84 } (fun t => t.attn) = some 0x80 := by
  decide +kernel

/-- R172: the soft reset keeps the configuration and the parameters. -/
theorem test_soft_reset :
    after (.softReset []) { openWith [{ hotCell with trim := 7 }] with params := { Params.reset with threshold := 100 } }
      (fun t => (t.ctl.state, t.cells, t.params.threshold)) = some (.idle, [{ Cell.reset with trim := 7 }], 100) := by decide +kernel

/-- R173, R180, R184: a cause that reaches the Attention Unit after the clear or the reset is pending after it. -/
theorem test_late_causes :
    after (.clearAttention [0x12]) { listening with attn := 0x14, arriving := 0x02 } (fun t => (t.attn, t.arriving)) = some (0x06, 0)
      ∧ after (.softReset []) { listening with attn := 0x14, arriving := 0x40 } (fun t => (t.attn, t.arriving)) = some (0x40, 0) := by
  decide +kernel

/-- R157, R190: a code that is none of the sixteen. -/
theorem test_unknown : after (.unknownCommand 0x03 []) listening (fun t => t.port.lastRefusal) =
    some (some { code := 0x03, status := .unknown }) := by decide +kernel

/-- R159: a truncated request sets COMMAND_FAULT and is not answered. -/
theorem test_truncated : after (.truncatedRequest 9) listening (fun t => (t.attn, t.port.decoder)) = some (0x80, .deselected) := by
  decide +kernel

/-- R176: a selection that began before the release of RST_N is ignored. -/
theorem test_release_while_selected :
    after .rstNDeasserted { listening with pins := { listening.pins with rstLow := true } } (fun t => t.port.decoder) =
      some .ignoring := by decide +kernel

/-- R51: a handshake withdrawn by ARESET_N is released and does not pass. -/
theorem test_areset :
    after .aresetNAsserted { openWith [] with path := { ThroughPath.reset with rd := some held } }
      (fun t => (t.path.rd, t.path.memRd, t.ctl.desc.map Descriptor.released)) = some (none, none, some 1) := by decide +kernel

/-- R68: a hold whose timer expires lets its handshake pass. -/
theorem test_hold_expiry :
    after (.holdTimerExpiry .read) { openWith [] with path := { ThroughPath.reset with rd := some held } }
      (fun t => (t.path.memRd, t.attn)) = some (some burst, 0x08) := by decide +kernel

/-- The filter table of the example of section 3.6. -/
def exampleTable : List FilterEntry :=
  [{ valid := true, idValue := 0x0F0, idMask := 0xFF0, direction := .any, action := .ignore, shift := 0, hits := 0 },
   { valid := true, idValue := 0x0A0, idMask := 0xFF0, direction := .write, action := .count, shift := 1, hits := 0 },
   { valid := true, idValue := 0, idMask := 0, direction := .read, action := .count, shift := 0, hits := 0 }]

/-- The state of the example of section 3.6. -/
def exampleTap : State :=
  { openWith [] with
    filter := exampleTable
    params := { Params.reset with mapBase := 0x800000000, bankGate := 0x80, defaultAction := .ignore } }

/-- Section 3.6: the records and hit counts of a handshake pair, cell 291 with weight 32 and cell 114 with weight 4. -/
theorem test_example_observations :
    after (.handshakePresented (some { addr := 0x800072040, id := 0x123, beats := 4, size := 4 })
        (some { addr := 0x800123450, id := 0x0A5, beats := 16, size := 4 })) exampleTap
      (fun t => (t.queue.records, t.filter.map FilterEntry.hits)) =
      some ([{ cell := 114, weight := 4 }, { cell := 291, weight := 32 }], [0, 1, 1]) := by decide +kernel

/-- Section 3.6: the read of cell 448 is discarded as gated, with a hit. -/
theorem test_example_gated :
    after (.handshakePresented (some { addr := 0x8001C0000, id := 0x012, beats := 8, size := 4 }) none) exampleTap
      (fun t => (t.queue.records, t.filter.map FilterEntry.hits)) = some ([], [0, 0, 1]) := by decide +kernel

/-- R55: a burst of 16 beats under COMPRESSED with shift 1 weighs (1 + 4) × 2. -/
theorem test_compressed_weight : weightBase .compressed 16 * 2 ^ 1 = 10 ∧ weightBase .compressed 4 = 3 ∧ weightBase .compressed 256 = 9 := by
  decide

/-- Section 3.9 at 90: the slot that frees goes to WRITE, since the history names READ. -/
theorem test_example_slot :
    after .recordTake
      { openWith [] with
        queue := { fullQueue with history := .read }
        path := { ThroughPath.reset with rd := some held, wr := some held } }
      (fun t => (t.path.rd.isSome, t.path.wr.isSome, t.queue.history, t.queue.records.length)) = some (true, false, .write, 32) := by
  decide +kernel

/-- The cell of the example of section 1.13 before its event 4, in a window. -/
def exampleCell : Cell := { Cell.reset with trim := -3, level := 376 }

/-- Section 1.13, event 4: the record takes the level to 504; onset, first report, episode 1. -/
theorem test_example_onset :
    recordAtCell Params.reset .h0 false 128 1234 exampleCell =
      { cell := { exampleCell with level := 504, activity := .hot, onsetSeen := true }, report := true, notices := [.becameHot] } := by
  decide +kernel

/-- Section 1.13, events 6 and 7: 488 stays HOT, 480 turns COLD. -/
theorem test_example_cooling :
    (decayAtCell Params.reset .h0 false 1234 { hotCell with trim := -3, level := 496 }).notices = []
      ∧ (decayAtCell Params.reset .h0 false 1234 { hotCell with trim := -3, level := 488 }).notices = [.becameCold] := by
  decide +kernel

/-- R3: the clamp of the effective threshold at 1 and at 4095. -/
theorem test_threshold_clamp :
    Cell.effTh { Params.reset with threshold := 10, trimStep := 16 } { Cell.reset with trim := -16 } = 1
      ∧ Cell.effTh { Params.reset with threshold := 4095 } { Cell.reset with trim := 15 } = 4095
      ∧ Cell.effTh Params.reset exampleCell = 500 := by decide +kernel

/-- R7 through the command: the application completes and the record leaves the engine. -/
theorem test_record_applied :
    after .recordApplied { openWith [Cell.reset] with engine := { CellEngine.reset with applying := some { cell := 0, weight := 256 } } }
      (fun t => (t.cells.map Cell.level, t.engine.applying)) = some ([256], none) := by decide +kernel

/-- R8: a decay tick takes 8 from a level and stops at 0. -/
theorem test_decay_tick :
    after .decayTick (openWith [{ Cell.reset with level := 256 }, { Cell.reset with level := 5 }]) (fun t => t.cells.map Cell.level) =
      some [248, 0] := by decide +kernel

/-- R40: a dwell tick counts in the HOT cell. -/
theorem test_dwell_tick :
    after .dwellTick (openWith [hotCell, Cell.reset]) (fun t => t.cells.map fun c => c.quantity .seqDw12On20 .h0 .dwell) = some [1, 0] := by
  decide +kernel

/-- R44: an onset tick counts where the onset was seen, and the window length with it. -/
theorem test_onset_tick :
    after .onsetTick (openWith [hotCell, Cell.reset])
      (fun t => (t.cells.map fun c => c.quantity .seqDw12On20 .h0 .onset, t.ctl.windowCount)) = some ([1, 0], 1) := by decide +kernel

/-- R33, R44 note, R97, R98: of two first onsets together with a tick, cell 1 has taken the tick before its onset, and its report comes
after the tick at the controller. -/
theorem test_onsets_at_a_tick :
    after .onsetTick
      { openWith [hotCell, hotCell] with
        ctl := { (openWith []).ctl with desc := some { fresh with onsets := [{ cell := 0, offset := 0 }] } }
        crossing := { reports := [1], ticked := [1] } }
      (fun t => (t.cells.map fun c => c.quantity .seqDw12On20 .h0 .onset, t.ctl.desc.map fun d => d.onsets.map OnsetEntry.offset, t.crossing)) =
      some ([1, 0], some [0, 1], .reset) := by decide +kernel

/-- R78: the onset tick that brings the count to WIN_LEN closes the window with cause TIMER; WINDOW_TIMER_EXPIRY is that tick, and
before it the row cannot occur. -/
theorem test_timer_expiry :
    after .windowTimerExpiry (nearLength 2) (fun t => t.ctl.desc.map fun d => (d.closeCause, d.windowLength)) = some (some (.timer, 3))
      ∧ after .onsetTick (nearLength 2) (fun t => t.ctl.desc.map fun d => (d.closeCause, d.windowLength)) = some (some (.timer, 3))
      ∧ after .windowTimerExpiry (nearLength 1) (fun t => (t.ctl.state, t.ctl.windowCount)) = some (.opened, 1) := by decide +kernel

/-- A window closed by its timer in a cycle without limit under CON-DW16, whose end of settling waits for the row directly behind. -/
def closedInCycle : State :=
  { settlingWith [Cell.reset] with
    params := { Params.reset with mode := .conDw16, winSrc := .timer, cycle := true }
    ctl := { (settlingWith []).ctl with cycleOn := true } }

/-- R78, R101: the expiry first, then CLOSE_WINDOW: the request finds SETTLING, the window is swapped and is the last of the cycle. -/
theorem test_cycle_stopped_at_the_expiry :
    after (.closeWindow []) closedInCycle (fun t => (t.ctl.state, t.ctl.cycleOn, t.ctl.frozen, t.port.response.map Response.status)) =
      some (.idle, false, some (.half .h0), some .ok) := by decide +kernel

/-- R78, R140: the expiry first, then INJECT: the request finds SETTLING and is refused, and the cycle's next window opens after it. -/
theorem test_inject_at_the_expiry :
    after (.inject []) closedInCycle (fun t => (t.ctl.state, t.ctl.nextFrame, t.tpg, t.port.response.map Response.status)) =
      some (.opened, 1, .idle, some .wrongState) := by decide +kernel

/-- R52, R69, R78: the expiry first, then a handshake: it passes unclassified, and the cycle's next window opens after it. -/
theorem test_handshake_at_the_expiry :
    after (.handshakePresented (some burst) none) closedInCycle (fun t => (t.ctl.state, t.ctl.nextFrame, t.path.memRd, t.queue.records)) =
      some (.opened, 1, some burst, []) := by decide +kernel

/-- R66, R69, R186: at a close with both gates holding and the queue full, a reading can find the shed count of the closing window at 0 or 1
before the close is whole. -/
theorem test_reading_amid_a_close :
    (closeMoments .line { openWith [] with queue := fullQueue, path := { ThroughPath.reset with rd := some held, wr := some held } }).map
        (fun k => (k.ctl.state, k.ctl.desc.map Descriptor.shed)) = [(.settling, some 0), (.settling, some 1)] := by decide +kernel

/-- R83, R86, R186: a close with no hold, and one that ends settling at once, are read before or after. -/
theorem test_no_reading_inside_a_close :
    (closeMoments .line { openWith [hotCell] with queue := fullQueue }).map State.ctl = []
      ∧ (closeMoments .line { openWith [] with path := { ThroughPath.reset with rd := some held, wr := some held } }).map State.ctl = [] := by
  decide +kernel

/-- R8, R170: two cells at one decay tick, of which the first takes DECAY_STEP after a write of 255 that comes together with the tick. -/
theorem test_cells_on_both_sides_of_a_write :
    let s := { openWith [{ Cell.reset with level := 256 }, { Cell.reset with level := 256 }] with pending := [.setParam [0x35, 0xFF]] }
    s.cells.mapIdx (fun i c => (decayAtCell (if i = 0 then s.paramsBehind.getD s.params else s.params) .h0 s.pulse i c).cell.level) =
      [1, 248] := by decide +kernel

/-- R33: of two HOT cells at a decay tick that turns them COLD and a dwell tick of the same period, the one that takes the dwell tick first
counts it. -/
theorem test_cells_on_both_sides_of_a_decay_tick :
    let c : Cell := { hotCell with level := 400 }
    let after (parts : List TickPart) : Activity × Nat :=
      let d := ((openWith []).partsAtCell parts 0 c).cell
      (d.activity, d.quantity .seqDw12On20 .h0 .dwell)
    after [.decay, .dwell] = (.cold, 0) ∧ after [.dwell, .decay] = (.cold, 1) := by decide +kernel

/-- R19, R33, R83: the rows that bring rest: a close of a window in which nothing counts, and no close while a HOT cell counts. -/
theorem test_rows_that_bring_rest :
    restsAt (.closeWindow []) (openWith [Cell.reset]) = true ∧ restsAt (.closeWindow []) (openWith [hotCell]) = false := by
  decide +kernel

/-- R142 with the numbers of section 1.13: an injection of 128 into level 376 and a decay tick of 8, the cell's threshold 500: injection first
turns the cell HOT, the decay tick first does not. -/
theorem test_cells_on_both_sides_of_a_pulse_start :
    let s := { openWith [] with params := { Params.reset with testPath := .integrator, testWeight := 128 }, tpg := .active 1 }
    let after (parts : List TickPart) : Activity × Nat :=
      let d := (s.partsAtCell parts 0 { exampleCell with test := true }).cell
      (d.activity, d.level)
    after [.pulseStart, .decay] = (.hot, 496) ∧ after [.decay, .pulseStart] = (.cold, 496) := by decide +kernel

/-- R143, R186: a reading that shows a notice which only the end of the pulse sends finds the generator past its tick, whatever the free
values are. -/
theorem test_reading_past_a_pulse_end (draw : Nat) (told : Bool) :
    generatorAmid draw told { current := 0, exceeded := false, shows := true } .dwellTick { openWith [hotCell] with tpg := .active 1 }
      (openWith []) = .idle := by
  unfold generatorAmid
  split
  · rfl
  · exact if_pos rfl

/-- R168, R170: a write that a check refuses, one of another parameter, and one outside a transaction move nothing that a cell reads. -/
theorem test_writes_that_no_cell_reads :
    { openWith [] with pending := [.setParam [0x32, 0x10, 0x00]] }.paramsBehind = none
      ∧ { openWith [] with pending := [.setParam [0x36, 0x00, 0x01]] }.paramsBehind = some Params.reset
      ∧ { State.reset with pending := [.setParam [0x32, 0x0F, 0xFF]] }.paramsBehind = none := by decide +kernel

/-- R20, R186: two cells that cool at one decay tick send two notices, each an event of its own at the counter. -/
theorem test_notices_of_a_decay_tick :
    rowNotices .decayTick (openWith [{ hotCell with level := 400 }, hotCell, { hotCell with level := 450 }]) = [.becameCold, .becameCold] := by
  decide +kernel

/-- R88, R89: the settle cap truncates the cell that counts, and the frozen descriptor says so. -/
theorem test_settle_cap :
    after .settleCapExpiry { settlingWith [hotCell, Cell.reset] with ctl := { (settlingWith []).ctl with settleCount := 4096 } }
      (fun t => (t.cells.map Cell.truncated, t.readout.frame.map fun f => f.desc.truncated)) = some ([true, false], some 1) := by
  decide +kernel

/-- R12, R18: a line at its aux cell. The list is 4096 array cells and four aux cells. -/
theorem test_aux_lines :
    after (.auxAsserted 0) { openWith [] with params := { Params.reset with deepMask := true } } (fun t => t.pins.aux) = some 1
      ∧ after (.auxDeasserted 3) { openWith [] with pins := { listening.pins with aux := 9 } } (fun t => t.pins.aux) = some 1 := by
  decide +kernel

/-- R48: 70,000 in SEQ-DW12-ON20, and 5000 in CON-DW16 in H1. -/
theorem test_segments :
    Cell.reset.setSegs (Mode.seqDw12On20.places .h0 .onset) 70000 = { Cell.reset with seg3 := 1, seg2 := 1, seg1 := 368 }
      ∧ Cell.reset.setSegs (Mode.conDw16.places .h1 .dwell) 5000 = { Cell.reset with seg3 := 1, seg1 := 904 } := by decide +kernel

/-! ## Frames -/

/-- The final descriptor of the example of section 4.12. -/
def exampleDesc : Descriptor :=
  { fresh with
    frameNumber := 12, closeCause := .command, windowLength := 70, settleLength := 20, peak := 5
    onsets := [{ cell := 300, offset := 3 }, { cell := 911, offset := 41 }, { cell := 2050, offset := 70 }] }

/-- The frame of the example of section 10.6.2 at its start. -/
def exampleFrame : Frame := State.reset.freshFrame exampleDesc

/-- Section 10.6.2: the header. -/
theorem test_example_header : exampleFrame.headerBytes =
    [0xC3, 0, 0, 0, 0, 0, 0, 0, 0x0C, 0x20, 0x05, 0, 0, 0x46, 0, 0x14, 0, 0, 0, 0, 0, 0, 0, 0x05, 0, 0, 0, 3] := by decide +kernel

/-- Section 10.6.2: the onset entries. -/
theorem test_example_onset_entries : exampleDesc.onsets.map OnsetEntry.bytes =
    [[0x01, 0x2C, 0, 0, 0x03], [0x03, 0x8F, 0, 0, 0x29], [0x08, 0x02, 0, 0, 0x46]] := by decide +kernel

/-- Section 10.6.2: the value words 0x09F00043 and 0x03C2. -/
theorem test_example_words : valueWord .seqDw12On20 .h0 { Cell.reset with seg0 := 159, seg1 := 67 } = 0x09F00043
    ∧ valueWord .conDw12Ep4 .h0 { Cell.reset with seg0 := 60, seg2 := 2 } = 0x03C2 := by decide +kernel

/-- R119, section 6.11: the lengths of a DATA record of an array bank and of the aux bank. -/
theorem test_record_lengths : exampleFrame.recordLength 0 = 259 ∧ exampleFrame.recordLength 64 = 19
    ∧ Frame.recordLength { exampleFrame with kind := .zero } 10 = 3 := by decide +kernel

/-- R126, R127: the first byte of a frame comes with FSOF. -/
theorem test_first_frame_byte :
    after .frameByteDelivery { listening with readout := { frame := some exampleFrame, emitted := 0 } }
      (fun t => (t.pins.fd, t.pins.fstb, t.pins.fsof)) = some (0xC3, true, true) := by decide +kernel

/-- R30, R127: a second byte is one of the next TBCLK period, which the dividers count. -/
theorem test_second_byte_counts_a_period :
    after .frameByteDelivery
      { openWith [] with
        readout := { frame := some { exampleFrame with position := .header 9, byteCount := 9 }, emitted := 0 }
        pins := { listening.pins with fstb := true } }
      (fun t => (t.pins.fd, t.pins.fstb, t.pins.fsof, t.ticks.onset.count)) = some (0x20, true, false, 1) := by decide +kernel

/-- R126: in R_IDLE a TBCLK period deasserts FSTB and FSOF, and FD holds the last byte. -/
theorem test_strobe_ends_with_its_period :
    after .frameByteDelivery { listening with pins := { listening.pins with fd := 0x5A, fstb := true, fsof := true } }
      (fun t => (t.pins.fd, t.pins.fstb, t.pins.fsof)) = some (0x5A, false, false) := by decide +kernel

/-- R129, R134: the shortest aborted frame, 38 bytes: header, no onset entry, trailer with ABORTED and the count 38. -/
theorem test_shortest_aborted_frame :
    let f : Frame := State.reset.freshFrame fresh
    let sent := f.afterAbort State.reset
    (sent ++ trailerAfter sent 0x02).length = 38 ∧ (trailerAfter sent 0x02).take 6 = [0xE7, 0x02, 0, 0, 0, 38] := by decide +kernel

/-- R133: an abort before the first bank record. -/
theorem test_abort :
    after (.abortReadout []) { listening with readout := { frame := some { exampleFrame with position := .bank 0 0 }, emitted := 0 } }
      (fun t => t.readout.frame.map fun f => (f.position, f.abortTaken)) = some (some (.trailer 0, true)) := by decide +kernel

/-- R158, section 10.6.1: the answer to GET_PARAM of THRESHOLD has been sent: five bytes, and the last bit of 0xFC on MSO. -/
theorem test_response_sent :
    after .responseSent
      { listening with port := { listening.port with
          decoder := .responding, response := some { status := .ok, data := [0x02, 0x00], check := 0xFC } } }
      (fun t => (t.port.decoder, t.port.responseSent, t.mso)) = some (.trailing, 5, .driven false) := by decide +kernel

/-- R153: MSO is high impedance outside a selection. -/
theorem test_mso_released : State.reset.mso = .released ∧ listening.mso = .driven false := by decide

/-- R153, section 10.6.1: the bits of 0x11, the code of GET_PARAM, most significant first. -/
theorem test_bits_of_a_code : wireBits [0x11] = [false, false, false, true, false, false, false, true] := by decide

/-- R153: a selection starts a transaction; its end leaves the decoder DESELECTED. -/
theorem test_selection : after .transactionStart State.reset (fun t => t.port.decoder) = some .receiving
    ∧ after .transactionEnd listening (fun t => (t.port.decoder, t.attn)) = some (.deselected, 0) := by decide +kernel

/-- R160: an abandoned response. -/
theorem test_abandoned :
    after .responseAbandoned { listening with port := { listening.port with decoder := .responding } }
      (fun t => (t.port.decoder, t.attn)) = some (.deselected, 0) := by decide +kernel

/-- R175: RST_N writes the parameter table. -/
theorem test_rst_n : after .rstNAsserted { listening with params := { Params.reset with threshold := 9 } }
    (fun t => (t.params.threshold, t.pins.rstLow, t.port.decoder)) = some (512, true, .ignoring) := by decide +kernel

/-! ## Witnesses: the hypotheses of each obligation can be met -/

theorem witness_StepRunsTheFrontCommand :
    { State.reset with pending := [Instr.nop [], .recordTake] }.pending = Instr.nop [] :: [.recordTake] := rfl

/-- A SETTLING window whose settle length is at the cap. -/
def atSettleCap : State := { settlingWith [hotCell] with ctl := { (settlingWith []).ctl with settleCount := 4096 } }

/-- A window in which every count is one short of bringing a tick or an expiry. -/
def nearlyDue : State :=
  { openWith [hotCell] with
    ticks := { decay := { running := true, count := 998 }, dwell := { running := true, count := 8 }
               onset := { running := true, count := 98 } }
    path := { ThroughPath.reset with rd := some { held with timer := 254 } } }

/-- The same window one period before a decay tick, and one before every tick and the expiry of a hold. -/
def decayDue : State := { nearlyDue with ticks := { nearlyDue.ticks with decay := { running := true, count := 999 } } }

/-- See `decayDue`. -/
def allDue : State :=
  { openWith [hotCell] with
    ticks := { decay := { running := true, count := 999 }, dwell := { running := true, count := 9 }
               onset := { running := true, count := 99 } }
    path := { ThroughPath.reset with rd := some { held with timer := 255 } } }

/-- Nothing due one short of each end; the decay tick alone; all of them; an expiry of the settle cap that waits. -/
theorem witness_OnePeriodPassesOnAnEmptyQueue :
    nearlyDue.pending = [] ∧ dueNext nearlyDue = [] ∧ nearlyDue.capDue = false ∧ dueNext decayDue = [.decay]
      ∧ decayDue.capDue = false ∧ dueNext allDue = [.decay, .dwell, .onset, .hold .read] ∧ allDue.capDue = false
      ∧ atSettleCap.pending = [] ∧ atSettleCap.capDue = true
      ∧ (∃ u, exec .decayTick { countPeriod decayDue with free := 1 } = .next u)
      ∧ (nearlyDue.ctl.nextFrame = 0 ∧ isDue { allDue with pending := [Due.dwell, .onset].map Due.row } .decay = true) := by
  refine ⟨rfl, ?_, ?_, ?_, ?_, ?_, ?_, rfl, ?_, ⟨_, rfl⟩, rfl, ?_⟩ <;> decide +kernel

theorem witness_NopIsTakenInEveryState : listening.port.decoder = .receiving ∧ (List.replicate 255 (0 : Byte)).length ≤ 255 :=
  ⟨rfl, Nat.le_of_eq (List.length_replicate ..)⟩

theorem witness_LongOrUnknownRequestIsRefused :
    listening.port.decoder = .receiving ∧ 72 < (List.replicate 73 (0 : Byte)).length ∧ (List.replicate 255 (0 : Byte)).length ≤ 255
      ∧ (0x31, Instr.closeWindow) ∈ requests ∧ ∀ p ∈ requests, p.1 ≠ 0x03 := by
  refine ⟨rfl, by decide, Nat.le_of_eq (List.length_replicate ..), by simp [requests], ?_⟩
  simp only [requests, List.forall_mem_cons]
  decide

theorem witness_BadCheckIsRefusedAndSetsCommandFault :
    listening.port.decoder = .receiving ∧ (0x14 : Byte) ≠ crc8 [0x01, BitVec.ofNat 8 ([] : List Byte).length] := by decide +kernel

/-- The part in a transaction whose response is being sent. -/
def responding : State :=
  { listening with port := { listening.port with decoder := .responding, response := some { status := .ok, data := [], check := 0 } } }

theorem witness_TransactionEventsMoveTheDecoder :
    (State.reset.pins.rstLow = false ∧ State.reset.port.decoder = .deselected)
      ∧ (listening.pins.rstLow = true ∨ listening.port.decoder ≠ .deselected)
      ∧ (responding.port.decoder = .responding ∧ responding.port.response = some { status := .ok, data := [], check := 0 })
      ∧ (List.replicate 24 true).length = 8 * (([] : List Byte).length + 3)
      ∧ { listening with port := { listening.port with decoder := .ignoring } }.port.decoder = .ignoring
      ∧ { listening with pins := { listening.pins with rstLow := true } }.pins.rstLow = true := by
  refine ⟨⟨rfl, rfl⟩, .inr (by decide), ⟨rfl, rfl⟩, rfl, rfl, rfl⟩

theorem witness_OneDamagedByteChangesTheCheck : (0x00 : Byte) ≠ 0x80 := by decide

/-- A GET_STATUS with the delivery of the last byte of a frame directly behind it. -/
def statusAmid : State :=
  { listening with
    pending := [.frameByteDelivery]
    readout := { frame := some { State.reset.freshFrame fresh with position := .trailer 9 }, emitted := 0 }
    ctl := { Controller.reset with state := .held, frozen := some .whole } }

theorem witness_GetStatusReportsEveryField :
    listening.port.decoder = .receiving ∧ (∀ c, listening.pending.head? = some c → ¬ IsEvent c listening)
      ∧ statusAmid.port.decoder = .receiving ∧ statusAmid.pending.head? = some .frameByteDelivery ∧ IsEvent .frameByteDelivery statusAmid
      ∧ ([0x00] : List Byte) ≠ [] := ⟨rfl, nofun, rfl, rfl, rfl, by decide⟩

/-- The four rows of the table of R186: what a snapshot can find at a readout complete in a sequential mode. -/
theorem witness_FoundAmid (t : State) (ht : exec .frameByteDelivery statusAmid = .next t) :
    FoundAmid .frameByteDelivery statusAmid t statusAmid
      ∧ FoundAmid .frameByteDelivery statusAmid t { statusAmid with readout := t.readout }
      ∧ FoundAmid .frameByteDelivery statusAmid t { statusAmid with readout := t.readout, attn := 1 }
      ∧ FoundAmid .frameByteDelivery statusAmid t { statusAmid with readout := t.readout, attn := 1, ctl := t.ctl } := by
  cases ht
  have idle {P : Prop} : DeliversDwell .frameByteDelivery statusAmid → statusAmid.tpg.LastTick → statusAmid.tpg ≠ .idle → P :=
    fun _ _ h => absurd rfl h
  have quiet {P : Prop} (x : BitVec 8) (i : Nat) (h : x.getLsbD i = false) : x.getLsbD i = true → P := fun h' => by rw [h] at h'; cases h'
  refine ⟨⟨rfl, .inl rfl, .inl rfl, .inl rfl, idle, ⟨[], [], .refl _, .inl rfl, quiet _ _ rfl⟩, ⟨0, by decide +kernel⟩, ?_, ?_⟩,
    ⟨rfl, .inl rfl, .inl rfl, .inl rfl, idle, ⟨[], [], .refl _, .inl rfl, quiet _ _ rfl⟩, ⟨0, by decide +kernel⟩, ?_, ?_⟩,
    ⟨rfl, .inl rfl, .inl rfl, .inl rfl, idle, ⟨[], [], .refl _, .inl rfl, quiet _ _ (by decide)⟩, ⟨1, by decide +kernel⟩, ?_, ?_⟩,
    ⟨rfl, .inr (.inl rfl), .inl rfl, .inl rfl, idle, ⟨[], [], .refl _, .inl rfl, quiet _ _ (by decide)⟩, ⟨1, by decide +kernel⟩, ?_, ?_⟩⟩
  all_goals first
    | exact ⟨quiet _ _ (by decide), quiet _ _ (by decide), quiet _ _ (by decide), quiet _ _ (by decide)⟩
    | exact ⟨fun h => absurd h (by decide +kernel), fun _ => .inl rfl⟩
    | exact ⟨fun h => absurd h (by decide +kernel), fun _ => .inr (.inl rfl)⟩

/-- THRESHOLD at the ends of its range and one beyond, of the class ANY; MODE of the class REST; ATTN_ENABLE. -/
theorem witness_SetParamChecksAndWrites :
    listening.port.decoder = .receiving ∧ (∀ id : ParamId, id.row.1 ≠ 0x00) ∧ (List.replicate 71 (0 : Byte)).length < 72
      ∧ ([] : List Byte).length ≠ ParamId.threshold.row.2.1 ∧ ([0x0F, 0xFF] : List Byte).length = ParamId.threshold.row.2.1
      ∧ listening.params.write .threshold (beNat [0x10, 0x00]) = none
      ∧ listening.params.write .threshold (beNat [0x0F, 0xFF]) = some { Params.reset with threshold := 4095 }
      ∧ listening.params.write .mode (beNat [0x07]) = some { Params.reset with mode := .conAc16 }
      ∧ ParamId.mode.row.2.2 = .rest ∧ (openWith []).ctl.state ≠ .idle ∧ listening.ctl.state = .idle
      ∧ listening.engine.op = .idle ∧ listening.ctl.frozen = none ∧ listening.readout.frame = none
      ∧ listening.params.write .attnEnable (beNat [0xFF]) = some { Params.reset with attnEnable := 0xFF }
      ∧ ParamId.attnEnable.row.2.2 = .any := by
  refine ⟨rfl, ?_, by decide, by decide, by decide, by decide +kernel, by decide +kernel, by decide +kernel, rfl, by decide, rfl, rfl, rfl, rfl,
    by decide +kernel, rfl⟩
  intro id
  cases id <;> decide

theorem witness_ParameterWritesFollowTheTable : Params.reset.write .testWeight 4095 = some { Params.reset with testWeight := 4095 } := by
  decide +kernel

theorem witness_GetParamReturnsTheBytesWritten :
    listening.port.decoder = .receiving ∧ (∀ id : ParamId, id.row.1 ≠ 0xFF) ∧ ([] : List Byte).length ≠ 1
      ∧ ([0xFF, 0xFF, 0xFF] : List Byte).length = ParamId.winLen.row.2.1
      ∧ Params.reset.write .winLen (beNat [0xFF, 0xFF, 0xFF]) = some { Params.reset with winLen := 16777215 } := by
  refine ⟨rfl, ?_, by decide, by decide, by decide +kernel⟩
  intro id
  cases id <;> decide

theorem witness_ClearAttentionRemovesTheNamedCauses :
    listening.port.decoder = .receiving ∧ ([] : List Byte).length ≠ 1 ∧ State.reset.port.decoder ≠ .receiving :=
  ⟨rfl, by decide, by decide⟩

theorem witness_SoftResetKeepsConfigurationAlone :
    listening.port.decoder = .receiving ∧ ([0x00] : List Byte) ≠ [] ∧ State.reset.port.decoder ≠ .receiving :=
  ⟨rfl, by decide, by decide⟩

theorem witness_RstNResetsAndStartsThePart : { listening with pins := { listening.pins with rstLow := true } }.pins.rstLow = true := rfl

/-- The entry with every field at the end of its range. -/
def lastEntry : FilterEntry :=
  { valid := true, idValue := 4095, idMask := 4095, direction := .any, action := .ignore, shift := 3, hits := 4294967295 }

theorem witness_FilterEntriesAreWrittenAndReadBack :
    listening.port.decoder = .receiving ∧ 7 < 8 ∧ lastEntry.idValue ≤ 4095 ∧ lastEntry.idMask ≤ 4095 ∧ lastEntry.SpelledBy 0x3D ∧ lastEntry.shift ≤ 3
      ∧ (listening.ctl.state = .idle ∧ listening.engine.op = .idle)
      ∧ ¬ ((openWith []).ctl.state = .idle ∧ (openWith []).engine.op = .idle)
      ∧ { listening with filter := listening.filter.set 7 lastEntry }.filter[7]? = some lastEntry
      ∧ ([] : List Byte).length ≠ 6 ∧ 7 < (0x08 : Byte).toNat ∧ (0x40 : Byte).getLsbD 6 = true
      ∧ ((0x06 : Byte).getLsbD 1 = true ∧ (0x06 : Byte).getLsbD 2 = true) ∧ 16 ≤ (0x10 : Byte).toNat := by
  unfold FilterEntry.SpelledBy
  decide +kernel

/-- Handshake 1 of section 3.6 at entry 1, and a table that decides nothing. -/
theorem witness_FirstMatchingEntryDecides :
    let id : BitVec 12 := 0x0A5
    let e : FilterEntry := { valid := true, idValue := 0x0A0, idMask := 0xFF0, direction := .write, action := .count, shift := 1, hits := 0 }
    exampleTable[1]? = some e ∧ (e.valid = true ∧ (id.toNat &&& e.idMask) = (e.idValue &&& e.idMask) ∧ e.direction = .write)
      ∧ (∀ j x, j < 1 → exampleTable[j]? = some x → (id.toNat &&& x.idMask) ≠ (x.idValue &&& x.idMask))
      ∧ ∀ x ∈ List.replicate 8 FilterEntry.reset, x.valid = false := by
  refine ⟨rfl, by decide, ?_, by decide⟩
  intro j x hj hx
  obtain rfl : j = 0 := by omega
  simp [exampleTable] at hx
  subst hx
  decide

theorem witness_LoadBankIsCheckedAndSteppedBySlot :
    listening.port.decoder = .receiving ∧ (List.replicate 71 (0 : Byte)).length < 72
      ∧ { listening with engine := { CellEngine.reset with op := .loading 64 3 [0, 0, 0, 0x7F] } }.engine.op = .loading 64 3 [0, 0, 0, 0x7F]
      ∧ ([0, 0, 0, 0x7F] : List Byte)[3]? = some 0x7F ∧ (0x7F : Byte).getLsbD 7 = false := by
  refine ⟨rfl, by decide, rfl, rfl, by decide⟩

/-- A LOAD_BANK of the aux bank just taken, with its steps waiting. -/
def loadingAux : State :=
  { State.reset with
    engine := { CellEngine.reset with op := .loading 64 0 [0x00, 0x7F, 0x1F, 0x50] }, pending := List.replicate 4 .loadStep }

theorem witness_LoadStepsConfigureTheWholeBank :
    64 ≤ 64 ∧ ([0x00, 0x7F, 0x1F, 0x50] : List Byte).length = (if 64 = 64 then 4 else 64)
      ∧ (∀ x ∈ ([0x00, 0x7F, 0x1F, 0x50] : List Byte), x.getLsbD 7 = false)
      ∧ loadingAux.cells.length = 4100 ∧ loadingAux.engine.mirror.length = 4096
      ∧ loadingAux.engine.op = .loading 64 0 [0x00, 0x7F, 0x1F, 0x50] ∧ loadingAux.pending = List.replicate 4 .loadStep := by
  refine ⟨by omega, rfl, by decide, List.length_replicate .., List.length_replicate .., rfl, rfl⟩

theorem witness_ReadBankAndFetchAreCheckedInOrder :
    listening.port.decoder = .receiving ∧ ([] : List Byte).length ≠ 1 ∧ ([0x00] : List Byte) ≠ []
      ∧ { listening with engine := { CellEngine.reset with op := .reading 64 3 } }.engine.op = .reading 64 3
      ∧ { listening with engine := { CellEngine.reset with op := .loading 0 63 [] } }.engine.op = .loading 0 63 []
      ∧ listening.engine.op = .idle ∧ listening.engine.result.valid = false
      ∧ { listening with engine := { CellEngine.reset with
            result := { bank := 64, entries := [], valid := true } } }.engine.result.valid = true := by
  refine ⟨rfl, by decide, by decide, rfl, rfl, rfl, rfl, rfl⟩

/-- A READ_BANK of the aux bank just taken, with its steps waiting. -/
def readingAux : State :=
  { State.reset with engine := { CellEngine.reset with op := .reading 64 0 }, pending := List.replicate 4 .readStep }

theorem witness_ReadStepsFillTheResultBuffer :
    (readingAux.engine.op = .reading 64 0 ∧ readingAux.cells[64 * 64 + 0]? = some Cell.reset)
      ∧ 64 ≤ 64 ∧ readingAux.cells.length = 4100 ∧ readingAux.engine.result.entries = []
      ∧ readingAux.pending = List.replicate 4 .readStep := by
  refine ⟨⟨rfl, ?_⟩, by omega, List.length_replicate .., rfl, rfl⟩
  simp only [readingAux, State.reset]
  rw [List.getElem?_replicate]
  rfl

theorem witness_ConfigurationByteRoundTrip :
    (-16 : Int) ≤ ({ mask := true, test := true, trim := -16 } : CellConfig).trim
      ∧ ({ mask := true, test := true, trim := 15 } : CellConfig).trim ≤ 15
      ∧ (0x7F : Byte).getLsbD 7 = false ∧ (0x80 : Byte).getLsbD 7 = true := by decide

theorem witness_ProbeCellReturnsTheRecord :
    listening.port.decoder = .receiving ∧ ([0x00] : List Byte).length ≠ 2 ∧ 4099 < beNat [0x10, 0x04] ∧ 4099 < 4100
      ∧ listening.cells[4099]? = some Cell.reset := by
  refine ⟨rfl, by decide, by decide +kernel, by omega, ?_⟩
  simp only [listening, State.reset]
  rw [List.getElem?_replicate]
  rfl

theorem witness_OpenWindowIsCheckedInOrder : listening.port.decoder = .receiving ∧ ([0x00] : List Byte) ≠ [] := ⟨rfl, by decide⟩

theorem witness_OpenStartsAFreshWindow : State.reset.pins.aux = 0 := rfl

theorem witness_CloseWindowIsAnsweredByState :
    listening.port.decoder = .receiving ∧ ([0x00] : List Byte) ≠ [] ∧ listening.ctl.state = .idle
      ∧ ((openWith []).params.winSrc ≠ .line ∧ (openWith []).ctl.state = .opened)
      ∧ ((settlingWith []).params.winSrc ≠ .line ∧ (settlingWith []).ctl.state = .settling) := by
  refine ⟨rfl, by decide, rfl, by decide, by decide⟩

theorem witness_CloseShedsHoldsAndStopsOnsets :
    (during .opened (some { fresh with shed := 65535 }) []).ctl.desc = some { fresh with shed := 65535 }
      ∧ ({ fresh with shed := 65535 } : Descriptor).shed ≤ 65535 := ⟨rfl, by decide⟩

theorem witness_WindowLineOpensAndCloses :
    ({ State.reset with params := { Params.reset with winSrc := .line } }.pins.rstLow = false
        ∧ { State.reset with params := { Params.reset with winSrc := .line } }.params.winSrc = .line)
      ∧ (State.reset.pins.rstLow = true ∨ State.reset.params.winSrc ≠ .line) := ⟨⟨rfl, rfl⟩, .inr (by decide)⟩

/-- The tick before the last of a window under TIMER, and the last; a divider that stands still. -/
theorem witness_OnsetTicksMeasureTheWindow :
    ((nearLength 1).ticks.onset.running = true ∧ (nearLength 1).ctl.state = .opened ∧ min 16777215 (1 + 1) < (nearLength 1).params.winLen)
      ∧ ((nearLength 2).params.winSrc = .timer ∧ (nearLength 2).params.winLen ≤ min 16777215 (2 + 1))
      ∧ { State.reset with ticks := { TickGen.reset with onset := { running := true, count := 0 } } }.ctl.state ≠ .opened
      ∧ State.reset.ticks.onset.running = false
      ∧ (1 ∈ ({ reports := [1], ticked := [1] } : Crossing).ticked ∧ 0 ∉ ({ reports := [1], ticked := [1] } : Crossing).ticked) := by
  decide +kernel

theorem witness_SettleCapCutsTheSettling :
    (atSettleCap.ctl.desc = some fresh ∧ atSettleCap.ctl.state = .settling ∧ fresh.settleCap = false
        ∧ atSettleCap.params.settleCap ≤ atSettleCap.ctl.settleCount ∧ atSettleCap.engine.applying = none)
      ∧ { atSettleCap with engine := { CellEngine.reset with applying := some { cell := 4095, weight := 1 } } }.engine.applying.isSome = true
      ∧ (settlingWith []).ctl.settleCount + 1 < (settlingWith []).params.settleCap
      ∧ ({ settlingWith [] with ctl := { (settlingWith []).ctl with settleCount := 4095 } }.params.settleCap = 4095 + 1
          ∧ fresh.settleCap = false) := by decide +kernel

/-- Settling ends with no cell HOT; it does not while a cell counts. -/
theorem witness_SettlingEndsWhenDrainedAndQuiet :
    ((settlingWith [Cell.reset]).ctl.state = .settling ∧ (settlingWith [Cell.reset]).queue.records = []
        ∧ (settlingWith [Cell.reset]).engine.applying = none
        ∧ ∀ (i : Nat) (c : Cell), (settlingWith [Cell.reset]).cells[i]? = some c → c.activity = .cold)
      ∧ hotCell.CountsDwell Params.reset .h0 0 := by
  refine ⟨⟨rfl, rfl, rfl, ?_⟩, rfl, rfl, by decide, .inl rfl, by decide, rfl, .inl rfl⟩
  intro i c hc
  rcases i with _ | i <;> simp [settlingWith, during] at hc
  subst hc
  rfl

theorem witness_SequentialWindowIsFrozenWhole :
    (settlingWith []).ctl.desc = some fresh ∧ (settlingWith []).params.mode.sequential = true := ⟨rfl, rfl⟩

/-- A SETTLING window in CON-DW16. -/
def continuousSettling : State := { settlingWith [Cell.reset] with params := { Params.reset with mode := .conDw16 } }

theorem witness_ContinuousHandOffFollowsTheIndication :
    continuousSettling.ctl.desc = some fresh ∧ continuousSettling.params.mode.sequential = false
      ∧ continuousSettling.ctl.frozen = none
      ∧ ({ continuousSettling.ctl with frozen := some (.half .h1) } : Controller).frozen.isSome = true
      ∧ Params.reset.overrunPolicy = .wait ∧ ({ Params.reset with overrunPolicy := .discard } : Params).overrunPolicy = .discard
      ∧ ¬ listening.cycleContinues
      ∧ { listening with ctl := { Controller.reset with cycleOn := true } }.cycleContinues := by
  refine ⟨rfl, rfl, rfl, rfl, rfl, rfl, ?_, rfl, .inl rfl⟩
  rintro ⟨h, -⟩
  cases h

/-- Cells at the bounds of THRESHOLD 512 and HYSTERESIS 16 (R5). -/
theorem witness_EvaluationFollowsTheDeadBand :
    (({ Cell.reset with level := 512 } : Cell).effTh Params.reset ≤ ({ Cell.reset with level := 512 } : Cell).level
        ∧ ¬ ({ Cell.reset with level := 512 } : Cell).DeepMasked Params.reset)
      ∧ ({ Cell.reset with level := 511 } : Cell).level < ({ Cell.reset with level := 511 } : Cell).effTh Params.reset
      ∧ (({ hotCell with level := 495 } : Cell).level + Params.reset.hysteresis < ({ hotCell with level := 495 } : Cell).effTh Params.reset
        ∧ ¬ ({ hotCell with level := 495 } : Cell).PulseDriven Params.reset 4095)
      ∧ ({ hotCell with level := 496 } : Cell).effTh Params.reset ≤ ({ hotCell with level := 496 } : Cell).level + Params.reset.hysteresis
      ∧ ({ hotCell with test := true } : Cell).PulseDriven Params.reset 4095
      ∧ hotCell.TakesPart Params.reset 4095 ∧ ¬ ({ hotCell with mask := true } : Cell).TakesPart Params.reset 4095 := by
  unfold Cell.DeepMasked Cell.PulseDriven Cell.TakesPart Cell.DeepMasked
  decide +kernel

theorem witness_CountingMovesOneQuantityByOne :
    ({ Cell.reset with seg0 := 4095, seg1 := 4095, seg2 := 15, seg3 := 15 } : Cell).Ranged
      ∧ Mode.keeps .seqAc32 .accesses = true ∧ Mode.keeps .seqAc32 .dwell = false ∧ Mode.sequential .conEp16 = false
      ∧ Quantity.dwell ≠ .onset := by
  unfold Cell.Ranged
  decide

/-- An application in hand: at the level that saturates; and after the settle cap. -/
theorem witness_RecordApplicationAddsItsWeight :
    State.reset.engine.applying = none
      ∧ { openWith [hotCell] with engine := { CellEngine.reset with applying := some { cell := 0, weight := 2048 } } }.engine.applying =
          some { cell := 0, weight := 2048 }
      ∧ ({ cell := 4095, weight := 1 } : Record).cell ≤ 4095
      ∧ (during .settling (some { fresh with settleCap := true }) []).ctl.state = .settling
      ∧ (during .settling (some { fresh with settleCap := true }) []).ctl.desc = some { fresh with settleCap := true } :=
  ⟨rfl, rfl, by decide, rfl, rfl⟩

theorem witness_DecayTickDrainsEveryArrayCell :
    ((openWith []).ticks.decay.running = true ∧ (openWith []).ctl.state = .opened)
      ∧ ((settlingWith []).ticks.decay.running = true ∧ (settlingWith []).ctl.state = .settling)
      ∧ (during .held (some fresh) []).ticks.decay.running = true ∧ (during .held (some fresh) []).ctl.state = .held
      ∧ State.reset.ticks.decay.running = false
      ∧ { openWith [] with pending := [.setParam [0x32, 0x0F, 0xFF]] }.WrittenBehind { Params.reset with threshold := 4095 }
      ∧ { openWith [] with pending := [.dwellTick] }.dwellBehind = true ∧ { openWith [] with pending := [.inject []] }.InjectBehind
      ∧ RestBehind { atSettleCap with pending := [.settleCapExpiry] } atSettleCap :=
  ⟨⟨rfl, rfl⟩, ⟨rfl, rfl⟩, rfl, rfl, rfl, ⟨rfl, .threshold, [0x0F, 0xFF], rfl, rfl, by decide +kernel, .inl rfl⟩, rfl,
    ⟨rfl, rfl, rfl, rfl, rfl⟩, by
      obtain ⟨v, hv, h⟩ := restsAt_exec .settleCapExpiry { atSettleCap with pending := [] } (by decide +kernel)
      exact ⟨_, v, rfl, hv, h⟩⟩

/-- A dwell tick while OPEN, the last before the settle cap, one at which the expiry waits, the last of a pulse, and one for which a decay
tick has waited. -/
theorem witness_DwellTickCountsOnce :
    ((openWith []).ticks.dwell.running = true ∧ (openWith []).ctl.state = .opened ∧ (openWith []).capDue = false)
      ∧ ((settlingWith []).ctl.state = .settling ∧ (settlingWith []).capDue = false ∧ fresh.settleCap = false
          ∧ 4095 < (settlingWith []).params.settleCap)
      ∧ (atSettleCap.ticks.dwell.running = true ∧ atSettleCap.capDue = true)
      ∧ Tpg.LastTick (.active 1)
      ∧ { openWith [hotCell] with tpg := .active 1, decayWaits := true }.dwellDue = [.dwell, .pulseEnd, .decay]
      ∧ (∃ c : Cell, (openWith [hotCell, Cell.reset]).cells[0]? = some c ∧ c.CountsDwell Params.reset .h0 0)
      ∧ (∃ c : Cell, (openWith [hotCell, Cell.reset]).cells[1]? = some c ∧ ¬ c.CountsDwell Params.reset .h0 1)
      ∧ (during .held (some fresh) []).ticks.dwell.running = true ∧ State.reset.ticks.dwell.running = false := by
  refine ⟨by decide +kernel, by decide +kernel, by decide +kernel, .inl rfl, rfl,
    ⟨_, rfl, rfl, rfl, by decide, .inl rfl, by decide, rfl, .inl rfl⟩, ⟨_, rfl, ?_⟩, rfl, rfl⟩
  rintro ⟨h, -⟩
  cases h

theorem witness_AuxLinesDriveTheirCells :
    (openWith []).ctl.state = .opened ∧ (settlingWith []).ctl.state = .settling ∧ State.reset.ctl.state = .idle
      ∧ (4099 = 4096 + (3 : Fin 4).val ∧ Cell.reset.test = false ∧ ¬ (Params.reset.deepMask = true ∧ Cell.reset.mask = true)) := by
  decide +kernel

theorem witness_InjectStartsAndPulseEndEnds :
    ((openWith []).port.decoder = .receiving ∧ (openWith []).engine.op = .idle ∧ (openWith []).ctl.state = .opened
        ∧ (openWith []).tpg = .idle ∧ listening.ctl.state ≠ .opened ∧ (openWith []).params.testPath = .direct)
      ∧ (closedInCycle.engine.op = .idle ∧ closedInCycle.ctl.state = .settling ∧ State.reset.port.decoder ≠ .receiving)
      ∧ CfgOp.reading 0 0 ≠ .idle ∧ Tpg.active 1023 ≠ .idle
      ∧ (Tpg.active 1).LastTick ∧ ¬ (Tpg.active 2).LastTick ∧ ¬ Tpg.idle.LastTick
      ∧ ({ Cell.reset with test := true } : Cell).PulseDriven Params.reset 4095 ∧ ¬ Cell.reset.PulseDriven Params.reset 4095 := by
  unfold Cell.PulseDriven Cell.DeepMasked Tpg.LastTick
  decide +kernel

/-- The first and the last address of the mapped window at reset, an address beyond it, and each case at the arbiter. -/
theorem witness_HandshakeIsClassifiedStepByStep :
    (openWith []).hold .read = none ∧ State.reset.ctl.state ≠ .opened ∧ (openWith []).ctl.state = .opened
      ∧ (openWith []).params.dirSel = .both
      ∧ (0 < (openWith []).params.mapBase + 4096 * 2 ^ (openWith []).params.mapGranule)
      ∧ (16777215 < (openWith []).params.mapBase + 4096 * 2 ^ (openWith []).params.mapGranule)
      ∧ ¬ (16777216 < (openWith []).params.mapBase + 4096 * 2 ^ (openWith []).params.mapGranule)
      ∧ (filterDecide .ignore .read 0 (openWith []).filter).action = .ignore
      ∧ (filterDecide .count .read 0 (openWith []).filter).action = .count
      ∧ ({ fullQueue with records := List.replicate 31 { cell := 1, weight := 1 } } : CaptureQueue).records.length < 32
      ∧ 32 ≤ fullQueue.records.length ∧ Params.reset.capturePolicy = .shed
      ∧ ({ Params.reset with capturePolicy := .hold } : Params).capturePolicy = .hold ∧ (openWith []).ctl.desc = some fresh := by
  decide +kernel

theorem witness_ObservationRecordIsInRange :
    Params.reset.mapBase ≤ ({ burst with addr := 0xFFFFFF } : Handshake).addr.toNat
      ∧ ({ burst with addr := 0xFFFFFF } : Handshake).addr.toNat < Params.reset.mapBase + 4096 * 2 ^ Params.reset.mapGranule
      ∧ 1 ≤ burst.beats ∧ burst.beats ≤ 256 ∧ ({ table := [], action := .count, shift := 3 } : Decision).shift ≤ 3
      ∧ ({ Params.reset with weightLaw := .compressed } : Params).weightLaw = .compressed := by decide +kernel

/-- Two observations at once, with room for two, for one and for none, under each history; one alone, on each channel; none; a gate that
holds; a window that is not OPEN. -/
theorem witness_PreferredChannelIsServedFirst :
    (openWith []).ctl.state = .opened ∧ (openWith []).hold .read = none ∧ (openWith []).hold .write = none
      ∧ (∃ t r, classify .read burst (openWith []) = (t, some r) ∧ ∃ u w, classify .write burst t = (u, some w))
      ∧ (∃ t r, classify .read burst (openWith []) = (t, some r) ∧ ∃ u, classify .write { burst with addr := 0x1000000 } t = (u, none))
      ∧ (∃ t, classify .read { burst with addr := 0x1000000 } (openWith []) = (t, none) ∧ (∃ u w, classify .write burst t = (u, some w))
          ∧ ∃ u, classify .write { burst with addr := 0x1000000 } t = (u, none))
      ∧ (openWith []).queue.history = .write ∧ ({ fullQueue with history := .read } : CaptureQueue).history = .read
      ∧ (List.replicate 30 ({ cell := 1, weight := 1 } : Record)).length + 2 ≤ 32
      ∧ (List.replicate 31 ({ cell := 1, weight := 1 } : Record)).length + 1 = 32 ∧ 32 ≤ fullQueue.records.length
      ∧ { openWith [] with path := { ThroughPath.reset with rd := some held, wr := some held } }.hold .write ≠ none
      ∧ (settlingWith []).ctl.state ≠ .opened := by
  refine ⟨rfl, rfl, rfl, ⟨_, _, rfl, _, _, rfl⟩, ⟨_, _, rfl, _, rfl⟩, ⟨_, rfl, ⟨_, _, rfl⟩, _, rfl⟩, rfl, rfl, ?_, ?_, ?_, ?_, ?_⟩ <;>
    decide

/-- A take with both gates open, with the preferred channel waiting, with the other alone, and while SETTLING. -/
theorem witness_RecordTakeFreesOneSlot :
    State.reset.queue.records = []
      ∧ (fullQueue.records = { cell := 1, weight := 1 } :: List.replicate 31 { cell := 1, weight := 1 }
          ∧ (List.replicate 31 ({ cell := 1, weight := 1 } : Record)).length < 32 ∧ (openWith []).engine.applying = none)
      ∧ (settlingWith []).ctl.state = .settling ∧ (openWith []).ctl.state = .opened
      ∧ ((openWith []).hold .read = none ∧ (openWith []).hold .write = none)
      ∧ { openWith [] with path := { ThroughPath.reset with rd := some held } }.hold (otherChannel fullQueue.history) = some held
      ∧ ({ openWith [] with path := { ThroughPath.reset with wr := some held } }.hold (otherChannel fullQueue.history) = none
          ∧ { openWith [] with path := { ThroughPath.reset with wr := some held } }.hold fullQueue.history = some held) := by
  refine ⟨rfl, ⟨rfl, by decide, rfl⟩, rfl, rfl, ⟨rfl, rfl⟩, rfl, rfl, rfl⟩

theorem witness_HoldsEndReleased :
    (openWith []).hold .read = none ∧ (openWith []).holding = 0 ∧ (openWith []).ctl.desc = some fresh
      ∧ { openWith [] with path := { ThroughPath.reset with rd := some held } }.hold .read = some held
      ∧ 0 < { openWith [] with path := { ThroughPath.reset with rd := some held, wr := some held } }.holding := by
  refine ⟨rfl, rfl, rfl, rfl, by decide⟩

/-- A byte in the header, the last byte of a bank record, and no frame; a period that has had its byte. -/
theorem witness_FrameByteDeliverySendsTheNextByte :
    State.reset.pins.fstb = false ∧ { State.reset with pins := { State.reset.pins with fstb := true } }.pins.fstb = true ∧ State.reset.readout.frame = none ∧ exampleFrame.advance = .goOn (.header 1)
      ∧ Frame.advance { exampleFrame with position := .bank 64 18 } = .emit 64 (.trailer 0)
      ∧ Frame.advance { exampleFrame with position := .bank 0 258 } = .emit 0 (.bank 1 0) := by decide +kernel

/-- A frame at its last byte. -/
def lastByte : Frame := { exampleFrame with position := .trailer 9 }

theorem witness_ReadoutCompleteReleasesTheStorage :
    ({ State.reset with readout := { frame := some lastByte, emitted := 4294967295 } }.readout.frame = some lastByte
        ∧ lastByte.position = .trailer 9 ∧ State.reset.pins.fstb = false)
      ∧ State.reset.ctl.state ≠ .held
      ∧ (({ Controller.reset with state := .held } : Controller).state = .held
          ∧ ({ Controller.reset with state := .held } : Controller).waiting = none)
      ∧ ({ Controller.reset with state := .held, waiting := some fresh } : Controller).waiting = some fresh := by
  refine ⟨⟨rfl, rfl, rfl⟩, by decide, ⟨rfl, rfl⟩, rfl⟩

/-- An abort at a boundary, inside a record, before the records, twice, and in the trailer. -/
theorem witness_AbortReadoutClearsUnsentBanks :
    listening.port.decoder = .receiving ∧ ([0x00] : List Byte) ≠ [] ∧ listening.readout.frame = none
      ∧ ({ exampleFrame with abortTaken := true } : Frame).abortTaken = true ∧ (∃ k, lastByte.position = .trailer k)
      ∧ exampleFrame.abortTaken = false ∧ (∀ k, ({ exampleFrame with position := .bank 64 0 } : Frame).position ≠ .trailer k)
      ∧ (∀ k, ({ exampleFrame with position := .bank 0 258 } : Frame).position ≠ .trailer k)
      ∧ ({ Controller.reset with frozen := some .whole } : Controller).frozen = some .whole ∧ Controller.reset.frozen = none := by
  refine ⟨rfl, by decide, rfl, rfl, ⟨9, rfl⟩, rfl, ?_, ?_, rfl, rfl⟩ <;> (intro k h; cases h)

theorem witness_FrameFieldsCarryTheWindow :
    ({ Cell.reset with seg0 := 4095, seg1 := 4095, seg2 := 15, seg3 := 15 } : Cell).Ranged ∧ Mode.sequential .seqAc32 = true
      ∧ Mode.sequential .conAc16 = false ∧ Mode.carried .conOn16 = [.onset] := by
  unfold Cell.Ranged
  decide

/-- The frame of section 10.6.2 at its start, the whole part around it. -/
def frameInHand : State :=
  { State.reset with
    readout := { frame := some exampleFrame, emitted := 12 }
    ctl := { Controller.reset with state := .held, frozen := some .whole, nextFrame := 13 } }

theorem frameInHand_roles : frameInHand.HandOffInv := by
  refine ⟨?_, rfl, rfl, ?_, ?_, ?_⟩
  · intro h hh; cases hh
  · intro _
    exact ⟨fun _ => rfl, fun h => absurd rfl h, rfl⟩
  · intro h; cases h
  · exact ⟨fun _ h => by (cases h), fun _ h => by (cases h), fun _ h => by (cases h); rfl⟩

/-- The frame at a position, with one byte sent. -/
def frameAt (p : Position) : Frame := { exampleFrame with position := p, crc := [0xC3].foldl crc32Byte 0xFFFFFFFF, byteCount := 1 }

/-- A frame at its start; and aborts at the last byte of the header, the last of the onset entries, the last of the aux record (every
counter of which is 0, so that the record is its header), and at the boundary before it. -/
theorem witness_WholeAndAbortedFramesAreTheirImages :
    (frameInHand.readout.frame = some exampleFrame ∧ exampleFrame.position = .header 0 ∧ exampleFrame.abortTaken = false
        ∧ exampleFrame.HasSent [] ∧ frameInHand.cells.length = 4100 ∧ frameInHand.HandOffInv)
      ∧ (∀ p, (frameAt p).HasSent [0xC3]) ∧ (frameAt (.header 27)).BeforeTrailer frameInHand
      ∧ (frameAt (.onsets 2 4)).BeforeTrailer frameInHand ∧ (frameAt (.bank 64 0)).BeforeTrailer frameInHand
      ∧ Frame.BeforeTrailer frameInHand { frameAt (.bank 64 2) with kind := .zero }
      ∧ ∃ t, exec (.abortReadout []) { listening with readout := { frame := some (frameAt (.bank 64 0)), emitted := 0 } } = .next t := by
  refine ⟨⟨rfl, rfl, rfl, ⟨rfl, rfl⟩, List.length_replicate .., frameInHand_roles⟩, fun p => ⟨rfl, rfl⟩, ?_, ?_, ⟨by decide, nofun⟩, ⟨by decide, fun _ => ?_⟩,
    _, rfl⟩
  · unfold Frame.BeforeTrailer frameAt
    decide
  · unfold Frame.BeforeTrailer frameAt
    decide
  · decide +kernel

theorem witness_SizesAreKeptByEveryStep : frameInHand.Sized ∧ ∃ t, step frameInHand = .next t := by
  refine ⟨⟨List.length_replicate .., ?_, ?_, ?_, ?_, List.length_replicate .., ?_, rfl, by decide, ?_, ?_, ?_⟩, _, rfl⟩
  · intro c hc
    obtain rfl := List.eq_of_mem_replicate hc
    unfold Cell.Ranged
    decide
  · intro c hc
    obtain rfl := List.eq_of_mem_replicate hc
    decide
  · intro i c _ hc
    obtain rfl := List.eq_of_mem_replicate (List.mem_of_getElem? hc)
    rfl
  · intro c hc
    obtain rfl := List.eq_of_mem_replicate hc
    decide
  · intro i c hi hc
    obtain rfl := List.eq_of_mem_replicate (List.mem_of_getElem? hc)
    show (List.replicate 4096 false)[i]? = some false
    rw [List.getElem?_replicate, if_pos hi]
  · intro d h; cases h
  · intro d h; cases h
  · intro f h
    cases h
    exact ⟨by decide, rfl⟩

/-- An enabled cause that is pending. -/
def asserted : State :=
  { listening with
    attn := 0x81, params := { Params.reset with attnEnable := 0x80 }, pins := { listening.pins with attnLow := true } }

theorem witness_AttentionLineFollowsAtEveryStep : asserted.AttnFollows ∧ ∃ t, step asserted = .next t := by
  refine ⟨?_, _, rfl⟩
  unfold State.AttnFollows
  decide

theorem witness_ParametersStayLegal :
    Params.Legal { Params.reset with mapGranule := 16, mapBase := 0xFFF0000000, winLen := 16777215, bankGate := 0xFFFFFFFFFFFFFFFF } := by
  intro id
  cases id <;> decide +kernel

theorem witness_StorageRolesAreKeptByEveryStep : frameInHand.HandOffInv ∧ ∃ t, step frameInHand = .next t := ⟨frameInHand_roles, _, rfl⟩

/-- A SETTLING window after the settle cap's expiry, one cell HOT. -/
def afterCap : State :=
  { during .settling (some { fresh with settleCap := true }) [hotCell] with
    occ := { current := 1, peak := 1 }
    engine := { CellEngine.reset with applying := some { cell := 0, weight := 1 } } }

theorem witness_RestIsKeptByEveryStep : afterCap.params.Legal ∧ afterCap.RestInv ∧ ∃ t, step afterCap = .next t := by
  refine ⟨fun id => by cases id <;> decide +kernel,
    ⟨?_, fun _ => ⟨rfl, rfl⟩, fun _ => ?_, ?_, ?_, fun _ => by decide, ?_, fun _ _ => rfl, ?_, ?_, ?_, ?_, fun h => absurd rfl h,
      fun h => absurd rfl h, nofun⟩, _, rfl⟩
  · intro h; cases h
  · exact ⟨nofun, nofun⟩
  · unfold Divider.InPeriod
    decide
  · intro h; cases h
  · intro n h; cases h
  · intro h; cases h
  · intro h; cases h
  · rintro (_ | _) h <;> cases h
  · rintro (_ | _) h hh <;> cases hh

theorem witness_OccupancyCountsTheHotCells : afterCap.RestInv ∧ afterCap.OccupancyExact ∧ ∃ t, step afterCap = .next t := by
  refine ⟨witness_RestIsKeptByEveryStep.2.1, ?_, _, rfl⟩
  unfold State.OccupancyExact
  decide

theorem witness_CountersAreZeroBetweenWindows :
    (frameInHand.Sized ∧ frameInHand.HandOffInv ∧ frameInHand.RestInv ∧ frameInHand.StorageInv ∧ ∃ t, step frameInHand = .next t)
      ∧ ((during .idle none [Cell.reset]).StorageInv ∧ (during .idle none [Cell.reset]).ctl.frozen = none) := by
  refine ⟨⟨witness_SizesAreKeptByEveryStep.1, witness_StorageRolesAreKeptByEveryStep.1, ?_, ?_, _, rfl⟩, ?_, rfl⟩
  · refine ⟨?_, ?_, ?_, ?_, ?_, ?_, ?_, ?_, ?_, ?_, ?_, ?_, fun h => absurd rfl h, fun h => absurd rfl h, nofun⟩
    · intro _
      refine ⟨?_, rfl, rfl, ⟨rfl, rfl, rfl⟩, rfl, rfl⟩
      intro c hc
      obtain rfl := List.eq_of_mem_replicate hc
      exact ⟨rfl, rfl⟩
    · intro h; cases h
    · intro h; cases h
    · unfold Divider.InPeriod
      exact ⟨nofun, nofun, nofun⟩
    · intro h; cases h
    · intro h; cases h
    · intro n h; cases h
    · intro h; cases h
    · intro h; cases h
    · intro h; cases h
    · rintro (_ | _) h <;> cases h
    · rintro (_ | _) h hh <;> cases hh
  · refine ⟨?_, ?_, ?_, ?_⟩
    · intro z f _ hf i c _ hc
      cases hf
      cases hc
    · intro h; cases h
    · intro _ h; cases h
    · intro h; cases h
  · refine ⟨?_, ?_, ?_, ?_⟩
    · intro z f h; cases h
    · intro h; cases h
    · intro _ _ c hc
      simp [during] at hc
      subst hc
      exact ⟨rfl, rfl, rfl, rfl⟩
    · intro h; cases h

theorem witness_EveryWindowIsAccountedFor :
    frameInHand.HandOffInv ∧ frameInHand.WindowsAccounted ∧ ∃ t, step frameInHand = .next t := by
  refine ⟨witness_StorageRolesAreKeptByEveryStep.1, ?_, _, rfl⟩
  unfold State.WindowsAccounted
  decide +kernel

/-- An OPEN window with an entry in its first-onset list, and a report that waits for the onset tick directly behind. -/
def listed : State :=
  { during .opened (some { fresh with onsets := [{ cell := 0, offset := 3 }] }) [hotCell, hotCell] with
    pending := [.onsetTick]
    crossing := { reports := [1], ticked := [] }
    ctl := { state := .opened, desc := some { fresh with onsets := [{ cell := 0, offset := 3 }] }, waiting := none, nextFrame := 1
             windowCount := 3, settleCount := 0, cycleOn := false, cyclesLeft := 0, missedOpens := 0, discardCarry := 0
             heldCarry := false, liveHalf := .h0, frozen := none, discardedTotal := 0 } }

theorem witness_OnsetListStaysOrdered : listed.OnsetListInv ∧ ∃ t, step listed = .next t := by
  refine ⟨⟨by decide, ?_, ?_, ?_, ?_, ?_, ⟨by decide, ?_⟩, ?_⟩, _, rfl⟩
  · intro d h; cases h; decide
  · intro d h; cases h; decide
  · intro d h; cases h; decide
  · intro d h; cases h; decide
  · intro d h e he
    cases h
    simp at he
    subst he
    exact ⟨hotCell, rfl, rfl⟩
  · intro d h; cases h; decide
  · intro i hi
    simp [listed] at hi
    subst hi
    exact ⟨hotCell, rfl, rfl⟩

end Sys2Proof.Tests
end

section
/-!
The configuration operations of the cell array (section 1.4): the steps of a LOAD_BANK run one after the other (R24), and
READ_BANK and FETCH_RESULT by their checks (R25, R26).
-/

namespace Sys2Proof.Machine

/-! ### Runs along a known trace -/

/-- A step with a command waiting takes the command at the front of the queue. -/
theorem step_of_pending (s : State) (c : Instr) (rest : List Instr) (h : s.pending = c :: rest) :
    step s = exec c { s with pending := rest } := by
  simp only [step, h]

/-- A run of the part along states of which each is the step of the one before. -/
theorem run_of_steps (trace : Nat → State) (n : Nat) (h : ∀ k < n, step (trace k) = .next (trace (k + 1))) :
    Host.Core.run Sys2Proof.core n (trace 0) = .next (trace n) := by
  induction n generalizing trace with
  | zero => rfl
  | succ n ih =>
    have first : Sys2Proof.core.step (trace 0) = .next (trace 1) := h 0 n.succ_pos
    simp only [Host.Core.run, first]
    exact ih (fun k => trace (k + 1)) fun k hk => h (k + 1) (Nat.succ_lt_succ hk)

/-! ### The slots of a bank -/

/-- A list with one place for each cell, where the places of the first `k` slots of bank `b` have taken the bytes of these slots. -/
def loadSlots {α : Type} (take : Byte → α → α) (b k : Nat) (bytes : List Byte) (l : List α) : List α :=
  l.mapIdx fun i a => if i / 64 = b ∧ i % 64 < k then take (bytes.getD (i % 64) 0) a else a

@[simp] theorem length_loadSlots {α : Type} (take : Byte → α → α) (b k : Nat) (bytes : List Byte) (l : List α) :
    (loadSlots take b k bytes l).length = l.length := List.length_mapIdx

theorem getElem?_loadSlots {α : Type} (take : Byte → α → α) (b k : Nat) (bytes : List Byte) (l : List α) (i : Nat) :
    (loadSlots take b k bytes l)[i]? =
      (l[i]?).map fun a => if i / 64 = b ∧ i % 64 < k then take (bytes.getD (i % 64) 0) a else a :=
  List.getElem?_mapIdx

@[simp] theorem loadSlots_zero {α : Type} (take : Byte → α → α) (b : Nat) (bytes : List Byte) (l : List α) :
    loadSlots take b 0 bytes l = l := by
  ext1 i
  simp [getElem?_loadSlots]

/-- The place that slot `k` of bank `b` changes is the place of `i` exactly where `i` is that slot. -/
theorem slotIndex_eq_iff (b k i : Nat) (hk : k < 64) : slotIndex b k = i ↔ i / 64 = b ∧ i % 64 = k := by
  unfold slotIndex Config.bankCells
  omega

/-- After `k` slots, the change of the next slot's place makes it `k + 1` slots. -/
theorem modify_loadSlots {α : Type} (take : Byte → α → α) (b k : Nat) (bytes : List Byte) (l : List α) (hk : k < 64) :
    (loadSlots take b k bytes l).modify (slotIndex b k) (take (bytes.getD k 0)) = loadSlots take b (k + 1) bytes l := by
  ext1 i
  rw [List.getElem?_modify, getElem?_loadSlots, getElem?_loadSlots]
  cases l[i]? with
  | none => rfl
  | some a =>
    simp only [Option.map_some, Option.map_eq_map, slotIndex_eq_iff b k i hk]
    by_cases slot : i / 64 = b ∧ i % 64 = k
    · obtain ⟨rfl, rfl⟩ := slot
      simp
    · have same : (i / 64 = b ∧ i % 64 < k) ↔ (i / 64 = b ∧ i % 64 < k + 1) := by omega
      simp only [if_neg slot, same]

/-! ### LOAD_STEP -/

/-- The config that a configuration byte spells, read bit by bit (R191). -/
def configOf (x : Byte) : CellConfig where
  mask := x.getLsbD 6
  test := x.getLsbD 5
  trim := (x.setWidth 5).toInt

theorem decode_eq_configOf (x : Byte) (h : x.getLsbD 7 = false) : CellConfig.decode x = some (configOf x) := by
  simp only [CellConfig.decode, configOf, h, Bool.false_eq_true, if_false]

theorem bankSize_eq (b : Nat) : bankSize b = if b = 64 then 4 else 64 := rfl

theorem bankSize_le (b : Nat) : bankSize b ≤ 64 := by
  rw [bankSize_eq]
  split <;> omega

/-- The part where the first `k` slots of a LOAD_BANK have been loaded and the steps of the others wait: behind the last slot the
operation has completed (R24). -/
def loadedTo (b : Nat) (bytes : List Byte) (s : State) (k : Nat) : State :=
  { s with
    pending := List.replicate (bytes.length - k) .loadStep
    cells := loadSlots (fun x c => c.configure (configOf x)) b k bytes s.cells
    engine := { s.engine with
      op := if k < bytes.length then .loading b k bytes else .idle
      mirror := loadSlots (fun x _ => x.getLsbD 6) b k bytes s.engine.mirror } }

@[simp] theorem length_cells_loadedTo (b : Nat) (bytes : List Byte) (s : State) (k : Nat) :
    (loadedTo b bytes s k).cells.length = s.cells.length := by
  simp only [loadedTo, length_loadSlots]

@[simp] theorem length_mirror_loadedTo (b : Nat) (bytes : List Byte) (s : State) (k : Nat) :
    (loadedTo b bytes s k).engine.mirror.length = s.engine.mirror.length := by
  simp only [loadedTo, length_loadSlots]

/-- One LOAD_STEP with a byte that spells a config (R24). -/
theorem execLoadStep_slot (b k : Nat) (bytes : List Byte) (s : State) (hop : s.engine.op = .loading b k bytes)
    (hk : k < bytes.length) (valid : (bytes.getD k 0).getLsbD 7 = false) (hm : s.engine.mirror.length = 4096) :
    execLoadStep s = .next { s with
      cells := s.cells.modify (slotIndex b k) fun c => c.configure (configOf (bytes.getD k 0))
      engine := { s.engine with
        op := if k + 1 < bankSize b then .loading b (k + 1) bytes else .idle
        mirror := s.engine.mirror.modify (slotIndex b k) fun _ => (bytes.getD k 0).getLsbD 6 } } := by
  have spelled : (bytes[k]?).bind CellConfig.decode = some (configOf (bytes.getD k 0)) := by
    rw [← decode_eq_configOf _ valid, List.getD_eq_getElem _ _ hk, List.getElem?_eq_getElem hk, Option.bind_some]
  have mirrored : (if slotIndex b k < Config.arrayCells
      then s.engine.mirror.set (slotIndex b k) (configOf (bytes.getD k 0)).mask else s.engine.mirror)
        = s.engine.mirror.modify (slotIndex b k) fun _ => (bytes.getD k 0).getLsbD 6 := by
    rw [← List.set_eq_modify]
    split
    · rfl
    · next outside => exact (List.set_eq_of_length_le (hm.trans_le (Nat.le_of_not_lt outside))).symm
  simp only [execLoadStep, hop, spelled, mirrored]

/-- The step of each slot loads it (R24). -/
theorem step_loadedTo (b : Nat) (bytes : List Byte) (s : State) (hl : bytes.length = bankSize b)
    (valid : ∀ x ∈ bytes, x.getLsbD 7 = false) (hm : s.engine.mirror.length = 4096) (k : Nat) (hk : k < bytes.length) :
    step (loadedTo b bytes s k) = .next (loadedTo b bytes s (k + 1)) := by
  have slot : k < 64 := by
    have := bankSize_le b
    omega
  have waiting : (loadedTo b bytes s k).pending = .loadStep :: List.replicate (bytes.length - (k + 1)) .loadStep := by
    rw [← List.replicate_succ, show bytes.length - (k + 1) + 1 = bytes.length - k by omega]
    rfl
  have byteValid : (bytes.getD k 0).getLsbD 7 = false := by
    rw [List.getD_eq_getElem _ _ hk]
    exact valid _ (List.getElem_mem hk)
  have loaded := execLoadStep_slot b k bytes
    { loadedTo b bytes s k with pending := List.replicate (bytes.length - (k + 1)) .loadStep }
    (if_pos hk) hk byteValid ((length_mirror_loadedTo ..).trans hm)
  rw [step_of_pending _ _ _ waiting]
  refine loaded.trans ?_
  simp only [loadedTo, modify_loadSlots (fun x c => Cell.configure c (configOf x)) b k bytes s.cells slot,
    modify_loadSlots (fun x _ => x.getLsbD 6) b k bytes s.engine.mirror slot, hl]

/-- Within a bank of the list's places every slot has been loaded, and no other place is of the bank. -/
theorem loaded_iff (b i : Nat) (hi : i < 4100) : (i / 64 = b ∧ i % 64 < bankSize b) ↔ i / 64 = b := by
  rw [bankSize_eq]
  split <;> omega

/-- Settles O20: the trace of the LOAD_BANK is `loadedTo`, slot after slot. -/
theorem loadStepsConfigureTheWholeBank : Obligations.LoadStepsConfigureTheWholeBank := by
  intro b bytes s _ hl valid hcells hmirror hop hpending
  have hsize : bytes.length = bankSize b := hl
  have start : loadedTo b bytes s 0 = s := by
    have nonempty : 0 < bytes.length := by
      rw [hl]
      split <;> omega
    simp only [loadedTo, loadSlots_zero, if_pos nonempty, Nat.sub_zero, ← hpending, ← hop]
  have run := run_of_steps (loadedTo b bytes s) bytes.length (step_loadedTo b bytes s hsize valid hmirror)
  rw [start] at run
  refine ⟨loadedTo b bytes s bytes.length, run, ?_, (length_cells_loadedTo ..).trans hcells, (length_mirror_loadedTo ..).trans hmirror, ?_, ?_⟩
  · simp only [loadedTo, Nat.sub_self, List.replicate_zero, Nat.lt_irrefl, if_false]
  · intro i c hc
    have inArray : i < 4100 := hcells ▸ (List.getElem?_eq_some_iff.1 hc).1
    simp only [loadedTo, getElem?_loadSlots, hc, Option.map_some, hsize, loaded_iff b i inArray]
    rfl
  · intro i m hm
    have inMirror : i < 4096 := hmirror ▸ (List.getElem?_eq_some_iff.1 hm).1
    simp only [loadedTo, getElem?_loadSlots, hm, Option.map_some, hsize, loaded_iff b i (by omega)]

/-! ### READ_BANK and FETCH_RESULT -/

/-- A request that its command refuses for its length in every state: also where it is longer than the decoder keeps (R157 steps 3
and 5). -/
theorem takeCommand_badLength (code : Byte) (args : List Byte) (own : State → Answer) (s : State)
    (hr : s.port.decoder = .receiving) (hl : args.length ≤ 255) (ho : ∀ r, own r = .error .badLength) :
    takeCommand code args own s = s.answered code args .badLength [] := by
  by_cases long : 72 < args.length
  · exact takeCommand_long code args own s hr hl long
  · exact takeCommand_error code args own s .badLength hr (Nat.le_of_not_lt long) (ho _) (by decide)

theorem exec_readBank (args : List Byte) (s : State) :
    exec (.readBank args) s = .next (takeCommand 0x21 args (answerReadBank args) s) := rfl

theorem exec_fetchResult (args : List Byte) (s : State) :
    exec (.fetchResult args) s = .next (takeCommand 0x22 args (answerFetchResult args) s) := rfl

theorem answerReadBank_length (args : List Byte) (h : args.length ≠ 1) (r : State) : answerReadBank args r = .error .badLength := by
  match args with
  | [] => rfl
  | [_] => exact absurd rfl h
  | _ :: _ :: _ => rfl

/-- READ_BANK's checks read the controller and the Cell Engine alone, and its effect leaves the port alone (R25). -/
theorem answerReadBank_withPort (b : Byte) (s : State) (p : Port) :
    answerReadBank [b] (s.withPort p) =
      if 64 < b.toNat then .error .badArg
      else if s.engine.op ≠ .idle then .error .busy
      else if s.ctl.state ≠ .idle then .error .wrongState
      else .ok (State.withPort { s with engine := { s.engine with
        op := .reading b.toNat 0, result := { bank := b.toNat, entries := [], valid := false } } } p, []) := by
  have busy : (s.withPort p).cfgInFlight = true ↔ s.engine.op ≠ .idle := decide_eq_true_iff
  simp only [answerReadBank, busy]
  rfl

theorem answerFetchResult_length (args : List Byte) (h : args ≠ []) (r : State) : answerFetchResult args r = .error .badLength := by
  match args with
  | [] => exact absurd rfl h
  | _ :: _ => rfl

theorem answerFetchResult_reading (b k : Nat) (s : State) (h : s.engine.op = .reading b k) :
    answerFetchResult [] s = .error .busy := by
  simp only [answerFetchResult, h]

theorem answerFetchResult_loading (b k : Nat) (bytes : List Byte) (s : State) (h : s.engine.op = .loading b k bytes) :
    answerFetchResult [] s = .error .wrongState := by
  simp only [answerFetchResult, h]

theorem answerFetchResult_invalid (s : State) (h : s.engine.op = .idle) (hv : s.engine.result.valid = false) :
    answerFetchResult [] s = .error .wrongState := by
  simp only [answerFetchResult, h, hv, Bool.false_eq_true, if_false]

theorem answerFetchResult_valid (s : State) (h : s.engine.op = .idle) (hv : s.engine.result.valid = true) :
    answerFetchResult [] s =
      .ok (s, BitVec.ofNat 8 s.engine.result.bank :: s.engine.result.entries.map CellConfig.encode) := by
  simp only [answerFetchResult, h, hv, if_true]

/-- READ_BANK with its one argument: the first check that fails answers, and else the operation begins (R25). -/
theorem takeCommand_readBank (b : Byte) (s : State) (hr : s.port.decoder = .receiving) :
    takeCommand 0x21 [b] (answerReadBank [b]) s =
      if 64 < b.toNat then s.answered 0x21 [b] .badArg []
      else if s.engine.op ≠ .idle then s.answered 0x21 [b] .busy []
      else if s.ctl.state ≠ .idle then s.answered 0x21 [b] .wrongState []
      else { s with engine := { s.engine with
        op := .reading b.toNat 0, result := { bank := b.toNat, entries := [], valid := false } } }.answered 0x21 [b] .ok [] := by
  have short : [b].length ≤ 72 := by simp
  have own := answerReadBank_withPort b s (receiveRequest 0x21 [b] (requestCheck 0x21 [b]) s).port
  rw [← receiveRequest_withPort] at own
  by_cases bank : 64 < b.toNat
  · rw [if_pos bank] at own ⊢
    exact takeCommand_error _ _ _ s _ hr short own (by decide)
  rw [if_neg bank] at own ⊢
  by_cases flight : s.engine.op ≠ .idle
  · rw [if_pos flight] at own ⊢
    exact takeCommand_error _ _ _ s _ hr short own (by decide)
  rw [if_neg flight] at own ⊢
  by_cases window : s.ctl.state ≠ .idle
  · rw [if_pos window] at own ⊢
    exact takeCommand_error _ _ _ s _ hr short own (by decide)
  rw [if_neg window] at own ⊢
  exact takeCommand_ok _ _ _ s _ _ hr short own rfl

/-- Settles O21, check by check. -/
theorem readBankAndFetchAreCheckedInOrder : Obligations.ReadBankAndFetchAreCheckedInOrder := by
  intro s hr
  have short : ([] : List Byte).length ≤ 72 := Nat.zero_le _
  simp only [exec_readBank, exec_fetchResult]
  refine ⟨?_, ?_, ?_, ?_, ?_, ?_, ?_⟩
  · intro args hne hl
    rw [takeCommand_badLength _ _ _ s hr hl (answerReadBank_length args hne)]
  · intro b
    rw [takeCommand_readBank b s hr]
  · intro args hne hl
    rw [takeCommand_badLength _ _ _ s hr hl (answerFetchResult_length args hne)]
  · intro b k hop
    rw [takeCommand_error _ _ _ s .busy hr short (answerFetchResult_reading b k _ hop) (by decide)]
  · intro b k bytes hop
    rw [takeCommand_error _ _ _ s .wrongState hr short (answerFetchResult_loading b k bytes _ hop) (by decide)]
  · intro hop hv
    rw [takeCommand_error _ _ _ s .wrongState hr short (answerFetchResult_invalid _ hop hv) (by decide)]
  · intro hop hv
    have own := answerFetchResult_valid (receiveRequest 0x22 [] (requestCheck 0x22 []) s) hop hv
    rw [takeCommand_ok _ _ _ s s _ hr short own rfl]
    rfl

end Sys2Proof.Machine
end

section
/-!
The Source Filter Table (section 3.5): the entry byte and what it spells, SET_FILTER and GET_FILTER by their checks (R60, R61), and
the decision of the first entry that matches (R58, R59).
-/

namespace Sys2Proof.Machine

/-! ### The entry byte (section 10.2.3) -/

theorem toNat_getLsbD (x : Byte) (i : Nat) : (x.getLsbD i).toNat = x.toNat / 2 ^ i % 2 :=
  Nat.toNat_testBit x.toNat i

theorem bool_eq_iff_toNat_eq (a b : Bool) : a = b ↔ a.toNat = b.toNat := by
  cases a <;> cases b <;> decide

theorem Direction.code_le (d : Direction) : d.code ≤ 2 := by
  cases d <;> decide

theorem Direction.decode_code (d : Direction) : Direction.decode d.code = some d := by
  cases d <;> rfl

/-- The number of an entry byte, field by field. -/
theorem entryByte_toNat (e : FilterEntry) (h : e.shift ≤ 3) :
    e.entryByte.toNat =
      e.valid.toNat + 2 * e.direction.code + 8 * (decide (e.action = .ignore)).toNat + 16 * e.shift := by
  have number : e.entryByte = BitVec.ofNat 8
      (e.valid.toNat + 2 * e.direction.code + 8 * (decide (e.action = .ignore)).toNat + 16 * e.shift) := by
    unfold FilterEntry.entryByte
    cases e.valid <;> cases e.action <;> rfl
  rw [number, BitVec.toNat_ofNat, Nat.mod_eq_of_lt]
  have := e.valid.toNat_le
  have := e.direction.code_le
  have := (decide (e.action = .ignore)).toNat_le
  omega

theorem spelledBy_iff_code (e : FilterEntry) (x : Byte) :
    e.SpelledBy x ↔ x.getLsbD 0 = e.valid ∧ x.toNat / 2 % 4 = e.direction.code ∧ x.getLsbD 3 = decide (e.action = .ignore)
      ∧ x.toNat / 16 % 4 = e.shift ∧ x.getLsbD 6 = false ∧ x.getLsbD 7 = false := by
  unfold FilterEntry.SpelledBy
  cases e.direction <;> exact Iff.rfl

/-- The fields of the entry byte as numbers: each has the bits of its place, and the two highest bits are 0. -/
theorem spelledBy_iff_fields (e : FilterEntry) (x : Byte) :
    e.SpelledBy x ↔ x.toNat % 2 = e.valid.toNat ∧ x.toNat / 2 % 4 = e.direction.code
      ∧ x.toNat / 8 % 2 = (decide (e.action = .ignore)).toNat ∧ x.toNat / 16 % 4 = e.shift ∧ x.toNat < 64 := by
  have zeros : (x.getLsbD 6 = false ∧ x.getLsbD 7 = false) ↔ x.toNat < 64 := by
    simp only [bool_eq_iff_toNat_eq, toNat_getLsbD, Bool.toNat_false]
    have := x.isLt
    omega
  rw [spelledBy_iff_code, zeros, bool_eq_iff_toNat_eq (x.getLsbD 0), bool_eq_iff_toNat_eq (x.getLsbD 3), toNat_getLsbD,
    toNat_getLsbD, Nat.pow_zero, Nat.div_one]
  rfl

/-- An entry is spelled by the byte that the part sends for it, and by no other; its shift then has two bits. -/
theorem spelledBy_iff (e : FilterEntry) (x : Byte) : e.SpelledBy x ↔ e.shift ≤ 3 ∧ e.entryByte = x := by
  rw [spelledBy_iff_fields]
  have valid := e.valid.toNat_le
  have direction := e.direction.code_le
  have action := (decide (e.action = .ignore)).toNat_le
  constructor
  · rintro ⟨h0, h1, h3, h4, small⟩
    have shift : e.shift ≤ 3 := by omega
    refine ⟨shift, BitVec.eq_of_toNat_eq ?_⟩
    rw [entryByte_toNat e shift]
    omega
  · rintro ⟨shift, rfl⟩
    rw [entryByte_toNat e shift]
    omega

theorem beNat_pair (a b : Byte) : beNat [a, b] = 256 * a.toNat + b.toNat := by
  simp [beNat]

theorem beBytes_two (v : Nat) : beBytes 2 v = [BitVec.ofNat 8 (v / 256), BitVec.ofNat 8 v] := by
  simp [beBytes]

/-- Two bytes hold a number below 65536 (R189). -/
theorem beNat_beBytes_two (v : Nat) (h : v < 65536) : beNat (beBytes 2 v) = v := by
  rw [beBytes_two, beNat_pair, BitVec.toNat_ofNat, BitVec.toNat_ofNat]
  omega

/-- The bytes that spell an entry are read as its contents, with hit count 0. -/
theorem decode_of_spelledBy (e : FilterEntry) (x : Byte) (hx : e.SpelledBy x) (hv : e.idValue ≤ 4095) (hm : e.idMask ≤ 4095) :
    FilterEntry.decode x e.idValue e.idMask = some { e with hits := 0 } := by
  obtain ⟨valid, direction, action, shift, bit6, bit7⟩ := (spelledBy_iff_code e x).1 hx
  have inRange : (x.getLsbD 6 || x.getLsbD 7 || decide (4095 < e.idValue) || decide (4095 < e.idMask)) = false := by
    rw [bit6, bit7, decide_eq_false (Nat.not_lt.2 hv), decide_eq_false (Nat.not_lt.2 hm)]
    rfl
  have ignores : (if decide (e.action = .ignore) then Action.ignore else .count) = e.action := by
    cases e.action <;> rfl
  simp only [FilterEntry.decode, inRange, Bool.false_eq_true, if_false, direction, Direction.decode_code, Option.map_some, valid,
    action, ignores, shift]

/-- A reserved bit, direction 3, or an id_value or id_mask above 4095 spells no entry. -/
theorem decode_eq_none (x : Byte) (v m : Nat)
    (h : x.getLsbD 6 = true ∨ x.getLsbD 7 = true ∨ (x.getLsbD 1 = true ∧ x.getLsbD 2 = true) ∨ 4095 < v ∨ 4095 < m) :
    FilterEntry.decode x v m = none := by
  unfold FilterEntry.decode
  split
  · rfl
  · next inRange =>
    have bits : x.getLsbD 1 = true ∧ x.getLsbD 2 = true := by
      simp only [Bool.or_eq_true, decide_eq_true_eq, not_or] at inRange
      tauto
    have three : x.toNat / 2 % 4 = 3 := by
      simp only [bool_eq_iff_toNat_eq, toNat_getLsbD, Bool.toNat_true] at bits
      omega
    rw [three]
    rfl

/-! ### SET_FILTER and GET_FILTER (R60, R61) -/

theorem exec_setFilter (args : List Byte) (s : State) :
    exec (.setFilter args) s = .next (takeCommand 0x18 args (answerSetFilter args) s) := rfl

theorem exec_getFilter (args : List Byte) (s : State) :
    exec (.getFilter args) s = .next (takeCommand 0x19 args (answerGetFilter args) s) := rfl

theorem answerSetFilter_length (args : List Byte) (h : args.length ≠ 6) (r : State) : answerSetFilter args r = .error .badLength := by
  match args with
  | [] | [_] | [_, _] | [_, _, _] | [_, _, _, _] | [_, _, _, _, _] => rfl
  | [_, _, _, _, _, _] => exact absurd rfl h
  | _ :: _ :: _ :: _ :: _ :: _ :: _ :: _ => rfl

theorem answerSetFilter_index (i x v1 v0 m1 m0 : Byte) (r : State) (h : 7 < i.toNat) :
    answerSetFilter [i, x, v1, v0, m1, m0] r = .error .badArg := if_pos h

theorem answerSetFilter_invalid (i x v1 v0 m1 m0 : Byte) (r : State)
    (h : FilterEntry.decode x (beNat [v1, v0]) (beNat [m1, m0]) = none) :
    answerSetFilter [i, x, v1, v0, m1, m0] r = .error .badArg := by
  simp only [answerSetFilter, h, ite_self]

/-- With arguments that spell an entry, the controller and the Cell Engine decide (R60). -/
theorem answerSetFilter_entry (i x v1 v0 m1 m0 : Byte) (s : State) (p : Port) (e : FilterEntry) (hi : i.toNat ≤ 7)
    (h : FilterEntry.decode x (beNat [v1, v0]) (beNat [m1, m0]) = some e) :
    answerSetFilter [i, x, v1, v0, m1, m0] (s.withPort p) =
      if s.ctl.state = .idle ∧ s.engine.op = .idle then
        .ok (State.withPort { s with filter := s.filter.set i.toNat e } p, [])
      else .error .wrongState := by
  have noOperation : (s.withPort p).cfgInFlight = false ↔ s.engine.op = .idle :=
    decide_eq_false_iff_not.trans not_not
  simp only [answerSetFilter, if_neg (Nat.not_lt.2 hi), h, noOperation]
  rfl

theorem answerGetFilter_length (args : List Byte) (h : args.length ≠ 1) (r : State) : answerGetFilter args r = .error .badLength := by
  match args with
  | [] => rfl
  | [_] => exact absurd rfl h
  | _ :: _ :: _ => rfl

theorem answerGetFilter_index (i : Byte) (r : State) (h : 7 < i.toNat) : answerGetFilter [i] r = .error .badArg := if_pos h

theorem answerGetFilter_entry (i : Byte) (r : State) (e : FilterEntry) (hi : i.toNat ≤ 7) (he : r.filter[i.toNat]? = some e) :
    answerGetFilter [i] r = .ok (r, e.entryByte :: (beBytes 2 e.idValue ++ beBytes 2 e.idMask ++ beBytes 4 e.hits)) := by
  have entry : r.filter.getD i.toNat FilterEntry.reset = e := by
    rw [List.getD_eq_getElem?_getD, he, Option.getD_some]
  simp only [answerGetFilter, if_neg (Nat.not_lt.2 hi), entry]

/-- SET_FILTER with arguments that spell an entry (R60). -/
theorem takeCommand_setFilter (i x v1 v0 m1 m0 : Byte) (s : State) (e : FilterEntry) (hr : s.port.decoder = .receiving)
    (hi : i.toNat ≤ 7) (h : FilterEntry.decode x (beNat [v1, v0]) (beNat [m1, m0]) = some e) :
    takeCommand 0x18 [i, x, v1, v0, m1, m0] (answerSetFilter [i, x, v1, v0, m1, m0]) s =
      if s.ctl.state = .idle ∧ s.engine.op = .idle then
        { s with filter := s.filter.set i.toNat e }.answered 0x18 [i, x, v1, v0, m1, m0] .ok []
      else s.answered 0x18 [i, x, v1, v0, m1, m0] .wrongState [] := by
  have short : [i, x, v1, v0, m1, m0].length ≤ 72 := by simp
  have own := answerSetFilter_entry i x v1 v0 m1 m0 s
    (receiveRequest 0x18 [i, x, v1, v0, m1, m0] (requestCheck 0x18 [i, x, v1, v0, m1, m0]) s).port e hi h
  rw [← receiveRequest_withPort] at own
  by_cases quiet : s.ctl.state = .idle ∧ s.engine.op = .idle
  · rw [if_pos quiet]
    exact takeCommand_ok _ _ _ s _ _ hr short (own.trans (if_pos quiet)) rfl
  · rw [if_neg quiet]
    exact takeCommand_error _ _ _ s _ hr short (own.trans (if_neg quiet)) (by decide)

/-- GET_FILTER of an entry of the table (R61). -/
theorem takeCommand_getFilter (i : Byte) (s : State) (e : FilterEntry) (hr : s.port.decoder = .receiving) (hi : i.toNat ≤ 7)
    (he : s.filter[i.toNat]? = some e) :
    takeCommand 0x19 [i] (answerGetFilter [i]) s =
      s.answered 0x19 [i] .ok (e.entryByte :: (beBytes 2 e.idValue ++ beBytes 2 e.idMask ++ beBytes 4 e.hits)) :=
  takeCommand_ok _ _ _ s s _ hr (by simp)
    (answerGetFilter_entry i (receiveRequest 0x19 [i] (requestCheck 0x19 [i]) s) e hi he) rfl

/-- Settles O17, check by check. -/
theorem filterEntriesAreWrittenAndReadBack : Obligations.FilterEntriesAreWrittenAndReadBack := by
  intro s hr
  simp only [exec_setFilter, exec_getFilter]
  refine ⟨?_, ?_, ?_, ?_, ?_, ?_⟩
  · intro i e x hi hv hm hx
    have index : (BitVec.ofNat 8 i).toNat = i := Nat.mod_eq_of_lt (by omega)
    have inTable : (BitVec.ofNat 8 i).toNat ≤ 7 := by omega
    have spelled : FilterEntry.decode x (beNat [BitVec.ofNat 8 (e.idValue / 256), BitVec.ofNat 8 e.idValue])
        (beNat [BitVec.ofNat 8 (e.idMask / 256), BitVec.ofNat 8 e.idMask]) = some { e with hits := 0 } := by
      rw [← beBytes_two, ← beBytes_two, beNat_beBytes_two _ (by omega), beNat_beBytes_two _ (by omega)]
      exact decode_of_spelledBy e x hx hv hm
    have written := takeCommand_setFilter _ x _ _ _ _ s _ hr inTable spelled
    rw [index] at written
    simp only [beBytes_two, List.cons_append, List.nil_append]
    refine ⟨?_, ?_, ?_⟩
    · intro quiet
      rw [written, if_pos quiet]
    · intro busy
      rw [written, if_neg busy]
    · intro he
      obtain ⟨-, rfl⟩ := (spelledBy_iff e x).1 hx
      rw [takeCommand_getFilter _ s e hr inTable (index.symm ▸ he), beBytes_two, beBytes_two]
      rfl
  · intro e shift
    exact (spelledBy_iff e e.entryByte).2 ⟨shift, rfl⟩
  · intro args hne hl
    rw [takeCommand_badLength _ _ _ s hr hl (answerSetFilter_length args hne)]
  · intro i x v1 v0 m1 m0 bad
    have refused (r : State) : answerSetFilter [i, x, v1, v0, m1, m0] r = .error .badArg := by
      rcases bad with index | bad
      · exact answerSetFilter_index i x v1 v0 m1 m0 r index
      · have value : 16 ≤ v1.toNat → 4095 < 256 * v1.toNat + v0.toNat := by omega
        have mask : 16 ≤ m1.toNat → 4095 < 256 * m1.toNat + m0.toNat := by omega
        apply answerSetFilter_invalid
        apply decode_eq_none
        rw [beNat_pair, beNat_pair]
        exact bad.imp_right <| .imp_right <| .imp_right <| .imp value mask
    rw [takeCommand_error _ _ _ s .badArg hr (by simp) (refused _) (by decide)]
  · intro args hne hl
    rw [takeCommand_badLength _ _ _ s hr hl (answerGetFilter_length args hne)]
  · intro i index
    rw [takeCommand_error _ _ _ s .badArg hr (by simp) (answerGetFilter_index i _ index) (by decide)]

/-! ### The decision of the table (R58, R59) -/

/-- The model's test of an entry in the words of R58. -/
theorem matchesHandshake_iff (e : FilterEntry) (ch : Channel) (id : BitVec 12) :
    e.matchesHandshake ch id = true ↔ e.valid = true ∧ (id.toNat &&& e.idMask) = (e.idValue &&& e.idMask)
      ∧ (e.direction = .any ∨ (e.direction = .read ∧ ch = .read) ∨ (e.direction = .write ∧ ch = .write)) := by
  have takes : e.direction.takes ch = true ↔
      e.direction = .any ∨ (e.direction = .read ∧ ch = .read) ∨ (e.direction = .write ∧ ch = .write) := by
    cases e.direction <;> cases ch <;> decide
  rw [FilterEntry.matchesHandshake, Bool.and_eq_true, Bool.and_eq_true, decide_eq_true_iff, takes, and_assoc]

/-- The first entry that matches decides, and its hit count alone changes. -/
theorem filterDecide_first (dflt : Action) (ch : Channel) (id : BitVec 12) (table : List FilterEntry) (k : Nat) (e : FilterEntry)
    (he : table[k]? = some e) (hm : e.matchesHandshake ch id = true)
    (before : ∀ j x, j < k → table[j]? = some x → ¬ x.matchesHandshake ch id = true) :
    filterDecide dflt ch id table = { table := table.set k e.hit, action := e.action, shift := e.shift } := by
  induction table generalizing k with
  | nil => cases he
  | cons x xs ih =>
    cases k with
    | zero =>
      obtain rfl : x = e := Option.some.inj he
      simp only [filterDecide, hm, if_true, List.set_cons_zero]
    | succ k =>
      have passed : ¬ x.matchesHandshake ch id = true := before 0 x k.succ_pos rfl
      have rest := ih k he fun j y hj hy => before (j + 1) y (Nat.succ_lt_succ hj) hy
      simp only [filterDecide, if_neg passed, rest, List.set_cons_succ]

/-- Where no entry matches, the default action decides and the table stays as it was. -/
theorem filterDecide_default (dflt : Action) (ch : Channel) (id : BitVec 12) (table : List FilterEntry)
    (unmatched : ∀ e ∈ table, ¬ e.matchesHandshake ch id = true) :
    filterDecide dflt ch id table = { table := table, action := dflt, shift := 0 } := by
  induction table with
  | nil => rfl
  | cons x xs ih =>
    obtain ⟨passed, others⟩ := List.forall_mem_cons.1 unmatched
    simp only [filterDecide, if_neg passed, ih others]

/-- Settles O18, by induction on the table. -/
theorem firstMatchingEntryDecides : Obligations.FirstMatchingEntryDecides := by
  intro dflt ch id table
  simp only [← matchesHandshake_iff]
  exact ⟨filterDecide_first dflt ch id table, filterDecide_default dflt ch id table⟩

end Sys2Proof.Machine
end

section
/-!
ABORT_READOUT (section 6.8): which banks the abort clears, what a clear of banks does to the cells, and the command by its checks
(R133, R134).
-/

namespace Sys2Proof.Machine

/-! ### The clear of whole banks (R125, R134) -/

@[simp] theorem length_cells_clearBanks (f : Nat → Bool) (s : State) : (clearBanks f s).cells.length = s.cells.length := by
  unfold clearBanks
  split
  · rfl
  · exact length_mapCells ..

/-- With no frozen storage there is nothing to clear. -/
theorem clearBanks_unfrozen (f : Nat → Bool) (s : State) (h : s.ctl.frozen = none) : clearBanks f s = s := by
  simp only [clearBanks, h]

/-- With frozen storage, the cells of the banks that the test selects are cleared in it, and the others stay. -/
theorem getElem?_cells_clearBanks (f : Nat → Bool) (s : State) (z : Frozen) (h : s.ctl.frozen = some z) (i : Nat) :
    (clearBanks f s).cells[i]? = (s.cells[i]?).map fun c => if f (i / 64) then c.clearFrozen z else c := by
  simp only [clearBanks, h, getElem?_mapCells, Nat.zero_add]
  rfl

/-- Clearing changes the cells alone. -/
theorem clearBanks_frame (f : Nat → Bool) (s : State) : clearBanks f s = { s with cells := (clearBanks f s).cells } := by
  unfold clearBanks
  split <;> rfl

/-! ### The effect of the abort (R134) -/

/-- An abort changes the cells and the frame in hand, and nothing else. -/
theorem abortFrame_frame (f : Frame) (s : State) :
    abortFrame f s = { s with
      cells := (abortFrame f s).cells
      readout := { s.readout with frame := some { f with abortTaken := true, position := abortPosition f.position } } } :=
  clearBanks_frame (abortClears f.position) (frameTo { f with abortTaken := true } (abortPosition f.position) s)

@[simp] theorem abortFrame_port (f : Frame) (s : State) : (abortFrame f s).port = s.port := by
  rw [abortFrame_frame]

@[simp] theorem length_cells_abortFrame (f : Frame) (s : State) : (abortFrame f s).cells.length = s.cells.length :=
  length_cells_clearBanks ..

/-- A cell of a bank not begun is cleared in the frozen storage. -/
theorem abortFrame_clears (f : Frame) (s : State) (i : Nat) (c : Cell) (z : Frozen) (hz : s.ctl.frozen = some z)
    (hc : s.cells[i]? = some c) (unsent : abortClears f.position (i / 64) = true) :
    (abortFrame f s).cells[i]? = some (c.clearFrozen z) := by
  have cleared := getElem?_cells_clearBanks (abortClears f.position)
    (frameTo { f with abortTaken := true } (abortPosition f.position) s) z hz i
  rwa [frameTo_cells, hc, Option.map_some, if_pos unsent] at cleared

/-- Every other cell stays: one of a bank sent or in hand, and any cell where no storage is frozen. -/
theorem abortFrame_keeps (f : Frame) (s : State) (i : Nat) (c : Cell) (hc : s.cells[i]? = some c)
    (h : s.ctl.frozen = none ∨ ¬ abortClears f.position (i / 64) = true) : (abortFrame f s).cells[i]? = some c := by
  unfold abortFrame
  cases hz : s.ctl.frozen with
  | none => rwa [clearBanks_unfrozen _ (frameTo _ _ s) hz]
  | some z =>
    have begun : ¬ abortClears f.position (i / 64) = true := h.resolve_left (hz ▸ Option.some_ne_none z)
    rw [getElem?_cells_clearBanks _ (frameTo _ _ s) z hz, frameTo_cells, hc, Option.map_some, if_neg begun]

/-! ### ABORT_READOUT by its checks (R133) -/

theorem exec_abortReadout (args : List Byte) (s : State) :
    exec (.abortReadout args) s = .next (takeCommand 0x40 args (answerAbortReadout args) s) := rfl

theorem answerAbortReadout_length (args : List Byte) (h : args ≠ []) (r : State) : answerAbortReadout args r = .error .badLength :=
  if_pos h

theorem answerAbortReadout_noFrame (r : State) (h : r.readout.frame = none) : answerAbortReadout [] r = .error .wrongState := by
  simp only [answerAbortReadout, noArgs, ne_eq, not_true_eq_false, if_false, h]

/-- An abort already taken, or the trailer begun: the frame takes no abort. -/
theorem answerAbortReadout_tooLate (r : State) (f : Frame) (hf : r.readout.frame = some f)
    (h : f.abortTaken = true ∨ ∃ k, f.position = .trailer k) : answerAbortReadout [] r = .error .wrongState := by
  simp only [answerAbortReadout, noArgs, ne_eq, not_true_eq_false, if_false, hf]
  rcases h with taken | ⟨_, trailer⟩
  · exact if_pos taken
  · simp only [trailer, ite_self]

/-- A frame before its trailer takes its first abort. -/
theorem answerAbortReadout_taken (r : State) (f : Frame) (hf : r.readout.frame = some f) (first : f.abortTaken = false)
    (before : ∀ k, f.position ≠ .trailer k) : answerAbortReadout [] r = .ok (abortFrame f r, []) := by
  simp only [answerAbortReadout, noArgs, ne_eq, not_true_eq_false, if_false, hf, first, Bool.false_eq_true]

/-- The taken abort: its effect, and the answer on the port (R133, R134). -/
theorem takeCommand_abortReadout (f : Frame) (s : State) (hr : s.port.decoder = .receiving) (hf : s.readout.frame = some f)
    (first : f.abortTaken = false) (before : ∀ k, f.position ≠ .trailer k) :
    takeCommand 0x40 [] (answerAbortReadout []) s = (abortFrame f s).answered 0x40 [] .ok [] := by
  have own := answerAbortReadout_taken (receiveRequest 0x40 [] (requestCheck 0x40 []) s) f hf first before
  rw [receiveRequest_withPort, abortFrame_withPort, ← receiveRequest_withPort] at own
  exact takeCommand_ok _ _ _ s _ _ hr (Nat.zero_le _) own (abortFrame_port f s)

/-- Settles O49: the checks in order, and the table of R134 position by position. -/
theorem abortReadoutClearsUnsentBanks : Obligations.AbortReadoutClearsUnsentBanks := by
  intro s hr
  have short : ([] : List Byte).length ≤ 72 := Nat.zero_le _
  refine ⟨?_, ?_, fun f hf => ⟨?_, ?_⟩⟩
  · intro args hne hl
    rw [exec_abortReadout, takeCommand_badLength _ _ _ s hr hl (answerAbortReadout_length args hne)]
  · intro noFrame
    rw [exec_abortReadout, takeCommand_error _ _ _ s .wrongState hr short (answerAbortReadout_noFrame _ noFrame) (by decide)]
  · intro late
    rw [exec_abortReadout, takeCommand_error _ _ _ s .wrongState hr short (answerAbortReadout_tooLate _ f hf late) (by decide)]
  · intro first before cleared
    have unsent (b : Nat) : cleared b ↔ abortClears f.position b = true := by
      simp only [cleared]
      match h : f.position with
      | .header _ | .onsets _ _ => exact iff_of_true trivial rfl
      | .bank n 0 | .bank n (_ + 1) => exact decide_eq_true_iff.symm
      | .trailer k => exact absurd h (before k)
    refine ⟨abortFrame f s, ?_, ?_, length_cells_abortFrame f s, ?_, ?_⟩
    · rw [exec_abortReadout, takeCommand_abortReadout f s hr hf first before]
    · refine (abortFrame_frame f s).trans ?_
      match f.position with
      | .bank _ 0 | .bank _ (_ + 1) | .header _ | .onsets _ _ | .trailer _ => rfl
    · intro i c z hz hc gone
      exact abortFrame_clears f s i c z hz hc ((unsent _).1 gone)
    · intro i c hc stays
      exact abortFrame_keeps f s i c hc (stays.imp_right fun kept h => kept ((unsent _).2 h))

end Sys2Proof.Machine
end

section
/-!
PROBE_CELL (section 7.7): numbers read back from their bytes (R189), the probe record of section 10.3.2 byte by byte, and the
command by its checks (R149, R150, R151).
-/

namespace Sys2Proof.Machine

/-! ### Fields of a byte list (R189) -/

/-- A field behind the first byte is a field of the rest. -/
@[simp] theorem fieldOf_cons_succ (x : Byte) (xs : List Byte) (i n : Nat) : fieldOf (x :: xs) (i + 1) n = fieldOf xs i n := rfl

/-- A byte at the front holds the number below 256 that it was made of. -/
theorem fieldOf_byte (v : Nat) (xs : List Byte) (h : v < 256) : fieldOf (BitVec.ofNat 8 v :: xs) 0 1 = v := by
  have field : fieldOf (BitVec.ofNat 8 v :: xs) 0 1 = (BitVec.ofNat 8 v).toNat := by simp [fieldOf, beNat]
  rw [field, BitVec.toNat_ofNat, Nat.mod_eq_of_lt h]

/-- Two bytes at the front hold the low 16 bits of the number that they were made of. -/
theorem fieldOf_beBytes_two (v : Nat) (xs : List Byte) : fieldOf (beBytes 2 v ++ xs) 0 2 = v % 2 ^ 16 := by
  have field : fieldOf (beBytes 2 v ++ xs) 0 2 = beNat (beBytes 2 v) := by
    rw [fieldOf, List.drop_zero, List.take_left' (length_beBytes 2 v)]
  rw [field, beBytes_two, beNat_pair, BitVec.toNat_ofNat, BitVec.toNat_ofNat]
  omega

/-- Numbers of `n` bytes each, one behind the other. -/
theorem length_flatMap_beBytes (n : Nat) (l : List Nat) : (l.flatMap (beBytes n)).length = n * l.length := by
  induction l with
  | nil => rfl
  | cons v l ih => rw [List.flatMap_cons, List.length_append, length_beBytes, ih, List.length_cons, Nat.mul_succ, Nat.add_comm]

/-! ### The terms of the record (R150, R151) -/

/-- The numbers that the model sends for the modes are those of R194. -/
theorem Mode.code_eq_number (m : Mode) : m.code = m.number := by
  cases m <;> rfl

theorem Mode.number_lt (m : Mode) : m.number < 256 := by
  cases m <;> decide

/-- The quantities that a mode keeps are those that the record carries, in its order. -/
theorem Mode.kept_eq_carried (m : Mode) : m.kept = m.carried := by
  cases m <;> rfl

/-- The config with the reported trim (R4). -/
theorem reported_eq (p : Params) (c : Cell) :
    c.reported p = { mask := c.mask, test := c.test, trim := if p.deepMask = true ∧ c.mask = true then 15 else c.trim } := by
  simp only [Cell.reported, Cell.effTrim, Cell.deepMasked, Bool.and_eq_true]

/-- A live quantity is 0 while a sequential mode has the whole storage frozen (R151). -/
theorem liveQuantity_eq (s : State) (c : Cell) (q : Quantity) :
    s.liveQuantity c q =
      if s.params.mode.sequential = true ∧ s.ctl.frozen.isSome = true then 0
      else c.quantity s.params.mode s.ctl.liveHalf q := by
  simp only [State.liveQuantity, Bool.and_eq_true]

/-- A frozen quantity is 0 without frozen storage, and else that of the frozen role (R151). -/
theorem frozenQuantity_eq (s : State) (c : Cell) (q : Quantity) :
    s.frozenQuantity c q =
      match s.ctl.frozen with
      | none => 0
      | some .whole => c.quantity s.params.mode .h0 q
      | some (.half h) => c.quantity s.params.mode h q := by
  unfold State.frozenQuantity State.frozenHalf
  match s.ctl.frozen with
  | none => rfl
  | some .whole => rfl
  | some (.half _) => rfl

/-- The number of the record's flag byte: activity, onset_seen, first_done and truncated in its four low bits. -/
def flagNumber (hot onsetSeen firstDone truncated : Bool) : Nat :=
  hot.toNat + 2 * onsetSeen.toNat + 4 * firstDone.toNat + 8 * truncated.toNat

/-- Each bit of the flag byte is its flag, and bits 7:4 are 0. -/
theorem flagNumber_bits : ∀ hot onsetSeen firstDone truncated : Bool,
    (flagNumber hot onsetSeen firstDone truncated).testBit 0 = hot
      ∧ (flagNumber hot onsetSeen firstDone truncated).testBit 1 = onsetSeen
      ∧ (flagNumber hot onsetSeen firstDone truncated).testBit 2 = firstDone
      ∧ (flagNumber hot onsetSeen firstDone truncated).testBit 3 = truncated
      ∧ flagNumber hot onsetSeen firstDone truncated < 16 := by
  decide

/-- The flags of a cell in the record. -/
def Cell.flags (c : Cell) : Nat := flagNumber (decide (c.activity = .hot)) c.onsetSeen c.firstDone c.truncated

theorem Cell.flags_lt (c : Cell) : c.flags < 256 := by
  obtain ⟨-, -, -, -, small⟩ := flagNumber_bits (decide (c.activity = .hot)) c.onsetSeen c.firstDone c.truncated
  exact Nat.lt_trans small (by omega)

/-- The flag byte's number as the model forms it. -/
theorem Cell.flags_eq (c : Cell) :
    (if c.activity = .hot then 1 else 0) + 2 * boolCode c.onsetSeen + 4 * boolCode c.firstDone + 8 * boolCode c.truncated
      = c.flags := by
  have code (b : Bool) : boolCode b = b.toNat := by cases b <;> rfl
  have activity : (if c.activity = .hot then 1 else 0) = (decide (c.activity = .hot)).toNat := by
    cases c.activity <;> rfl
  rw [code, code, code, activity, Cell.flags, flagNumber]

/-! ### The record, byte by byte (section 10.3.2) -/

/-- The live and then the frozen quantities of a cell, in the record's order. -/
def State.probeValues (s : State) (c : Cell) : List Nat :=
  s.params.mode.carried.map (s.liveQuantity c) ++ s.params.mode.carried.map (s.frozenQuantity c)

theorem probeRecord_eq (s : State) (i : Nat) (c : Cell) (hc : s.cells[i]? = some c) :
    probeRecord s i =
      beBytes 2 i ++ BitVec.ofInt 8 c.trim :: (c.reported s.params).encode ::
        (beBytes 2 (if i < 4096 then c.level else 0) ++ BitVec.ofNat 8 c.flags :: BitVec.ofNat 8 s.params.mode.number ::
          (s.probeValues c).flatMap (beBytes 4)) := by
  have cell : s.cells.getD i Cell.reset = c := by
    rw [List.getD_eq_getElem?_getD, hc, Option.getD_some]
  simp only [probeRecord, cell, c.flags_eq, Mode.code_eq_number, Mode.kept_eq_carried, State.probeValues, ← List.flatMap_def,
    List.flatMap_append, List.flatMap_map, List.append_assoc, List.cons_append, List.nil_append, Config.arrayCells]

section
variable (s : State) (i : Nat) (c : Cell) (hc : s.cells[i]? = some c)
include hc

theorem length_probeRecord : (probeRecord s i).length = 8 + 8 * s.params.mode.carried.length := by
  rw [probeRecord_eq s i c hc]
  simp only [State.probeValues, List.length_append, List.length_cons, length_beBytes, length_flatMap_beBytes, List.length_map]
  omega

theorem probeRecord_index (hi : i < 4100) : fieldOf (probeRecord s i) 0 2 = i := by
  rw [probeRecord_eq s i c hc, fieldOf_beBytes_two]
  exact Nat.mod_eq_of_lt (by omega)

theorem probeRecord_trim : (probeRecord s i)[2]? = some (BitVec.ofInt 8 c.trim) := by
  rw [probeRecord_eq s i c hc]
  rfl

theorem probeRecord_config : (probeRecord s i)[3]? = some (c.reported s.params).encode := by
  rw [probeRecord_eq s i c hc]
  rfl

/-- An aux cell reads level 0 (R150). -/
theorem probeRecord_level : fieldOf (probeRecord s i) 4 2 = if i < 4096 then c.level % 2 ^ 16 else 0 := by
  simp only [probeRecord_eq s i c hc, beBytes_two i, List.cons_append, List.nil_append, fieldOf_cons_succ, fieldOf_beBytes_two]
  split <;> rfl

theorem probeRecord_flags : fieldOf (probeRecord s i) 6 1 = c.flags := by
  simp only [probeRecord_eq s i c hc, beBytes_two, List.cons_append, List.nil_append, fieldOf_cons_succ, fieldOf_byte _ _ c.flags_lt]

theorem probeRecord_mode : fieldOf (probeRecord s i) 7 1 = s.params.mode.number := by
  simp only [probeRecord_eq s i c hc, beBytes_two, List.cons_append, List.nil_append, fieldOf_cons_succ,
    fieldOf_byte _ _ s.params.mode.number_lt]

theorem probeRecord_values : (probeRecord s i).drop 8 = (s.probeValues c).flatMap (beBytes 4) := by
  rw [probeRecord_eq s i c hc]
  rfl

end

/-! ### PROBE_CELL by its checks (R149) -/

theorem exec_probeCell (args : List Byte) (s : State) :
    exec (.probeCell args) s = .next (takeCommand 0x28 args (answerProbeCell args) s) := rfl

theorem answerProbeCell_length (args : List Byte) (h : args.length ≠ 2) (r : State) : answerProbeCell args r = .error .badLength :=
  if_pos h

theorem answerProbeCell_index (a b : Byte) (h : 4099 < beNat [a, b]) (r : State) : answerProbeCell [a, b] r = .error .badArg :=
  if_pos h

theorem answerProbeCell_record (i : Nat) (hi : i < 4100) (r : State) : answerProbeCell (beBytes 2 i) r = .ok (r, probeRecord r i) := by
  have index : beNat (beBytes 2 i) = i := beNat_beBytes_two i (by omega)
  have isCell : ¬ Config.allCells ≤ i := Nat.not_le.2 hi
  simp only [answerProbeCell, length_beBytes, index, if_neg isCell, ne_eq, not_true_eq_false, if_false]

/-- With the index of a cell the command is taken in every state and answers the record (R149, R150). -/
theorem takeCommand_probeCell (i : Nat) (hi : i < 4100) (s : State) (hr : s.port.decoder = .receiving) :
    takeCommand 0x28 (beBytes 2 i) (answerProbeCell (beBytes 2 i)) s = s.answered 0x28 (beBytes 2 i) .ok (probeRecord s i) := by
  have short : (beBytes 2 i).length ≤ 72 := by simp
  have own := answerProbeCell_record i hi (receiveRequest 0x28 (beBytes 2 i) (requestCheck 0x28 (beBytes 2 i)) s)
  exact takeCommand_ok _ _ _ s s _ hr short own rfl

/-- Settles O24: the checks in order, and the record field by field. -/
theorem probeCellReturnsTheRecord : Obligations.ProbeCellReturnsTheRecord := by
  intro s hr
  refine ⟨?_, ?_, ?_⟩
  · intro args hne hl
    rw [exec_probeCell, takeCommand_badLength _ _ _ s hr hl (answerProbeCell_length args hne)]
  · intro a b index
    rw [exec_probeCell, takeCommand_error _ _ _ s .badArg hr (by simp) (answerProbeCell_index a b index _) (by decide)]
  · intro i c hi hc live frozen
    have liveValues : s.liveQuantity c = live := funext (liveQuantity_eq s c)
    have frozenValues : s.frozenQuantity c = frozen := funext (frozenQuantity_eq s c)
    have taken : exec (.probeCell (beBytes 2 i)) s = .next (s.answered 0x28 (beBytes 2 i) .ok (probeRecord s i)) := by
      rw [exec_probeCell, takeCommand_probeCell i hi s hr]
    obtain ⟨hot, onsetSeen, firstDone, truncated, small⟩ :=
      flagNumber_bits (decide (c.activity = .hot)) c.onsetSeen c.firstDone c.truncated
    rw [← reported_eq, ← liveValues, ← frozenValues]
    refine ⟨probeRecord s i, taken, length_probeRecord s i c hc, probeRecord_index s i c hc hi, probeRecord_trim s i c hc,
      probeRecord_config s i c hc, probeRecord_level s i c hc, ?_⟩
    rw [probeRecord_flags s i c hc]
    exact ⟨hot, onsetSeen, firstDone, truncated, small, probeRecord_mode s i c hc, probeRecord_values s i c hc⟩

end Sys2Proof.Machine
end

section
/-!
The commands NOP and GET_PARAM (R163, R171): numbers written back into the bytes that spelled them (R189), the parameter table's
identifiers, lengths and encodings (R166, R194), and the two commands by their checks.
-/

namespace Sys2Proof.Machine

/-! ### NOP (R163) -/

theorem exec_nop (args : List Byte) (s : State) : exec (.nop args) s = .next (takeCommand 0x01 args (answerNop args) s) := rfl

theorem answerNop_length (args : List Byte) (h : args ≠ []) (r : State) : answerNop args r = .error .badLength := if_pos h

/-- Settles O5: NOP with no argument answers from the state as it is, and else is refused for its length. -/
theorem nopIsTakenInEveryState : Obligations.NopIsTakenInEveryState := by
  intro args s hr hl
  by_cases bare : args = []
  · subst bare
    rw [exec_nop, takeCommand_ok _ _ _ s s [] hr (Nat.zero_le _) rfl rfl, if_pos rfl]
  · rw [exec_nop, takeCommand_badLength _ _ _ s hr hl (answerNop_length args bare), if_neg bare]

/-! ### Bytes that spell a number (R189) -/

/-- The last of the bytes of a number holds its low 8 bits, the others the number without them. -/
theorem beBytes_succ_eq_append (n v : Nat) : beBytes (n + 1) v = beBytes n (v / 256) ++ [BitVec.ofNat 8 v] := by
  induction n with
  | zero => simp [beBytes]
  | succ n ih =>
    have first : v / 256 ^ (n + 1) = v / 256 / 256 ^ n := by rw [Nat.div_div_eq_div_mul, ← Nat.pow_succ']
    rw [beBytes, ih, beBytes, first, List.cons_append]

theorem beNat_append_singleton (bs : List Byte) (b : Byte) : beNat (bs ++ [b]) = 256 * beNat bs + b.toNat := by
  simp only [beNat, List.foldl_append, List.foldl_cons, List.foldl_nil]

/-- A number in as many bytes as spelled it is those bytes again. -/
theorem beBytes_beNat (bs : List Byte) : beBytes bs.length (beNat bs) = bs := by
  induction bs using List.reverseRecOn with
  | nil => rfl
  | append_singleton bs b ih =>
    have byte : b.toNat < 256 := b.isLt
    have high : (256 * beNat bs + b.toNat) / 256 = beNat bs := by omega
    have low : BitVec.ofNat 8 (256 * beNat bs + b.toNat) = b := by
      apply BitVec.eq_of_toNat_eq
      rw [BitVec.toNat_ofNat]
      omega
    rw [List.length_append, List.length_singleton, beBytes_succ_eq_append, beNat_append_singleton, high, low, ih]

/-! ### The columns of the parameter table (R166, R194) -/

/-- The model's identifier, value length and class of a parameter are the table's. -/
theorem ParamId.row_eq (id : ParamId) : id.row = (id.code, id.length, id.paramClass) := by
  cases id <;> rfl

theorem ParamId.ofByte_row (id : ParamId) : ParamId.ofByte id.row.1 = some id := by
  cases id <;> rfl

theorem ParamId.ofByte_eq_none (b : Byte) (h : ∀ id : ParamId, id.row.1 ≠ b) : ParamId.ofByte b = none := by
  apply List.find?_eq_none.2
  intro id _ found
  rw [← eq_of_beq found] at h
  exact h id (by rw [id.row_eq])

/-- The model's number of a parameter's value is that of the table's encodings. -/
theorem Params.read_eq_number (p : Params) (id : ParamId) : p.read id = p.number id := by
  cases id <;> rfl

/-! ### A write of the table, read back (R168, R171) -/

/-- A value that was found by its number in the list of an encoding has that number. -/
theorem code_of_getElem? {α : Type} {l : List α} {v : Nat} {x : α} (code : α → Nat)
    (numbered : l.map code = List.range l.length) (h : l[v]? = some x) : code x = v := by
  have mapped : (l.map code)[v]? = some (code x) := by rw [List.getElem?_map, h, Option.map_some]
  rw [numbered] at mapped
  obtain ⟨_, position⟩ := List.getElem?_eq_some_iff.1 mapped
  rw [← position, List.getElem_range]

/-- A write that looks its value up in the list of an encoding sets the value that the number names. -/
theorem Params.read_of_listed {α : Type} {l : List α} {v : Nat} {set : α → Params} {q : Params} {id : ParamId} (code : α → Nat)
    (h : (l[v]?).map set = some q) (numbered : l.map code = List.range l.length) (reads : ∀ x, (set x).read id = code x) :
    q.read id = v := by
  obtain ⟨x, found, rfl⟩ := Option.map_eq_some_iff.1 h
  rw [reads, code_of_getElem? code numbered found]

/-- A write that the table takes sets the number that was written. -/
theorem Params.read_of_write (p q : Params) (id : ParamId) (v : Nat) (h : p.write id v = some q) : q.read id = v := by
  cases id with
  | mode => exact read_of_listed Mode.code h rfl fun _ => rfl
  | dwellLaw => exact read_of_listed DwellLaw.code h rfl fun _ => rfl
  | weightLaw => exact read_of_listed WeightLaw.code h rfl fun _ => rfl
  | dirSel => exact read_of_listed DirSel.code h rfl fun _ => rfl
  | capturePolicy => exact read_of_listed CapturePolicy.code h rfl fun _ => rfl
  | defaultAction => exact read_of_listed Action.code h rfl fun _ => rfl
  | winSrc => exact read_of_listed WinSrc.code h rfl fun _ => rfl
  | overrunPolicy => exact read_of_listed OverrunPolicy.code h rfl fun _ => rfl
  | testPath => exact read_of_listed TestPath.code h rfl fun _ => rfl
  | onsetWrap | deepMask | cycle | zeroSuppress => exact read_of_listed boolCode h rfl fun _ => rfl
  | bankGate | attnEnable =>
    obtain ⟨range, written⟩ := Option.ite_none_right_eq_some.1 h
    obtain rfl := Option.some.inj written
    rw [inRange, Bool.and_eq_true, decide_eq_true_iff, decide_eq_true_iff] at range
    exact Nat.mod_eq_of_lt (by omega)
  | holdLimit | mapBase | mapGranule | threshold | trimStep | hysteresis | decayStep | occLimit | decayDiv | dwellDiv | onsetDiv
  | winLen | cycleCount | settleCap | testWeight | tpLen | unitId =>
    obtain ⟨-, written⟩ := Option.ite_none_right_eq_some.1 h
    obtain rfl := Option.some.inj written
    rfl

/-! ### GET_PARAM by its checks (R171) -/

theorem exec_getParam (args : List Byte) (s : State) :
    exec (.getParam args) s = .next (takeCommand 0x11 args (answerGetParam args) s) := rfl

theorem answerGetParam_length (args : List Byte) (h : args.length ≠ 1) (r : State) : answerGetParam args r = .error .badLength := by
  match args with
  | [] => rfl
  | [_] => exact absurd rfl h
  | _ :: _ :: _ => rfl

theorem answerGetParam_unknown (b : Byte) (h : ∀ id : ParamId, id.row.1 ≠ b) (r : State) :
    answerGetParam [b] r = .error .badArg := by
  simp only [answerGetParam, ParamId.ofByte_eq_none b h]

theorem answerGetParam_value (id : ParamId) (r : State) :
    answerGetParam [id.row.1] r = .ok (r, beBytes id.row.2.1 (r.params.number id)) := by
  have length : id.length = id.row.2.1 := by rw [id.row_eq]
  simp only [answerGetParam, ParamId.ofByte_row, Params.read_eq_number, length]

/-- Settles O13: GET_PARAM by its checks, and the bytes of a write that the table has taken. -/
theorem getParamReturnsTheBytesWritten : Obligations.GetParamReturnsTheBytesWritten := by
  refine ⟨fun s hr => ⟨?_, ?_, ?_⟩, ?_⟩
  · intro id
    have own := answerGetParam_value id (receiveRequest 0x11 [id.row.1] (requestCheck 0x11 [id.row.1]) s)
    rw [exec_getParam, takeCommand_ok _ _ _ s s _ hr (by simp) own rfl]
    rfl
  · intro b unknown
    rw [exec_getParam, takeCommand_error _ _ _ s .badArg hr (by simp) (answerGetParam_unknown b unknown _) (by decide)]
  · intro args hne hl
    rw [exec_getParam, takeCommand_badLength _ _ _ s hr hl (answerGetParam_length args hne)]
  · intro p q id value length taken
    have number : q.number id = beNat value := by
      rw [← q.read_eq_number, p.read_of_write q id _ taken]
    rw [number, ← length, beBytes_beNat]

end Sys2Proof.Machine
end

section
/-!
ATTN_N at every step (R182). An operation either leaves the pending set, ATTN_ENABLE, RST_N and ATTN_N as they are, or ends by driving
ATTN_N from them, or, in a reset, deasserts ATTN_N with no cause pending. One lemma for each operation says so, up to `exec_attnFollows`
and the step.
-/

namespace Sys2Proof.Machine

variable {s t : State}

/-! ### The Attention Unit's own operations (R178, R180, R182, R183) -/

theorem driveAttn_attnFollows (s : State) : (driveAttn s).AttnFollows := rfl

theorem raiseCause_attnFollows (c : Cause) (s : State) : (raiseCause c s).AttnFollows := raiseCause_attnLow c s

theorem raiseCommandFault_attnFollows (s : State) : (raiseCommandFault s).AttnFollows := driveAttn_attnFollows _

theorem clearCauses_attnFollows (set : BitVec 8) (s : State) : (clearCauses set s).AttnFollows := driveAttn_attnFollows _

/-- The line follows after a set of causes, whichever of them are late. -/
theorem CausesSet.attnFollows {causes : BitVec 8} (h : CausesSet causes s t) : t.AttnFollows := by
  obtain ⟨_, _, _, _, _, _, follows⟩ := h
  exact follows

theorem arrive_attnFollows (h : s.AttnFollows) : (arrive s).AttnFollows := by
  unfold arrive
  split
  · exact h
  · exact driveAttn_attnFollows _

/-! ### Events of the whole array, and the opens (R20, R80) -/

/-- An event of the whole array sets OCCUPANCY or leaves the causes and ATTN_N alone. -/
theorem ArrayOutcome.attnFollows {f : Nat → Cell → CellOut} (outcome : ArrayOutcome f s t) (h : s.AttnFollows) : t.AttnFollows := by
  have params : t.params = s.params := by rw [outcome.kept]
  have rstLow : t.pins.rstLow = s.pins.rstLow := by rw [outcome.kept]
  obtain ⟨_, _, _, exceeded, _, _, _, _, _, causes, _⟩ := outcome.desc
  cases exceeded with
  | true => exact CausesSet.attnFollows causes
  | false =>
    obtain ⟨attn, -, line⟩ := causes
    exact line.trans (h.trans (attnWanted_congr attn rstLow params).symm)

theorem onsetEvent_attnFollows (f : Nat → Cell → CellOut) (h : s.AttnFollows) : (onsetEvent f s).AttnFollows :=
  (onsetEvent_outcome f s).attnFollows h

theorem openWindowAs_attnFollows (cause : OpenCause) (h : s.AttnFollows) : (openWindowAs cause s).AttnFollows :=
  (arrayEvent_outcome _ _).attnFollows h

theorem dealtWith_attnFollows (h : s.AttnFollows) : (dealtWith s).AttnFollows := by
  unfold dealtWith
  split
  · exact openWindowAs_attnFollows .cycle h
  · exact h

/-! ### End of settling, hand-off, and the settle cap (R88, R91, R105 to R108) -/

theorem swap_attnFollows (d : Descriptor) (h : s.AttnFollows) : (swap d s).AttnFollows := dealtWith_attnFollows h

theorem handOff_attnFollows (d : Descriptor) (h : s.AttnFollows) : (handOff d s).AttnFollows := by
  unfold handOff
  split
  · exact h
  · split
    · exact swap_attnFollows d h
    · split
      · exact dealtWith_attnFollows (raiseCause_attnFollows .overrun _)
      · exact raiseCause_attnFollows .overrun _

theorem endSettling_attnFollows (h : s.AttnFollows) : (endSettling s).AttnFollows := by
  have atRest : (comeToRest s).AttnFollows := h
  unfold endSettling
  split
  · exact dealtWith_attnFollows atRest
  · exact handOff_attnFollows _ atRest

theorem considerEnd_attnFollows (h : s.AttnFollows) : (considerEnd s).AttnFollows := by
  unfold considerEnd
  split
  · exact endSettling_attnFollows h
  · exact h

theorem truncateCounting_attnFollows (h : s.AttnFollows) : (truncateCounting s).AttnFollows := h

theorem capExpires_attnFollows (s : State) : (capExpires s).AttnFollows := raiseCause_attnFollows .truncated _

theorem capExpiry_attnFollows (h : s.AttnFollows) : (capExpiry s).AttnFollows := by
  unfold capExpiry
  split
  · split
    · exact endSettling_attnFollows (truncateCounting_attnFollows (capExpires_attnFollows s))
    · exact capExpires_attnFollows s
  · exact h

theorem endAtTick_attnFollows (draw : Nat) (h : s.AttnFollows) : (endAtTick draw s).AttnFollows := by
  unfold endAtTick
  split
  · exact capExpiry_attnFollows h
  · exact endSettling_attnFollows h

/-! ### The hold gates and the arbiter (R50, R51, R65 to R69) -/

theorem shedNotice_attnFollows (h : s.AttnFollows) : (shedNotice s).AttnFollows := by
  unfold shedNotice
  simp only
  split
  · exact raiseCause_attnFollows .shed _
  · exact h

theorem releaseNotice_attnFollows (s : State) : (releaseNotice s).AttnFollows := raiseCause_attnFollows .release _

theorem setHold_attnFollows (ch : Channel) (o : Option Hold) (h : s.AttnFollows) : (setHold ch o s).AttnFollows := by
  cases ch <;> exact h

theorem passHandshake_attnFollows (ch : Channel) (hs : Handshake) (h : s.AttnFollows) : (passHandshake ch hs s).AttnFollows := by
  cases ch <;> exact h

theorem openGate_attnFollows (ch : Channel) (h : s.AttnFollows) : (openGate ch s).AttnFollows := by
  unfold openGate
  split
  · exact h
  · exact passHandshake_attnFollows ch _ (setHold_attnFollows ch none h)

theorem shedHold_attnFollows (ch : Channel) (h : s.AttnFollows) : (shedHold ch s).AttnFollows := by
  unfold shedHold
  split
  · exact h
  · exact shedNotice_attnFollows (openGate_attnFollows ch h)

theorem expireHold_attnFollows (ch : Channel) (h : s.AttnFollows) : (expireHold ch s).AttnFollows := by
  unfold expireHold
  split
  · exact h
  · exact releaseNotice_attnFollows _

theorem withdrawHold_attnFollows (ch : Channel) (h : s.AttnFollows) : (withdrawHold ch s).AttnFollows := by
  unfold withdrawHold
  split
  · exact h
  · exact releaseNotice_attnFollows _

theorem grant_attnFollows (ch : Channel) (r : Record) (hs : Handshake) (h : s.AttnFollows) : (grant ch r hs s).AttnFollows :=
  passHandshake_attnFollows ch hs (setHold_attnFollows ch none h)

theorem noSlot_attnFollows (ch : Channel) (r : Record) (hs : Handshake) (h : s.AttnFollows) : (noSlot ch r hs s).AttnFollows := by
  unfold noSlot
  split
  · exact shedNotice_attnFollows (passHandshake_attnFollows ch hs h)
  · exact setHold_attnFollows ch _ h

theorem requestIf_attnFollows (ch : Channel) (q : Option (Record × Handshake)) (h : s.AttnFollows) : (requestIf ch q s).AttnFollows := by
  unfold requestIf
  split
  · exact h
  · unfold request
    split
    · exact grant_attnFollows ch _ _ h
    · exact noSlot_attnFollows ch _ _ h

theorem arbitrate_attnFollows (rd wr : Option (Record × Handshake)) (h : s.AttnFollows) : (arbitrate rd wr s).AttnFollows := by
  unfold arbitrate
  split
  · exact requestIf_attnFollows .write wr (requestIf_attnFollows .read rd h)
  · exact requestIf_attnFollows .read rd (requestIf_attnFollows .write wr h)

theorem offerSlot_attnFollows (h : s.AttnFollows) : (offerSlot s).AttnFollows := by
  unfold offerSlot
  split
  · split
    · exact grant_attnFollows _ _ _ h
    · split
      · exact grant_attnFollows _ _ _ h
      · exact h
  · exact h

/-! ### Classification (R52, R53) -/

/-- The classification of a handshake changes hit counts alone. -/
theorem classify_attnFollows (ch : Channel) (hs : Handshake) (h : s.AttnFollows) : (classify ch hs s).1.AttnFollows := by
  unfold classify
  split
  · simp only
    split <;> exact h
  · exact h

theorem presentOn_attnFollows (ch : Channel) (o : Option Handshake) (h : s.AttnFollows) : (presentOn ch o s).1.AttnFollows := by
  cases o with
  | none => exact h
  | some hs =>
    have classified := classify_attnFollows ch hs h
    simp only [presentOn]
    split
    · exact h
    · split
      · split <;> rename_i eq <;> rw [eq] at classified
        · exact classified
        · exact passHandshake_attnFollows ch hs classified
      · exact passHandshake_attnFollows ch hs h

/-! ### Close (R78, R83) -/

theorem shutWindow_attnFollows (cause : CloseCause) (h : s.AttnFollows) : (shutWindow cause s).AttnFollows :=
  shedHold_attnFollows .write (shedHold_attnFollows .read (s := beginClose cause s) h)

theorem closeWindowAs_attnFollows (cause : CloseCause) (h : s.AttnFollows) : (closeWindowAs cause s).AttnFollows :=
  considerEnd_attnFollows (shutWindow_attnFollows cause h)

theorem closeAtLength_attnFollows (h : s.AttnFollows) : (closeAtLength s).AttnFollows := by
  unfold closeAtLength
  split
  · exact shutWindow_attnFollows .timer h
  · exact closeWindowAs_attnFollows .timer h

/-! ### The ticks (R30, R32) -/

theorem decayDelivered_attnFollows (h : s.AttnFollows) : (decayDelivered s).AttnFollows := by
  unfold decayDelivered
  simp only
  split
  · exact endSettling_attnFollows (onsetEvent_attnFollows _ h)
  · exact onsetEvent_attnFollows _ h

theorem decayTick_attnFollows (h : s.AttnFollows) : (decayTick s).AttnFollows := by
  have restarted : s.decayRestarted.AttnFollows := h
  unfold decayTick
  simp only
  split
  · split
    · exact restarted
    · split
      · exact restarted
      · split
        · exact onsetEvent_attnFollows _ restarted
        · exact decayDelivered_attnFollows restarted
  · exact h

theorem dwellTaken_attnFollows (h : s.AttnFollows) : (dwellTaken s).AttnFollows := onsetEvent_attnFollows _ h

theorem dwellDelivered_attnFollows (h : s.AttnFollows) : (dwellDelivered s).AttnFollows := by
  have taken := dwellTaken_attnFollows h
  unfold dwellDelivered
  split
  · exact taken
  · exact endSettling_attnFollows taken
  · exact endAtTick_attnFollows _ taken
  · exact capExpiry_attnFollows taken

theorem dwellTick_attnFollows (h : s.AttnFollows) : (dwellTick s).AttnFollows := by
  have restarted : s.dwellRestarted.AttnFollows := h
  have expired := capExpiry_attnFollows restarted
  unfold dwellTick
  simp only
  split
  · split
    · exact restarted
    · split
      · split
        · exact dwellDelivered_attnFollows expired
        · exact expired
      · exact dwellDelivered_attnFollows restarted
  · exact h

theorem onsetDelivered_attnFollows (h : s.AttnFollows) : (onsetDelivered s).AttnFollows := by
  unfold onsetDelivered
  rw [foldl_takeReport]
  exact h

theorem onsetTick_attnFollows (h : s.AttnFollows) : (onsetTick s).AttnFollows := by
  have restarted : s.onsetRestarted.AttnFollows := h
  have delivered := onsetDelivered_attnFollows restarted
  unfold onsetTick
  simp only
  split
  · split
    · split
      · exact closeAtLength_attnFollows delivered
      · exact delivered
    · exact restarted
  · exact h

/-! ### One TBCLK period (log 3) -/

theorem happenIn_attnFollows (n : Nat) (d : Due) (h : s.AttnFollows) : (happenIn n s d).AttnFollows := by
  unfold happenIn
  split
  · cases d with
    | decay => exact decayTick_attnFollows h
    | dwell => exact dwellTick_attnFollows h
    | onset => exact onsetTick_attnFollows h
    | hold ch => exact expireHold_attnFollows ch h
  · exact h

theorem happenAll_attnFollows (n : Nat) (l : List Due) (h : s.AttnFollows) : (happenAll n l s).AttnFollows := by
  induction l generalizing s with
  | nil => exact h
  | cons d l ih => exact ih (happenIn_attnFollows n d h)

theorem tbclkPeriod_attnFollows (h : s.AttnFollows) : (tbclkPeriod s).AttnFollows := by
  have counted : (countPeriod s).AttnFollows := h
  unfold tbclkPeriod
  split
  · exact counted
  · have happened := happenAll_attnFollows s.ctl.nextFrame (anyOrder (2 * s.free) (dueNext s))
      (s := { countPeriod s with free := s.free + 1 }) counted
    rename_i due
    rw [due] at happened
    exact capExpiry_attnFollows happened

theorem idlePeriod_attnFollows (h : s.AttnFollows) : (idlePeriod s).AttnFollows := by
  unfold idlePeriod
  split
  · exact capExpiry_attnFollows h
  · exact tbclkPeriod_attnFollows h

/-! ### The delivery of a byte (R109, R127, R131) -/

theorem clearBanks_attnFollows (f : Nat → Bool) (h : s.AttnFollows) : (clearBanks f s).AttnFollows := by
  rw [clearBanks_frame]
  exact h

theorem readoutNotice_attnFollows (h : s.AttnFollows) : (readoutNotice s).AttnFollows := by
  unfold readoutNotice
  simp only
  split
  · split
    · exact swap_attnFollows _ h
    · exact dealtWith_attnFollows h
  · exact h

theorem deliver_attnFollows (f : Frame) (h : s.AttnFollows) : (deliver f s).AttnFollows := by
  unfold deliver
  simp only
  split
  · exact h
  · exact clearBanks_attnFollows _ h
  · exact readoutNotice_attnFollows (raiseCause_attnFollows .frameDone _)

theorem periodOfDelivery_attnFollows (h : s.AttnFollows) : (periodOfDelivery s).AttnFollows := by
  unfold periodOfDelivery
  split
  · exact tbclkPeriod_attnFollows (capExpiry_attnFollows (s := { s with pending := [] }) h)
  · exact h

theorem deliverByte_attnFollows (h : s.AttnFollows) : (deliverByte s).AttnFollows := by
  have passed := periodOfDelivery_attnFollows h
  unfold deliverByte
  simp only
  split
  · exact passed
  · exact deliver_attnFollows _ passed

/-! ### The take of a request (R157) -/

/-- Of an answer that is no refusal, ATTN_N follows in the state after it. -/
def AnswerFollows : Answer → Prop
  | .ok (t, _) => t.AttnFollows
  | .error _ => True

/-- One check of a request: where it fails the answer is a refusal. -/
theorem AnswerFollows.passing {c : Prop} [Decidable c] {st : Status} {a : Answer} (h : AnswerFollows a) :
    AnswerFollows (if c then .error st else a) := by
  split
  · trivial
  · exact h

theorem refuse_attnFollows (code : Byte) (st : Status) (h : s.AttnFollows) : (refuse code st s).AttnFollows := h

theorem receiveRequest_attnFollows (code : Byte) (args : List Byte) (check : Byte) (h : s.AttnFollows) :
    (receiveRequest code args check s).AttnFollows := h

/-- A request that is taken does to ATTN_N what its command does: the port's own part is no cause. -/
theorem takeCommand_attnFollows (code : Byte) (args : List Byte) {own : State → Answer}
    (answers : ∀ {r : State}, r.AttnFollows → AnswerFollows (own r)) (h : s.AttnFollows) :
    (takeCommand code args own s).AttnFollows := by
  have received := receiveRequest_attnFollows code args (requestCheck code args) h
  have own := answers received
  unfold takeCommand
  split
  · simp only
    split
    · exact refuse_attnFollows code _ received
    · split
      · rename_i answered
        rw [answered] at own
        exact own
      · exact refuse_attnFollows code _ received
  · exact h

theorem noArgs_attnFollows (args : List Byte) {own : State → Answer} (h : AnswerFollows (own s)) :
    AnswerFollows (noArgs args own s) := .passing h

/-! ### SET_PARAM (R168, R182) -/

/-- A write of another parameter leaves ATTN_ENABLE as it is. -/
theorem Params.attnEnable_of_write (p q : Params) (id : ParamId) (v : Nat) (other : id ≠ .attnEnable) (h : p.write id v = some q) :
    q.attnEnable = p.attnEnable := by
  cases id with
  | attnEnable => exact absurd rfl other
  | mode | dwellLaw | onsetWrap | weightLaw | dirSel | capturePolicy | defaultAction | deepMask | winSrc | cycle | overrunPolicy
  | testPath | zeroSuppress =>
    obtain ⟨_, -, rfl⟩ := Option.map_eq_some_iff.1 h
    rfl
  | holdLimit | mapBase | mapGranule | bankGate | threshold | trimStep | hysteresis | decayStep | occLimit | decayDiv | dwellDiv
  | onsetDiv | winLen | cycleCount | settleCap | testWeight | tpLen | unitId =>
    obtain ⟨-, written⟩ := Option.ite_none_right_eq_some.1 h
    obtain rfl := Option.some.inj written
    rfl

/-- The table that the first four checks of a SET_PARAM answer is that of a write of the parameter they name. -/
theorem write_of_writeAsked {args : List Byte} {p q : Params} {id : ParamId} (h : writeAsked args p = .ok (id, q)) :
    ∃ v, p.write id v = some q := by
  cases args with
  | nil => cases h
  | cons b value =>
    simp only [writeAsked] at h
    split at h
    · cases h
    · split at h
      · cases h
      · split at h
        · cases h
        · rename_i written
          cases h
          exact ⟨_, written⟩

/-- A write of ATTN_ENABLE drives the line; any other leaves ATTN_ENABLE as it is. -/
theorem setParams_attnFollows (id : ParamId) (q : Params) (v : Nat) (written : s.params.write id v = some q) (h : s.AttnFollows) :
    (setParams id q s).AttnFollows := by
  unfold setParams
  split
  · exact driveAttn_attnFollows _
  · rename_i other
    have same := s.params.attnEnable_of_write q id v other written
    unfold State.AttnFollows State.attnWanted
    simp only [same]
    exact h

theorem answerSetParam_attnFollows (args : List Byte) (h : s.AttnFollows) : AnswerFollows (answerSetParam args s) := by
  unfold answerSetParam
  split
  · trivial
  · rename_i asked
    obtain ⟨v, written⟩ := write_of_writeAsked asked
    split
    · exact setParams_attnFollows _ _ v written h
    · trivial

/-! ### The other requests by their own checks -/

theorem answerNop_attnFollows (args : List Byte) (h : s.AttnFollows) : AnswerFollows (answerNop args s) := noArgs_attnFollows args h

theorem answerGetStatus_attnFollows (args : List Byte) (h : s.AttnFollows) : AnswerFollows (answerGetStatus args s) := by
  refine noArgs_attnFollows args ?_
  split <;> exact h

theorem answerGetParam_attnFollows (args : List Byte) (h : s.AttnFollows) : AnswerFollows (answerGetParam args s) := by
  unfold answerGetParam
  split
  · split
    · trivial
    · exact h
  · trivial

theorem answerSetFilter_attnFollows (args : List Byte) (h : s.AttnFollows) : AnswerFollows (answerSetFilter args s) := by
  unfold answerSetFilter
  split
  · refine .passing ?_
    split
    · trivial
    · split
      · exact h
      · trivial
  · trivial

theorem answerGetFilter_attnFollows (args : List Byte) (h : s.AttnFollows) : AnswerFollows (answerGetFilter args s) := by
  unfold answerGetFilter
  split
  · exact .passing h
  · trivial

theorem answerLoadBank_attnFollows (args : List Byte) (h : s.AttnFollows) : AnswerFollows (answerLoadBank args s) := by
  cases args with
  | nil => trivial
  | cons b bytes =>
    simp only [answerLoadBank]
    exact .passing (.passing (.passing (.passing (.passing h))))

theorem answerReadBank_attnFollows (args : List Byte) (h : s.AttnFollows) : AnswerFollows (answerReadBank args s) := by
  unfold answerReadBank
  split
  · exact .passing (.passing (.passing h))
  · trivial

theorem answerFetchResult_attnFollows (args : List Byte) (h : s.AttnFollows) : AnswerFollows (answerFetchResult args s) := by
  unfold answerFetchResult
  split
  · split
    · trivial
    · trivial
    · split
      · exact h
      · trivial
  · trivial

theorem answerProbeCell_attnFollows (args : List Byte) (h : s.AttnFollows) : AnswerFollows (answerProbeCell args s) :=
  .passing (.passing h)

theorem startCycle_attnFollows (h : s.AttnFollows) : (startCycle s).AttnFollows := by
  unfold startCycle
  split <;> exact h

theorem answerOpenWindow_attnFollows (args : List Byte) (h : s.AttnFollows) : AnswerFollows (answerOpenWindow args s) :=
  .passing (.passing (.passing (.passing (openWindowAs_attnFollows .command (startCycle_attnFollows h)))))

theorem closeByState_attnFollows (h : s.AttnFollows) : AnswerFollows (closeByState s) := by
  have stopped : (stopCycle s).AttnFollows := h
  have ended := considerEnd_attnFollows stopped
  unfold closeByState
  split
  · split
    · exact closeWindowAs_attnFollows .command stopped
    · exact closeWindowAs_attnFollows .command h
  · split
    · exact ended
    · trivial
  · split
    · exact ended
    · trivial
  · trivial

theorem answerCloseWindow_attnFollows (args : List Byte) (h : s.AttnFollows) : AnswerFollows (answerCloseWindow args s) :=
  .passing (.passing (closeByState_attnFollows h))

theorem startPulse_attnFollows (h : s.AttnFollows) : (startPulse s).AttnFollows := onsetEvent_attnFollows _ h

theorem answerInject_attnFollows (args : List Byte) (h : s.AttnFollows) : AnswerFollows (answerInject args s) :=
  .passing (.passing (.passing (.passing (startPulse_attnFollows h))))

theorem abortFrame_attnFollows (f : Frame) (h : s.AttnFollows) : (abortFrame f s).AttnFollows := clearBanks_attnFollows _ h

theorem answerAbortReadout_attnFollows (args : List Byte) (h : s.AttnFollows) : AnswerFollows (answerAbortReadout args s) := by
  refine noArgs_attnFollows args ?_
  split
  · trivial
  · refine .passing ?_
    split
    · trivial
    · exact abortFrame_attnFollows _ h

theorem answerClearAttention_attnFollows (args : List Byte) (s : State) : AnswerFollows (answerClearAttention args s) := by
  unfold answerClearAttention
  split
  · exact arrive_attnFollows (clearCauses_attnFollows _ s)
  · trivial

/-- A soft reset leaves no cause pending, and ATTN_N deasserted. -/
theorem softReset_attnFollows (s : State) : (softReset s).AttnFollows := by
  simp [State.AttnFollows, State.attnWanted, softReset]

theorem answerSoftReset_attnFollows (args : List Byte) (s : State) : AnswerFollows (answerSoftReset args s) :=
  noArgs_attnFollows args (arrive_attnFollows (softReset_attnFollows s))

/-! ### The rows of the table -/

/-- In the state after a result that has one ATTN_N follows. -/
def ResultFollows : Result → Prop
  | .next t => t.AttnFollows
  | _ => True

/-- The end of a transaction sets COMMAND_FAULT, or no cause; while RST_N is asserted nothing changes at the Attention Unit (R159). -/
theorem mcsRises_attnFollows (bits : Nat) (h : s.AttnFollows) : (mcsRises bits s).AttnFollows := by
  unfold mcsRises
  simp only
  split
  · exact h
  · split
    · exact raiseCommandFault_attnFollows _
    · exact h

theorem execUnknownCommand_attnFollows (code : Byte) (args : List Byte) (h : s.AttnFollows) :
    ResultFollows (execUnknownCommand code args s) := by
  unfold execUnknownCommand
  split <;> exact h

theorem execBadCheckRequest_attnFollows (code : Byte) (args : List Byte) (check : Byte) (h : s.AttnFollows) :
    ResultFollows (execBadCheckRequest code args check s) := by
  unfold execBadCheckRequest
  split
  · exact refuse_attnFollows code _ (raiseCommandFault_attnFollows _)
  · exact h

theorem execTransactionStart_attnFollows (h : s.AttnFollows) : ResultFollows (execTransactionStart s) := by
  unfold execTransactionStart
  simp only
  split <;> exact h

theorem execResponseSent_attnFollows (h : s.AttnFollows) : ResultFollows (execResponseSent s) := by
  unfold execResponseSent
  split <;> exact h

/-- Asserting RST_N deasserts ATTN_N. -/
theorem execRstNAsserted_attnFollows (s : State) : ResultFollows (execRstNAsserted s) := rfl

theorem execRstNDeasserted_attnFollows (h : s.AttnFollows) : ResultFollows (execRstNDeasserted s) := by
  unfold execRstNDeasserted
  split
  · exact driveAttn_attnFollows _
  · exact h

theorem execCloseWindow_attnFollows (args : List Byte) (h : s.AttnFollows) : ResultFollows (execCloseWindow args s) := by
  unfold execCloseWindow
  split
  · exact takeCommand_attnFollows _ args (answerCloseWindow_attnFollows args) h
  · exact considerEnd_attnFollows h

theorem execInject_attnFollows (args : List Byte) (h : s.AttnFollows) : ResultFollows (execInject args s) := by
  have taken := takeCommand_attnFollows 0x38 args (answerInject_attnFollows args) h
  unfold execInject
  simp only
  split
  · exact considerEnd_attnFollows taken
  · exact taken

theorem execClearAttention_attnFollows (args : List Byte) (h : s.AttnFollows) : ResultFollows (execClearAttention args s) := by
  unfold execClearAttention
  split
  · exact takeCommand_attnFollows _ args (fun {r} _ => answerClearAttention_attnFollows args r) h
  · exact arrive_attnFollows h

theorem execSoftReset_attnFollows (args : List Byte) (h : s.AttnFollows) : ResultFollows (execSoftReset args s) := by
  unfold execSoftReset
  split
  · exact takeCommand_attnFollows _ args (fun {r} _ => answerSoftReset_attnFollows args r) h
  · exact arrive_attnFollows h

theorem execHandshakePresented_attnFollows (rd wr : Option Handshake) (h : s.AttnFollows) :
    ResultFollows (execHandshakePresented rd wr s) :=
  considerEnd_attnFollows (arbitrate_attnFollows _ _ (presentOn_attnFollows .write wr (presentOn_attnFollows .read rd h)))

theorem execRecordTake_attnFollows (h : s.AttnFollows) : ResultFollows (execRecordTake s) := by
  unfold execRecordTake
  split
  · exact h
  · split
    · exact offerSlot_attnFollows h
    · exact h

theorem execRecordApplied_attnFollows (h : s.AttnFollows) : ResultFollows (execRecordApplied s) := by
  unfold execRecordApplied
  split
  · exact h
  · rename_i r _
    have applied : (applyRecord r { s with engine := { s.engine with applying := none } }).AttnFollows := onsetEvent_attnFollows _ h
    simp only
    split
    · exact endSettling_attnFollows (truncateCounting_attnFollows applied)
    · exact considerEnd_attnFollows applied

theorem execWindowTimerExpiry_attnFollows (h : s.AttnFollows) : ResultFollows (execWindowTimerExpiry s) := by
  unfold execWindowTimerExpiry
  split
  · exact onsetTick_attnFollows h
  · exact h

theorem execSettleCapExpiry_attnFollows (h : s.AttnFollows) : ResultFollows (execSettleCapExpiry s) := by
  unfold execSettleCapExpiry
  split
  · exact capExpiry_attnFollows (dwellTick_attnFollows h)
  · exact capExpiry_attnFollows h

theorem execPulseEnd_attnFollows (h : s.AttnFollows) : ResultFollows (execPulseEnd s) := by
  unfold execPulseEnd
  split
  · exact dwellTick_attnFollows h
  · exact h

theorem execWinNFallingEdge_attnFollows (h : s.AttnFollows) : ResultFollows (execWinNFallingEdge s) := by
  unfold execWinNFallingEdge
  simp only
  split
  · split
    · exact openWindowAs_attnFollows .line h
    · exact raiseCause_attnFollows .missedOpen _
  · exact h

theorem execWinNRisingEdge_attnFollows (h : s.AttnFollows) : ResultFollows (execWinNRisingEdge s) := by
  unfold execWinNRisingEdge
  simp only
  split
  · exact closeWindowAs_attnFollows .line (s := { s with pins := { s.pins with winLow := false } }) h
  · exact h

theorem auxEvent_attnFollows (n : Fin 4) (f : Nat → Cell → CellOut) (h : s.AttnFollows) : (auxEvent n f s).AttnFollows :=
  onsetEvent_attnFollows _ h

theorem execAuxAsserted_attnFollows (n : Fin 4) (h : s.AttnFollows) : ResultFollows (execAuxAsserted n s) := by
  have seen : (setLine n true s).AttnFollows := h
  unfold execAuxAsserted
  simp only
  split
  · exact auxEvent_attnFollows n _ seen
  · exact seen

theorem execAuxDeasserted_attnFollows (n : Fin 4) (h : s.AttnFollows) : ResultFollows (execAuxDeasserted n s) := by
  have seen : (setLine n false s).AttnFollows := h
  unfold execAuxDeasserted
  simp only
  split
  · exact considerEnd_attnFollows (auxEvent_attnFollows n _ seen)
  · exact seen

theorem execLoadStep_attnFollows (h : s.AttnFollows) : ResultFollows (execLoadStep s) := by
  unfold execLoadStep
  split
  · split <;> exact h
  · exact h

theorem execReadStep_attnFollows (h : s.AttnFollows) : ResultFollows (execReadStep s) := by
  unfold execReadStep
  split <;> exact h

/-- Every row of the table keeps it that ATTN_N follows. -/
theorem exec_attnFollows (c : Instr) (h : s.AttnFollows) : ResultFollows (exec c s) := by
  cases c with
  | nop args => exact takeCommand_attnFollows 0x01 args (answerNop_attnFollows args) h
  | getStatus args => exact takeCommand_attnFollows 0x02 args (answerGetStatus_attnFollows args) h
  | setParam args => exact takeCommand_attnFollows 0x10 args (answerSetParam_attnFollows args) h
  | getParam args => exact takeCommand_attnFollows 0x11 args (answerGetParam_attnFollows args) h
  | setFilter args => exact takeCommand_attnFollows 0x18 args (answerSetFilter_attnFollows args) h
  | getFilter args => exact takeCommand_attnFollows 0x19 args (answerGetFilter_attnFollows args) h
  | loadBank args => exact takeCommand_attnFollows 0x20 args (answerLoadBank_attnFollows args) h
  | readBank args => exact takeCommand_attnFollows 0x21 args (answerReadBank_attnFollows args) h
  | fetchResult args => exact takeCommand_attnFollows 0x22 args (answerFetchResult_attnFollows args) h
  | probeCell args => exact takeCommand_attnFollows 0x28 args (answerProbeCell_attnFollows args) h
  | openWindow args => exact takeCommand_attnFollows 0x30 args (answerOpenWindow_attnFollows args) h
  | closeWindow args => exact execCloseWindow_attnFollows args h
  | inject args => exact execInject_attnFollows args h
  | abortReadout args => exact takeCommand_attnFollows 0x40 args (answerAbortReadout_attnFollows args) h
  | clearAttention args => exact execClearAttention_attnFollows args h
  | softReset args => exact execSoftReset_attnFollows args h
  | unknownCommand code args => exact execUnknownCommand_attnFollows code args h
  | badCheckRequest code args check => exact execBadCheckRequest_attnFollows code args check h
  | transactionStart => exact execTransactionStart_attnFollows h
  | truncatedRequest bits => exact mcsRises_attnFollows bits h
  | responseAbandoned => exact mcsRises_attnFollows 0 h
  | transactionEnd => exact mcsRises_attnFollows 0 h
  | rstNAsserted => exact execRstNAsserted_attnFollows s
  | rstNDeasserted => exact execRstNDeasserted_attnFollows h
  | aresetNAsserted => exact withdrawHold_attnFollows .write (withdrawHold_attnFollows .read h)
  | handshakePresented rd wr => exact execHandshakePresented_attnFollows rd wr h
  | holdTimerExpiry ch => exact expireHold_attnFollows ch h
  | recordTake => exact execRecordTake_attnFollows h
  | recordApplied => exact execRecordApplied_attnFollows h
  | decayTick => exact decayTick_attnFollows h
  | dwellTick => exact dwellTick_attnFollows h
  | onsetTick => exact onsetTick_attnFollows h
  | windowTimerExpiry => exact execWindowTimerExpiry_attnFollows h
  | settleCapExpiry => exact execSettleCapExpiry_attnFollows h
  | pulseEnd => exact execPulseEnd_attnFollows h
  | winNFallingEdge => exact execWinNFallingEdge_attnFollows h
  | winNRisingEdge => exact execWinNRisingEdge_attnFollows h
  | auxAsserted n => exact execAuxAsserted_attnFollows n h
  | auxDeasserted n => exact execAuxDeasserted_attnFollows n h
  | frameByteDelivery => exact deliverByte_attnFollows h
  | loadStep => exact execLoadStep_attnFollows h
  | readStep => exact execReadStep_attnFollows h
  | responseSent => exact execResponseSent_attnFollows h

/-- A step with no command waiting is a TBCLK period or an expiry of the settle cap. -/
theorem step_of_empty (s : State) (h : s.pending = []) : step s = .next (idlePeriod s) := by
  simp only [step, h]

theorem step_attnFollows (h : s.AttnFollows) : ResultFollows (step s) := by
  cases waiting : s.pending with
  | nil =>
    rw [step_of_empty s waiting]
    exact idlePeriod_attnFollows h
  | cons c rest =>
    rw [step_of_pending s c rest waiting]
    exact exec_attnFollows c h

/-- Settles O53: the case of `step_attnFollows` in which the step gives a next state. -/
theorem attentionLineFollowsAtEveryStep : Obligations.AttentionLineFollowsAtEveryStep := by
  intro s t h stepped
  have follows := step_attnFollows h
  rw [stepped] at follows
  exact follows

end Sys2Proof.Machine
end

section
/-!
The machine's step on a waiting command (log 16), and the number work of the formats: the CRC-8 (R156), the configuration byte (R191), the
writes of the parameter table (R169, R194), and the ranges of an observation record (R54 to R56).
-/

namespace Sys2Proof.Machine

/-- Settles O1: `step_of_pending`. -/
theorem stepRunsTheFrontCommand : Obligations.StepRunsTheFrontCommand :=
  fun c rest s waiting => step_of_pending s c rest waiting

/-! ### The CRC-8 (R156) -/

/-- The place of the CRC-8 shift run backwards: the low bit tells whether the polynomial was taken off. -/
def crc8Unshift (d : BitVec 8) : BitVec 8 := if d.getLsbD 0 then ((d ^^^ 0x07#8) >>> 1) ||| 0x80#8 else d >>> 1

theorem crc8Unshift_crc8Shift (c : BitVec 8) : crc8Unshift (crc8Shift c) = c := by
  revert c
  decide

theorem crc8Shift_injective : Function.Injective crc8Shift := Function.LeftInverse.injective crc8Unshift_crc8Shift

/-- With the same running check, different bytes leave different checks. -/
theorem crc8Byte_injective (c : BitVec 8) : Function.Injective (crc8Byte c) := fun _ _ same =>
  (BitVec.xor_right_inj c).1 (crc8Shift_injective.iterate 8 same)

/-- With the same byte, different running checks stay different. -/
theorem crc8Byte_injective_left (b : Byte) : Function.Injective fun c => crc8Byte c b := fun _ _ same =>
  (BitVec.xor_left_inj b).1 (crc8Shift_injective.iterate 8 same)

/-- Bytes that follow keep two running checks apart. -/
theorem foldl_crc8Byte_injective (l : List Byte) : Function.Injective fun c => l.foldl crc8Byte c := by
  induction l with
  | nil => exact fun _ _ same => same
  | cons b l ih => exact fun c d same => crc8Byte_injective_left b (ih same)

/-- The check byte itself entering the running check leaves 0. -/
theorem crc8Byte_self (c : BitVec 8) : crc8Byte c c = 0 := by
  rw [crc8Byte, BitVec.xor_self]
  rfl

/-- Settles O9: the shift of the CRC-8 can be run backwards, so that a byte and the running check before it can be told from the check
after them. -/
theorem oneDamagedByteChangesTheCheck : Obligations.OneDamagedByteChangesTheCheck := by
  refine ⟨fun before after x y different same => different ?_, fun bytes => ?_⟩
  · simp only [crc8, List.foldl_append, List.foldl_cons] at same
    exact crc8Byte_injective _ (foldl_crc8Byte_injective after same)
  · rw [crc8_concat, crc8Byte_self]

/-! ### The configuration byte (R191) -/

theorem CellConfig.encode_bit7 (c : CellConfig) : c.encode.getLsbD 7 = false := by
  obtain ⟨mask, test, trim⟩ := c
  cases test <;> cases mask <;> simp [encode]

theorem CellConfig.encode_mask (c : CellConfig) : c.encode.getLsbD 6 = c.mask := by
  obtain ⟨mask, test, trim⟩ := c
  cases test <;> cases mask <;> simp [encode]

theorem CellConfig.encode_test (c : CellConfig) : c.encode.getLsbD 5 = c.test := by
  obtain ⟨mask, test, trim⟩ := c
  cases test <;> cases mask <;> simp [encode]

theorem CellConfig.encode_trim (c : CellConfig) : c.encode.setWidth 5 = BitVec.ofInt 5 c.trim := by
  obtain ⟨mask, test, trim⟩ := c
  cases test <;> cases mask <;> simp [encode]

/-- Five bits hold every trim. -/
theorem toInt_ofInt_trim (t : Int) (low : -16 ≤ t) (high : t ≤ 15) : (BitVec.ofInt 5 t).toInt = t := by
  rw [BitVec.toInt_ofInt]
  exact Int.bmod_eq_of_le (by omega) (by omega)

theorem CellConfig.decode_encode (c : CellConfig) (low : -16 ≤ c.trim) (high : c.trim ≤ 15) : decode c.encode = some c := by
  rw [decode, c.encode_bit7, c.encode_mask, c.encode_test, c.encode_trim, toInt_ofInt_trim c.trim low high]
  rfl

/-- A byte with bit 7 clear is spelled by its five low bits, its test bit and its mask bit. -/
theorem CellConfig.encode_bits (x : Byte) (clear : x.getLsbD 7 = false) :
    encode { mask := x.getLsbD 6, test := x.getLsbD 5, trim := (x.setWidth 5).toInt } = x := by
  rw [encode, BitVec.ofInt_toInt]
  revert x
  decide

theorem trim_of_bits (x : BitVec 5) : -16 ≤ x.toInt ∧ x.toInt ≤ 15 := by
  have low := BitVec.le_toInt x
  have high := BitVec.toInt_lt (x := x)
  omega

/-- Settles O23: each bit of the byte is read back as it was written. -/
theorem configurationByteRoundTrip : Obligations.ConfigurationByteRoundTrip := by
  refine ⟨CellConfig.decode_encode, fun x clear => ⟨_, if_neg (Bool.eq_false_iff.1 clear), ?_⟩, fun x set => if_pos set⟩
  exact ⟨CellConfig.encode_bits x clear, trim_of_bits _⟩

/-! ### Writes of the parameter table (R168, R169, R194) -/

theorem inRange_iff (lo hi v : Nat) : inRange lo hi v = true ↔ lo ≤ v ∧ v ≤ hi := by
  rw [inRange, Bool.and_eq_true, decide_eq_true_iff, decide_eq_true_iff]

/-- A number names a value of an encoding exactly where the list of the encoding reaches it. -/
theorem isSome_map_getElem? {α β : Type} (l : List α) (f : α → β) (v : Nat) : ((l[v]?).map f).isSome = true ↔ v < l.length := by
  rw [Option.isSome_map, isSome_getElem?]

theorem isSome_ite_some {α : Type} (c : Prop) [Decidable c] (a : α) : (if c then some a else none).isSome = true ↔ c := by
  split <;> simp [*]

/-- Check 4 of R168: the table takes a number exactly where it lies in the range, and keeps the alignment of R169. -/
theorem Params.write_isSome_iff (p : Params) (id : ParamId) (v : Nat) : (p.write id v).isSome = true ↔
    id.range.1 ≤ v ∧ v ≤ id.range.2
      ∧ (id = .mapBase → v % (4096 * 2 ^ p.mapGranule) = 0) ∧ (id = .mapGranule → p.mapBase % (4096 * 2 ^ v) = 0) := by
  cases id with
  | mode | dwellLaw | onsetWrap | weightLaw | dirSel | capturePolicy | defaultAction | deepMask | winSrc | cycle | overrunPolicy
  | testPath | zeroSuppress =>
    refine (isSome_map_getElem? _ _ _).trans ?_
    simp [ParamId.range, Nat.lt_succ_iff]
  | mapBase | mapGranule =>
    refine (isSome_ite_some _ _).trans ?_
    simp [inRange_iff, ParamId.range, span, and_assoc]
  | holdLimit | bankGate | threshold | trimStep | hysteresis | decayStep | occLimit | decayDiv | dwellDiv
  | onsetDiv | winLen | cycleCount | settleCap | testWeight | tpLen | unitId | attnEnable =>
    refine (isSome_ite_some _ _).trans ?_
    simp [inRange_iff, ParamId.range]

/-- A write of one parameter leaves the number of every other. -/
theorem Params.number_of_write (p q : Params) (id j : ParamId) (v : Nat) (other : j ≠ id) (h : p.write id v = some q) :
    q.number j = p.number j := by
  cases id with
  | mode | dwellLaw | onsetWrap | weightLaw | dirSel | capturePolicy | defaultAction | deepMask | winSrc | cycle | overrunPolicy
  | testPath | zeroSuppress =>
    obtain ⟨_, -, rfl⟩ := Option.map_eq_some_iff.1 h
    cases j <;> simp_all [number]
  | holdLimit | mapBase | mapGranule | bankGate | threshold | trimStep | hysteresis | decayStep | occLimit | decayDiv | dwellDiv
  | onsetDiv | winLen | cycleCount | settleCap | testWeight | tpLen | unitId | attnEnable =>
    obtain ⟨-, written⟩ := Option.ite_none_right_eq_some.1 h
    obtain rfl := Option.some.inj written
    cases j <;> simp_all [number]

/-- Settles O12: `Params.write_isSome_iff`, `Params.read_of_write` and `Params.number_of_write`. -/
theorem parameterWritesFollowTheTable : Obligations.ParameterWritesFollowTheTable := by
  refine fun p id v => ⟨p.write_isSome_iff id v, fun q written => ⟨?_, fun j other => p.number_of_write q id j v other written⟩⟩
  rw [← q.read_eq_number id, p.read_of_write q id v written]

/-! ### The range of an observation record (R54, R55, R56) -/

/-- The cell of an address of the mapped window, and the part of the window that belongs to the cell. -/
theorem cellIndex_range (base granule a : Nat) (low : base ≤ a) (high : a < base + 4096 * 2 ^ granule) :
    (a - base) / 2 ^ granule ≤ 4095 ∧ base + (a - base) / 2 ^ granule * 2 ^ granule ≤ a
      ∧ a < base + ((a - base) / 2 ^ granule + 1) * 2 ^ granule := by
  have positive : 0 < 2 ^ granule := Nat.two_pow_pos granule
  have cell : (a - base) / 2 ^ granule < 4096 := Nat.div_lt_of_lt_mul (by rw [Nat.mul_comm]; omega)
  have below := Nat.div_mul_le_self (a - base) (2 ^ granule)
  have above := Nat.lt_div_mul_add (a := a - base) positive
  rw [Nat.add_mul, Nat.one_mul]
  omega

/-- A weight base is 1..256, and 1..9 under COMPRESSED. -/
theorem weightBase_range (law : WeightLaw) (beats : Nat) (low : 1 ≤ beats) (high : beats ≤ 256) :
    1 ≤ weightBase law beats ∧ weightBase law beats ≤ 256 ∧ (law = .compressed → weightBase law beats ≤ 9) := by
  have log : beats.log2 < 9 := (Nat.log2_lt (by omega)).2 (by omega)
  cases law with
  | linear => simp [weightBase, low, high]
  | compressed => simp [weightBase]; omega

/-- A shift of at most 3 takes a weight base up to the eightfold. -/
theorem shifted_range (base shift most : Nat) (small : shift ≤ 3) (low : 1 ≤ base) (high : base ≤ most) :
    1 ≤ base * 2 ^ shift ∧ base * 2 ^ shift ≤ most * 8 := by
  have factor : 2 ^ shift ≤ 2 ^ 3 := Nat.pow_le_pow_right (by omega) small
  exact ⟨Nat.mul_pos low (Nat.two_pow_pos shift), Nat.mul_le_mul high factor⟩

/-- Settles O43, by the ranges of the cell and of the shifted weight base. -/
theorem observationRecordIsInRange : Obligations.ObservationRecordIsInRange := by
  intro p d hs low high one most shift
  obtain ⟨cell, from_, to_⟩ := cellIndex_range p.mapBase p.mapGranule hs.addr.toNat low high
  obtain ⟨positive, bounded, compressed⟩ := weightBase_range p.weightLaw hs.beats one most
  obtain ⟨weightLow, weightHigh⟩ := shifted_range _ d.shift 256 shift positive bounded
  refine ⟨cell, from_, to_, weightLow, weightHigh, fun law => ⟨?_, hs.beats.log2, ?_, ?_⟩⟩
  · exact (shifted_range _ d.shift 9 shift positive (compressed law)).2
  · rw [recordOf, law, weightBase, Nat.add_comm]
  · exact ⟨Nat.log2_self_le (by omega), Nat.lt_log2_self⟩

/-! ### Requests that are refused before their own checks (R157, R190) -/

/-- The codes that the decoder knows are those of the sixteen requests. -/
theorem code_of_request (code : Byte) (known : code ∈ commandCodes) : ∃ p ∈ requests, p.1 = code := by
  have codes : commandCodes = requests.map Prod.fst := rfl
  rw [codes, List.mem_map] at known
  exact known

/-- The rows that take a request where one comes, and else do what waited for one, take it while the decoder is RECEIVING. -/
theorem ite_canReceive (args : List Byte) (s : State) (receiving : s.port.decoder = .receiving) (short : args.length ≤ 255) {a b : State} :
    (if s.canReceive args then a else b) = a := if_pos ((canReceive_eq s args).2 ⟨receiving, short⟩)

/-- A request of the sixteen with more argument bytes than the decoder keeps is refused for its length. -/
theorem exec_long_request (args : List Byte) (s : State) (receiving : s.port.decoder = .receiving) (long : 72 < args.length)
    (short : args.length ≤ 255) : ∀ p ∈ requests, exec (p.2 args) s = .next (s.answered p.1 args .badLength []) := by
  have refused (code : Byte) (own : State → Answer) : takeCommand code args own s = s.answered code args .badLength [] :=
    takeCommand_long code args own s receiving short long
  have row (code : Byte) (own : State → Answer) :
      (.next (takeCommand code args own s) : Result) = .next (s.answered code args .badLength []) := congrArg _ (refused code own)
  have gatedRow (code : Byte) (own : State → Answer) (t : State) :
      (.next (if s.canReceive args then takeCommand code args own s else t) : Result) = .next (s.answered code args .badLength []) :=
    congrArg _ ((ite_canReceive args s receiving short).trans (refused code own))
  have bare : args ≠ [] := List.ne_nil_of_length_pos (by omega)
  have inject : exec (.inject args) s = .next (s.answered 0x38 args .badLength []) :=
    congrArg _ ((if_neg bare).trans (refused _ _))
  simp only [requests, List.forall_mem_cons]
  exact ⟨row .., row .., row .., row .., row .., row .., row .., row .., row .., row .., row .., gatedRow .., inject, row ..,
    gatedRow .., gatedRow .., List.forall_mem_nil _⟩

/-- Settles O6: a long request by the take (R157 step 3), an unknown code by its own row (step 2). -/
theorem longOrUnknownRequestIsRefused : Obligations.LongOrUnknownRequestIsRefused := by
  refine ⟨fun p request args s receiving long short => exec_long_request args s receiving long short p request, fun code args s receiving short unknown => ?_⟩
  have absent : code ∉ commandCodes := fun known => by
    obtain ⟨p, request, named⟩ := code_of_request code known
    exact unknown p request named
  have row : exec (.unknownCommand code args) s = execUnknownCommand code args s := rfl
  rw [row, execUnknownCommand, if_pos ⟨(canReceive_eq s args).2 ⟨receiving, short⟩, absent⟩,
    refuse_receiveRequest code args .unknown s (by decide) receiving short]

/-- The port after a request that was clocked in whole and is refused. -/
theorem refuse_receiveRequest_port (code : Byte) (args : List Byte) (check : Byte) (st : Status) (s : State) (refused : st ≠ .ok)
    (receiving : s.port.decoder = .receiving) (short : args.length ≤ 255) :
    (refuse code st (receiveRequest code args check s)).port = s.port.afterTake code args check st [] := by
  simp only [refuse, respond, receiveRequest_port code args check s receiving short, Port.afterTake, if_neg refused, requestCheck]

/-- Settles O7: the refusal of the wrong check byte, and the cause. -/
theorem badCheckIsRefusedAndSetsCommandFault : Obligations.BadCheckIsRefusedAndSetsCommandFault := by
  intro code args check s receiving short wrong
  have row : exec (.badCheckRequest code args check) s = execBadCheckRequest code args check s := rfl
  have port := refuse_receiveRequest_port code args check .badCheck s (by decide) receiving short
  rw [row, execBadCheckRequest, if_pos ⟨(canReceive_eq s args).2 ⟨receiving, short⟩, wrong⟩, ← port]
  rfl

end Sys2Proof.Machine
end

section
/-!
The management port: the serial lines and the decoder (R153, R154, R158, R159), SET_PARAM by its checks (R168), CLEAR_ATTENTION (R183), the
two resets (R172, R175).
-/

namespace Sys2Proof.Machine

/-! ### The serial lines while nothing is sent (R153, R154) -/

theorem takeByte_line (b : Byte) (p : Port) : (p.takeByte b).mso = p.mso ∧ (p.takeByte b).decoder = p.decoder := by
  unfold Port.takeByte
  split
  · exact ⟨rfl, rfl⟩
  · exact ⟨rfl, rfl⟩
  · split <;> exact ⟨rfl, rfl⟩

/-- Outside RESPONDING a bit leaves MSO low and the decoder where it is. -/
theorem clock_quiet (bit : Bool) (p : Port) (quiet : p.decoder ≠ .responding) :
    (p.clock bit).mso = false ∧ (p.clock bit).decoder = p.decoder := by
  cases decoder : p.decoder with
  | responding => exact absurd decoder quiet
  | receiving =>
    by_cases last : p.bitCount = 7
    · rw [clock_receiving_last bit p decoder last, (takeByte_line _ _).1, (takeByte_line _ _).2, decoder]
      exact ⟨rfl, rfl⟩
    · simp [Port.clock, Port.rise, Port.fall, Port.nextBit, decoder, last]
  | deselected | trailing | ignoring => simp [Port.clock, Port.rise, Port.fall, Port.nextBit, decoder]

/-- Outside RESPONDING the host samples MSO low at every bit, and the decoder stays. -/
theorem clockAll_quiet (l : List Bool) (p : Port) (quiet : p.decoder ≠ .responding) :
    Port.sampled l p = List.replicate l.length false ∧ (p.clockAll l).decoder = p.decoder := by
  induction l generalizing p with
  | nil => exact ⟨rfl, rfl⟩
  | cons b l ih =>
    obtain ⟨low, same⟩ := clock_quiet b p quiet
    obtain ⟨sampled, decoder⟩ := ih (p.clock b) (same ▸ quiet)
    rw [sampled_cons, clockAll_cons, low, sampled, decoder, same]
    exact ⟨rfl, rfl⟩

theorem wireBits_requestWire (code : Byte) (args : List Byte) (check : Byte) :
    wireBits (requestWire code args check) = bitsOf ([code, BitVec.ofNat 8 args.length] ++ args ++ [check]) := by
  rw [wireBits_eq_bitsOf, requestWire, List.append_assoc]
  simp only [List.cons_append, List.nil_append]

theorem length_requestWire (code : Byte) (args : List Byte) (check : Byte) : (requestWire code args check).length = args.length + 3 := by
  simp [requestWire]

/-- While a request comes in, MSO is low at every bit. -/
theorem sampled_request (code : Byte) (args : List Byte) (check : Byte) (p : Port) (receiving : p.decoder = .receiving) :
    Port.sampled (bitsOf ([code, BitVec.ofNat 8 args.length] ++ args ++ [check])) p.startRequest
      = List.replicate (8 * (args.length + 3)) false := by
  have quiet : p.startRequest.decoder ≠ .responding := by
    rw [Port.startRequest, receiving]
    decide
  rw [← wireBits_requestWire, (clockAll_quiet _ _ quiet).1, length_wireBits, length_requestWire]

/-- The port with a request received whole and not yet answered. -/
theorem clockAll_request (code : Byte) (args : List Byte) (check : Byte) (s : State) (receiving : s.port.decoder = .receiving)
    (short : args.length ≤ 255) :
    s.port.startRequest.clockAll (bitsOf ([code, BitVec.ofNat 8 args.length] ++ args ++ [check]))
      = { s.port.afterTake code args check .ok [] with
          decoder := .receiving, response := s.port.response, responseSent := s.port.responseSent } := by
  have port : (receiveRequest code args check s).port = s.port.startRequest.clockAll (wireBits (requestWire code args check)) := by
    rw [receiveRequest]
  rw [← wireBits_requestWire, ← port, receiveRequest_port code args check s receiving short]
  simp only [Port.afterTake, receiving, requestCheck, if_true]

/-- Once every bit of a response has been clocked out the decoder is TRAILING. -/
theorem clockAll_response_decoder (p : Port) (r : Response) (l : List Bool) (responding : p.decoder = .responding)
    (inHand : p.response = some r) (whole : l.length = 8 * (r.data.length + 3)) : (p.startResponse.clockAll l).decoder = .trailing := by
  have wire : p.wire.length = r.data.length + 3 := by simp [Port.wire, inHand, Response.length_wire]
  rw [startResponse_eq p r responding inHand, (clockAll_response l p p.msi 0 (by omega)).1]
  exact if_pos (by omega)

theorem Response.wire_eq (r : Response) :
    r.wire = [BitVec.ofNat 8 r.status.number, BitVec.ofNat 8 r.data.length] ++ r.data ++ [r.check] := by
  obtain ⟨status, data, check⟩ := r
  cases status <;> rfl

/-! ### The rows of a transaction (R154, R159, R160) -/

theorem exec_transactionStart (s : State) : exec .transactionStart s = execTransactionStart s := rfl

theorem mcsRises_reset (bits : Nat) (s : State) (reset : s.pins.rstLow = true) :
    mcsRises bits s = { s with pins := { s.pins with mcsLow := false }, port := { s.port with msck := false } } := if_pos reset

theorem mcsRises_live (bits : Nat) (s : State) (live : s.pins.rstLow = false) :
    mcsRises bits s =
      let ended : State := { s with pins := { s.pins with mcsLow := false }, port := s.port.between .deselected }
      if s.port.decoder = .receiving ∧ 0 < bits then ended.withPending (s.attn ||| 0x80) else ended := by
  simp only [mcsRises, live, Bool.false_eq_true, if_false, ← Nat.pos_iff_ne_zero]
  rfl

/-- Settles O8, a clause for each row by the decoder's state, and the serial lines by `clockAll_quiet` and `sampled_response`. -/
theorem transactionEventsMoveTheDecoder : Obligations.TransactionEventsMoveTheDecoder := by
  intro s
  refine ⟨?_, fun live idle => if_pos ⟨live, idle⟩, fun busy => if_neg ?_, ?_, ?_, ?_, ?_, ?_⟩
  · cases h : s.pins.rstLow <;> cases h' : s.pins.mcsLow <;> simp [State.mso, h, h']
  · rintro ⟨live, idle⟩
    rcases busy with reset | busy
    · rw [live] at reset
      cases reset
    · exact busy idle
  · intro code args check receiving short
    exact ⟨sampled_request code args check s.port receiving, clockAll_request code args check s receiving short⟩
  · intro r responding inHand
    have row : exec .responseSent s = .next { s with port := s.port.sendResponse } := congrArg _ (if_pos responding)
    refine ⟨by rw [row, sendResponse_eq s.port r responding inHand], fun driven whole => ⟨?_, ?_⟩⟩
    · rw [← r.wire_eq]
      exact sampled_response s.port r driven responding inHand whole
    · exact clockAll_response_decoder s.port r driven responding inHand whole
  · intro idle driven
    exact clockAll_quiet driven s.port (by rcases idle with h | h <;> simp [h])
  · intro live
    have ends (bits : Nat) := mcsRises_live bits s live
    refine ⟨congrArg _ ((ends 0).trans (if_neg ?_)), congrArg _ ((ends 0).trans (if_neg ?_)), fun bits => congrArg _ (ends bits)⟩
    all_goals simp
  · intro reset
    exact ⟨congrArg _ (mcsRises_reset 0 s reset), congrArg _ (mcsRises_reset 0 s reset), fun bits =>
      congrArg _ (mcsRises_reset bits s reset)⟩

/-! ### SET_PARAM by its checks (R167, R168) -/

theorem exec_setParam (args : List Byte) (s : State) :
    exec (.setParam args) s = .next (takeCommand 0x10 args (answerSetParam args) s) := rfl

theorem writeAsked_unknown (b : Byte) (value : List Byte) (p : Params) (unknown : ∀ id : ParamId, id.row.1 ≠ b) :
    writeAsked (b :: value) p = .error .badArg := by
  simp only [writeAsked, ParamId.ofByte_eq_none b unknown]

theorem writeAsked_length (id : ParamId) (value : List Byte) (p : Params) (wrong : value.length ≠ id.row.2.1) :
    writeAsked (id.row.1 :: value) p = .error .badLength := by
  have length : id.length = id.row.2.1 := by rw [id.row_eq]
  simp only [writeAsked, ParamId.ofByte_row, length, ne_eq, wrong, not_false_eq_true, if_true]

/-- With a parameter's own length, a SET_PARAM asks for the write of the number that its value bytes spell. -/
theorem writeAsked_write (id : ParamId) (value : List Byte) (p : Params) (right : value.length = id.row.2.1) :
    writeAsked (id.row.1 :: value) p =
      match p.write id (beNat value) with
      | none => .error .badArg
      | some q => .ok (id, q) := by
  have length : id.length = id.row.2.1 := by rw [id.row_eq]
  simp only [writeAsked, ParamId.ofByte_row, length, ne_eq, right, not_true_eq_false, if_false] <;> rfl

/-- The condition of a parameter's class (R167). -/
theorem classMet_iff (s : State) (id : ParamId) : s.classMet id.paramClass = true ↔
    id.row.2.2 = .any ∨ (s.ctl.state = .idle ∧ s.engine.op = .idle
      ∧ (id.row.2.2 = .rest → s.ctl.frozen = none ∧ s.readout.frame = none)) := by
  have column : id.row.2.2 = id.paramClass := by rw [id.row_eq]
  rw [column]
  cases id.paramClass <;> simp [State.classMet, State.cfgInFlight, and_assoc]

theorem answerSetParam_error (args : List Byte) (s : State) (st : Status) (h : writeAsked args s.params = .error st) :
    answerSetParam args s = .error st := by
  simp only [answerSetParam, h]

theorem answerSetParam_write (args : List Byte) (s : State) (id : ParamId) (q : Params) (h : writeAsked args s.params = .ok (id, q)) :
    answerSetParam args s = if s.classMet id.paramClass then .ok (setParams id q s, []) else .error .wrongState := by
  simp only [answerSetParam, h]

theorem setParams_withPort (id : ParamId) (q : Params) (s : State) (p : Port) :
    setParams id q (s.withPort p) = (setParams id q s).withPort p := by
  unfold setParams
  split <;> rfl

/-- A SET_PARAM that one of its first four checks refuses. -/
theorem exec_setParam_refused (args : List Byte) (s : State) (st : Status) (receiving : s.port.decoder = .receiving)
    (short : args.length ≤ 72) (h : writeAsked args s.params = .error st) (refused : st ≠ .ok) :
    exec (.setParam args) s = .next (s.answered 0x10 args st []) :=
  congrArg _ (takeCommand_error _ _ _ s st receiving short (answerSetParam_error args _ st h) refused)

/-- A SET_PARAM that the table takes is written where the class condition is met, and else refused. -/
theorem exec_setParam_written (args : List Byte) (s : State) (id : ParamId) (q : Params) (receiving : s.port.decoder = .receiving)
    (short : args.length ≤ 72) (h : writeAsked args s.params = .ok (id, q)) :
    exec (.setParam args) s = .next (
      if s.classMet id.paramClass then (setParams id q s).answered 0x10 args .ok [] else s.answered 0x10 args .wrongState []) := by
  have own := answerSetParam_write args (receiveRequest 0x10 args (requestCheck 0x10 args) s) id q h
  have same : (receiveRequest 0x10 args (requestCheck 0x10 args) s).classMet id.paramClass = s.classMet id.paramClass := by
    cases id.paramClass <;> rfl
  rw [same] at own
  rw [exec_setParam]
  congr 1
  split
  · rename_i met
    rw [if_pos met, receiveRequest_withPort, setParams_withPort] at own
    refine takeCommand_ok 0x10 args _ s _ _ receiving short own ?_
    unfold setParams
    split <;> rfl
  · rename_i unmet
    rw [if_neg unmet] at own
    exact takeCommand_error 0x10 args _ s _ receiving short own (by decide)

theorem ParamId.length_le (id : ParamId) : id.row.2.1 ≤ 8 := by
  cases id <;> decide

/-- Settles O11: the checks of `writeAsked` in order, then the class, then the write. -/
theorem setParamChecksAndWrites : Obligations.SetParamChecksAndWrites := by
  refine ⟨fun id => id.row_eq.symm, fun s receiving => ⟨?_, fun b value short unknown => ?_, fun id value => ?_⟩⟩
  · exact exec_setParam_refused [] s .badLength receiving (Nat.zero_le _) rfl (by decide)
  · exact exec_setParam_refused _ s .badArg receiving short (writeAsked_unknown b value s.params unknown) (by decide)
  · have fits (right : value.length = id.row.2.1) : (id.row.1 :: value).length ≤ 72 := by
      have := id.length_le
      rw [List.length_cons]
      omega
    refine ⟨fun wrong short => ?_, fun right refused => ?_, fun q right taken => ?_⟩
    · rcases Nat.lt_or_ge value.length 72 with kept | long
      · exact exec_setParam_refused _ s .badLength receiving kept (writeAsked_length id value s.params wrong) (by decide)
      · exact congrArg _ (takeCommand_long _ _ _ s receiving (by rwa [List.length_cons]) (by rw [List.length_cons]; omega))
    · refine exec_setParam_refused _ s .badArg receiving (fits right) ?_ (by decide)
      rw [writeAsked_write id value s.params right, refused]
    · have asked : writeAsked (id.row.1 :: value) s.params = .ok (id, q) := by
        rw [writeAsked_write id value s.params right, taken]
      have row := exec_setParam_written _ s id q receiving (fits right) asked
      simp only [classMet_iff s id, setParams] at row
      refine ⟨fun unmet => row.trans (congrArg _ (if_neg unmet)), fun met other => ?_, fun met enable => ?_⟩
      · rw [row, if_pos met, if_neg other]
      · rw [row, if_pos met, if_pos enable]
        rfl

/-! ### CLEAR_ATTENTION (R165, R183) -/

theorem arrive_eq (s : State) : arrive s = s.arrived := rfl

/-- Causes that arrive after ATTN_N has been driven leave it driven by all that is then pending. -/
theorem arrive_driveAttn (s : State) :
    arrive (driveAttn s) = { s.withPending (s.attn ||| s.arriving) with arriving := 0 } := by
  by_cases empty : (driveAttn s).arriving = 0
  · have none : s.arriving = 0 := empty
    have all : s.attn ||| s.arriving = s.attn := by rw [none]; exact BitVec.or_zero
    rw [arrive, if_pos empty, all, ← none]
    rfl
  · rw [arrive, if_neg empty]
    rfl

theorem exec_clearAttention (args : List Byte) (s : State) : exec (.clearAttention args) s =
    .next (if s.canReceive args then takeCommand 0x48 args (answerClearAttention args) s else arrive s) := rfl

theorem answerClearAttention_length (args : List Byte) (h : args.length ≠ 1) (r : State) :
    answerClearAttention args r = .error .badLength := by
  match args with
  | [] => rfl
  | [_] => exact absurd rfl h
  | _ :: _ :: _ => rfl

theorem answerClearAttention_withPort (set : Byte) (s : State) (p : Port) :
    answerClearAttention [set] (s.withPort p) = .ok ((arrive (clearCauses set s)).withPort p, []) := by
  rw [← arrive_withPort]
  rfl

theorem canReceive_absent (args : List Byte) (s : State) (absent : s.port.decoder ≠ .receiving) : ¬ s.canReceive args = true :=
  fun can => absent ((canReceive_eq s args).1 can).1

/-- Settles O14: the clear at the Attention Unit, then the causes that were on their way. -/
theorem clearAttentionRemovesTheNamedCauses : Obligations.ClearAttentionRemovesTheNamedCauses := by
  refine fun s receiving => ⟨fun set => ?_, fun args wrong short => ?_, fun args t absent => ?_⟩
  · have own := answerClearAttention_withPort set s (receiveRequest 0x48 [set] (requestCheck 0x48 [set]) s).port
    rw [← receiveRequest_withPort] at own
    rw [exec_clearAttention, ite_canReceive [set] s receiving (by simp),
      takeCommand_ok 0x48 [set] _ s _ [] receiving (by simp) own (arrive_port _), clearCauses, arrive_driveAttn]
    rfl
  · rw [exec_clearAttention, ite_canReceive args s receiving short,
      takeCommand_badLength _ args _ s receiving short (answerClearAttention_length args wrong)]
  · rw [exec_clearAttention, if_neg (canReceive_absent args t absent), arrive_eq]

/-! ### SOFT_RESET (R172, section 8.8) -/

theorem exec_softReset (args : List Byte) (s : State) : exec (.softReset args) s =
    .next (if s.canReceive args then takeCommand 0x5A args (answerSoftReset args) s else arrive s) := rfl

theorem answerSoftReset_length (args : List Byte) (h : args ≠ []) (r : State) : answerSoftReset args r = .error .badLength := if_pos h

/-- After the soft reset and the arrival of the causes on their way, these are pending. -/
theorem arrive_softReset (s : State) : arrive (softReset s) = { (softReset s).withPending s.arriving with arriving := 0 } := by
  have driven : softReset s = driveAttn (softReset s) := by
    have low : (softReset s).attnWanted = false := by
      show (!s.pins.rstLow && ((0#8 &&& s.params.attnEnable) != 0)) = false
      simp
    rw [driveAttn, low]
    rfl
  have all : (softReset s).attn ||| (softReset s).arriving = s.arriving := BitVec.zero_or
  rw [driven, arrive_driveAttn, ← driven, all]

/-- The answer to a request whose effect leaves the port alone but for the last refusal, which it drops. -/
theorem respond_withoutRefusal (code : Byte) (args : List Byte) (data : List Byte) (s t : State)
    (dropped : t.port = { s.port with lastRefusal := none }) (receiving : s.port.decoder = .receiving) (short : args.length ≤ 255) :
    respond .ok data (t.withPort { (receiveRequest code args (requestCheck code args) s).port with lastRefusal := none })
      = t.answered code args .ok data := by
  have port := receiveRequest_port code args (requestCheck code args) s receiving short
  simp only [respond, State.answered, Port.afterTake, State.withPort, port, dropped, if_true]
  rfl

/-- The take of a SOFT_RESET of right form. -/
theorem takeCommand_softReset (s : State) (receiving : s.port.decoder = .receiving) :
    takeCommand 0x5A [] (answerSoftReset []) s = (arrive (softReset s)).answered 0x5A [] .ok [] := by
  have taken : takeCommand 0x5A [] (answerSoftReset []) s =
      respond .ok [] (arrive (softReset (receiveRequest 0x5A [] (requestCheck 0x5A []) s))) :=
    if_pos ((canReceive_eq s []).2 ⟨receiving, by simp⟩)
  rw [taken, receiveRequest_withPort, softReset_withPort, arrive_withPort]
  exact respond_withoutRefusal 0x5A [] [] s _ (arrive_port _) receiving (by simp)

/-- Settles O15: the reset of every block, then the causes that were on their way. -/
theorem softResetKeepsConfigurationAlone : Obligations.SoftResetKeepsConfigurationAlone := by
  refine fun s receiving => ⟨fun args wrong short => ?_, ?_, fun args t absent => ?_⟩
  · rw [exec_softReset, ite_canReceive args s receiving short,
      takeCommand_badLength _ args _ s receiving short (answerSoftReset_length args wrong)]
  · rw [exec_softReset, ite_canReceive [] s receiving (by simp), takeCommand_softReset s receiving, arrive_softReset]
    rfl
  · rw [exec_softReset, if_neg (canReceive_absent args t absent), arrive_eq]

/-! ### RST_N (R175, R176, R177) -/

/-- Settles O16: each clause is what the row says, the numbers of the reset column parameter by parameter. -/
theorem rstNResetsAndStartsThePart : Obligations.RstNResetsAndStartsThePart := by
  refine fun s => ⟨rfl, fun id => ?_, fun reset => if_pos reset⟩
  cases id <;> rfl

end Sys2Proof.Machine
end

section
/-!
Requests by their own checks in order, once for all (`takeCommand_left`), and with it LOAD_BANK (R23), OPEN_WINDOW (R76) and
CLOSE_WINDOW (R77); the single LOAD_STEP and the READ_STEPs of a bank (R24, R25).
-/

namespace Sys2Proof.Machine

/-! ### What a request's own checks leave (R157) -/

/-- The state after a request whose own checks give this answer: the effect and the data, or the refusal. -/
def Answer.left (s : State) (code : Byte) (args : List Byte) : Answer → State
  | .ok (t, data) => t.answered code args .ok data
  | .error st => s.answered code args st []

/-- The answer given for a state with another port. -/
def Answer.withPort (p : Port) : Answer → Answer
  | .ok (t, data) => .ok (t.withPort p, data)
  | .error st => .error st

/-- An answer that leaves the port to the take: no refusal with status OK, and an effect apart from the port. -/
def Answer.Apart (s : State) : Answer → Prop
  | .ok (t, _) => t.port = s.port
  | .error st => st ≠ .ok

@[simp] theorem Answer.left_error (s : State) (code : Byte) (args : List Byte) (st : Status) :
    Answer.left s code args (.error st) = s.answered code args st [] := rfl

@[simp] theorem Answer.left_ok (s t : State) (code : Byte) (args data : List Byte) :
    Answer.left s code args (.ok (t, data)) = t.answered code args .ok data := rfl

@[simp] theorem Answer.left_ite (s : State) (code : Byte) (args : List Byte) (c : Prop) [Decidable c] (a b : Answer) :
    Answer.left s code args (if c then a else b) = if c then Answer.left s code args a else Answer.left s code args b :=
  apply_ite _ c a b

theorem Answer.withPort_ite (p : Port) (c : Prop) [Decidable c] (a b : Answer) :
    Answer.withPort p (if c then a else b) = if c then Answer.withPort p a else Answer.withPort p b := apply_ite _ c a b

/-- A check before an answer that leaves the port to the take. -/
theorem Answer.Apart.check {s : State} {c : Prop} [Decidable c] {st : Status} {a : Answer} (refusal : st ≠ .ok) (h : Answer.Apart s a) :
    Answer.Apart s (if c then .error st else a) := by
  split
  · exact refusal
  · exact h

/-- The take of a request of right length is what its own checks leave. -/
theorem takeCommand_left (code : Byte) (args : List Byte) (own : State → Answer) (s : State) (receiving : s.port.decoder = .receiving)
    (kept : args.length ≤ 72) (blind : ∀ p, own (s.withPort p) = (own s).withPort p) (apart : Answer.Apart s (own s)) :
    takeCommand code args own s = Answer.left s code args (own s) := by
  have same := blind (receiveRequest code args (requestCheck code args) s).port
  rw [← receiveRequest_withPort] at same
  cases answer : own s with
  | error st =>
    rw [answer] at same apart
    exact takeCommand_error code args own s st receiving kept same apart
  | ok done =>
    obtain ⟨t, data⟩ := done
    rw [answer] at same apart
    exact takeCommand_ok code args own s t data receiving kept same apart

/-! ### LOAD_BANK (R23) and one LOAD_STEP (R24) -/

theorem exec_loadBank (args : List Byte) (s : State) :
    exec (.loadBank args) s = .next (takeCommand 0x20 args (answerLoadBank args) s) := rfl

theorem any_decode_isNone (bytes : List Byte) :
    (bytes.any fun x => (CellConfig.decode x).isNone) = bytes.any fun x => x.getLsbD 7 := by
  congr 1
  funext x
  cases h : x.getLsbD 7 <;> rw [CellConfig.decode, h] <;> rfl

/-- LOAD_BANK's six checks in order (R23). -/
theorem answerLoadBank_eq (b : Byte) (bytes : List Byte) (s : State) : answerLoadBank (b :: bytes) s =
    if 64 < b.toNat then .error .badArg
    else if bytes.length ≠ (if b.toNat = 64 then 4 else 64) then .error .badLength
    else if bytes.any (fun x => x.getLsbD 7) then .error .badArg
    else if s.engine.op ≠ .idle then .error .busy
    else if s.ctl.state ≠ .idle then .error .wrongState
    else .ok ({ s with engine := { s.engine with
      op := .loading b.toNat 0 bytes, result := { s.engine.result with valid := false } } }, []) := by
  have busy : s.cfgInFlight = true ↔ s.engine.op ≠ .idle := decide_eq_true_iff
  simp only [answerLoadBank, any_decode_isNone, busy]
  rfl

theorem takeCommand_loadBank (b : Byte) (bytes : List Byte) (s : State) (receiving : s.port.decoder = .receiving)
    (kept : bytes.length < 72) :
    takeCommand 0x20 (b :: bytes) (answerLoadBank (b :: bytes)) s =
      Answer.left s 0x20 (b :: bytes) (answerLoadBank (b :: bytes) s) := by
  refine takeCommand_left _ _ _ s receiving kept (fun p => ?_) ?_
  · simp only [answerLoadBank_eq, Answer.withPort_ite]
    rfl
  · rw [answerLoadBank_eq]
    repeat' refine .check (by decide) ?_
    rfl

/-- Settles O19: the checks of `answerLoadBank_eq` at the take, and the slot's cell and mirror entry. -/
theorem loadBankIsCheckedAndSteppedBySlot : Obligations.LoadBankIsCheckedAndSteppedBySlot := by
  refine fun s => ⟨fun receiving => ⟨?_, fun b bytes kept => ?_⟩, fun b k bytes x loading byte valid => ?_⟩
  · rw [exec_loadBank, takeCommand_badLength 0x20 [] (answerLoadBank []) s receiving (by simp) fun _ => rfl]
  · rw [exec_loadBank, takeCommand_loadBank b bytes s receiving kept, answerLoadBank_eq]
    simp only [Answer.left_ite, Answer.left_error, Answer.left_ok]
  · have spelled : (bytes[k]?).bind CellConfig.decode = some (configOf x) := by
      rw [byte, Option.bind_some, decode_eq_configOf x valid]
    have row : exec .loadStep s = execLoadStep s := rfl
    simp only [row, execLoadStep, loading, spelled]
    rfl

/-! ### READ_STEP, and the steps of a READ_BANK (R4, R25) -/

/-- One READ_STEP (R25). -/
theorem exec_readStep (b k : Nat) (c : Cell) (s : State) (reading : s.engine.op = .reading b k)
    (cell : s.cells[slotIndex b k]? = some c) :
    exec .readStep s = .next { s with engine := { s.engine with
      op := if k + 1 < bankSize b then .reading b (k + 1) else .idle
      result := { s.engine.result with
        entries := s.engine.result.entries ++ [c.reported s.params], valid := decide (bankSize b ≤ k + 1) } } } := by
  have row : exec .readStep s = execReadStep s := rfl
  have slot : s.cells.getD (slotIndex b k) Cell.reset = c := by rw [List.getD_eq_getElem?_getD, cell, Option.getD_some]
  simp only [row, execReadStep, reading, slot, Nat.not_lt]

/-- The part where the first `k` slots of a READ_BANK have been read and the steps of the others wait: behind the last slot the operation
has completed and the buffer is valid (R25). -/
def readTo (b : Nat) (s : State) (k : Nat) : State :=
  { s with
    pending := List.replicate (bankSize b - k) .readStep
    engine := { s.engine with
      op := if k < bankSize b then .reading b k else .idle
      result := { s.engine.result with
        entries := ((s.bankOf b).take k).map (Cell.reported s.params)
        valid := if k = 0 then s.engine.result.valid else decide (bankSize b ≤ k) } } }

/-- The slots of a bank are places of the array. -/
theorem getElem?_bankOf (s : State) (b k : Nat) (slot : k < bankSize b) : (s.bankOf b)[k]? = s.cells[slotIndex b k]? := by
  rw [State.bankOf, List.getElem?_take_of_lt slot, List.getElem?_drop]
  rfl

/-- The step of each slot reads it (R25). -/
theorem step_readTo (b : Nat) (s : State) (bank : b ≤ 64) (array : s.cells.length = 4100) (k : Nat) (slot : k < bankSize b) :
    step (readTo b s k) = .next (readTo b s (k + 1)) := by
  have inArray : slotIndex b k < s.cells.length := by
    rw [bankSize_eq] at slot
    unfold slotIndex Config.bankCells
    split at slot <;> omega
  have cell : s.cells[slotIndex b k]? = some s.cells[slotIndex b k] := List.getElem?_eq_getElem inArray
  have waiting : (readTo b s k).pending = .readStep :: List.replicate (bankSize b - (k + 1)) .readStep := by
    rw [← List.replicate_succ, show bankSize b - (k + 1) + 1 = bankSize b - k by omega]
    rfl
  have entries : (s.bankOf b).take (k + 1) = (s.bankOf b).take k ++ [s.cells[slotIndex b k]] := by
    rw [List.take_add_one, getElem?_bankOf s b k slot, cell, Option.toList_some]
  have read := exec_readStep b k _ { readTo b s k with pending := List.replicate (bankSize b - (k + 1)) .readStep } (if_pos slot) cell
  rw [step_of_pending _ _ _ waiting, read]
  simp only [readTo, entries, List.map_append, List.map_cons, List.map_nil, Nat.add_one_ne_zero, if_false]

/-- Settles O22: the trace of the READ_BANK is `readTo`, slot after slot. -/
theorem readStepsFillTheResultBuffer : Obligations.ReadStepsFillTheResultBuffer := by
  intro b s
  have reported : (fun c : Cell => ({ mask := c.mask, test := c.test, trim := if s.params.deepMask = true ∧ c.mask = true then 15 else c.trim } : CellConfig))
      = Cell.reported s.params := by
    funext c
    simp only [Cell.reported, Cell.effTrim, Cell.deepMasked, Bool.and_eq_true]
  refine ⟨fun k c reading cell => ?_, fun bank array reading empty waiting => ?_⟩
  · rw [exec_readStep b k c s reading cell, ← reported]
    rfl
  · have positive : 0 < bankSize b := by
      rw [bankSize_eq]
      split <;> omega
    have start : readTo b s 0 = s := by
      have steps : s.pending = List.replicate (bankSize b) .readStep := waiting
      simp only [readTo, Nat.sub_zero, ← steps, if_pos positive, ← reading, List.take_zero, List.map_nil, ← empty, if_true]
    have run := run_of_steps (readTo b s) (bankSize b) (step_readTo b s bank array)
    rw [start] at run
    refine run.trans ?_
    have all : (s.bankOf b).take (bankSize b) = s.bankOf b := by rw [State.bankOf, List.take_take, Nat.min_self]
    simp only [readTo, all, Nat.sub_self, List.replicate_zero, Nat.lt_irrefl, if_false, Nat.le_refl, decide_true,
      Nat.pos_iff_ne_zero.1 positive, reported]
    rfl

end Sys2Proof.Machine
end

section
/-!
The window's rows: OPEN_WINDOW and CLOSE_WINDOW by their checks (R76, R77, R99, R101), the window line (R74, R75, R79), the open (R80), the
close (R83), the end of settling and the hand-off (R86, R91, R92, R105 to R108).
-/

namespace Sys2Proof.Machine

/-! ### Operations that neither read nor write the port -/

/-- An operation that does not see the port leaves it. -/
theorem port_of_blind {f : State → State} (blind : ∀ (s : State) (p : Port), f (s.withPort p) = (f s).withPort p) (s : State) :
    (f s).port = s.port := by
  have same := blind s s.port
  have port := congrArg State.port same
  exact port

theorem openWindowAs_port (cause : OpenCause) (s : State) : (openWindowAs cause s).port = s.port :=
  port_of_blind (openWindowAs_withPort cause) s

theorem considerEnd_port (s : State) : (considerEnd s).port = s.port := port_of_blind considerEnd_withPort s

theorem closeWindowAs_port (cause : CloseCause) (s : State) : (closeWindowAs cause s).port = s.port :=
  port_of_blind (closeWindowAs_withPort cause) s

theorem startCycle_withPort (s : State) (p : Port) : startCycle (s.withPort p) = (startCycle s).withPort p := by
  unfold startCycle
  rw [withPort_ite]
  rfl

theorem cfgInFlight_iff (s : State) : s.cfgInFlight = true ↔ s.engine.op ≠ .idle := decide_eq_true_iff

theorem cfgInFlight_false_iff (s : State) : s.cfgInFlight = false ↔ s.engine.op = .idle := by
  rw [← Bool.not_eq_true, cfgInFlight_iff, not_not]

/-! ### OPEN_WINDOW by its checks (R76, R99) -/

theorem exec_openWindow (args : List Byte) (s : State) :
    exec (.openWindow args) s = .next (takeCommand 0x30 args (answerOpenWindow args) s) := rfl

theorem answerOpenWindow_length (args : List Byte) (h : args ≠ []) (r : State) : answerOpenWindow args r = .error .badLength := if_pos h

theorem answerOpenWindow_eq (s : State) : answerOpenWindow [] s =
    if s.engine.op ≠ .idle then .error .busy
    else if s.params.winSrc = .line then .error .wrongState
    else if s.ctl.state ≠ .idle then .error .wrongState
    else .ok (openWindowAs .command (startCycle s), []) := by
  simp only [answerOpenWindow, cfgInFlight_iff, ne_eq, not_true_eq_false, if_false]

/-- Settles O25: the checks of `answerOpenWindow_eq` at the take, and the cycle that `startCycle` begins. -/
theorem openWindowIsCheckedInOrder : Obligations.OpenWindowIsCheckedInOrder := by
  refine fun s receiving => ⟨fun args wrong short => ?_, ?_⟩
  · rw [exec_openWindow, takeCommand_badLength _ args _ s receiving short (answerOpenWindow_length args wrong)]
  · have left : takeCommand 0x30 [] (answerOpenWindow []) s = Answer.left s 0x30 [] (answerOpenWindow [] s) := by
      refine takeCommand_left _ _ _ s receiving (by simp) (fun p => ?_) ?_
      · simp only [answerOpenWindow_eq, Answer.withPort_ite, startCycle_withPort, openWindowAs_withPort]
        rfl
      · rw [answerOpenWindow_eq]
        repeat' refine .check (by decide) ?_
        exact (openWindowAs_port _ _).trans (port_of_blind startCycle_withPort s)
    rw [exec_openWindow, left, answerOpenWindow_eq]
    simp only [Answer.left_ite, Answer.left_error, Answer.left_ok]
    unfold startCycle
    split_ifs <;> rfl

/-! ### CLOSE_WINDOW by the controller's state (R77, R101) -/

theorem exec_closeWindow (args : List Byte) (s : State) : exec (.closeWindow args) s =
    .next (if s.canReceive args then takeCommand 0x31 args (answerCloseWindow args) s else considerEnd s) := rfl

theorem answerCloseWindow_length (args : List Byte) (h : args ≠ []) (r : State) : answerCloseWindow args r = .error .badLength := if_pos h

theorem stopCycle_withPort (s : State) (p : Port) : stopCycle (s.withPort p) = (stopCycle s).withPort p := rfl

theorem closeByState_withPort (s : State) (p : Port) : closeByState (s.withPort p) = (closeByState s).withPort p := by
  unfold closeByState
  rw [withPort_ctl]
  cases s.ctl.state with
  | idle => rfl
  | opened =>
    show Except.ok (closeWindowAs .command (if s.ctl.cycleOn then stopCycle (s.withPort p) else s.withPort p), []) = _
    rw [stopCycle_withPort, ← withPort_ite, closeWindowAs_withPort]
    rfl
  | settling | held =>
    simp only [Answer.withPort_ite, stopCycle_withPort, considerEnd_withPort]
    rfl

theorem answerCloseWindow_withPort (s : State) (p : Port) : answerCloseWindow [] (s.withPort p) = (answerCloseWindow [] s).withPort p := by
  simp only [answerCloseWindow, closeByState_withPort, Answer.withPort_ite]
  rfl

theorem closeByState_apart (s : State) : (closeByState s).Apart s := by
  unfold closeByState
  split
  · refine (closeWindowAs_port _ _).trans ?_
    split <;> rfl
  · split
    · exact considerEnd_port _
    · exact Status.noConfusion
  · split
    · exact considerEnd_port _
    · exact Status.noConfusion
  · exact Status.noConfusion

/-- The take of a CLOSE_WINDOW of right form. -/
theorem exec_closeWindow_left (s : State) (receiving : s.port.decoder = .receiving) :
    exec (.closeWindow []) s = .next (if s.params.winSrc = .line then s.answered 0x31 [] .wrongState []
      else (closeByState s).left s 0x31 []) := by
  have apart : (answerCloseWindow [] s).Apart s := .check (by decide) (.check (by decide) (closeByState_apart s))
  rw [exec_closeWindow, ite_canReceive [] s receiving (by simp),
    takeCommand_left _ _ _ s receiving (by simp) (answerCloseWindow_withPort s) apart]
  simp only [answerCloseWindow, Answer.left_ite, Answer.left_error, ne_eq, not_true_eq_false, if_false]

theorem closeByState_opened (s : State) (h : s.ctl.state = .opened) :
    closeByState s = .ok (closeWindowAs .command (if s.ctl.cycleOn then stopCycle s else s), []) := by
  simp only [closeByState, h]

theorem closeByState_settling (s : State) (h : s.ctl.state = .settling) :
    closeByState s = if s.ctl.cycleOn then .ok (considerEnd (stopCycle s), []) else .error .wrongState := by
  simp only [closeByState, h]

theorem closeByState_held (s : State) (h : s.ctl.state = .held) :
    closeByState s = if s.ctl.cycleOn then .ok (stopCycle s, []) else .error .wrongState := by
  have stays : considerEnd (stopCycle s) = stopCycle s :=
    considerEnd_of_ne _ fun settling => CtlState.noConfusion (h.symm.trans settling)
  simp only [closeByState, h, stays]

/-- Settles O27: the take, and `closeByState` in each state of the controller. -/
theorem closeWindowIsAnsweredByState : Obligations.CloseWindowIsAnsweredByState := by
  refine fun s receiving => ⟨fun args wrong short => ?_, fun absent => ?_, fun source opened => ?_, fun source state => ?_,
    fun args t absent => ?_⟩
  · rw [exec_closeWindow, ite_canReceive args s receiving short,
      takeCommand_badLength _ args _ s receiving short (answerCloseWindow_length args wrong)]
  · rw [exec_closeWindow_left s receiving]
    rcases absent with line | idle
    · rw [if_pos line]
    · simp only [closeByState, idle, Answer.left_error, ite_self]
  · rw [exec_closeWindow_left s receiving, if_neg source, closeByState_opened s opened]
    rfl
  · rw [exec_closeWindow_left s receiving, if_neg source]
    rcases state with settling | held
    · rw [closeByState_settling s settling, Answer.left_ite, if_pos settling]
      rfl
    · have elsewhere : ¬ s.ctl.state = .settling := fun settling => CtlState.noConfusion (held.symm.trans settling)
      rw [closeByState_held s held, Answer.left_ite, if_neg elsewhere]
      rfl
  · rw [exec_closeWindow, if_neg (canReceive_absent args t absent)]

/-! ### The window line (R73, R74, R75, R79) -/

/-- Settles O29: the rows of the two edges, with a missed open's cause as `State.sets` says. -/
theorem windowLineOpensAndCloses : Obligations.WindowLineOpensAndCloses := by
  intro s
  have falling : exec .winNFallingEdge s = execWinNFallingEdge s := rfl
  have rising : exec .winNRisingEdge s = execWinNRisingEdge s := rfl
  refine ⟨fun live line => ⟨?_, ?_⟩, fun untaken => ⟨if_neg ?_, if_neg ?_⟩⟩
  · simp only [falling, execWinNFallingEdge, live, line, and_self, if_true, cfgInFlight_false_iff, missedOpen, raiseCause_eq]
    split <;> rfl
  · simp only [rising, execWinNRisingEdge, live, line, true_and]
    split <;> rfl
  · rintro ⟨live, line⟩
    rcases untaken with reset | source
    · exact Bool.noConfusion (reset.symm.trans live)
    · exact source line
  · rintro ⟨live, line, -⟩
    rcases untaken with reset | source
    · exact Bool.noConfusion (reset.symm.trans live)
    · exact source line

/-! ### The end of settling and the hand-off (R86, R91, R92, R100, R105 to R108) -/

/-- Both conditions of the end of settling, in the words of the rules (R39, R86). -/
theorem mayEnd_iff (s : State) : s.mayEnd = true ↔ s.SettlingOver := by
  have quiet : s.quiet = true ↔ ∀ (i : Nat) (c : Cell), s.cells[i]? = some c → ¬ c.CountsDwell s.params s.ctl.liveHalf i := by
    rw [State.quiet, countingCells, List.isEmpty_iff, List.eq_nil_iff_forall_not_mem]
    simp only [mem_indicesWhere, counting_iff, Nat.zero_add]
    constructor
    · intro none i c cell counts
      exact none i ⟨i, c, cell, rfl, counts⟩
    · rintro none i ⟨_, c, cell, rfl, counts⟩
      exact none i c cell counts
  rw [State.mayEnd, State.drained, Bool.and_eq_true, Bool.and_eq_true, Bool.and_eq_true, quiet, decide_eq_true_iff,
    List.isEmpty_iff, Option.isNone_iff_eq_none, and_assoc, and_assoc]
  rfl

/-- Settles O32. -/
theorem settlingEndsWhenDrainedAndQuiet : Obligations.SettlingEndsWhenDrainedAndQuiet :=
  fun s => ⟨fun ended => if_pos ((mayEnd_iff s).2 ended), fun goesOn => if_neg fun ended => goesOn ((mayEnd_iff s).1 ended)⟩

/-- Settling ends by the hand-off of the final descriptor (R91). -/
theorem endSettling_desc (d : Descriptor) (s : State) (h : s.ctl.desc = some d) :
    endSettling s = handOff { d with settleLength := s.ctl.settleCount, peak := s.occ.peak } s.rested := by
  simp only [endSettling, h]
  rfl

theorem handOff_sequential (d : Descriptor) (s : State) (h : s.params.mode.sequential = true) : handOff d s = freezeWhole d s := if_pos h

theorem handOff_continuous (d : Descriptor) (s : State) (h : s.params.mode.sequential = false) :
    handOff d s = match s.ctl.frozen with
      | none => swap d s
      | some _ => match s.params.overrunPolicy with
        | .discard => discardWindow d s
        | .wait => waitWindow d s := by
  rw [handOff, h]
  rfl

theorem handOff_swap (d : Descriptor) (s : State) (h : s.params.mode.sequential = false) (free : s.ctl.frozen = none) :
    handOff d s = swap d s := by
  simp only [handOff_continuous d s h, free]

theorem handOff_discard (d : Descriptor) (s : State) (h : s.params.mode.sequential = false) (frozen : s.ctl.frozen.isSome = true)
    (policy : s.params.overrunPolicy = .discard) : handOff d s = discardWindow d s := by
  obtain ⟨z, frozen⟩ := Option.isSome_iff_exists.1 frozen
  simp only [handOff_continuous d s h, frozen, policy]

theorem handOff_wait (d : Descriptor) (s : State) (h : s.params.mode.sequential = false) (frozen : s.ctl.frozen.isSome = true)
    (policy : s.params.overrunPolicy = .wait) : handOff d s = waitWindow d s := by
  obtain ⟨z, frozen⟩ := Option.isSome_iff_exists.1 frozen
  simp only [handOff_continuous d s h, frozen, policy]

/-- Settles O33: the hand-off of a sequential mode freezes the whole storage. -/
theorem sequentialWindowIsFrozenWhole : Obligations.SequentialWindowIsFrozenWhole := by
  intro d s inProgress sequential
  exact (endSettling_desc d s inProgress).trans (handOff_sequential _ s.rested sequential)

theorem cycleContinues_iff (s : State) :
    (s.ctl.cycleOn && (decide (s.params.cycleCount = 0) || decide (0 < s.ctl.cyclesLeft))) = true ↔ s.cycleContinues := by
  simp [State.cycleContinues]

theorem dealtWith_continues (s : State) (h : s.cycleContinues) : dealtWith s = openWindowAs .cycle s :=
  if_pos ((cycleContinues_iff s).2 h)

theorem dealtWith_ends (s : State) (h : ¬ s.cycleContinues) :
    dealtWith s = { s with ctl := { s.ctl with state := .idle, cycleOn := false } } :=
  if_neg fun continues => h ((cycleContinues_iff s).1 continues)

/-- Settles O34: the hand-off by the storage-frozen indication and the overrun policy. -/
theorem continuousHandOffFollowsTheIndication : Obligations.ContinuousHandOffFollowsTheIndication := by
  refine fun s => ⟨dealtWith_continues s, dealtWith_ends s, fun d inProgress continuous => ?_⟩
  refine ⟨fun free => ?_, fun frozen discard => ?_, fun frozen wait => ?_⟩
  · exact (endSettling_desc d s inProgress).trans (handOff_swap _ s.rested continuous free)
  · refine (endSettling_desc d s inProgress).trans ((handOff_discard _ s.rested continuous frozen discard).trans ?_)
    rw [discardWindow, raiseCause_eq]
    rfl
  · refine (endSettling_desc d s inProgress).trans ((handOff_wait _ s.rested continuous frozen wait).trans ?_)
    rw [waitWindow, raiseCause_eq]
    rfl

end Sys2Proof.Machine
end

section
/-!
The open of a window (R80, R31, R17), the close (R83, R69), the ends of a hold (R51, R66, R68) and RECORD_TAKE (R63, R65).
-/

namespace Sys2Proof.Machine

/-! ### The open (R80) -/

/-- An event at which no cell does anything draws one free order, and that is all (log 1). -/
theorem arrayEvent_quiet (f : Nat → Cell → CellOut) (s : State)
    (quiet : ∀ (i : Nat) (c : Cell), s.cells[i]? = some c → f i c = quietly c) : arrayEvent f s = { s with free := s.free + 1 } := by
  have outs : eachCell f 0 s.cells = s.cells.map quietly := by
    ext1 i
    rw [getElem?_eachCell, List.getElem?_map, Nat.zero_add]
    cases cell : s.cells[i]? with
    | none => rfl
    | some c => exact congrArg some (quiet i c cell)
  have silent (l : List Cell) : noticesOf (l.map quietly) = [] := by
    induction l with
    | nil => rfl
    | cons c l ih => exact ih
  have unreported (l : List Cell) (i : Nat) : reportsOf i (l.map quietly) = [] := by
    induction l generalizing i with
    | nil => rfl
    | cons c l ih => exact ih (i + 1)
  have same : (s.cells.map quietly).map CellOut.cell = s.cells := by
    rw [List.map_map]
    exact List.map_id _
  have order : noticeOrder (2 * s.free) (s.cells.map quietly) = [] := by
    have perm := noticeOrder_perm (2 * s.free) (s.cells.map quietly)
    rw [silent] at perm
    exact perm.eq_nil
  simp only [arrayEvent, outs, order, unreported, anyOrder_nil, List.foldl_nil, same]

/-- The aux cell of an asserted line follows it at an open: the cells that turn HOT, in the words of the rules (R17). -/
def openAtCell (s : State) (i : Nat) (c : Cell) : CellOut :=
  if 4096 ≤ i ∧ s.pins.aux.getLsbD (i - 4096) = true ∧ c.test = false
      ∧ ¬ (s.params.deepMask = true ∧ c.mask = true) ∧ c.activity = .cold then
    turnHot s.params s.ctl.liveHalf i c
  else quietly c

theorem followsLine_iff (p : Params) (c : Cell) :
    c.followsLine p = true ↔ c.test = false ∧ ¬ (p.deepMask = true ∧ c.mask = true) := by
  cases test : c.test <;> cases deep : p.deepMask <;> cases mask : c.mask <;> simp [Cell.followsLine, Cell.deepMasked, test, deep, mask]

theorem lineUpAtCell_eq (p : Params) (h : Half) (i : Nat) (c : Cell) : lineUpAtCell p h i c =
    if (c.test = false ∧ ¬ (p.deepMask = true ∧ c.mask = true)) ∧ c.activity = .cold then turnHot p h i c else quietly c := by
  simp only [lineUpAtCell, Bool.and_eq_true, followsLine_iff, decide_eq_true_iff]

theorem openAtCell_eq (s : State) :
    (fun i c => if decide (Config.arrayCells ≤ i) && s.pins.aux.getLsbD (i - Config.arrayCells) then
      lineUpAtCell s.params s.ctl.liveHalf i c else quietly c) = openAtCell s := by
  funext i c
  by_cases up : 4096 ≤ i ∧ s.pins.aux.getLsbD (i - 4096) = true
  · obtain ⟨aux, line⟩ := up
    simp only [lineUpAtCell_eq, openAtCell, Config.arrayCells, aux, line, decide_true, Bool.and_self, if_true, true_and, and_assoc]
  · have untold : ¬ (decide (4096 ≤ i) && s.pins.aux.getLsbD (i - 4096)) = true := by
      rwa [Bool.and_eq_true, decide_eq_true_iff]
    have still : openAtCell s i c = quietly c := if_neg fun ⟨aux, line, _⟩ => up ⟨aux, line⟩
    rw [still]
    exact if_neg untold

/-- The state of a window just opened, before the aux cells take the levels of their lines. -/
def State.freshWindow (cause : OpenCause) (s : State) : State :=
  { s with
    ctl := { s.ctl with
      state := .opened
      desc := some (newDescriptor cause s)
      nextFrame := (s.ctl.nextFrame + 1) % 2 ^ 32
      windowCount := 0
      settleCount := 0
      discardCarry := 0
      heldCarry := false }
    cells := s.cells.map Cell.clearFlags
    occ := { s.occ with peak := s.occ.current }
    ticks := { decay := { running := true, count := 0 }, dwell := { running := true, count := 0 }
               onset := { running := true, count := 0 } }
    crossing := .reset }

theorem openWindowAs_eq (cause : OpenCause) (s : State) :
    openWindowAs cause s = arrayEvent (openAtCell s) (s.freshWindow cause) := by
  rw [← openAtCell_eq]
  rfl

theorem foldl_takeNotice_crossing (l : List Notice) (s : State) : (l.foldl takeNotice s).crossing = s.crossing := by
  rw [(foldl_takeNotice l s).kept]

theorem arrayEvent_crossing (f : Nat → Cell → CellOut) (s : State) : (arrayEvent f s).crossing = s.crossing := by
  rw [arrayEvent, foldl_takeReport, foldl_takeNotice_crossing]

/-- Settles O26: the fresh window, and the aux cells at the levels of their lines. -/
theorem openStartsAFreshWindow : Obligations.OpenStartsAFreshWindow := by
  intro cause s
  have opened := openWindowAs_eq cause s
  refine ⟨?_, ?_, fun deasserted => ?_⟩
  · rw [opened]
    exact arrayEvent_outcome (openAtCell s) (s.freshWindow cause)
  · rw [opened, arrayEvent_crossing]
    rfl
  · rw [opened]
    refine arrayEvent_quiet _ _ fun i c _ => if_neg ?_
    rintro ⟨-, line, -⟩
    rw [deasserted] at line
    simp at line

/-! ### The close (R83, R69) -/

theorem shedNotice_eq (d : Descriptor) (s : State) (h : s.ctl.desc = some d) : shedNotice s =
    let t : State := { s with ctl := { s.ctl with desc := some { d with shed := min 65535 (d.shed + 1) } } }
    if d.shed = 0 then t.sets 0x04 else t := by
  simp only [shedNotice, onDesc, h, Option.map_some, Option.some.injEq, raiseCause_eq]
  rfl

theorem shedHold_none (ch : Channel) (s : State) (h : s.hold ch = none) : shedHold ch s = s := by
  simp only [shedHold, h]

theorem shedHold_some (ch : Channel) (s : State) (x : Hold) (h : s.hold ch = some x) :
    shedHold ch s = shedNotice (passHandshake ch x.handshake (setHold ch none s)) := by
  simp only [shedHold, openGate, h]

/-- A hold that is shed at a close: the gate opens, the handshake passes, the shed is counted (R69). -/
theorem shedHold_desc (ch : Channel) (s : State) (x : Hold) (d : Descriptor) (h : s.hold ch = some x) (hd : s.ctl.desc = some d) :
    shedHold ch s =
      let t : State := { passHandshake ch x.handshake (setHold ch none s) with
        ctl := { s.ctl with desc := some { d with shed := min 65535 (d.shed + 1) } } }
      if d.shed = 0 then t.sets 0x04 else t := by
  rw [shedHold_some ch s x h]
  cases ch <;> exact shedNotice_eq d _ hd

/-- Settles O28, by the gates that hold: the first of two sheds may set SHED, the second finds the count above 0. -/
theorem closeShedsHoldsAndStopsOnsets : Obligations.CloseShedsHoldsAndStopsOnsets := by
  intro cause d s inProgress bounded
  refine ⟨?_, rfl⟩
  have full : min 65535 d.shed = d.shed := by omega
  have twice : min 65535 (min 65535 (d.shed + 1) + 1) = min 65535 (d.shed + 2) := by omega
  have positive : min 65535 (d.shed + 1) ≠ 0 := by omega
  have begun : (beginClose cause s).ctl.desc = some { d with closeCause := cause, windowLength := s.ctl.windowCount } := by
    simp only [beginClose, inProgress, Option.map_some]
  obtain ⟨pending, free, pins, port, params, cells, occ, engine, ticks, ⟨rd, wr, memRd, memWr⟩, filter, queue, ctl, readout, tpg, attn,
    arriving, crossing, decayWaits⟩ := s
  change ctl.desc = some d at inProgress
  cases rd with
  | none =>
    rw [shutWindow, shedHold_none .read _ rfl]
    cases wr with
    | none =>
      rw [shedHold_none .write _ rfl, if_neg (by simp [State.holding])]
      simp [State.holding, State.gatesOpened, beginClose, inProgress, full]
    | some y =>
      rw [shedHold_desc .write _ y _ rfl begun]
      simp [State.holding, State.gatesOpened, beginClose]
      rfl
  | some x =>
    rw [shutWindow, shedHold_desc .read _ x _ rfl begun]
    cases wr with
    | none =>
      rw [shedHold_none .write _ (by split <;> rfl)]
      simp [State.holding, State.gatesOpened, beginClose]
      rfl
    | some y =>
      by_cases zero : d.shed = 0
      · rw [if_pos zero, shedHold_desc .write _ y _ rfl rfl, if_neg positive]
        simp [State.holding, State.gatesOpened, beginClose, zero]
        rfl
      · rw [if_neg zero, shedHold_desc .write _ y _ rfl rfl, if_neg positive, twice]
        simp [State.holding, State.gatesOpened, beginClose, zero]
        rfl

/-! ### The ends of a hold without a grant (R51, R66, R68) -/

theorem releaseNotice_eq (d : Descriptor) (s : State) (h : s.ctl.desc = some d) : releaseNotice s =
    State.sets { s with ctl := { s.ctl with desc := some { d with released := min 65535 (d.released + 1) } } } 0x08 := by
  simp only [releaseNotice, onDesc, h, Option.map_some, raiseCause_eq]
  rfl

theorem expireHold_none (ch : Channel) (s : State) (h : s.hold ch = none) : expireHold ch s = s := by
  simp only [expireHold, h]

theorem expireHold_some (ch : Channel) (s : State) (x : Hold) (h : s.hold ch = some x) :
    expireHold ch s = releaseNotice (passHandshake ch x.handshake (setHold ch none s)) := by
  simp only [expireHold, openGate, h]

theorem withdrawHold_none (ch : Channel) (s : State) (h : s.hold ch = none) : withdrawHold ch s = s := by
  simp only [withdrawHold, h]

theorem withdrawHold_some (ch : Channel) (s : State) (x : Hold) (d : Descriptor) (h : s.hold ch = some x) (hd : s.ctl.desc = some d) :
    withdrawHold ch s = State.sets { setHold ch none s with
      ctl := { s.ctl with desc := some { d with released := min 65535 (d.released + 1) } } } 0x08 := by
  simp only [withdrawHold, h]
  cases ch <;> exact releaseNotice_eq d _ hd

/-- A cause set twice in one event is set once. -/
theorem sets_sets (s : State) (c : BitVec 8) : (s.sets c).sets c = s.sets c := by
  simp only [State.sets, State.withPending, BitVec.or_assoc, BitVec.or_self]

/-- Settles O46: each release by its own notice, and two withdrawals as two releases that set the cause once. -/
theorem holdsEndReleased : Obligations.HoldsEndReleased := by
  intro s
  have expiry (ch : Channel) : exec (.holdTimerExpiry ch) s = .next (expireHold ch s) := rfl
  have aresetN : exec .aresetNAsserted s = .next (withdrawHold .write (withdrawHold .read s)) := rfl
  refine ⟨fun ch none => ?_, fun none => ?_, fun d inProgress => ⟨fun ch x held => ?_, fun some => ?_⟩⟩
  · rw [expiry, expireHold_none ch s none]
  · have gates : s.path.rd = .none ∧ s.path.wr = .none := by
      rw [State.holding] at none
      cases rd : s.path.rd <;> cases wr : s.path.wr <;> simp_all
    obtain ⟨rd, wr⟩ := gates
    rw [aresetN, withdrawHold_none .read s rd, withdrawHold_none .write s wr]
  · rw [expiry, expireHold_some ch s x held]
    cases ch <;> exact congrArg _ (releaseNotice_eq d _ inProgress)
  · rw [aresetN]
    have twice : min 65535 (min 65535 (d.released + 1) + 1) = min 65535 (d.released + 2) := by omega
    cases rd : s.path.rd with
    | none =>
      rw [withdrawHold_none .read s rd]
      cases wr : s.path.wr with
      | none => simp [State.holding, rd, wr] at some
      | some y =>
        rw [withdrawHold_some .write s y d wr inProgress]
        simp [State.holding, rd, wr, setHold]
    | some x =>
      have first := withdrawHold_some .read s x d rd inProgress
      have write : (withdrawHold .read s).hold .write = s.path.wr := by
        rw [first]
        rfl
      cases wr : s.path.wr with
      | none =>
        rw [withdrawHold_none .write _ (write.trans wr), first]
        simp [State.holding, rd, wr, setHold]
      | some y =>
        have progress : (withdrawHold .read s).ctl.desc = Option.some { d with released := min 65535 (d.released + 1) } := by
          rw [first]
          rfl
        have both : s.holding = 2 := by simp [State.holding, rd, wr]
        rw [withdrawHold_some .write (withdrawHold .read s) y _ (write.trans wr) progress, first, both, ← twice]
        exact congrArg _ (sets_sets { s with
          path := { s.path with rd := Option.none, wr := Option.none }
          ctl := { s.ctl with desc := Option.some { d with released := min 65535 (min 65535 (d.released + 1) + 1) } } } 0x08)

/-! ### RECORD_TAKE (R63, R65) -/

theorem exec_recordTake (s : State) : exec .recordTake s = execRecordTake s := rfl

/-- A take: the head record goes into application, and the freed slot is offered (R63, R65). -/
theorem execRecordTake_takes (s : State) (r : Record) (rs : List Record) (waiting : s.queue.records = r :: rs)
    (measuring : s.measuring = true) (free : s.engine.applying = none) :
    execRecordTake s =
      .next (offerSlot { s with queue := { s.queue with records := rs }, engine := { s.engine with applying := some r } }) := by
  simp only [execRecordTake, waiting, measuring, free, Option.isNone_none, Bool.and_self, if_true]

theorem offerSlot_preferred (s : State) (h : Hold) (opened : s.ctl.state = .opened) (room : s.queue.records.length < 32)
    (preferred : s.hold (otherChannel s.queue.history) = some h) :
    offerSlot s = grant (otherChannel s.queue.history) h.record h.handshake s := by
  rw [offerSlot, if_pos ⟨opened, room⟩, preferred]

theorem offerSlot_other (s : State) (h : Hold) (opened : s.ctl.state = .opened) (room : s.queue.records.length < 32)
    (preferred : s.hold (otherChannel s.queue.history) = none) (other : s.hold s.queue.history = some h) :
    offerSlot s = grant s.queue.history h.record h.handshake s := by
  rw [offerSlot, if_pos ⟨opened, room⟩, preferred, other]

/-- With no gate holding a freed slot stays free. -/
theorem offerSlot_unheld (s : State) (rd : s.hold .read = none) (wr : s.hold .write = none) : offerSlot s = s := by
  have none (ch : Channel) : s.hold ch = none := by cases ch <;> assumption
  rw [offerSlot, none, none, ite_self]

/-- Settles O45: the take, and the slot it frees offered to the channel that waits. -/
theorem recordTakeFreesOneSlot : Obligations.RecordTakeFreesOneSlot := by
  intro s
  refine ⟨fun idle => ?_, fun r rs waiting room free => ?_⟩
  · rw [exec_recordTake, execRecordTake]
    split
    · rfl
    · rename_i waiting
      refine if_neg fun takes => ?_
      rw [Bool.and_eq_true, Option.isNone_iff_eq_none] at takes
      obtain ⟨measuring, free⟩ := takes
      rcases idle with empty | busy | state | state
      · rw [empty] at waiting
        cases waiting
      · rw [free] at busy
        cases busy
      all_goals simp [State.measuring, state] at measuring
  · have measuringOf (h : s.ctl.state = .opened ∨ s.ctl.state = .settling) : s.measuring = true := by
      rcases h with h | h <;> simp [State.measuring, h]
    refine ⟨fun settling => ?_, fun opened rd wr => ?_, fun h opened preferred => ?_, fun h opened preferred other => ?_⟩
    · rw [exec_recordTake, execRecordTake_takes s r rs waiting (measuringOf (.inr settling)) free, offerSlot, if_neg]
      rintro ⟨opened, -⟩
      exact CtlState.noConfusion (settling.symm.trans opened)
    · rw [exec_recordTake, execRecordTake_takes s r rs waiting (measuringOf (.inl opened)) free]
      exact congrArg _ (offerSlot_unheld _ rd wr)
    · rw [exec_recordTake, execRecordTake_takes s r rs waiting (measuringOf (.inl opened)) free]
      exact congrArg _ (offerSlot_preferred _ h opened room preferred)
    · rw [exec_recordTake, execRecordTake_takes s r rs waiting (measuringOf (.inl opened)) free]
      exact congrArg _ (offerSlot_other _ h opened room preferred other)

end Sys2Proof.Machine
end

section
/-! PROOF. The counters of one cell: segments, quantities, value words (O36, and the words of O50), and the evaluation (O35). -/

namespace Sys2Proof.Machine

/-! ### Segments (R34, R48) -/

theorem seg_setSeg_same (c : Cell) (g : Seg) (v : Nat) : (c.setSeg g v).seg g = v := by cases g <;> rfl

theorem seg_setSeg_ne (c : Cell) {g k : Seg} (v : Nat) (h : k ≠ g) : (c.setSeg g v).seg k = c.seg k := by
  revert h
  cases g <;> cases k <;> simp [Cell.setSeg, Cell.seg]

theorem seg_setSegs_of_not_mem (l : List Seg) (c : Cell) (v : Nat) (k : Seg) (h : k ∉ l) : (c.setSegs l v).seg k = c.seg k := by
  induction l generalizing c v with
  | nil => rfl
  | cons g l ih =>
    have other : k ≠ g := List.ne_of_not_mem_cons h
    exact (ih _ _ (List.not_mem_of_not_mem_cons h)).trans (seg_setSeg_ne c _ other)

theorem segsValue_congr {c d : Cell} (l : List Seg) (h : ∀ g ∈ l, d.seg g = c.seg g) : d.segsValue l = c.segsValue l := by
  induction l with
  | nil => rfl
  | cons g l ih =>
    simp only [Cell.segsValue, h g (List.mem_cons_self ..), ih fun k hk => h k (List.mem_cons_of_mem _ hk)]

/-- Segments that a list does not name keep their number. -/
theorem segsValue_setSegs_apart (l k : List Seg) (c : Cell) (v : Nat) (h : ∀ g ∈ k, g ∉ l) :
    (c.setSegs l v).segsValue k = c.segsValue k :=
  segsValue_congr k fun g hg => seg_setSegs_of_not_mem l c v g (h g hg)

theorem Seg.size_pos (g : Seg) : 0 < g.size := by cases g <;> decide

/-- A number written into segments is read back (R48). -/
theorem segsValue_setSegs (l : List Seg) (c : Cell) (v : Nat) (distinct : l.Nodup) (small : v < segsRange l) :
    (c.setSegs l v).segsValue l = v := by
  induction l generalizing c v with
  | nil =>
    have zero : v = 0 := by simpa [segsRange] using small
    rw [zero, Cell.segsValue]
  | cons g l ih =>
    obtain ⟨fresh, distinct⟩ := List.nodup_cons.1 distinct
    have low : ((c.setSeg g (v % g.size)).setSegs l (v / g.size)).seg g = v % g.size :=
      (seg_setSegs_of_not_mem l _ _ g fresh).trans (seg_setSeg_same c g _)
    have high : v / g.size < segsRange l := Nat.div_lt_of_lt_mul small
    rw [Cell.setSegs, Cell.segsValue, low, ih _ _ distinct high, Nat.mod_add_div]

theorem ranged_iff (c : Cell) : c.Ranged ↔ ∀ g, c.seg g < g.size := by
  constructor
  · rintro ⟨h0, h1, h2, h3⟩ g
    cases g
    · exact Nat.lt_succ_of_le h0
    · exact Nat.lt_succ_of_le h1
    · exact Nat.lt_succ_of_le h2
    · exact Nat.lt_succ_of_le h3
  · intro h
    exact ⟨Nat.le_of_lt_succ (h .s0), Nat.le_of_lt_succ (h .s1), Nat.le_of_lt_succ (h .s2), Nat.le_of_lt_succ (h .s3)⟩

theorem setSegs_ranged (l : List Seg) (c : Cell) (v : Nat) (h : c.Ranged) : (c.setSegs l v).Ranged := by
  induction l generalizing c v with
  | nil => exact h
  | cons g l ih =>
    refine ih _ _ ((ranged_iff _).2 fun k => ?_)
    rcases eq_or_ne k g with rfl | hne
    · rw [seg_setSeg_same]
      exact Nat.mod_lt _ k.size_pos
    · rw [seg_setSeg_ne c _ hne]
      exact (ranged_iff c).1 h k

theorem segsValue_lt (l : List Seg) (c : Cell) (h : c.Ranged) : c.segsValue l < segsRange l := by
  induction l with
  | nil => exact Nat.one_pos
  | cons g l ih =>
    have low : c.seg g < g.size := (ranged_iff c).1 h g
    calc c.seg g + g.size * c.segsValue l < g.size + g.size * c.segsValue l := Nat.add_lt_add_right low _
      _ = g.size * (c.segsValue l + 1) := by rw [Nat.mul_succ, Nat.add_comm]
      _ ≤ g.size * segsRange l := Nat.mul_le_mul_left _ ih

/-- A write into segments touches nothing else of the cell. -/
theorem setSegs_segments (l : List Seg) (c : Cell) (v : Nat) :
    c.setSegs l v = { c with
      seg0 := (c.setSegs l v).seg0, seg1 := (c.setSegs l v).seg1, seg2 := (c.setSegs l v).seg2, seg3 := (c.setSegs l v).seg3 } := by
  induction l generalizing c v with
  | nil => rfl
  | cons g l ih =>
    refine (ih (c.setSeg g (v % g.size)) (v / g.size)).trans ?_
    cases g <;> rfl

/-! ### The places of the quantities (R37) -/

theorem places_nodup (m : Mode) (h : Half) (q : Quantity) : (m.places h q).Nodup := by
  cases m <;> cases h <;> cases q <;> decide

/-- Two quantities of a mode share no segment. -/
theorem places_apart (m : Mode) (h : Half) {q r : Quantity} (hne : r ≠ q) : ∀ g ∈ m.places h r, g ∉ m.places h q := by
  revert hne
  cases m <;> cases h <;> cases q <;> cases r <;> decide

/-- The halves of a continuous mode share no segment (R35). -/
theorem places_other (m : Mode) (h : Half) (q r : Quantity) (hm : m.sequential = false) :
    ∀ g ∈ m.places h.other r, g ∉ m.places h q := by
  revert hm
  cases m <;> cases h <;> cases q <;> cases r <;> decide

theorem segsRange_places (m : Mode) (h : Half) (q : Quantity) (hk : m.keeps q = true) :
    segsRange (m.places h q) = m.largest q + 1 := by
  revert hk
  cases m <;> cases h <;> cases q <;> decide

theorem maximum_eq_largest (m : Mode) (q : Quantity) (hk : m.keeps q = true) : m.maximum q = m.largest q := by
  rw [Mode.maximum, segsRange_places m .h0 q hk, Nat.add_sub_cancel]

theorem keeps_iff_carried (m : Mode) (q : Quantity) : m.keeps q = true ↔ q ∈ m.carried := by cases m <;> cases q <;> decide

theorem quantity_le (m : Mode) (h : Half) (q : Quantity) (c : Cell) (hc : c.Ranged) (hk : m.keeps q = true) :
    c.quantity m h q ≤ m.largest q := by
  have lt := segsValue_lt (m.places h q) c hc
  rw [segsRange_places m h q hk] at lt
  exact Nat.le_of_lt_succ lt

/-! ### A counting event (R40, R46 to R48) -/

theorem bump_below (c : Cell) (m : Mode) (h : Half) (q : Quantity) (hk : m.keeps q = true) (room : c.quantity m h q < m.largest q) :
    c.bump m h q = c.setSegs (m.places h q) (c.quantity m h q + 1) := by
  rw [Cell.bump, maximum_eq_largest m q hk, hk, decide_eq_true room, Bool.and_self, if_pos rfl]

theorem bump_full (c : Cell) (m : Mode) (h : Half) (q : Quantity) (hk : m.keeps q = true) (full : m.largest q ≤ c.quantity m h q) :
    c.bump m h q = c := by
  rw [Cell.bump, maximum_eq_largest m q hk, decide_eq_false (Nat.not_lt.2 full), Bool.and_false, if_neg Bool.false_ne_true]

theorem bump_unkept (c : Cell) (m : Mode) (h : Half) (q : Quantity) (hk : m.keeps q = false) : c.bump m h q = c := by
  rw [Cell.bump, hk, Bool.false_and, if_neg Bool.false_ne_true]

/-- A counting event writes the segments of its quantity, or leaves the cell. -/
theorem bump_eq (c : Cell) (m : Mode) (h : Half) (q : Quantity) :
    c.bump m h q = c ∨ c.bump m h q = c.setSegs (m.places h q) (c.quantity m h q + 1) := by
  unfold Cell.bump
  split
  · exact .inr rfl
  · exact .inl rfl

theorem bump_ranged (c : Cell) (m : Mode) (h : Half) (q : Quantity) (hc : c.Ranged) : (c.bump m h q).Ranged := by
  rcases bump_eq c m h q with eq | eq <;> rw [eq]
  · exact hc
  · exact setSegs_ranged _ c _ hc

theorem bump_segments (c : Cell) (m : Mode) (h : Half) (q : Quantity) :
    c.bump m h q = { c with
      seg0 := (c.bump m h q).seg0, seg1 := (c.bump m h q).seg1, seg2 := (c.bump m h q).seg2, seg3 := (c.bump m h q).seg3 } := by
  rcases bump_eq c m h q with eq | eq <;> rw [eq]
  exact setSegs_segments _ c _

/-- A counting event leaves a number in segments that are none of its quantity's. -/
theorem segsValue_bump_apart (c : Cell) (m : Mode) (h : Half) (q : Quantity) (k : List Seg) (apart : ∀ g ∈ k, g ∉ m.places h q) :
    (c.bump m h q).segsValue k = c.segsValue k := by
  rcases bump_eq c m h q with eq | eq <;> rw [eq]
  exact segsValue_setSegs_apart _ k c _ apart

theorem quantity_bump (c : Cell) (m : Mode) (h : Half) (q : Quantity) (hc : c.Ranged) (hk : m.keeps q = true) :
    (c.bump m h q).quantity m h q = min (m.largest q) (c.quantity m h q + 1) := by
  have most := quantity_le m h q c hc hk
  rcases Nat.lt_or_ge (c.quantity m h q) (m.largest q) with room | full
  · rw [bump_below c m h q hk room, Nat.min_eq_right room]
    refine segsValue_setSegs _ c _ (places_nodup m h q) ?_
    rw [segsRange_places m h q hk]
    exact Nat.succ_lt_succ room
  · rw [bump_full c m h q hk full, Nat.le_antisymm most full]
    exact (Nat.min_eq_left (Nat.le_succ _)).symm

/-- Settles O36: a write into the segments of one quantity, which no other quantity of the mode and no other half shares. -/
theorem countingMovesOneQuantityByOne : Obligations.CountingMovesOneQuantityByOne := by
  intro m h q c hc
  refine ⟨bump_ranged c m h q hc, bump_segments c m h q, keeps_iff_carried m q, quantity_bump c m h q hc, bump_unkept c m h q,
    fun r hr => segsValue_bump_apart c m h q _ (places_apart m h hr),
    fun hm r => segsValue_bump_apart c m h q _ (places_other m h q r hm), fun hk => ?_⟩
  refine segsValue_setSegs _ c 0 (places_nodup m h q) ?_
  rw [segsRange_places m h q hk]
  exact Nat.succ_pos _

/-! ### Evaluation (R3, R5, R10, R11) -/

theorem deepMasked_iff (p : Params) (c : Cell) : c.deepMasked p = true ↔ c.DeepMasked p := by
  rw [Cell.deepMasked, Bool.and_eq_true, Cell.DeepMasked]

theorem eligible_iff (p : Params) (i : Nat) (c : Cell) : c.eligible p i = true ↔ c.TakesPart p i := by
  rw [Cell.eligible, Bool.and_eq_true, Bool.not_eq_true', Bool.not_eq_true', Cell.TakesPart, gated]
  rfl

theorem heldHot_iff (p : Params) (pulse : Bool) (i : Nat) (c : Cell) :
    c.heldHot p pulse i = true ↔ pulse = true ∧ p.testPath = .direct ∧ c.PulseDriven p i := by
  rw [Cell.heldHot, Bool.and_eq_true, Bool.and_eq_true, decide_eq_true_eq, pulsed_iff, and_assoc]

theorem evaluate_cold_reaches (p : Params) (h : Half) (pulse : Bool) (i : Nat) (c : Cell) (cold : c.activity = .cold)
    (above : c.effTh p ≤ c.level) (live : ¬ c.DeepMasked p) : evaluate p h pulse i c = turnHot p h i c := by
  have unmasked : c.deepMasked p = false := Bool.eq_false_iff.2 fun m => live ((deepMasked_iff p c).1 m)
  simp only [evaluate, cold, above, unmasked, decide_true, Bool.not_false, Bool.and_self, if_true]

theorem evaluate_cold_stays (p : Params) (h : Half) (pulse : Bool) (i : Nat) (c : Cell) (cold : c.activity = .cold)
    (below : c.level < c.effTh p ∨ c.DeepMasked p) : evaluate p h pulse i c = quietly c := by
  have stays : (decide (c.effTh p ≤ c.level) && !c.deepMasked p) = false := by
    rcases below with below | masked
    · rw [decide_eq_false (Nat.not_le.2 below), Bool.false_and]
    · rw [(deepMasked_iff p c).2 masked, Bool.not_true, Bool.and_false]
  simp only [evaluate, cold, stays, Bool.false_eq_true, if_false]

theorem evaluate_hot_falls (p : Params) (h : Half) (pulse : Bool) (i : Nat) (c : Cell) (hot : c.activity = .hot)
    (below : c.level + p.hysteresis < c.effTh p) (free : ¬ (pulse = true ∧ p.testPath = .direct ∧ c.PulseDriven p i)) :
    evaluate p h pulse i c = turnCold p i c := by
  have unheld : c.heldHot p pulse i = false := Bool.eq_false_iff.2 fun held => free ((heldHot_iff p pulse i c).1 held)
  simp only [evaluate, hot, below, unheld, decide_true, Bool.not_false, Bool.and_self, if_true]

theorem evaluate_hot_stays (p : Params) (h : Half) (pulse : Bool) (i : Nat) (c : Cell) (hot : c.activity = .hot)
    (above : c.effTh p ≤ c.level + p.hysteresis ∨ (pulse = true ∧ p.testPath = .direct ∧ c.PulseDriven p i)) :
    evaluate p h pulse i c = quietly c := by
  have stays : (decide (c.level + p.hysteresis < c.effTh p) && !c.heldHot p pulse i) = false := by
    rcases above with above | held
    · rw [decide_eq_false (Nat.not_lt.2 above), Bool.false_and]
    · rw [(heldHot_iff p pulse i c).2 held, Bool.not_true, Bool.and_false]
  simp only [evaluate, hot, stays, Bool.false_eq_true, if_false]

theorem turnHot_of_takesPart (p : Params) (h : Half) (i : Nat) (c : Cell) (part : c.TakesPart p i) :
    turnHot p h i c =
      { cell := Cell.bump { c with activity := .hot, onsetSeen := true } p.mode h .episodes
        report := !c.onsetSeen, notices := [.becameHot] } := by
  simp only [turnHot, (eligible_iff p i c).2 part, if_true, Bool.true_and]

theorem turnHot_of_not_takesPart (p : Params) (h : Half) (i : Nat) (c : Cell) (part : ¬ c.TakesPart p i) :
    turnHot p h i c = quietly { c with activity := .hot, onsetSeen := true } := by
  have apart : c.eligible p i = false := Bool.eq_false_iff.2 fun e => part ((eligible_iff p i c).1 e)
  simp only [turnHot, apart, Bool.false_and, Bool.false_eq_true, if_false, quietly]

theorem turnCold_of_takesPart (p : Params) (i : Nat) (c : Cell) (part : c.TakesPart p i) :
    turnCold p i c = { cell := { c with activity := .cold, firstDone := true }, report := false, notices := [.becameCold] } := by
  simp only [turnCold, (eligible_iff p i c).2 part, if_true]

theorem turnCold_of_not_takesPart (p : Params) (i : Nat) (c : Cell) (part : ¬ c.TakesPart p i) :
    turnCold p i c = quietly { c with activity := .cold, firstDone := true } := by
  have apart : c.eligible p i = false := Bool.eq_false_iff.2 fun e => part ((eligible_iff p i c).1 e)
  simp only [turnCold, apart, Bool.false_eq_true, if_false, quietly]

theorem effTh_eq (p : Params) (c : Cell) :
    (c.effTh p : Int) = max 1 (min 4095 (p.threshold + (if p.deepMask = true ∧ c.mask = true then 15 else c.trim) * p.trimStep)) := by
  have trim : c.effTrim p = if p.deepMask = true ∧ c.mask = true then 15 else c.trim :=
    if_congr (deepMasked_iff p c) rfl rfl
  rw [Cell.effTh, trim]
  omega

/-- Settles O35: each branch of the evaluation, and what an onset and an episode end send by whether the cell takes part. -/
theorem evaluationFollowsTheDeadBand : Obligations.EvaluationFollowsTheDeadBand := by
  intro p h pulse i c
  exact ⟨effTh_eq p c, evaluate_cold_reaches p h pulse i c, evaluate_cold_stays p h pulse i c, evaluate_hot_falls p h pulse i c,
    evaluate_hot_stays p h pulse i c, turnHot_of_takesPart p h i c, turnHot_of_not_takesPart p h i c,
    turnCold_of_takesPart p i c, turnCold_of_not_takesPart p i c⟩

end Sys2Proof.Machine
end

section
/-! PROOF. Fields of a byte list at their places; the header and the value words (O50); the status snapshot (O10). -/

namespace Sys2Proof.Machine

/-! ### Numbers laid out one behind the other (R189) -/

/-- Numbers with their widths in bytes, one behind the other. -/
def layout (l : List (Nat × Nat)) : List Byte := l.flatMap fun x => beBytes x.1 x.2

theorem beNat_beBytes (n v : Nat) : beNat (beBytes n v) = v % 256 ^ n := by
  induction n generalizing v with
  | zero => rw [Nat.pow_zero, Nat.mod_one]; rfl
  | succ n ih =>
    have byte : (BitVec.ofNat 8 v).toNat = v % 256 := BitVec.toNat_ofNat ..
    rw [beBytes_succ_eq_append, beNat_append_singleton, ih, byte, Nat.pow_succ', Nat.mod_mul, Nat.add_comm]

theorem layout_cons (n v : Nat) (l : List (Nat × Nat)) : layout ((n, v) :: l) = beBytes n v ++ layout l := rfl

/-- The number in front. -/
theorem fieldOf_layout_front (n v : Nat) (l : List (Nat × Nat)) : fieldOf (layout ((n, v) :: l)) 0 n = v % 256 ^ n := by
  rw [fieldOf, List.drop_zero, layout_cons, List.take_left' (length_beBytes n v), beNat_beBytes]

/-- A field behind the number in front. -/
theorem fieldOf_layout_behind (m v i n : Nat) (l : List (Nat × Nat)) (h : m ≤ i) :
    fieldOf (layout ((m, v) :: l)) i n = fieldOf (layout l) (i - m) n := by
  have behind : (beBytes m v ++ layout l).drop i = (layout l).drop (i - m) := by
    rw [List.drop_append, List.drop_of_length_le (by rw [length_beBytes]; exact h), List.nil_append, length_beBytes]
  rw [fieldOf, layout_cons, behind, fieldOf]

theorem length_layout (l : List (Nat × Nat)) : (layout l).length = (l.map Prod.fst).sum := by
  induction l with
  | nil => rfl
  | cons x l ih =>
    obtain ⟨n, v⟩ := x
    rw [layout_cons, List.length_append, length_beBytes, ih, List.map_cons, List.sum_cons]

/-- A byte of a number. -/
theorem ofNat_eq_layout (v : Nat) : [BitVec.ofNat 8 v] = layout [(1, v)] := by simp [layout, beBytes]

theorem layout_append (l k : List (Nat × Nat)) : layout l ++ layout k = layout (l ++ k) := List.flatMap_append.symm

theorem beBytes_eq_layout (n v : Nat) : beBytes n v = layout [(n, v)] := by simp [layout]

/-! ### The header (section 10.4.2) -/

/-- The byte of MODE, DWELL_LAW, ONSET_WRAP and ZERO_SUPPRESS. -/
def modeByte (m : Mode) (law wrap suppress : Bool) : Nat := m.code + 8 * boolCode law + 16 * boolCode wrap + 32 * boolCode suppress

theorem modeByte_bits (m : Mode) : ∀ law wrap suppress : Bool,
    modeByte m law wrap suppress % 8 = m.number ∧ (modeByte m law wrap suppress).testBit 3 = law
      ∧ (modeByte m law wrap suppress).testBit 4 = wrap ∧ (modeByte m law wrap suppress).testBit 5 = suppress
      ∧ modeByte m law wrap suppress < 64 := by
  cases m <;> decide

theorem DwellLaw.code_eq (l : DwellLaw) : l.code = boolCode (decide (l = .first)) := by cases l <;> rfl

/-- The byte of the four flags of a window. -/
def windowFlags (cap exceeded held overflow : Bool) : Nat :=
  boolCode cap + 2 * boolCode exceeded + 4 * boolCode held + 8 * boolCode overflow

theorem windowFlags_bits : ∀ cap exceeded held overflow : Bool,
    (windowFlags cap exceeded held overflow).testBit 0 = cap ∧ (windowFlags cap exceeded held overflow).testBit 1 = exceeded
      ∧ (windowFlags cap exceeded held overflow).testBit 2 = held ∧ (windowFlags cap exceeded held overflow).testBit 3 = overflow
      ∧ windowFlags cap exceeded held overflow < 16 := by
  decide

theorem causes_lt (o : OpenCause) (c : CloseCause) : o.number + 4 * c.number < 256 := by cases o <;> cases c <;> decide

theorem OpenCause.code_eq_number (o : OpenCause) : o.code = o.number := by cases o <;> rfl

theorem CloseCause.code_eq_number (c : CloseCause) : c.code = c.number := by cases c <;> rfl

/-- The header as numbers one behind the other. -/
def Frame.headerLayout (f : Frame) : List (Nat × Nat) :=
  [(1, 0xC3), (4, f.unit), (4, f.desc.frameNumber),
   (1, modeByte f.desc.mode (decide (f.desc.dwellLaw = .first)) f.desc.onsetWrap f.suppress),
   (1, f.desc.openCause.number + 4 * f.desc.closeCause.number), (3, f.desc.windowLength), (2, f.desc.settleLength), (2, f.desc.shed),
   (2, f.desc.released), (2, f.desc.truncated), (2, f.desc.peak),
   (1, windowFlags f.desc.settleCap f.desc.exceeded f.desc.heldBefore f.desc.overflow),
   (1, f.desc.testPulses), (1, f.desc.discardedBefore), (1, f.desc.onsets.length)]

theorem headerBytes_eq_layout (f : Frame) : f.headerBytes = layout f.headerLayout := by
  simp only [Frame.headerBytes, Frame.headerLayout, modeByte, windowFlags, DwellLaw.code_eq, OpenCause.code_eq_number,
    CloseCause.code_eq_number, layout, List.flatMap_cons, List.flatMap_nil, beBytes, Nat.pow_zero, Nat.div_one, List.append_nil,
    List.cons_append, List.nil_append]

theorem length_headerBytes (f : Frame) : f.headerBytes.length = 28 := by
  rw [headerBytes_eq_layout, length_layout]
  rfl

/-! ### The value word (R193) -/

/-- Two numbers side by side in one word are read back from it, and the word is 0 exactly when both are. -/
theorem word_parts (k a b : Nat) (hb : b < k) : (a * k + b) / k = a ∧ (a * k + b) % k = b ∧ (a * k + b = 0 ↔ a = 0 ∧ b = 0) := by
  have pos : 0 < k := Nat.zero_lt_of_lt hb
  refine ⟨?_, ?_, ?_⟩
  · rw [Nat.mul_comm, Nat.mul_add_div pos, Nat.div_eq_of_lt hb, Nat.add_zero]
  · rw [Nat.mul_comm, Nat.mul_add_mod, Nat.mod_eq_of_lt hb]
  · rw [Nat.add_eq_zero_iff, Nat.mul_eq_zero, or_iff_left pos.ne']

/-- What O50 says of the value word of a cell. -/
def WordHolds (m : Mode) (h : Half) (c : Cell) : Prop :=
  let v := valueWord m h c
  (m.sequential = true → v < 2 ^ 32) ∧ (m.sequential = false → v < 2 ^ 16)
    ∧ (v = 0 ↔ ∀ q ∈ m.carried, c.quantity m h q = 0)
    ∧ (m = .seqDw12On20 → v / 2 ^ 20 = c.quantity m h .dwell ∧ v % 2 ^ 20 = c.quantity m h .onset)
    ∧ (m = .seqDw16On16 → v / 2 ^ 16 = c.quantity m h .dwell ∧ v % 2 ^ 16 = c.quantity m h .onset)
    ∧ (m = .conDw12Ep4 → v / 2 ^ 4 = c.quantity m h .dwell ∧ v % 2 ^ 4 = c.quantity m h .episodes)
    ∧ (∀ q, m.carried = [q] → v = c.quantity m h q)

/-- A mode that carries one quantity: the word is that quantity. -/
theorem wordHolds_single (m : Mode) (h : Half) (c : Cell) (q : Quantity) (hc : c.Ranged) (carried : m.carried = [q])
    (word : valueWord m h c = c.quantity m h q) (largest : m.largest q < if m.sequential = true then 2 ^ 32 else 2 ^ 16) :
    WordHolds m h c := by
  have most := quantity_le m h q c hc ((keeps_iff_carried m q).2 (by rw [carried]; exact List.mem_singleton_self q))
  have other (k : Mode) (hk : k.carried.length = 2) : m ≠ k := by
    rintro rfl
    rw [carried] at hk
    cases hk
  refine ⟨fun seq => ?_, fun con => ?_, ?_, fun h => absurd h (other _ rfl), fun h => absurd h (other _ rfl),
    fun h => absurd h (other _ rfl), fun r hr => ?_⟩
  · rw [if_pos seq] at largest
    exact word ▸ Nat.lt_of_le_of_lt most largest
  · rw [if_neg (by rw [con]; exact Bool.false_ne_true)] at largest
    exact word ▸ Nat.lt_of_le_of_lt most largest
  · rw [word, carried, List.forall_mem_singleton]
  · rw [carried, List.singleton_inj] at hr
    rw [word, hr]

theorem wordHolds (m : Mode) (h : Half) (c : Cell) (hc : c.Ranged) : WordHolds m h c := by
  have most (q : Quantity) (hk : m.keeps q = true) := quantity_le m h q c hc hk
  match m with
  | .seqDw12On20 =>
    have d : c.quantity .seqDw12On20 h .dwell ≤ 4095 := most .dwell rfl
    have o : c.quantity .seqDw12On20 h .onset ≤ 1048575 := most .onset rfl
    obtain ⟨high, low, zero⟩ := word_parts (2 ^ 20) (c.quantity .seqDw12On20 h .dwell) (c.quantity .seqDw12On20 h .onset) (by omega)
    have two (q : Quantity) (one : [Quantity.dwell, .onset] = [q]) : False := (List.cons_ne_nil _ _ (List.cons.inj one).2)
    refine ⟨fun _ => ?_, fun h => (nomatch h), ?_, fun _ => ⟨high, low⟩, (nomatch ·), (nomatch ·), fun q one => (two q one).elim⟩
    · rw [valueWord]
      omega
    · rw [valueWord, zero, Mode.carried, List.forall_mem_cons, List.forall_mem_singleton]
  | .seqDw16On16 =>
    have d : c.quantity .seqDw16On16 h .dwell ≤ 65535 := most .dwell rfl
    have o : c.quantity .seqDw16On16 h .onset ≤ 65535 := most .onset rfl
    obtain ⟨high, low, zero⟩ := word_parts (2 ^ 16) (c.quantity .seqDw16On16 h .dwell) (c.quantity .seqDw16On16 h .onset) (by omega)
    have two (q : Quantity) (one : [Quantity.dwell, .onset] = [q]) : False := (List.cons_ne_nil _ _ (List.cons.inj one).2)
    refine ⟨fun _ => ?_, fun h => (nomatch h), ?_, (nomatch ·), fun _ => ⟨high, low⟩, (nomatch ·), fun q one => (two q one).elim⟩
    · rw [valueWord]
      omega
    · rw [valueWord, zero, Mode.carried, List.forall_mem_cons, List.forall_mem_singleton]
  | .conDw12Ep4 =>
    have d : c.quantity .conDw12Ep4 h .dwell ≤ 4095 := most .dwell rfl
    have e : c.quantity .conDw12Ep4 h .episodes ≤ 15 := most .episodes rfl
    obtain ⟨high, low, zero⟩ := word_parts (2 ^ 4) (c.quantity .conDw12Ep4 h .dwell) (c.quantity .conDw12Ep4 h .episodes) (by omega)
    have two (q : Quantity) (one : [Quantity.dwell, .episodes] = [q]) : False := (List.cons_ne_nil _ _ (List.cons.inj one).2)
    refine ⟨fun h => (nomatch h), fun _ => ?_, ?_, (nomatch ·), (nomatch ·), fun _ => ⟨high, low⟩, fun q one => (two q one).elim⟩
    · rw [valueWord]
      omega
    · rw [valueWord, zero, Mode.carried, List.forall_mem_cons, List.forall_mem_singleton]
  | .seqAc32 => exact wordHolds_single .seqAc32 h c .accesses hc rfl rfl (by decide)
  | .conDw16 => exact wordHolds_single .conDw16 h c .dwell hc rfl rfl (by decide)
  | .conOn16 => exact wordHolds_single .conOn16 h c .onset hc rfl rfl (by decide)
  | .conEp16 => exact wordHolds_single .conEp16 h c .episodes hc rfl rfl (by decide)
  | .conAc16 => exact wordHolds_single .conAc16 h c .accesses hc rfl rfl (by decide)

/-- Settles O50: the header by its layout, the value word by its mode. -/
theorem frameFieldsCarryTheWindow : Obligations.FrameFieldsCarryTheWindow := by
  refine ⟨fun f => ?_, wordHolds⟩
  obtain ⟨mode, law, wrap, suppress, small⟩ :=
    modeByte_bits f.desc.mode (decide (f.desc.dwellLaw = .first)) f.desc.onsetWrap f.suppress
  obtain ⟨cap, exceeded, held, overflow, low⟩ :=
    windowFlags_bits f.desc.settleCap f.desc.exceeded f.desc.heldBefore f.desc.overflow
  have modes : modeByte f.desc.mode (decide (f.desc.dwellLaw = .first)) f.desc.onsetWrap f.suppress % 256 =
      modeByte f.desc.mode (decide (f.desc.dwellLaw = .first)) f.desc.onsetWrap f.suppress := Nat.mod_eq_of_lt (by omega)
  have flags : windowFlags f.desc.settleCap f.desc.exceeded f.desc.heldBefore f.desc.overflow % 256 =
      windowFlags f.desc.settleCap f.desc.exceeded f.desc.heldBefore f.desc.overflow := Nat.mod_eq_of_lt (by omega)
  have causes := Nat.mod_eq_of_lt (causes_lt f.desc.openCause f.desc.closeCause)
  refine ⟨length_headerBytes f, ?_⟩
  simp only [headerBytes_eq_layout, Frame.headerLayout, fieldOf_layout_behind, fieldOf_layout_front, Nat.reduceLeDiff, Nat.reduceSub,
    Nat.reducePow, modes, flags, causes, mode, law, wrap, suppress, small, cap, exceeded, held, overflow, low, Nat.reduceMod, and_self]

/-! ### The status snapshot (R185, section 10.2.4) -/

/-- The first byte of the snapshot. -/
def stateByte (c : CtlState) (sending active half1 frozen cycle : Bool) : Nat :=
  c.code + 4 * boolCode sending + 8 * boolCode active + 16 * boolCode half1 + 32 * boolCode frozen + 64 * boolCode cycle

theorem stateByte_bits (c : CtlState) : ∀ sending active half1 frozen cycle : Bool,
    stateByte c sending active half1 frozen cycle < 256 ∧ stateByte c sending active half1 frozen cycle % 4 = c.number
      ∧ (stateByte c sending active half1 frozen cycle).testBit 2 = sending
      ∧ (stateByte c sending active half1 frozen cycle).testBit 3 = active
      ∧ (stateByte c sending active half1 frozen cycle).testBit 4 = half1
      ∧ (stateByte c sending active half1 frozen cycle).testBit 5 = frozen
      ∧ (stateByte c sending active half1 frozen cycle).testBit 6 = cycle
      ∧ (stateByte c sending active half1 frozen cycle).testBit 7 = false := by
  cases c <;> decide

theorem Half.code_eq (h : Half) : h.code = boolCode (decide (h = .h1)) := by cases h <;> rfl

/-- The byte of the configuration operation. -/
def operationByte (e : CellEngine) : Nat :=
  (match e.op with | .idle => 0 | .loading _ _ _ => 1 | .reading _ _ => 2) + (if e.result.valid then 4 else 0)

theorem operationByte_eq (e : CellEngine) : e.op.code + 4 * boolCode e.result.valid = operationByte e := by
  cases h : e.op <;> cases v : e.result.valid <;> simp [operationByte, CfgOp.code, boolCode, h, v]

theorem operationByte_lt (e : CellEngine) : operationByte e < 256 := by
  cases h : e.op <;> cases v : e.result.valid <;> simp [operationByte, h, v]

/-- The last refusal as a number of two bytes; 0 where there is none (R162). -/
def refusalNumber : Option LastRefusal → Nat
  | some r => 256 * r.code.toNat + r.status.number
  | none => 0

theorem Status.code_eq (st : Status) : st.code = BitVec.ofNat 8 st.number := by cases st <;> rfl

theorem Status.number_lt (st : Status) : st.number < 256 := by cases st <;> decide

/-- The two bytes of the last refusal. -/
theorem beBytes_refusalNumber (r : LastRefusal) : beBytes 2 (refusalNumber (some r)) = [r.code, r.status.code] := by
  have small := r.status.number_lt
  have high : (256 * r.code.toNat + r.status.number) / 256 = r.code.toNat := by omega
  have low : BitVec.ofNat 8 (256 * r.code.toNat + r.status.number) = BitVec.ofNat 8 r.status.number := by
    apply BitVec.eq_of_toNat_eq
    rw [BitVec.toNat_ofNat, BitVec.toNat_ofNat]
    omega
  simp only [refusalNumber, beBytes_two, high, low, BitVec.ofNat_toNat, BitVec.setWidth_eq, Status.code_eq]

theorem refusalNumber_lt (l : Option LastRefusal) : refusalNumber l < 65536 := by
  cases l with
  | none => decide
  | some r =>
    have small := r.status.number_lt
    have code := r.code.isLt
    rw [refusalNumber]
    omega

/-- The snapshot as numbers one behind the other. -/
def snapshotLayout (s : State) : List (Nat × Nat) :=
  [(1, stateByte s.ctl.state s.readout.frame.isSome (decide (s.tpg ≠ .idle)) (decide (s.ctl.liveHalf = .h1)) s.ctl.frozen.isSome
      s.ctl.cycleOn),
   (1, operationByte s.engine), (2, s.occ.current), (1, s.attn.toNat), (4, s.ctl.nextFrame), (4, s.readout.emitted),
   (4, s.ctl.discardedTotal), (2, s.ctl.missedOpens), (2, s.ctl.cyclesLeft), (2, refusalNumber s.port.lastRefusal),
   (2, (s.ctl.desc.map Descriptor.shed).getD 0), (2, (s.ctl.desc.map Descriptor.released).getD 0)]

theorem snapshot_eq_layout (s : State) : snapshot s = layout (snapshotLayout s) := by
  have byte : [s.attn] = beBytes 1 s.attn.toNat := by simp [beBytes]
  have one (v : Nat) : beBytes 1 v = [BitVec.ofNat 8 v] := by simp [beBytes]
  cases last : s.port.lastRefusal with
  | none =>
    have refusal : [0x00#8, 0x00#8] = beBytes 2 (refusalNumber none) := rfl
    simp only [snapshot, last, refusal, byte, operationByte_eq, Half.code_eq, snapshotLayout, layout, List.flatMap_cons,
      List.flatMap_nil, one, stateByte, State.pulse, List.append_nil, List.append_assoc, List.cons_append, List.nil_append]
  | some r =>
    simp only [snapshot, last, ← beBytes_refusalNumber, byte, operationByte_eq, Half.code_eq, snapshotLayout, layout,
      List.flatMap_cons, List.flatMap_nil, one, stateByte, State.pulse, List.append_nil, List.append_assoc, List.cons_append,
      List.nil_append]

theorem snapshot_holds (s : State) : SnapshotOf s (snapshot s) := by
  obtain ⟨small, number, sending, active, half1, frozen, cycle, top⟩ := stateByte_bits s.ctl.state s.readout.frame.isSome
    (decide (s.tpg ≠ .idle)) (decide (s.ctl.liveHalf = .h1)) s.ctl.frozen.isSome s.ctl.cycleOn
  have first : fieldOf (snapshot s) 0 1 = stateByte s.ctl.state s.readout.frame.isSome (decide (s.tpg ≠ .idle))
      (decide (s.ctl.liveHalf = .h1)) s.ctl.frozen.isSome s.ctl.cycleOn := by
    rw [snapshot_eq_layout, snapshotLayout, fieldOf_layout_front]
    exact Nat.mod_eq_of_lt small
  have second : fieldOf (snapshot s) 1 1 = operationByte s.engine := by
    simp only [snapshot_eq_layout, snapshotLayout, fieldOf_layout_behind, fieldOf_layout_front, Nat.reduceLeDiff, Nat.reduceSub]
    exact Nat.mod_eq_of_lt (operationByte_lt s.engine)
  have causes : fieldOf (snapshot s) 4 1 = s.attn.toNat := by
    simp only [snapshot_eq_layout, snapshotLayout, fieldOf_layout_behind, fieldOf_layout_front, Nat.reduceLeDiff, Nat.reduceSub]
    exact Nat.mod_eq_of_lt s.attn.isLt
  have refusal : fieldOf (snapshot s) 21 2 = refusalNumber s.port.lastRefusal := by
    simp only [snapshot_eq_layout, snapshotLayout, fieldOf_layout_behind, fieldOf_layout_front, Nat.reduceLeDiff, Nat.reduceSub]
    exact Nat.mod_eq_of_lt (refusalNumber_lt _)
  have counts : fieldOf (snapshot s) 23 2 = (s.ctl.desc.map Descriptor.shed).getD 0 % 2 ^ 16
      ∧ fieldOf (snapshot s) 25 2 = (s.ctl.desc.map Descriptor.released).getD 0 % 2 ^ 16 := by
    simp only [snapshot_eq_layout, snapshotLayout, fieldOf_layout_behind, fieldOf_layout_front, Nat.reduceLeDiff, Nat.reduceSub,
      Nat.reducePow, and_self]
  constructor
  case length =>
    rw [snapshot_eq_layout, length_layout]
    rfl
  case ctlState => rw [first, number]
  case readout => rw [first, sending]
  case generator => rw [first, active]
  case liveHalf => rw [first, half1]
  case frozen => rw [first, frozen]
  case cycleOn => rw [first, cycle]
  case bit7 => rw [first, top]
  case configuration => exact second
  case pending => exact causes
  case noRefusal =>
    intro none
    rw [refusal, none, refusalNumber]
  case lastRefusal =>
    intro r last
    rw [refusal, last, refusalNumber]
  case noDescriptor =>
    intro none
    rw [counts.1, counts.2, none]
    exact ⟨rfl, rfl⟩
  case descriptor =>
    intro d inProgress
    rw [counts.1, counts.2, inProgress]
    exact ⟨rfl, rfl⟩
  all_goals
    simp only [snapshot_eq_layout, snapshotLayout, fieldOf_layout_behind, fieldOf_layout_front, Nat.reduceLeDiff, Nat.reduceSub,
      Nat.reducePow]

theorem exec_getStatus (args : List Byte) (s : State) :
    exec (.getStatus args) s = .next (takeCommand 0x02 args (answerGetStatus args) s) := rfl

/-- The snapshot reads of the port the last refusal alone. -/
theorem snapshot_withPort (s : State) (p : Port) (same : p.lastRefusal = s.port.lastRefusal) :
    snapshot (s.withPort p) = snapshot s := by
  simp only [snapshot_eq_layout, snapshotLayout, withPort_port, withPort_ctl, withPort_readout, withPort_tpg, withPort_engine,
    withPort_occ, withPort_attn, same] <;> rfl

theorem receiveRequest_lastRefusal (code : Byte) (args : List Byte) (s : State) (receiving : s.port.decoder = .receiving)
    (short : args.length ≤ 255) : (receiveRequest code args (requestCheck code args) s).port.lastRefusal = s.port.lastRefusal := by
  rw [receiveRequest_port code args _ s receiving short]

theorem eventBehind_eq (s : State) :
    eventBehind s = s.pending.head?.bind fun c => (eventEffect c { s with free := s.free + 1 }).map fun t => (c, t) := by
  unfold eventBehind
  cases s.pending <;> rfl

/-- With no event directly behind the request the fields are those at the take (R185). -/
theorem exec_getStatus_alone (s : State) (receiving : s.port.decoder = .receiving)
    (alone : ∀ c, s.pending.head? = some c → ¬ IsEvent c s) : exec (.getStatus []) s = .next (s.answered 0x02 [] .ok (snapshot s)) := by
  have none (p : Port) : eventBehind (s.withPort p) = none := by
    rw [eventBehind_eq, withPort_pending]
    cases head : s.pending.head? with
    | none => rfl
    | some c =>
      have effect := eventEffect_withPort c { s with free := s.free + 1 } p head
      rw [eventEffect_none c { s with free := s.free + 1 } (alone c head)] at effect
      exact congrArg (Option.map fun t => (c, t)) effect
  rw [exec_getStatus, takeCommand_ok 0x02 [] _ s s (snapshot s) receiving (Nat.zero_le _) ?_ rfl]
  rw [receiveRequest_withPort]
  simp only [answerGetStatus, noArgs, ne_eq, not_true_eq_false, if_false, none, withPort_port,
    snapshot_withPort s _ (receiveRequest_lastRefusal 0x02 [] s receiving (Nat.zero_le _))]

/-- With an event directly behind the request the fields are those of a reading amid it (R186). -/
theorem exec_getStatus_amid (s t : State) (c : Instr) (receiving : s.port.decoder = .receiving) (behind : s.pending.head? = some c)
    (event : IsEvent c s) (row : exec c { s with free := s.free + 1 } = .next t) :
    exec (.getStatus []) s =
      .next (({ s with free := s.free + 1 } : State).answered 0x02 [] .ok (snapshot (amid s.free c { s with free := s.free + 1 } t))) := by
  have found := amid_found s.free c { s with free := s.free + 1 } t behind row
  have effect (p : Port) : eventBehind (s.withPort p) = some (c, t.withPort p) := by
    obtain ⟨u, effect, same⟩ := eventEffect_exec c { s with free := s.free + 1 } event
    obtain rfl : u = t := Host.Outcome.next.inj (same.symm.trans row)
    have moved := (eventEffect_withPort c { s with free := s.free + 1 } p behind).trans (congrArg _ effect)
    rw [eventBehind_eq, withPort_pending, behind]
    exact congrArg (Option.map fun t => (c, t)) moved
  rw [exec_getStatus, takeCommand_ok 0x02 [] _ s { s with free := s.free + 1 }
    (snapshot (amid s.free c { s with free := s.free + 1 } t)) receiving (Nat.zero_le _) ?_ rfl]
  have refusal := receiveRequest_lastRefusal 0x02 [] s receiving (Nat.zero_le _)
  rw [receiveRequest_withPort]
  have read (p : Port) (same : p.lastRefusal = s.port.lastRefusal) :
      snapshot (amid s.free c (({ s with free := s.free + 1 } : State).withPort p) (t.withPort p)) =
        snapshot (amid s.free c { s with free := s.free + 1 } t) := by
    rw [amid_withPort s.free c { s with free := s.free + 1 } t p p behind]
    exact snapshot_withPort _ p (same.trans (by rw [found.port]))
  have answer (p : Port) (same : p.lastRefusal = s.port.lastRefusal) : answerGetStatus [] (s.withPort p) =
      .ok (({ s with free := s.free + 1 } : State).withPort p, snapshot (amid s.free c { s with free := s.free + 1 } t)) := by
    rw [← read p same]
    simp only [answerGetStatus, noArgs, ne_eq, not_true_eq_false, if_false, effect] <;> rfl
  exact answer _ refusal

theorem answerGetStatus_badLength (args : List Byte) (bare : args ≠ []) (s : State) : answerGetStatus args s = .error .badLength := by
  rw [answerGetStatus, noArgs, if_pos bare]

/-- Settles O10: the snapshot by its layout, at the take or amid the event directly behind it. -/
theorem getStatusReportsEveryField : Obligations.GetStatusReportsEveryField := by
  intro s receiving
  refine ⟨fun args bare short => ?_, fun alone => ⟨_, exec_getStatus_alone s receiving alone, snapshot_holds s⟩,
    fun c behind event => ?_⟩
  · rw [exec_getStatus, takeCommand_badLength 0x02 args _ s receiving short (answerGetStatus_badLength args bare)]
  · obtain ⟨t, -, row⟩ := eventEffect_exec c { s with free := s.free + 1 } event
    exact ⟨t, _, _, row, amid_found s.free c { s with free := s.free + 1 } t behind row, snapshot_holds _,
      exec_getStatus_amid s t c receiving behind event row⟩

end Sys2Proof.Machine
end

section
/-! PROOF. The delivery of one byte of a frame, and readout complete (O47, O48). -/

namespace Sys2Proof.Machine

/-! ### The period of a delivery (R127) -/

theorem exec_frameByteDelivery (s : State) : exec .frameByteDelivery s = .next (deliverByte s) := rfl

/-- An expiry of the settle cap that waits is taken without a tick (R88, log 5). -/
theorem exec_settleCapExpiry_waits (s : State) (waits : s.CapWaits) : exec .settleCapExpiry s = .next (capExpiry s) := by
  have due := (capDue_iff s).2 waits
  have row : exec .settleCapExpiry s = .next (capExpiry (if s.capHit && !s.capDue then dwellTick s else s)) := rfl
  rw [row, due, Bool.not_true, Bool.and_false, if_neg Bool.false_ne_true]

theorem capExpiry_of_not_waits (s : State) (waits : ¬ s.CapWaits) : capExpiry s = s :=
  if_neg fun due => waits ((capDue_iff s).1 due)

theorem tbclkPeriod_fstb (s : State) : (tbclkPeriod s).pins.fstb = false := by rw [tbclkPeriod_port]

theorem periodOfDelivery_rested (s : State) (rested : s.pins.fstb = false) : periodOfDelivery s = s := by
  rw [periodOfDelivery, rested, if_neg Bool.false_ne_true]

theorem periodOfDelivery_delivered (s : State) (had : s.pins.fstb = true) :
    periodOfDelivery s = { tbclkPeriod (capExpiry { s with pending := [] }) with pending := s.pending } := by
  rw [periodOfDelivery, if_pos had]

/-- After the period that had its byte the delivery is that of the state then reached. -/
theorem deliverByte_after_period (s : State) : deliverByte (periodOfDelivery s) = deliverByte s := by
  have rested : periodOfDelivery (periodOfDelivery s) = periodOfDelivery s := by
    cases had : s.pins.fstb with
    | false => rw [periodOfDelivery_rested s had, periodOfDelivery_rested s had]
    | true =>
      refine periodOfDelivery_rested _ ?_
      rw [periodOfDelivery_delivered s had]
      exact tbclkPeriod_fstb _
  simp only [deliverByte, rested]

theorem deliverByte_idle (s : State) (rested : s.pins.fstb = false) (none : s.readout.frame = none) : deliverByte s = s := by
  simp only [deliverByte, periodOfDelivery_rested s rested, none]

theorem deliverByte_sending (s : State) (f : Frame) (rested : s.pins.fstb = false) (sending : s.readout.frame = some f) :
    deliverByte s = deliver (decideKind s f) s := by
  simp only [deliverByte, periodOfDelivery_rested s rested, sending]

/-! ### One byte (R126, R127) -/

theorem decideKind_eq (s : State) (f : Frame) : decideKind s f = { f with kind := (decideKind s f).kind } := by
  unfold decideKind
  split <;> rfl

theorem decideKind_position (s : State) (f : Frame) : (decideKind s f).position = f.position := by rw [decideKind_eq]

theorem entersCrc_iff (f : Frame) : f.entersCrc = true ↔ ∀ k, f.position = .trailer k → k < 6 := by
  unfold Frame.entersCrc
  split
  · rename_i k at_k
    rw [decide_eq_true_eq, at_k]
    exact ⟨fun small j same => Position.trailer.inj same ▸ small, fun all => all k rfl⟩
  · rename_i elsewhere
    exact ⟨fun _ k at_k => (elsewhere k at_k).elim, fun _ => rfl⟩

/-- The state after a byte, before the counters of an emitted bank are cleared. -/
def State.sentByte (s : State) (f : Frame) (p : Position) : State := { s with
  pins := { s.pins with fd := nextByte s (decideKind s f), fstb := true, fsof := decide (f.byteCount = 0) }
  readout := { s.readout with frame := some { decideKind s f with
    position := p
    byteCount := f.byteCount + 1
    crc := match f.position with
      | .trailer k => if k < 6 then crc32Byte f.crc (nextByte s (decideKind s f)) else f.crc
      | _ => crc32Byte f.crc (nextByte s (decideKind s f)) } } }

/-- The running CRC after a byte, by the position of the byte (R127, R130). -/
theorem sent_crc (f : Frame) (b : Byte) :
    (f.sent b).crc = match f.position with
      | .trailer k => if k < 6 then crc32Byte f.crc b else f.crc
      | _ => crc32Byte f.crc b := by
  unfold Frame.sent Frame.entersCrc
  cases f.position with
  | trailer k => simp only [decide_eq_true_eq]
  | _ => rfl

theorem frameTo_sent (s : State) (f : Frame) (p : Position) :
    frameTo ((decideKind s f).sent (nextByte s (decideKind s f))) p (drivePort (decideKind s f) (nextByte s (decideKind s f)) s) =
      s.sentByte f p := by
  have crc := sent_crc (decideKind s f) (nextByte s (decideKind s f))
  have kept : (decideKind s f).crc = f.crc ∧ (decideKind s f).byteCount = f.byteCount := by
    rw [decideKind_eq]
    exact ⟨rfl, rfl⟩
  rw [decideKind_position, kept.1] at crc
  unfold frameTo drivePort State.sentByte
  rw [← crc, kept.2]
  unfold Frame.sent
  rw [kept.2]

theorem deliver_goOn (s : State) (f : Frame) (p : Position) (next : (decideKind s f).advance = .goOn p) :
    deliver (decideKind s f) s = s.sentByte f p := by
  simp only [deliver, next, frameTo_sent]

theorem deliver_emit (s : State) (f : Frame) (b : Nat) (p : Position) (next : (decideKind s f).advance = .emit b p) :
    deliver (decideKind s f) s = clearBanks (fun n => decide (n = b)) (s.sentByte f p) := by
  simp only [deliver, next, frameTo_sent]

theorem deliver_complete (s : State) (f : Frame) (next : (decideKind s f).advance = .complete) :
    deliver (decideKind s f) s =
      readoutComplete (drivePort (decideKind s f) (nextByte s (decideKind s f)) s) := by
  simp only [deliver, next]

/-- The clearing of one bank, cell by cell (R125). -/
theorem getElem?_clear_one (b : Nat) (s : State) (i : Nat) (c : Cell) (hc : s.cells[i]? = some c) :
    (clearBanks (fun n => decide (n = b)) s).cells[i]? = some (
      match s.ctl.frozen with
      | some z => if i / 64 = b then c.clearFrozen z else c
      | none => c) := by
  cases frozen : s.ctl.frozen with
  | none => rw [clearBanks_unfrozen _ s frozen, hc]
  | some z =>
    rw [getElem?_cells_clearBanks _ s z frozen, hc, Option.map_some]
    simp only [decide_eq_true_eq]

/-- Settles O47: the period first where it has had its byte; then the byte, by what follows it. -/
theorem frameByteDeliverySendsTheNextByte : Obligations.FrameByteDeliverySendsTheNextByte := by
  intro s
  refine ⟨fun had => ?_, fun rested none => ?_, fun f rested sending => ⟨fun p next => ?_, fun b p next => ?_⟩⟩
  · refine ⟨capExpiry { s with pending := [] }, fun waits => exec_settleCapExpiry_waits _ waits,
      fun waits => capExpiry_of_not_waits _ waits, tbclkPeriod_fstb _, ?_⟩
    rw [exec_frameByteDelivery, exec_frameByteDelivery, ← periodOfDelivery_delivered s had, deliverByte_after_period]
  · rw [exec_frameByteDelivery, deliverByte_idle s rested none]
  · rw [exec_frameByteDelivery, deliverByte_sending s f rested sending]
    exact congrArg _ (deliver_goOn s f p next)
  · rw [exec_frameByteDelivery, deliverByte_sending s f rested sending]
    have emitted := deliver_emit s f b p next
    exact ⟨_, congrArg _ emitted, clearBanks_frame _ (s.sentByte f p), length_cells_clearBanks _ (s.sentByte f p),
      getElem?_clear_one b (s.sentByte f p)⟩

/-! ### Readout complete (R109, R131) -/

/-- The last byte of the trailer is the lowest of the CRC (R129). -/
theorem nextByte_last (s : State) (f : Frame) (last : f.position = .trailer 9) :
    nextByte s f = BitVec.ofNat 8 ((~~~ f.crc).toNat % 256) := by
  have byte : BitVec.ofNat 8 (~~~ f.crc).toNat = BitVec.ofNat 8 ((~~~ f.crc).toNat % 256) := by
    apply BitVec.eq_of_toNat_eq
    rw [BitVec.toNat_ofNat, BitVec.toNat_ofNat, Nat.mod_mod]
  rw [← byte, nextByte, last]
  simp [Frame.trailerBytes, beBytes]

/-- The state in which a frame's last byte has left and the engine has told of the completion. -/
def State.completed (s : State) (f : Frame) : State := State.sets { s with
  pins := { s.pins with fd := BitVec.ofNat 8 ((~~~ f.crc).toNat % 256), fstb := true, fsof := decide (f.byteCount = 0) }
  readout := { frame := none, emitted := (s.readout.emitted + 1) % 2 ^ 32 } } 0x01

/-- The completed frame leaves the engine, and FRAME_DONE is set (R131). -/
theorem readoutComplete_eq (s : State) : readoutComplete s =
    readoutNotice (State.sets { s with readout := { frame := none, emitted := (s.readout.emitted + 1) % 2 ^ 32 } } 0x01) := by
  rw [readoutComplete, raiseCause_eq]
  rfl

theorem readoutNotice_elsewhere (s : State) (state : s.ctl.state ≠ .held) :
    readoutNotice s = { s with ctl := { s.ctl with frozen := none } } := by
  rw [readoutNotice, if_neg state]

theorem readoutNotice_dealt (s : State) (held : s.ctl.state = .held) (alone : s.ctl.waiting = none) :
    readoutNotice s = dealtWith { s with ctl := { s.ctl with frozen := none } } := by
  simp only [readoutNotice, if_pos held, alone]

theorem readoutNotice_swap (s : State) (d : Descriptor) (held : s.ctl.state = .held) (waits : s.ctl.waiting = some d) :
    readoutNotice s = swap d { s with ctl := { s.ctl with frozen := none } } := by
  simp only [readoutNotice, if_pos held, waits]

/-- Settles O48: the delivery of the last byte, and the notice by the controller's state. -/
theorem readoutCompleteReleasesTheStorage : Obligations.ReadoutCompleteReleasesTheStorage := by
  intro f s rested sending last
  have kind : decideKind s f = f := by rw [decideKind, last]
  have ends : f.advance = .complete := by
    rw [Frame.advance, last]
    rfl
  have row : exec .frameByteDelivery s = .next (readoutNotice (s.completed f)) := by
    rw [exec_frameByteDelivery, deliverByte_sending s f rested sending, deliver_complete s f (by rw [kind, ends]), kind,
      readoutComplete_eq, nextByte_last s f last]
    rfl
  refine ⟨fun state => ?_, fun held alone => ?_, fun d held waits => ?_⟩
  · rw [row, readoutNotice_elsewhere (s.completed f) state]
    rfl
  · rw [row, readoutNotice_dealt (s.completed f) held alone]
    rfl
  · rw [row, readoutNotice_swap (s.completed f) d held waits]
    rfl

end Sys2Proof.Machine
end

section
/-! PROOF. The settle cap and truncation (O31), the onset tick and the window timer (O30), the application of a record (O37), the aux
lines (O40). -/

namespace Sys2Proof.Machine

/-! ### Truncation (R88, R89) -/

/-- Truncated cells in the descriptor: their number, and bank by bank. -/
theorem foldl_truncate (l : List Nat) (d : Descriptor) :
    l.foldl Descriptor.truncate d = { d with
        truncated := d.truncated + l.length, bankTruncated := (l.foldl Descriptor.truncate d).bankTruncated }
      ∧ (l.foldl Descriptor.truncate d).bankTruncated.length = d.bankTruncated.length
      ∧ ∀ b n, d.bankTruncated[b]? = some n →
          (l.foldl Descriptor.truncate d).bankTruncated[b]? = some (n + (l.filter fun i => i / 64 == b).length) := by
  induction l generalizing d with
  | nil => exact ⟨rfl, rfl, fun _ _ h => h⟩
  | cons i l ih =>
    obtain ⟨kept, length, banks⟩ := ih (d.truncate i)
    rw [List.foldl_cons]
    refine ⟨?_, length.trans (List.length_modify ..), fun b n hn => ?_⟩
    · rw [List.length_cons, Nat.add_comm l.length, ← Nat.add_assoc]
      exact kept
    · have one : (d.truncate i).bankTruncated[b]? = some (if i / 64 = b then n + 1 else n) := by
        have modified : (d.truncate i).bankTruncated[b]? = (fun a => if i / 64 = b then a + 1 else a) <$> d.bankTruncated[b]? :=
          List.getElem?_modify ..
        rw [modified, hn]
        rfl
      rw [banks b _ one]
      by_cases here : i / 64 = b
      · rw [if_pos here, List.filter_cons_of_pos (by simpa using here), List.length_cons]
        exact congrArg some (by omega)
      · rw [if_neg here, List.filter_cons_of_neg (by simpa using here)]

theorem truncateAtCell_counts (p : Params) (h : Half) (i : Nat) (c : Cell) (counts : c.CountsDwell p h i) :
    truncateAtCell p h i c = { c with truncated := true } := if_pos ((counting_iff p h i c).2 counts)

theorem truncateAtCell_spared (p : Params) (h : Half) (i : Nat) (c : Cell) (counts : ¬ c.CountsDwell p h i) :
    truncateAtCell p h i c = c := if_neg fun counting => counts ((counting_iff p h i c).1 counting)

theorem getElem?_truncateCounting (s : State) (i : Nat) :
    (truncateCounting s).cells[i]? = (s.cells[i]?).map (truncateAtCell s.params s.ctl.liveHalf i) :=
  (getElem?_mapCells _ 0 i s.cells).trans (by rw [Nat.zero_add])

theorem truncateCounting_truncates (s : State) : TruncationOf s (truncateCounting s) where
  kept := rfl
  cut i c hc counts := by rw [getElem?_truncateCounting, hc, Option.map_some, truncateAtCell_counts _ _ _ _ counts]
  spared i c hc counts := by rw [getElem?_truncateCounting, hc, Option.map_some, truncateAtCell_spared _ _ _ _ counts]
  absent i hi := by rw [getElem?_truncateCounting, hi, Option.map_none]
  desc d hd := by
    obtain ⟨kept, length, banks⟩ := foldl_truncate (countingCells s) d
    have desc : (truncateCounting s).ctl.desc = some ((countingCells s).foldl Descriptor.truncate d) :=
      congrArg (Option.map fun d => (countingCells s).foldl Descriptor.truncate d) hd
    exact ⟨_, desc, kept, length, banks⟩

/-! ### The settle cap (R88) -/

theorem capExpires_eq (d : Descriptor) (s : State) (hd : s.ctl.desc = some d) :
    capExpires s = State.sets { s with
      queue := { s.queue with records := [] }, ctl := { s.ctl with desc := some { d with settleCap := true } } } 0x10 := by
  rw [capExpires, raiseCause_eq, onDesc, hd]
  rfl

theorem exec_settleCapExpiry (s : State) :
    exec .settleCapExpiry s = .next (capExpiry (if s.capHit && !s.capDue then dwellTick s else s)) := rfl

theorem exec_dwellTick (s : State) : exec .dwellTick s = .next (dwellTick s) := rfl

/-- The expiry of a cap that waits, with or without an application in progress (R88). -/
theorem capExpiry_waits (s : State) (waits : s.CapWaits) :
    capExpiry s = if s.engine.applying.isNone then endSettling (truncateCounting (capExpires s)) else capExpires s :=
  if_pos ((capDue_iff s).2 waits)

/-- The outcome of SETTLE_CAP_EXPIRY at a state is that of the expiry, if one waits there. -/
theorem exec_settleCapExpiry_eq (s t : State) (waits : t.CapWaits) (row : exec .settleCapExpiry s = .next (capExpiry t)) :
    exec .settleCapExpiry s = exec .settleCapExpiry t := by
  rw [row, exec_settleCapExpiry_waits t waits]

/-- Settles O31: the expiry that waits, the tick that makes it due, and nothing else. -/
theorem settleCapCutsTheSettling : Obligations.SettleCapCutsTheSettling := by
  intro d s hd
  refine ⟨fun waits => ⟨fun applying => ?_, fun free => ?_⟩, fun settling uncapped length => ⟨dwellTick s, exec_dwellTick s, ?_⟩,
    fun elsewhere => ?_⟩
  · have busy : s.engine.applying.isNone = false := by rw [← Option.not_isSome, applying, Bool.not_true]
    rw [exec_settleCapExpiry_waits s waits, capExpiry_waits s waits, busy, if_neg Bool.false_ne_true, capExpires_eq d s hd]
  · refine ⟨truncateCounting (capExpires s), ?_, ?_⟩
    · have cut := truncateCounting_truncates (capExpires s)
      rw [capExpires_eq d s hd] at cut ⊢
      exact cut
    · rw [exec_settleCapExpiry_waits s waits, capExpiry_waits s waits, free, Option.isNone_none, if_pos rfl]
  · have hit : (s.capHit && !s.capDue) = true :=
      (capHit_iff s).2 ⟨settling, fun e he => by rw [Option.some.inj (hd.symm.trans he)] at uncapped; exact uncapped, length⟩
    have row : exec .settleCapExpiry s = .next (capExpiry (dwellTick s)) := by rw [exec_settleCapExpiry, if_pos hit]
    exact ⟨fun waits => exec_settleCapExpiry_eq s _ waits row, fun done => by rw [row, capExpiry_of_not_waits _ done]⟩
  · have hit : ¬ (s.capHit && !s.capDue) = true := by
      rw [capHit_iff]
      rintro ⟨settling, uncapped, length⟩
      rcases elsewhere with state | capped | short
      · exact state settling
      · rw [uncapped d hd] at capped
        cases capped
      · omega
    have waits : ¬ s.CapWaits := by
      rintro ⟨settling, uncapped, length⟩
      rcases elsewhere with state | capped | short
      · exact state settling
      · rw [uncapped d hd] at capped
        cases capped
      · omega
    rw [exec_settleCapExpiry, if_neg hit, capExpiry_of_not_waits s waits]

/-! ### The onset tick and the window timer (R44, R78, R82) -/

theorem exec_onsetTick (s : State) : exec .onsetTick s = .next (onsetTick s) := rfl

theorem exec_windowTimerExpiry (s : State) : exec .windowTimerExpiry s = .next (if s.timerNext then onsetTick s else s) := rfl

theorem timerNext_iff (s : State) :
    s.timerNext = true ↔ s.ctl.state = .opened ∧ s.params.winSrc = .timer ∧ s.params.winLen ≤ s.ctl.windowCount + 1 := by
  simp only [State.timerNext, Bool.and_eq_true, decide_eq_true_eq, and_assoc]

theorem timerAtLength_iff (s : State) :
    s.timerAtLength = true ↔ s.ctl.state = .opened ∧ s.params.winSrc = .timer ∧ s.params.winLen ≤ s.ctl.windowCount := by
  simp only [State.timerAtLength, Bool.and_eq_true, decide_eq_true_eq, and_assoc]

theorem onsetDelivered_eq (s : State) :
    onsetDelivered s = { s with cells := (onsetDelivered s).cells, ctl := s.afterOnsetTick, crossing := .reset } := by
  rw [onsetDelivered, foldl_takeReport]
  rfl

theorem getElem?_onsetDelivered (s : State) (i : Nat) :
    (onsetDelivered s).cells[i]? =
      (s.cells[i]?).map fun c => if s.crossing.ticked.contains i then c else onsetAtCell s.params s.ctl.liveHalf i c := by
  rw [onsetDelivered, foldl_takeReport]
  exact (getElem?_mapCells _ 0 i s.cells).trans (by rw [Nat.zero_add])

theorem onsetAtCell_eq (p : Params) (h : Half) (i : Nat) (c : Cell) :
    onsetAtCell p h i c =
      if c.onsetSeen = true ∧ c.mask = false ∧ p.bankGate.getLsbD (i / 64) = false ∧ p.mode.keeps .onset = true then
        if c.quantity p.mode h .onset < p.mode.largest .onset then c.bump p.mode h .onset
        else if p.onsetWrap = true then c.setSegs (p.mode.places h .onset) 0
        else c
      else c := by
  have running : (c.onsetRunning p i && p.mode.keeps .onset) = true ↔
      c.onsetSeen = true ∧ c.mask = false ∧ p.bankGate.getLsbD (i / 64) = false ∧ p.mode.keeps .onset = true := by
    rw [Bool.and_eq_true, Cell.onsetRunning, Bool.and_eq_true, eligible_iff, Cell.TakesPart]
    tauto
  unfold onsetAtCell
  by_cases runs : (c.onsetRunning p i && p.mode.keeps .onset) = true
  · rw [if_pos runs, if_pos (running.1 runs), maximum_eq_largest _ _ (running.1 runs).2.2.2]
  · rw [if_neg runs, if_neg fun r => runs (running.2 r)]

/-- Where the end of settling waits for the row directly behind the expiry (R78, log 21). -/
theorem findsSettling_cases (c : Instr) (h : findsSettling c = true) :
    c = .closeWindow [] ∨ c = .inject [] ∨ ∃ rd wr, c = .handshakePresented rd wr := by
  unfold findsSettling at h
  split at h
  · exact .inl rfl
  · exact .inr (.inl rfl)
  · exact .inr (.inr ⟨_, _, rfl⟩)
  · cases h

theorem closeAtLength_cases (s : State) : closeAtLength s = closeWindowAs .timer s
    ∨ s.ctl.cycleOn = true ∧ closeAtLength s = shutWindow .timer s
      ∧ (s.pending.head? = some (.closeWindow []) ∨ s.pending.head? = some (.inject [])
        ∨ ∃ rd wr, s.pending.head? = some (.handshakePresented rd wr)) := by
  unfold closeAtLength
  split
  · rename_i waits
    rw [Bool.and_eq_true, Bool.and_eq_true] at waits
    obtain ⟨⟨cycle, finds⟩, -⟩ := waits
    refine .inr ⟨cycle, rfl, ?_⟩
    cases head : s.pending.head? with
    | none =>
      rw [head] at finds
      cases finds
    | some c =>
      rw [head] at finds
      rcases findsSettling_cases c finds with rfl | rfl | ⟨rd, wr, rfl⟩
      · exact .inl rfl
      · exact .inr (.inl rfl)
      · exact .inr (.inr ⟨rd, wr, rfl⟩)
  · exact .inl rfl

theorem onsetTick_stopped (s : State) (stopped : s.ticks.onset.running = false) : onsetTick s = s := by
  rw [onsetTick, stopped, if_neg Bool.false_ne_true]

theorem onsetTick_elsewhere (s : State) (runs : s.ticks.onset.running = true) (state : s.ctl.state ≠ .opened) :
    onsetTick s = s.onsetRestarted := by
  simp only [onsetTick, runs, if_true, if_neg state]

theorem onsetTick_opened (s : State) (runs : s.ticks.onset.running = true) (opened : s.ctl.state = .opened) :
    onsetTick s =
      if (onsetDelivered s.onsetRestarted).timerAtLength then closeAtLength (onsetDelivered s.onsetRestarted)
      else onsetDelivered s.onsetRestarted := by
  simp only [onsetTick, runs, if_true, opened]

/-- Settles O30: the tick at the cells and the count, and the close that it brings at WIN_LEN. -/
theorem onsetTicksMeasureTheWindow : Obligations.OnsetTicksMeasureTheWindow := by
  intro s
  refine ⟨fun runs opened => ⟨onsetDelivered s.onsetRestarted, onsetDelivered_eq s.onsetRestarted, fun i ticked => ?_,
      fun i unticked => ?_, fun timer long => ⟨?_, ?_⟩, fun short => ?_⟩,
    fun runs state => ?_, fun stopped => ?_, fun next => ?_, fun next => ?_⟩
  · have here : s.onsetRestarted.crossing.ticked.contains i = true := List.contains_iff_mem.2 ticked
    rw [getElem?_onsetDelivered, here]
    exact Option.map_id'
  · have here : s.onsetRestarted.crossing.ticked.contains i = false := by
      rw [← Bool.not_eq_true, List.contains_iff_mem]
      exact unticked
    rw [getElem?_onsetDelivered, here]
    exact congrArg (fun g => (s.cells[i]?).map g) (funext fun c => onsetAtCell_eq s.params s.ctl.liveHalf i c)
  · have at_length : (onsetDelivered s.onsetRestarted).timerAtLength = true := by
      rw [timerAtLength_iff, onsetDelivered_eq]
      exact ⟨opened, timer, long⟩
    rw [exec_onsetTick, onsetTick_opened s runs opened, if_pos at_length]
    rcases closeAtLength_cases (onsetDelivered s.onsetRestarted) with closes | ⟨cycle, shuts, behind⟩
    · exact .inl (congrArg _ closes)
    · rw [onsetDelivered_eq] at cycle behind
      exact .inr ⟨cycle, congrArg _ shuts, behind⟩
  · have next : s.timerNext = true := (timerNext_iff s).2 ⟨opened, timer, long.trans (Nat.min_le_right _ _)⟩
    rw [exec_windowTimerExpiry, if_pos next, exec_onsetTick]
  · have at_length : ¬ (onsetDelivered s.onsetRestarted).timerAtLength = true := by
      rw [timerAtLength_iff, onsetDelivered_eq]
      rintro ⟨-, timer, long⟩
      exact short.elim (fun other => other timer) (Nat.not_lt.2 long)
    rw [exec_onsetTick, onsetTick_opened s runs opened, if_neg at_length]
  · rw [exec_onsetTick, onsetTick_elsewhere s runs state]
    rfl
  · rw [exec_onsetTick, onsetTick_stopped s stopped]
  · rw [exec_windowTimerExpiry, if_pos ((timerNext_iff s).2 next), exec_onsetTick]
  · rw [exec_windowTimerExpiry, if_neg]
    rw [timerNext_iff]
    rintro ⟨opened, timer, long⟩
    rcases next with state | source | short
    · exact state opened
    · exact source timer
    · omega

/-! ### The application of a record (R7) -/

theorem turnHot_mask (p : Params) (h : Half) (i : Nat) (c : Cell) : (turnHot p h i c).cell.mask = c.mask := by
  unfold turnHot
  simp only
  split
  · exact (bump_sameBut ..).1
  · rfl

theorem evaluate_mask (p : Params) (h : Half) (pulse : Bool) (i : Nat) (c : Cell) : (evaluate p h pulse i c).cell.mask = c.mask := by
  unfold evaluate
  split
  · split
    · exact turnHot_mask p h i c
    · rfl
  · split <;> rfl

/-- The application at every cell, by the config of the record's cell. -/
theorem recordAtCell_eq (p : Params) (h : Half) (pulse : Bool) (r : Record) (array : r.cell ≤ 4095) :
    (fun i c => if i = r.cell then recordAtCell p h pulse r.weight i c else quietly c) =
      fun i c =>
        if i ≠ r.cell ∨ c.test = true ∨ p.bankGate.getLsbD (i / 64) = true then quietly c
        else if p.deepMask = true ∧ c.mask = true then evaluate p h pulse i c
        else
          let o := evaluate p h pulse i { c with level := min 4095 (c.level + r.weight) }
          { o with cell := if c.mask then o.cell else o.cell.bump p.mode h .accesses } := by
  funext i c
  by_cases here : i = r.cell
  · have low : decide (Config.arrayCells ≤ i) = false := decide_eq_false (by rw [here]; exact Nat.not_le.2 (Nat.lt_succ_of_le array))
    have apart : (i ≠ r.cell ∨ c.test = true ∨ p.bankGate.getLsbD (i / 64) = true) ↔
        (c.test || gated p i || decide (Config.arrayCells ≤ i)) = true := by
      rw [low, Bool.or_false, Bool.or_eq_true, gated]
      exact or_iff_right fun other => other here
    rw [if_pos here, recordAtCell]
    refine if_congr apart.symm rfl (if_congr ?_ rfl ?_)
    · exact (deepMasked_iff p c)
    · have mask : (evaluate p h pulse i (c.addWeight r.weight)).cell.mask = c.mask := evaluate_mask ..
      rw [CellOut.access, mask]
      rfl
  · rw [if_neg here, if_pos (.inl here)]

theorem capFlag_true_iff (s : State) : s.capFlag = true ↔ ∃ d, s.ctl.desc = some d ∧ d.settleCap = true := by
  unfold State.capFlag
  cases h : s.ctl.desc <;> simp

/-- Settles O37: the application as an event of its cell, and what the controller then does. -/
theorem recordApplicationAddsItsWeight : Obligations.RecordApplicationAddsItsWeight := by
  intro s
  have row (r : Record) (applying : s.engine.applying = some r) : exec .recordApplied s =
      if s.ctl.state = .settling ∧ s.capFlag = true then
        .next (endSettling (truncateCounting (applyRecord r { s with engine := { s.engine with applying := none } })))
      else .next (considerEnd (applyRecord r { s with engine := { s.engine with applying := none } })) := by
    have unfolded : exec .recordApplied s = execRecordApplied s := rfl
    simp only [unfolded, execRecordApplied, applying]
  refine ⟨fun free => ?_, fun r applying array => ⟨applyRecord r { s with engine := { s.engine with applying := none } }, ?_,
    fun capped => ⟨_, truncateCounting_truncates _, ?_⟩, fun uncapped => ?_⟩⟩
  · have unfolded : exec .recordApplied s = execRecordApplied s := rfl
    simp only [unfolded, execRecordApplied, free]
  · have event := onsetEvent_outcome (fun i c => if i = r.cell then recordAtCell s.params s.ctl.liveHalf s.pulse r.weight i c else
      quietly c) { s with engine := { s.engine with applying := none } }
    exact Eq.subst (motive := fun f => ArrayOutcome f _ _) (recordAtCell_eq s.params s.ctl.liveHalf s.pulse r array) event
  · rw [row r applying, if_pos ⟨capped.1, (capFlag_true_iff s).2 capped.2⟩]
  · rw [row r applying, if_neg fun capped => uncapped ⟨capped.1, (capFlag_true_iff s).1 capped.2⟩]

/-! ### The aux lines (R12, R17) -/

theorem exec_auxAsserted (n : Fin 4) (s : State) : exec (.auxAsserted n) s =
    if s.ctl.state = .opened then .next (auxEvent n (lineUpAtCell s.params s.ctl.liveHalf) (setLine n true s))
    else .next (setLine n true s) := rfl

theorem exec_auxDeasserted (n : Fin 4) (s : State) : exec (.auxDeasserted n) s =
    if s.measuring then .next (considerEnd (auxEvent n (lineDownAtCell s.params) (setLine n false s)))
    else .next (setLine n false s) := rfl

theorem measuring_iff (s : State) : s.measuring = true ↔ s.ctl.state = .opened ∨ s.ctl.state = .settling := by
  rw [State.measuring, Bool.or_eq_true, decide_eq_true_eq, decide_eq_true_eq]

theorem not_measuring_iff (s : State) : s.measuring = false ↔ s.ctl.state = .idle ∨ s.ctl.state = .held := by
  rw [← Bool.not_eq_true, measuring_iff]
  cases s.ctl.state <;> decide

theorem lineDownAtCell_eq (p : Params) (i : Nat) (c : Cell) : lineDownAtCell p i c =
    if (c.test = false ∧ ¬ (p.deepMask = true ∧ c.mask = true)) ∧ c.activity = .hot then turnCold p i c else quietly c := by
  simp only [lineDownAtCell, Bool.and_eq_true, followsLine_iff, decide_eq_true_iff]

/-- Settles O40: the event of the line's aux cell. -/
theorem auxLinesDriveTheirCells : Obligations.AuxLinesDriveTheirCells := by
  intro n s
  refine ⟨fun opened => ⟨_, (exec_auxAsserted n s).trans (if_pos opened), _, onsetEvent_outcome _ _, ?_, ?_⟩,
    fun state => (exec_auxAsserted n s).trans (if_neg state),
    fun measuring => ⟨_, (exec_auxDeasserted n s).trans (if_pos ((measuring_iff s).2 measuring)), _, onsetEvent_outcome _ _, ?_, ?_⟩,
    fun resting => (exec_auxDeasserted n s).trans (if_neg (by rw [(not_measuring_iff s).2 resting]; exact Bool.false_ne_true))⟩
  · rintro i c ⟨here, follows⟩ cold
    exact (if_pos here).trans ((lineUpAtCell_eq _ _ i c).trans (if_pos ⟨follows, cold⟩))
  · intro i c apart
    by_cases here : i = 4096 + n.val
    · refine (if_pos here).trans ((lineUpAtCell_eq _ _ i c).trans (if_neg ?_))
      rintro ⟨follows, cold⟩
      exact apart.elim (fun apart => apart ⟨here, follows⟩) fun hot => Activity.noConfusion (cold.symm.trans hot)
    · exact if_neg here
  · rintro i c ⟨here, follows⟩ hot
    exact (if_pos here).trans ((lineDownAtCell_eq _ i c).trans (if_pos ⟨follows, hot⟩))
  · intro i c apart
    by_cases here : i = 4096 + n.val
    · refine (if_pos here).trans ((lineDownAtCell_eq _ i c).trans (if_neg ?_))
      rintro ⟨follows, hot⟩
      exact apart.elim (fun apart => apart ⟨here, follows⟩) fun cold => Activity.noConfusion (hot.symm.trans cold)
    · exact if_neg here

end Sys2Proof.Machine
end

section
/-! PROOF. The decay tick (O38), the dwell tick (O39), INJECT and PULSE_END (O41). -/

namespace Sys2Proof.Machine

/-! ### What an event of the array keeps for the controller -/

theorem ArrayOutcome.ctl {f : Nat → Cell → CellOut} {s t : State} (h : ArrayOutcome f s t) :
    t.ctl = { s.ctl with desc := t.ctl.desc } := by
  have kept := congrArg State.ctl h.kept
  exact kept

theorem ArrayOutcome.capFlag {f : Nat → Cell → CellOut} {s t : State} (h : ArrayOutcome f s t) : t.capFlag = s.capFlag := by
  obtain ⟨order, wait, ticked, e, -, -, -, -, desc, -⟩ := h.desc
  rw [State.capFlag, State.capFlag, desc]
  cases s.ctl.desc <;> rfl

theorem ArrayOutcome.engine {f : Nat → Cell → CellOut} {s t : State} (h : ArrayOutcome f s t) : t.engine = s.engine := by
  have kept := congrArg State.engine h.kept
  exact kept

theorem TickTaken.mono {s v u : State} {parts : Nat → List TickPart} {late late' : Prop} (imp : late → late')
    (h : TickTaken s parts late v u) : TickTaken s parts late' v u := by
  obtain ⟨f, event, taken⟩ := h
  exact ⟨f, event, fun i c => (taken i c).imp fun o => And.imp_right (Or.imp_right (And.imp_left imp))⟩

/-! ### The decay tick (R8, R30) -/

theorem exec_decayTick (s : State) : exec .decayTick s = .next (decayTick s) := rfl

theorem decayTick_stopped (s : State) (stopped : s.ticks.decay.running = false) : decayTick s = s := by
  rw [decayTick, stopped, if_neg Bool.false_ne_true]

theorem decayTick_resting (s : State) (runs : s.ticks.decay.running = true) (resting : s.measuring = false) :
    decayTick s = s.decayRestarted := by
  simp only [decayTick, runs, resting, if_true, Bool.not_false]

theorem decayTick_measuring (s : State) (runs : s.ticks.decay.running = true) (measuring : s.measuring = true) :
    decayTick s =
      if s.decayJoins then { s.decayRestarted with decayWaits := true }
      else if s.decayCut then decayPartly s.decayRestarted
      else decayDelivered s.decayRestarted := by
  simp only [decayTick, runs, measuring, if_true, Bool.not_true, Bool.false_eq_true, if_false]

/-- The end of settling after a decay tick: it is considered by the parts that the cells have taken. -/
theorem decayEvent_over (s : State) (parts : Nat → List TickPart) (late : Bool) :
    (onsetEvent (s.tickAtCell parts late) s).SettlingOver ↔ s.overAfter parts = true := by
  rw [← mayEnd_iff, mayEnd_after parts late rfl rfl rfl rfl rfl rfl]

/-- A row behind that brings rest, at the state that it meets (R19). -/
theorem restBehind_rests (s u : State) (same : u.pending = s.pending) (rests : u.restBehind = true) : RestBehind s u := by
  unfold State.restBehind at rests
  split at rests
  · rename_i c rest queue
    obtain ⟨v, row, after⟩ := restsAt_exec c { u with pending := rest } rests
    have front : s.pending = c :: rest := same.symm.trans queue
    refine ⟨c, v, by rw [front]; rfl, ?_, after⟩
    rw [front]
    exact row
  · cases rests

theorem decayPartly_pending (s : State) : (decayPartly s).pending = s.pending := (onsetEvent_keeps _ s).pending

/-- Settles O38: the tick waits, is cut by a rest, or reaches every cell until settling ends. -/
theorem decayTickDrainsEveryArrayCell : Obligations.DecayTickDrainsEveryArrayCell := by
  intro s
  refine ⟨fun runs state => ?_, fun runs state => ?_, fun stopped => ?_⟩
  · rw [exec_decayTick, decayTick_measuring s runs ((measuring_iff s).2 state)]
    by_cases joins : s.decayJoins = true
    · rw [if_pos joins]
      rw [State.decayJoins, Bool.and_eq_true, Bool.or_eq_true, dwellBehind_iff, injectBehind_iff] at joins
      exact .inl ⟨joins.1, rfl⟩
    · rw [if_neg joins]
      refine .inr ?_
      by_cases cut : s.decayCut = true
      · rw [if_pos cut]
        rw [State.decayCut, Bool.and_eq_true, Bool.and_eq_true, Bool.not_eq_true'] at cut
        obtain ⟨⟨-, goes⟩, rests⟩ := cut
        have taken := tick_taken s.decayRestarted s.decayRestarted (partlyParts s.decayRestarted) false
        have unfinished : ¬ (decayPartly s.decayRestarted).SettlingOver := by
          rw [decayPartly, decayEvent_over, goes]
          exact Bool.false_ne_true
        refine ⟨partlyParts s.decayRestarted, decayPartly s.decayRestarted, _,
          (tickTaken_ticks s _ _ _ _ _).1 (taken.mono fun h => absurd h Bool.false_ne_true), rfl,
          fun _ => ⟨rfl, .inr ⟨fun i => ?_, restBehind_rests s _ (decayPartly_pending _) rests⟩⟩, fun ends => absurd ends unfinished⟩
        unfold partlyParts
        split
        · exact .inl rfl
        · exact .inr rfl
      · rw [if_neg cut]
        have taken := tick_taken s.decayRestarted s.decayRestarted (decayParts s.decayRestarted)
          (s.decayRestarted.overAfter (decayParts s.decayRestarted))
        have ends := decayEvent_over s.decayRestarted (decayParts s.decayRestarted)
          (s.decayRestarted.overAfter (decayParts s.decayRestarted))
        refine ⟨decayParts s.decayRestarted, _, _, (tickTaken_ticks s _ _ _ _ _).1 (taken.mono ends.2), rfl, fun goes => ?_,
          fun over' => ?_⟩
        · have unfinished := fun h => goes (ends.2 h)
          refine ⟨if_neg unfinished, .inl fun i => ?_⟩
          exact (decayParts_eq s.decayRestarted i).resolve_right fun h => unfinished h.1
        · exact ⟨if_pos (ends.1 over'), fun i => (decayParts_eq s.decayRestarted i).imp_right And.right⟩
  · rw [exec_decayTick, decayTick_resting s runs ((not_measuring_iff s).2 state)]
    rfl
  · rw [exec_decayTick, decayTick_stopped s stopped]

/-! ### The dwell tick (R40, R87, R143) -/

theorem dwellTick_stopped (s : State) (stopped : s.ticks.dwell.running = false) : dwellTick s = s := by
  rw [dwellTick, stopped, if_neg Bool.false_ne_true]

theorem dwellTick_resting (s : State) (runs : s.ticks.dwell.running = true) (resting : s.measuring = false) :
    dwellTick s = s.dwellRestarted := by
  simp only [dwellTick, runs, resting, if_true, Bool.not_false]

theorem dwellTick_delivered (s : State) (runs : s.ticks.dwell.running = true) (measuring : s.measuring = true) (due : s.capDue = false) :
    dwellTick s = dwellDelivered s.dwellRestarted := by
  simp only [dwellTick, runs, measuring, due, if_true, Bool.not_true, Bool.false_eq_true, if_false]

theorem dwellTick_due (s : State) (runs : s.ticks.dwell.running = true) (measuring : s.measuring = true) (due : s.capDue = true) :
    dwellTick s =
      if (capExpiry s.dwellRestarted).ctl.state = .settling then dwellDelivered (capExpiry s.dwellRestarted)
      else capExpiry s.dwellRestarted := by
  simp only [dwellTick, runs, measuring, due, if_true, Bool.not_true, Bool.false_eq_true, if_false]

theorem Tpg.tick_eq (g : Tpg) : g.tick = match g with
    | .active (n + 2) => .active (n + 1)
    | _ => .idle := by
  match g with
  | .idle => rfl
  | .active 0 => rfl
  | .active 1 => rfl
  | .active (n + 2) => rfl

/-- The settle length counts a dwell tick (R87). -/
def State.Counts (s : State) : Prop := s.ctl.state = .settling ∧ (∀ d, s.ctl.desc = some d → d.settleCap = false)
  ∧ s.ctl.settleCount < s.params.settleCap

theorem settleTicked_counts (s : State) (counts : s.Counts) : s.settleTicked = s.ctl.settleCount + 1 := by
  obtain ⟨settling, uncapped, below⟩ := counts
  refine if_pos ?_
  rw [settling, (capFlag_iff s).2 uncapped, decide_eq_true below]
  rfl

theorem settleTicked_stays (s : State) (counts : ¬ s.Counts) : s.settleTicked = s.ctl.settleCount := by
  refine if_neg fun h => counts ?_
  rw [Bool.and_eq_true, Bool.and_eq_true, decide_eq_true_eq, Bool.not_eq_true', capFlag_iff, decide_eq_true_eq] at h
  exact ⟨h.1.1, h.1.2, h.2⟩

/-- The settle length after the dwell tick that is next. -/
def State.settleAfter (s : State) : Nat := if (dwellReached s).2 = .ends then s.ctl.settleCount else s.settleTicked

theorem settleAfter_cases (s : State) : s.settleAfter = s.ctl.settleCount ∨ s.Counts ∧ s.settleAfter = s.ctl.settleCount + 1 := by
  unfold State.settleAfter
  split
  · exact .inl rfl
  · by_cases counts : s.Counts
    · exact .inr ⟨counts, settleTicked_counts s counts⟩
    · exact .inl (settleTicked_stays s counts)

theorem settleAfter_counts (s : State) (goes : (dwellReached s).2 ≠ .ends) (counts : s.Counts) :
    s.settleAfter = s.ctl.settleCount + 1 := by
  rw [State.settleAfter, if_neg goes, settleTicked_counts s counts]

/-- The state at the cells' part of a dwell tick. -/
def State.dwellCounted (s : State) : State :=
  { s with tpg := s.tpg.tick, ctl := { s.ctl with settleCount := s.settleAfter }, decayWaits := false }

theorem dwellTaken_event (s : State) :
    dwellTaken s = onsetEvent (s.tickAtCell (dwellReached s).1 (decide ((dwellReached s).2 ≠ .goesOn))) s.dwellCounted := rfl

theorem dwellTaken_over (s : State) : (dwellTaken s).SettlingOver ↔ s.overAfter (dwellReached s).1 = true := by
  rw [← mayEnd_iff, dwellTaken_event, mayEnd_after (s := s) (v := s.dwellCounted) _ _ rfl rfl rfl rfl rfl rfl]

theorem dwellTaken_outcome (s : State) : ArrayOutcome (dwellTakenAt s) s.dwellCounted (dwellTaken s) := onsetEvent_outcome _ _

theorem dwellTaken_applying (s : State) : (dwellTaken s).engine = s.engine := (dwellTaken_outcome s).engine

/-- Where the tick makes the cap's expiry due, it waits at the controller after the tick (R88). -/
theorem dwellTaken_capWaits (s : State) (hit : s.capHit = true) (goes : (dwellReached s).2 ≠ .ends) : (dwellTaken s).CapWaits := by
  have event := dwellTaken_outcome s
  rw [State.capHit, Bool.and_eq_true, Bool.and_eq_true, decide_eq_true_eq, Bool.not_eq_true', decide_eq_true_eq] at hit
  obtain ⟨⟨settling, uncapped⟩, near⟩ := hit
  have flag : (dwellTaken s).capFlag = false := event.capFlag.trans uncapped
  have count : (dwellTaken s).ctl.settleCount = s.settleTicked := by
    rw [event.ctl]
    exact if_neg goes
  refine ⟨by rw [event.ctl]; exact settling, (capFlag_iff _).1 flag, ?_⟩
  rw [count, congrArg State.params event.kept]
  by_cases below : s.ctl.settleCount < s.params.settleCap
  · rw [settleTicked_counts s ⟨settling, (capFlag_iff s).1 uncapped, below⟩]
    exact near
  · rw [settleTicked_stays s fun counts => below counts.2.2]
    exact Nat.not_lt.1 below

/-- A dwell tick that is delivered, in the words of the statement: `r` is the state after the row. -/
def DwellOutcome (s : State) (r : State) : Prop :=
  ∃ (parts : Nat → List TickPart) (late : Prop) (settle : Nat) (u : State),
    TickTaken s parts late
        { s.dwellRestarted with
          decayWaits := false
          tpg := match s.tpg with
            | .active (n + 2) => .active (n + 1)
            | _ => .idle
          ctl := { s.ctl with settleCount := settle } } u
      ∧ (∀ i, (parts i).Subperm s.dwellDue)
      ∧ (settle = s.ctl.settleCount ∨ (s.Counts ∧ settle = s.ctl.settleCount + 1))
      ∧ (r = endSettling u ∧ u.SettlingOver
        ∨ (s.Counts → settle = s.ctl.settleCount + 1)
          ∧ (r = u ∧ ¬ late ∧ ¬ u.SettlingOver ∧ (∀ i, (parts i).Perm s.dwellDue)
            ∨ u.CapWaits ∧ s.engine.applying = none ∧ exec .settleCapExpiry u = .next r))

/-- What the controller does after the cells' part, by where settling stands. -/
theorem dwellDelivered_ends (t : State) :
    (dwellDelivered t = endSettling (dwellTaken t) ∧ (dwellTaken t).SettlingOver)
      ∨ (dwellReached t).2 ≠ .ends
        ∧ (dwellDelivered t = dwellTaken t ∧ (dwellReached t).2 = .goesOn ∧ ¬ (dwellTaken t).SettlingOver
          ∨ (dwellTaken t).CapWaits ∧ t.engine.applying = none ∧ dwellDelivered t = capExpiry (dwellTaken t)) := by
  have where_over := dwellReached_over t
  unfold dwellDelivered
  cases reached : (dwellReached t).2 with
  | goesOn =>
    rw [reached] at where_over
    refine .inr ⟨AfterTick.noConfusion, .inl ⟨rfl, rfl, ?_⟩⟩
    rw [dwellTaken_over, where_over]
    exact Bool.false_ne_true
  | ends =>
    rw [reached] at where_over
    exact .inl ⟨rfl, (dwellTaken_over t).2 where_over⟩
  | endsCounted =>
    rw [reached] at where_over
    have ended := (dwellTaken_over t).2 where_over
    by_cases first : ((dwellTaken t).capDue && !Config.freeEndFirst t.free) = true
    · rw [Bool.and_eq_true] at first
      refine .inr ⟨AfterTick.noConfusion, .inr ⟨(capDue_iff _).1 first.1, ?_, if_pos ?_⟩⟩
      · have free := ended.2.2.1
        rwa [dwellTaken_applying] at free
      · rw [first.1, first.2]
        rfl
    · exact .inl ⟨if_neg first, ended⟩
  | expires =>
    rw [reached] at where_over
    exact .inr ⟨AfterTick.noConfusion,
      .inr ⟨dwellTaken_capWaits t where_over.1 (by rw [reached]; exact AfterTick.noConfusion), where_over.2, rfl⟩⟩

theorem dwellDelivered_outcome (s : State) : DwellOutcome s (dwellDelivered s.dwellRestarted) := by
  have taken : TickTaken s (dwellReached s.dwellRestarted).1 ((dwellReached s.dwellRestarted).2 ≠ .goesOn)
      { s.dwellRestarted with
        decayWaits := false
        tpg := match s.tpg with
          | .active (n + 2) => .active (n + 1)
          | _ => .idle
        ctl := { s.ctl with settleCount := s.dwellRestarted.settleAfter } } (dwellTaken s.dwellRestarted) := by
    have event := tick_taken s.dwellRestarted s.dwellRestarted.dwellCounted (dwellReached s.dwellRestarted).1
      (decide ((dwellReached s.dwellRestarted).2 ≠ .goesOn))
    have moved := (tickTaken_ticks s s.dwellRestarted.ticks _ _ _ _).1 (event.mono of_decide_eq_true)
    have counted := congrArg (fun g => ({ s.dwellRestarted with
      tpg := g, ctl := { s.ctl with settleCount := s.dwellRestarted.settleAfter }, decayWaits := false } : State)) s.tpg.tick_eq
    exact Eq.subst (motive := fun v => TickTaken s _ _ v (dwellTaken s.dwellRestarted)) counted moved
  refine ⟨_, _, _, _, taken, fun i => (dwellReached_parts s.dwellRestarted i).1, settleAfter_cases s.dwellRestarted, ?_⟩
  rcases dwellDelivered_ends s.dwellRestarted with ⟨ends, ended⟩ | ⟨counted, ⟨goes, on, unfinished⟩ | ⟨waits, free, expires⟩⟩
  · exact .inl ⟨ends, ended⟩
  · exact .inr ⟨settleAfter_counts s.dwellRestarted counted,
      .inl ⟨goes, not_not_intro on, unfinished, fun i => (dwellReached_parts s.dwellRestarted i).2 on⟩⟩
  · exact .inr ⟨settleAfter_counts s.dwellRestarted counted,
      .inr ⟨waits, free, (exec_settleCapExpiry_waits _ waits).trans (congrArg _ expires.symm)⟩⟩

/-- An expiry of the settle cap that has come comes again to nothing. -/
theorem capExpires_capExpires (s : State) : capExpires (capExpires s) = capExpires s := by
  have again : (fun d : Descriptor => { d with settleCap := true }) ∘ (fun d : Descriptor => { d with settleCap := true }) =
      fun d : Descriptor => { d with settleCap := true } := rfl
  simp only [capExpires, raiseCause_eq, onDesc, State.sets, State.withPending, Option.map_map, again, BitVec.or_assoc, BitVec.or_self]

/-- After an expiry that does not end settling, an application is in progress (R88). -/
theorem capExpiry_goesOn (s : State) (waits : s.CapWaits) (goes : (capExpiry s).ctl.state = .settling) :
    s.engine.applying.isNone = false ∧ capExpiry s = capExpires s := by
  rw [capExpiry_waits s waits] at goes ⊢
  cases free : s.engine.applying.isNone with
  | false => exact ⟨rfl, if_neg Bool.false_ne_true⟩
  | true =>
    rw [free, if_pos rfl] at goes
    rcases endSettling_rests (truncateCounting (capExpires s)) with rests | ⟨opened, -⟩
    · rw [State.measuring, goes] at rests
      cases rests
    · exact CtlState.noConfusion (opened.symm.trans goes)

theorem capExpires_ticks (s : State) : (capExpires s).ticks = s.ticks ∧ (capExpires s).engine = s.engine
    ∧ (capExpires s).ctl.state = s.ctl.state := ⟨rfl, rfl, rfl⟩

/-- A dwell tick behind such an expiry is the tick alone (R88, log 5). -/
theorem dwellTick_after_expiry (s : State) (runs : s.ticks.dwell.running = true) (settling : s.ctl.state = .settling)
    (busy : s.engine.applying.isNone = false) : dwellTick (capExpires s.dwellRestarted) = dwellDelivered (capExpires s.dwellRestarted) := by
  have measuring : (capExpires s.dwellRestarted).measuring = true := (measuring_iff _).2 (.inr settling)
  have restarted : (capExpires s.dwellRestarted).dwellRestarted = capExpires s.dwellRestarted := rfl
  cases due : (capExpires s.dwellRestarted).capDue with
  | false => rw [dwellTick_delivered (capExpires s.dwellRestarted) runs measuring due, restarted]
  | true =>
    have expiry : capExpiry (capExpires s.dwellRestarted) = capExpires s.dwellRestarted := by
      have applying : (capExpires s.dwellRestarted).engine.applying.isNone = false := busy
      rw [capExpiry_waits _ ((capDue_iff _).1 due), applying, if_neg Bool.false_ne_true, capExpires_capExpires]
    rw [dwellTick_due (capExpires s.dwellRestarted) runs measuring due, restarted, expiry, if_pos]
    exact settling

theorem exec_pulseEnd (s : State) : exec .pulseEnd s = .next (if s.tpg.endsNext then dwellTick s else s) := rfl

/-- Settles O39: the tick that is delivered, the expiry that comes before it, and the restart alone. -/
theorem dwellTickCountsOnce : Obligations.DwellTickCountsOnce := by
  intro s
  refine ⟨fun runs state uncapped => ?_, fun runs waits => ⟨capExpiry s.dwellRestarted, exec_settleCapExpiry_waits s.dwellRestarted waits,
    fun settling => ?_, fun state => ?_⟩, fun runs state => ?_, fun stopped => ?_⟩
  · have due : s.capDue = false := Bool.eq_false_iff.2 fun due => uncapped ((capDue_iff s).1 due)
    have tick := dwellTick_delivered s runs ((measuring_iff s).2 state) due
    obtain ⟨parts, late, settle, u, taken, some_parts, length, outcome⟩ := dwellDelivered_outcome s
    exact ⟨parts, late, settle, u, dwellDelivered s.dwellRestarted, taken, by rw [exec_dwellTick, tick],
      fun last => by rw [exec_pulseEnd, if_pos ((endsNext_iff _).2 last), tick], some_parts, length, outcome⟩
  · have due : s.capDue = true := (capDue_iff s).2 waits
    obtain ⟨busy, expiry⟩ := capExpiry_goesOn s.dwellRestarted waits settling
    rw [exec_dwellTick, exec_dwellTick, dwellTick_due s runs ((measuring_iff s).2 (.inr waits.1)) due, if_pos settling, expiry,
      dwellTick_after_expiry s runs waits.1 busy]
  · have due : s.capDue = true := (capDue_iff s).2 waits
    rw [exec_dwellTick, dwellTick_due s runs ((measuring_iff s).2 (.inr waits.1)) due, if_neg state]
  · rw [exec_dwellTick, dwellTick_resting s runs ((not_measuring_iff s).2 state)]
    rfl
  · rw [exec_dwellTick, dwellTick_stopped s stopped]

/-! ### INJECT and PULSE_END (R140, R143) -/

theorem exec_inject (args : List Byte) (s : State) : exec (.inject args) s =
    .next (if args = [] then considerEnd (takeCommand 0x38 args (answerInject args) s)
      else takeCommand 0x38 args (answerInject args) s) := rfl

theorem answerInject_length (args : List Byte) (bare : args ≠ []) (r : State) : answerInject args r = .error .badLength := if_pos bare

/-- The end of settling is considered whatever the port has answered. -/
theorem considerEnd_answered (s : State) (code : Byte) (args : List Byte) (st : Status) (data : List Byte) :
    considerEnd (s.answered code args st data) = (considerEnd s).answered code args st data := by
  have kept := considerEnd_withPort s
    (s.port.afterTake code args (crc8 (code :: BitVec.ofNat 8 args.length :: args)) st data)
  refine kept.trans ?_
  rw [State.answered, considerEnd_port]
  rfl

theorem answerInject_busy (s : State) (busy : s.engine.op ≠ .idle) : answerInject [] s = .error .busy := by
  rw [answerInject, if_neg (not_not_intro rfl), if_pos ((cfgInFlight_iff s).2 busy)]

theorem answerInject_state (s : State) (free : s.engine.op = .idle) (state : s.ctl.state ≠ .opened) :
    answerInject [] s = .error .wrongState := by
  rw [answerInject, if_neg (not_not_intro rfl), (cfgInFlight_false_iff s).2 free, if_neg Bool.false_ne_true, if_pos state]

theorem answerInject_pulse (s : State) (free : s.engine.op = .idle) (opened : s.ctl.state = .opened) (pulse : s.tpg ≠ .idle) :
    answerInject [] s = .error .busy := by
  rw [answerInject, if_neg (not_not_intro rfl), (cfgInFlight_false_iff s).2 free, if_neg Bool.false_ne_true,
    if_neg (not_not_intro opened), if_pos pulse]

theorem answerInject_starts (s : State) (free : s.engine.op = .idle) (opened : s.ctl.state = .opened) (idle : s.tpg = .idle) :
    answerInject [] s = .ok (startPulse s, []) := by
  rw [answerInject, if_neg (not_not_intro rfl), (cfgInFlight_false_iff s).2 free, if_neg Bool.false_ne_true,
    if_neg (not_not_intro opened), if_neg (not_not_intro idle)]

/-- A refusal of an INJECT, and the end of settling behind it. -/
theorem exec_inject_refused (s : State) (st : Status) (receiving : s.port.decoder = .receiving) (refusal : st ≠ .ok)
    (answer : ∀ p, answerInject [] (s.withPort p) = .error st) :
    exec (.inject []) s = .next ((considerEnd s).answered 0x38 [] st []) := by
  rw [exec_inject, if_pos rfl, takeCommand_error 0x38 [] _ s st receiving (Nat.zero_le _)
    (by rw [receiveRequest_withPort]; exact answer _) refusal, considerEnd_answered]

/-- Settles O41: the checks in order, the pulse start, and PULSE_END by the dwell tick that is next. -/
theorem injectStartsAndPulseEndEnds : Obligations.InjectStartsAndPulseEndEnds := by
  intro s
  refine ⟨fun receiving => ⟨fun args bare short => ?_, fun busy => ?_, fun free state => ?_, fun free opened pulse => ?_,
    fun free opened idle => ?_⟩, fun absent => ?_, fun last => ?_, fun last => ?_⟩
  · rw [exec_inject, if_neg bare, takeCommand_badLength 0x38 args _ s receiving short (answerInject_length args bare)]
  · exact exec_inject_refused s .busy receiving (by decide) fun p => answerInject_busy _ busy
  · exact exec_inject_refused s .wrongState receiving (by decide) fun p => answerInject_state _ free state
  · have alone : considerEnd s = s := considerEnd_of_ne s (by rw [opened]; exact CtlState.noConfusion)
    rw [exec_inject_refused s .busy receiving (by decide) fun p => answerInject_pulse _ free opened pulse, alone]
  · have taken := startPulse_taken s
    have state : (startPulse s).ctl.state = .opened := by
      obtain ⟨f, event, -⟩ := taken
      rw [event.ctl]
      exact opened
    have port : (startPulse s).port = s.port := port_of_blind startPulse_withPort s
    refine ⟨startParts s, startPulse s, ?_, taken, startParts_perm s⟩
    rw [exec_inject, if_pos rfl, takeCommand_ok 0x38 [] _ s (startPulse s) [] receiving (Nat.zero_le _) ?_ port, considerEnd_answered,
      considerEnd_of_ne (startPulse s) (by rw [state]; exact CtlState.noConfusion)]
    rw [receiveRequest_withPort, ← startPulse_withPort]
    exact answerInject_starts _ free opened idle
  · rw [exec_inject, if_pos rfl, takeCommand_absent 0x38 [] _ s (.inl absent)]
  · rw [exec_pulseEnd, if_pos ((endsNext_iff _).2 last), exec_dwellTick]
  · rw [exec_pulseEnd, if_neg fun ends => last ((endsNext_iff _).1 ends)]

end Sys2Proof.Machine
end

section
/-! PROOF. Handshakes: the classification of one (O42), and two at one event (O44). -/

namespace Sys2Proof.Machine

/-! ### The classification (R53) -/

theorem selects_iff (d : DirSel) (ch : Channel) :
    d.selects ch = true ↔ d = .both ∨ (d = .reads ∧ ch = .read) ∨ (d = .writes ∧ ch = .write) := by
  cases d <;> cases ch <;> decide

theorem reachesFilter_iff (p : Params) (ch : Channel) (hs : Handshake) : reachesFilter p ch hs = true ↔
    (p.dirSel = .both ∨ (p.dirSel = .reads ∧ ch = .read) ∨ (p.dirSel = .writes ∧ ch = .write))
      ∧ p.mapBase ≤ hs.addr.toNat ∧ hs.addr.toNat < p.mapBase + 4096 * 2 ^ p.mapGranule := by
  rw [reachesFilter, Bool.and_eq_true, selects_iff, inWindow, Bool.and_eq_true, decide_eq_true_eq, decide_eq_true_eq, span]

/-- The state after the table's decision about a handshake (R59). -/
def State.decided (s : State) (ch : Channel) (hs : Handshake) : State :=
  { s with filter := (filterDecide s.params.defaultAction ch hs.id s.filter).table }

theorem classify_apart (ch : Channel) (hs : Handshake) (s : State) (apart : reachesFilter s.params ch hs = false) :
    classify ch hs s = (s, none) := by
  rw [classify, apart, if_neg Bool.false_ne_true]

theorem classify_decides (ch : Channel) (hs : Handshake) (s : State) (reaches : reachesFilter s.params ch hs = true) :
    classify ch hs s = (s.decided ch hs,
      if decide ((filterDecide s.params.defaultAction ch hs.id s.filter).action = .count)
          && passesCell s.params s.engine.mirror (cellIndex s.params hs.addr.toNat) then
        some (recordOf s.params (filterDecide s.params.defaultAction ch hs.id s.filter) hs)
      else none) := by
  rw [classify, if_pos reaches]
  simp only
  split <;> rfl

/-- A classification changes the table alone. -/
theorem classify_kept (ch : Channel) (hs : Handshake) (s : State) :
    (classify ch hs s).1 = { s with filter := (classify ch hs s).1.filter } := by
  cases reaches : reachesFilter s.params ch hs with
  | false => rw [classify_apart ch hs s reaches]
  | true =>
    rw [classify_decides ch hs s reaches]
    rfl

/-- A handshake that passes on a channel does not touch the classification of another. -/
theorem classify_passHandshake (ch other : Channel) (hs first : Handshake) (s : State) :
    classify ch hs (passHandshake other first s) = (passHandshake other first (classify ch hs s).1, (classify ch hs s).2) := by
  have same : (passHandshake other first s).params = s.params := by cases other <;> rfl
  cases reaches : reachesFilter s.params ch hs with
  | false => rw [classify_apart ch hs s reaches, classify_apart ch hs _ (by rw [same, reaches])]
  | true =>
    rw [classify_decides ch hs s reaches, classify_decides ch hs _ (by rw [same, reaches])]
    cases other <;> rfl

/-! ### A presentation on one channel (R50, R52) -/

theorem presentOn_none (ch : Channel) (s : State) : presentOn ch none s = (s, none) := rfl

theorem presentOn_held (ch : Channel) (hs : Handshake) (s : State) (held : s.hold ch ≠ none) : presentOn ch (some hs) s = (s, none) := by
  simp only [presentOn, Option.isSome_iff_ne_none.2 held, if_true]

theorem presentOn_elsewhere (ch : Channel) (hs : Handshake) (s : State) (open' : s.hold ch = none) (state : s.ctl.state ≠ .opened) :
    presentOn ch (some hs) s = (passHandshake ch hs s, none) := by
  simp only [presentOn, open', Option.isSome_none, Bool.false_eq_true, if_false, if_neg state]

theorem presentOn_passes (ch : Channel) (hs : Handshake) (s t : State) (open' : s.hold ch = none) (opened : s.ctl.state = .opened)
    (class' : classify ch hs s = (t, none)) : presentOn ch (some hs) s = (passHandshake ch hs t, none) := by
  simp only [presentOn, open', Option.isSome_none, Bool.false_eq_true, if_false, if_pos opened, class']

theorem presentOn_observes (ch : Channel) (hs : Handshake) (s t : State) (r : Record) (open' : s.hold ch = none)
    (opened : s.ctl.state = .opened) (class' : classify ch hs s = (t, some r)) :
    presentOn ch (some hs) s = (t, some (r, hs)) := by
  simp only [presentOn, open', Option.isSome_none, Bool.false_eq_true, if_false, if_pos opened, class']

/-! ### The arbiter (R65, R67) -/

theorem setHold_of_open (ch : Channel) (s : State) (open' : s.hold ch = none) : setHold ch none s = s := by
  cases ch with
  | read =>
    have path : { s.path with rd := none } = s.path := by
      rw [← (show s.path.rd = none from open')]
    rw [setHold, path]
  | write =>
    have path : { s.path with wr := none } = s.path := by
      rw [← (show s.path.wr = none from open')]
    rw [setHold, path]

/-- A grant to a channel whose gate is open. -/
theorem grant_open (ch : Channel) (r : Record) (hs : Handshake) (s : State) (open' : s.hold ch = none) :
    grant ch r hs s = passHandshake ch hs { s with queue := { records := s.queue.records ++ [r], history := ch } } := by
  have same : ({ s with queue := { records := s.queue.records ++ [r], history := ch } } : State).hold ch = none := by
    rw [← open']
    cases ch <;> rfl
  rw [grant, setHold_of_open ch _ same]

theorem request_granted (ch : Channel) (r : Record) (hs : Handshake) (s : State) (open' : s.hold ch = none)
    (room : s.queue.records.length < 32) :
    request ch r hs s = passHandshake ch hs { s with queue := { records := s.queue.records ++ [r], history := ch } } := by
  rw [request, if_pos (show s.queue.records.length < Config.queueDepth from room), grant_open ch r hs s open']

theorem request_refused (ch : Channel) (r : Record) (hs : Handshake) (s : State) (full : 32 ≤ s.queue.records.length) :
    request ch r hs s = noSlot ch r hs s := if_neg (Nat.not_lt.2 full)

theorem noSlot_hold (ch : Channel) (r : Record) (hs : Handshake) (s : State) (policy : s.params.capturePolicy = .hold) :
    noSlot ch r hs s = setHold ch (some { handshake := hs, record := r, limit := s.params.holdLimit, timer := 0 }) s := by
  simp only [noSlot, policy]

theorem noSlot_shed (ch : Channel) (r : Record) (hs : Handshake) (s : State) (policy : s.params.capturePolicy = .shed) :
    noSlot ch r hs s = shedNotice (passHandshake ch hs s) := by
  simp only [noSlot, policy]

theorem passHandshake_hold (ch other : Channel) (hs : Handshake) (s : State) : (passHandshake ch hs s).hold other = s.hold other := by
  cases ch <;> cases other <;> rfl

theorem requestIf_state (ch : Channel) (q : Option (Record × Handshake)) (s : State) : (requestIf ch q s).ctl.state = s.ctl.state := by
  rcases requestIf_told ch q s with ⟨ctl, -⟩ | ⟨ctl, -⟩ <;> rw [ctl]
  rfl

/-! ### One handshake (R52, R53) -/

theorem exec_handshakePresented (rd wr : Option Handshake) (s : State) : exec (.handshakePresented rd wr) s =
    .next (considerEnd (arbitrate (presentOn .read rd s).2 (presentOn .write wr (presentOn .read rd s).1).2
      (presentOn .write wr (presentOn .read rd s).1).1)) := rfl

theorem arbitrate_read (q : Option (Record × Handshake)) (s : State) : arbitrate q none s = requestIf .read q s := by
  unfold arbitrate
  cases s.queue.history <;> rfl

theorem arbitrate_write (q : Option (Record × Handshake)) (s : State) : arbitrate none q s = requestIf .write q s := by
  unfold arbitrate
  cases s.queue.history <;> rfl

theorem exec_presentedOn (ch : Channel) (hs : Handshake) (s : State) : exec (presentedOn ch hs) s =
    .next (considerEnd (requestIf ch (presentOn ch (some hs) s).2 (presentOn ch (some hs) s).1)) := by
  cases ch with
  | read => rw [presentedOn, exec_handshakePresented, presentOn_none, arbitrate_read]
  | write => rw [presentedOn, exec_handshakePresented, presentOn_none, arbitrate_write]

/-- While OPEN nothing follows the arbiter. -/
theorem considerEnd_requestIf (ch : Channel) (q : Option (Record × Handshake)) (s : State) (opened : s.ctl.state = .opened) :
    considerEnd (requestIf ch q s) = requestIf ch q s :=
  considerEnd_of_ne _ (by rw [requestIf_state, opened]; exact CtlState.noConfusion)

/-- A handshake that passes unrecorded. -/
theorem exec_presentedOn_passes (ch : Channel) (hs : Handshake) (s t : State) (open' : s.hold ch = none) (opened : s.ctl.state = .opened)
    (class' : classify ch hs s = (t, none)) : exec (presentedOn ch hs) s = .next (passHandshake ch hs t) := by
  have state : (passHandshake ch hs t).ctl.state = .opened := by
    have kept : t = { s with filter := t.filter } := by
      have kept := classify_kept ch hs s
      rwa [class'] at kept
    rw [passHandshake_ctl, kept]
    exact opened
  rw [exec_presentedOn, presentOn_passes ch hs s t open' opened class']
  exact congrArg _ (considerEnd_requestIf ch none _ state)

/-- An observation, at the arbiter. -/
theorem exec_presentedOn_observes (ch : Channel) (hs : Handshake) (s t : State) (r : Record) (open' : s.hold ch = none)
    (opened : s.ctl.state = .opened) (class' : classify ch hs s = (t, some r)) :
    exec (presentedOn ch hs) s = .next (request ch r hs t) := by
  have state : t.ctl.state = .opened := by
    have kept : t = { s with filter := t.filter } := by
      have kept := classify_kept ch hs s
      rwa [class'] at kept
    rw [kept]
    exact opened
  rw [exec_presentedOn, presentOn_observes ch hs s t r open' opened class']
  exact congrArg _ (considerEnd_requestIf ch (some (r, hs)) t state)

/-- A decision stops at IGNORE, at a gated bank, or at a deep-masked cell (R53, R58). -/
theorem passesCell_iff (p : Params) (mirror : List Bool) (i : Nat) (a : Action) :
    (decide (a = .count) && passesCell p mirror i) = true ↔
      ¬ (a = .ignore ∨ p.bankGate.getLsbD (i / 64) = true ∨ (p.deepMask = true ∧ mirror.getD i false = true)) := by
  have action : decide (a = .count) = !decide (a = .ignore) := by cases a <;> rfl
  rw [action, passesCell, gated]
  simp only [Bool.and_eq_true, Bool.or_eq_true, Bool.not_eq_true', decide_eq_false_iff_not, not_or, not_and, Bool.not_eq_true,
    Config.bankCells]
  cases p.deepMask <;> simp

/-- Settles O42: the classification by its steps, and the request of an observation. -/
theorem handshakeIsClassifiedStepByStep : Obligations.HandshakeIsClassifiedStepByStep := by
  intro ch hs s open'
  have stops := passesCell_iff s.params s.engine.mirror (cellIndex s.params hs.addr.toNat)
    (filterDecide s.params.defaultAction ch hs.id s.filter).action
  have observed (reaches : reachesFilter s.params ch hs = true)
      (live : (decide ((filterDecide s.params.defaultAction ch hs.id s.filter).action = .count)
        && passesCell s.params s.engine.mirror (cellIndex s.params hs.addr.toNat)) = true) :
      classify ch hs s =
        (s.decided ch hs, some (recordOf s.params (filterDecide s.params.defaultAction ch hs.id s.filter) hs)) := by
    rw [classify_decides ch hs s reaches, if_pos live]
  have gate : (s.decided ch hs).hold ch = none := by
    rw [← open']
    cases ch <;> rfl
  refine ⟨fun state => ?_, fun opened apart => ?_, fun opened reaches stopped => ?_, fun opened reaches live room => ?_,
    fun opened reaches live full policy => ?_, fun e progress opened reaches live full policy => ?_⟩
  · rw [exec_presentedOn, presentOn_elsewhere ch hs s open' state]
    rfl
  · exact exec_presentedOn_passes ch hs s s open' opened
      (classify_apart ch hs s (Bool.eq_false_iff.2 fun reaches => apart ((reachesFilter_iff _ _ _).1 reaches)))
  · refine exec_presentedOn_passes ch hs s _ open' opened ?_
    rw [classify_decides ch hs s ((reachesFilter_iff _ _ _).2 reaches), if_neg fun live => stops.1 live stopped]
    rfl
  · rw [exec_presentedOn_observes ch hs s _ _ open' opened (observed ((reachesFilter_iff _ _ _).2 reaches) (stops.2 live)),
      request_granted ch _ hs (s.decided ch hs) gate room]
    rfl
  · rw [exec_presentedOn_observes ch hs s _ _ open' opened (observed ((reachesFilter_iff _ _ _).2 reaches) (stops.2 live)),
      request_refused ch _ hs (s.decided ch hs) full, noSlot_hold ch _ hs (s.decided ch hs) policy]
    rfl
  · have shed := shedNotice_eq e (passHandshake ch hs (s.decided ch hs)) ((congrArg Controller.desc (passHandshake_ctl _ _ _)).trans progress)
    rw [exec_presentedOn_observes ch hs s _ _ open' opened (observed ((reachesFilter_iff _ _ _).2 reaches) (stops.2 live)),
      request_refused ch _ hs (s.decided ch hs) full, noSlot_shed ch _ hs (s.decided ch hs) policy, shed, passHandshake_ctl]
    rfl

/-! ### Two handshakes at one event (R62, R65) -/

theorem classify_hold (ch other : Channel) (hs : Handshake) (s : State) : (classify ch hs s).1.hold other = s.hold other := by
  rw [classify_kept]
  cases other <;> rfl

theorem classify_ctl (ch : Channel) (hs : Handshake) (s : State) : (classify ch hs s).1.ctl = s.ctl := by rw [classify_kept]

theorem classify_queue (ch : Channel) (hs : Handshake) (s : State) : (classify ch hs s).1.queue = s.queue := by rw [classify_kept]

theorem presentOn_hold (ch other : Channel) (hs : Handshake) (s : State) :
    (presentOn ch (some hs) s).1.hold other = s.hold other := by
  have same := classify_hold ch other hs s
  unfold presentOn
  simp only
  split
  · rfl
  · split
    · split
      · rename_i class'
        rwa [class'] at same
      · rename_i class'
        rw [class'] at same
        rw [passHandshake_hold, same]
    · exact passHandshake_hold ch other hs s

/-- Both handshakes classified, each on its open gate: `t` and `u` are the states after the first and the second classification. -/
structure BothClassified (hr hw : Handshake) (s t u : State) (r w : Option Record) : Prop where
  opened : s.ctl.state = .opened
  rd : s.hold .read = none
  wr : s.hold .write = none
  first : classify .read hr s = (t, r)
  second : classify .write hw t = (u, w)

section
variable {hr hw : Handshake} {s t u : State} {r w : Option Record} (h : BothClassified hr hw s t u r w)
include h

theorem BothClassified.kept : t.ctl = s.ctl ∧ u.ctl = s.ctl ∧ u.queue = s.queue ∧ t.hold .write = none ∧ u.hold .read = none
    ∧ u.hold .write = none := by
  have t_eq : t = (classify .read hr s).1 := by rw [h.first]
  have u_eq : u = (classify .write hw t).1 := by rw [h.second]
  refine ⟨?_, ?_, ?_, ?_, ?_, ?_⟩
  · rw [t_eq, classify_ctl]
  · rw [u_eq, classify_ctl, t_eq, classify_ctl]
  · rw [u_eq, classify_queue, t_eq, classify_queue]
  · rw [t_eq, classify_hold, h.wr]
  · rw [u_eq, classify_hold, t_eq, classify_hold, h.rd]
  · rw [u_eq, classify_hold, t_eq, classify_hold, h.wr]

/-- The two presentations: a handshake that is no observation has passed, an observation asks for a slot. -/
theorem BothClassified.exec_eq : exec (.handshakePresented (some hr) (some hw)) s =
    .next (considerEnd (arbitrate (r.map fun x => (x, hr)) (w.map fun x => (x, hw))
      (match r, w with
        | none, none => passHandshake .write hw (passHandshake .read hr u)
        | none, some _ => passHandshake .read hr u
        | some _, none => passHandshake .write hw u
        | some _, some _ => u))) := by
  obtain ⟨t_ctl, -, -, t_wr, -, -⟩ := h.kept
  have t_opened : t.ctl.state = .opened := by rw [t_ctl, h.opened]
  rw [exec_handshakePresented]
  cases r with
  | none =>
    have second := classify_passHandshake .write .read hw hr t
    rw [h.second] at second
    have wr : (passHandshake .read hr t).hold .write = none := by rw [passHandshake_hold, t_wr]
    have opened : (passHandshake .read hr t).ctl.state = .opened := by rw [passHandshake_ctl, t_opened]
    rw [presentOn_passes .read hr s t h.rd h.opened h.first]
    cases w with
    | none => rw [presentOn_passes .write hw _ _ wr opened second]; rfl
    | some w => rw [presentOn_observes .write hw _ _ w wr opened second]; rfl
  | some r =>
    rw [presentOn_observes .read hr s t r h.rd h.opened h.first]
    cases w with
    | none => rw [presentOn_passes .write hw t u t_wr t_opened h.second]; rfl
    | some w => rw [presentOn_observes .write hw t u w t_wr t_opened h.second]; rfl

end

theorem arbitrate_prefersRead (q p : Option (Record × Handshake)) (s : State) (history : s.queue.history = .write) :
    arbitrate q p s = requestIf .write p (requestIf .read q s) := by simp only [arbitrate, history]

theorem arbitrate_prefersWrite (q p : Option (Record × Handshake)) (s : State) (history : s.queue.history = .read) :
    arbitrate q p s = requestIf .read q (requestIf .write p s) := by simp only [arbitrate, history]

theorem considerEnd_arbitrate (q p : Option (Record × Handshake)) (s : State) (opened : s.ctl.state = .opened) :
    considerEnd (arbitrate q p s) = arbitrate q p s := by
  refine considerEnd_of_ne _ ?_
  have state : (arbitrate q p s).ctl.state = s.ctl.state := by
    cases history : s.queue.history with
    | read => rw [arbitrate_prefersWrite q p s history, requestIf_state, requestIf_state]
    | write => rw [arbitrate_prefersRead q p s history, requestIf_state, requestIf_state]
  rw [state, opened]
  exact CtlState.noConfusion

theorem noSlot_queue (ch : Channel) (r : Record) (hs : Handshake) (s : State) : (noSlot ch r hs s).queue = s.queue := by
  unfold noSlot
  cases s.params.capturePolicy with
  | shed =>
    have kept (t : State) : (shedNotice t).queue = t.queue := by
      unfold shedNotice
      simp only
      split <;> rfl
    exact (kept _).trans (passHandshake_queue ..)
  | hold => exact setHold_queue ..

/-- Two observations at one event, the channel `a` preferred: both slots, the last slot, or none (R62, R65). -/
theorem request_request (a b : Channel) (x y : Record) (ha hb : Handshake) (u : State) (apart : a ≠ b) (open_a : u.hold a = none)
    (open_b : u.hold b = none) :
    (u.queue.records.length + 2 ≤ 32 → request b y hb (request a x ha u) = passHandshake b hb (passHandshake a ha
        { u with queue := { records := u.queue.records ++ [x, y], history := b } }))
      ∧ (u.queue.records.length + 1 = 32 → request b y hb (request a x ha u) = noSlot b y hb (passHandshake a ha
        { u with queue := { records := u.queue.records ++ [x], history := a } }))
      ∧ (32 ≤ u.queue.records.length → request b y hb (request a x ha u) = noSlot b y hb (noSlot a x ha u)) := by
  have granted (room : u.queue.records.length < 32) := request_granted a x ha u open_a room
  have queue : (passHandshake a ha { u with queue := { records := u.queue.records ++ [x], history := a } }).queue =
      { records := u.queue.records ++ [x], history := a } := passHandshake_queue ..
  refine ⟨fun room => ?_, fun room => ?_, fun full => ?_⟩
  · have open' : (passHandshake a ha { u with queue := { records := u.queue.records ++ [x], history := a } }).hold b = none := by
      rw [passHandshake_hold, ← open_b]
      cases b <;> rfl
    rw [granted (by omega), request_granted b y hb _ open' (by rw [queue, List.length_append, List.length_singleton]; omega), queue,
      List.append_assoc]
    cases a <;> rfl
  · rw [granted (by omega), request_refused b y hb _ (by rw [queue, List.length_append, List.length_singleton]; omega)]
  · rw [request_refused a x ha u full, request_refused b y hb _ (by rw [noSlot_queue]; exact full)]

theorem passHandshake_comm (hr hw : Handshake) (s : State) :
    passHandshake .read hr (passHandshake .write hw s) = passHandshake .write hw (passHandshake .read hr s) := rfl

/-- Settles O44: a held channel presents nothing; outside OPEN both pass; while OPEN the arbiter, by the observations and the history. -/
theorem preferredChannelIsServedFirst : Obligations.PreferredChannelIsServedFirst := by
  intro hr hw s
  refine ⟨fun held => ?_, fun held => ?_, fun state rd wr => ?_, fun opened rd wr t u =>
    ⟨fun first second => ?_, fun r first second => ?_, fun w first second => ?_, fun r w first second => ?_⟩⟩
  · rw [exec_handshakePresented, exec_handshakePresented, presentOn_held .read hr s held, presentOn_none]
  · have still : (presentOn .read (some hr) s).1.hold .write ≠ none := by
      rw [presentOn_hold]
      exact held
    rw [exec_handshakePresented, exec_handshakePresented, presentOn_held .write hw _ still, presentOn_none]
  · have wr' : (passHandshake .read hr s).hold .write = none := by rw [passHandshake_hold, wr]
    rw [exec_handshakePresented, presentOn_elsewhere .read hr s rd state,
      presentOn_elsewhere .write hw (passHandshake .read hr s) wr' (by rw [passHandshake_ctl]; exact state)]
    simp only [arbitrate_read, requestIf]
  all_goals
    have both : BothClassified hr hw s t u _ _ := ⟨opened, rd, wr, first, second⟩
    obtain ⟨-, u_ctl, u_queue, -, u_rd, u_wr⟩ := both.kept
    have u_opened : u.ctl.state = .opened := by rw [u_ctl, opened]
    rw [both.exec_eq, considerEnd_arbitrate _ _ _ (by simpa only [passHandshake_ctl] using u_opened)]
  · rw [Option.map_none, Option.map_none, arbitrate_read, requestIf]
  · have rd' : (passHandshake .write hw u).hold .read = none := by rw [passHandshake_hold, u_rd]
    have queue : (passHandshake .write hw u).queue = s.queue := by rw [passHandshake_queue, u_queue]
    rw [Option.map_none, Option.map_some, arbitrate_read, requestIf]
    refine ⟨fun room => ?_, fun full => ?_⟩
    · rw [request_granted .read r hr _ rd' (by rw [queue]; exact room), queue]
      rfl
    · rw [request_refused .read r hr _ (by rw [queue]; exact full)]
  · have wr' : (passHandshake .read hr u).hold .write = none := by rw [passHandshake_hold, u_wr]
    have queue : (passHandshake .read hr u).queue = s.queue := by rw [passHandshake_queue, u_queue]
    rw [Option.map_none, Option.map_some, arbitrate_write, requestIf]
    refine ⟨fun room => ?_, fun full => ?_⟩
    · rw [request_granted .write w hw _ wr' (by rw [queue]; exact room), queue]
      rfl
    · rw [request_refused .write w hw _ (by rw [queue]; exact full)]
  · rw [Option.map_some, Option.map_some]
    refine ⟨fun history => ?_, fun history => ?_⟩
    · rw [arbitrate_prefersRead _ _ u (by rw [u_queue, history]), ← u_queue]
      have two := request_request .read .write r w hr hw u (by decide) u_rd u_wr
      exact ⟨fun room => congrArg _ (two.1 room), fun room => congrArg _ (two.2.1 room), fun full => congrArg _ (two.2.2 full)⟩
    · rw [arbitrate_prefersWrite _ _ u (by rw [u_queue, history]), ← u_queue]
      have two := request_request .write .read w r hw hr u (by decide) u_wr u_rd
      exact ⟨fun room => congrArg _ (two.1 room), fun room => congrArg _ (two.2.1 room), fun full => congrArg _ (two.2.2 full)⟩

end Sys2Proof.Machine
end

section
/-! PROOF. What every event of a cell keeps: its config, the ranges, the half that is not live, and the terms on which it reports and
sends notices. -/

namespace Sys2Proof.Machine

/-! ### The terms of an event of one cell -/

/-- The notices of a cell that takes part tell each change of its activity, in order (R10, R11, R20). -/
def NoticesTell : Activity → List Notice → Activity → Prop
  | a, [], b => b = a
  | .cold, .becameHot :: l, b => NoticesTell .hot l b
  | .hot, .becameCold :: l, b => NoticesTell .cold l b
  | _, _ :: _, _ => False

theorem NoticesTell.append {a b c : Activity} {l k : List Notice} (h1 : NoticesTell a l b) (h2 : NoticesTell b k c) :
    NoticesTell a (l ++ k) c := by
  induction l generalizing a with
  | nil =>
    obtain rfl : b = a := h1
    exact h2
  | cons n l ih =>
    match a, n, h1 with
    | .cold, .becameHot, h1 => exact ih h1
    | .hot, .becameCold, h1 => exact ih h1

/-- What every event leaves of a cell: the config; the ranges of segments and level; the level of an aux cell; the flag onset_seen, once
set, and set with each report; in a continuous mode the half that is not live. -/
structure CellOut.Sound (p : Params) (h : Half) (i : Nat) (c : Cell) (o : CellOut) : Prop where
  mask : o.cell.mask = c.mask
  trim : o.cell.trim = c.trim
  ranged : c.Ranged → o.cell.Ranged
  level : c.level ≤ 4095 → o.cell.level ≤ 4095
  aux : 4096 ≤ i → o.cell.level = c.level
  seen : c.onsetSeen = true → o.cell.onsetSeen = true
  reports : o.report = true → c.onsetSeen = false ∧ o.cell.onsetSeen = true
  apart : p.mode.sequential = false → c.SameIn o.cell (.half h.other)

/-- The notices that a cell sends tell its changes, where it takes part, and it sends none elsewhere (R10, R13, R16). -/
def CellOut.Told (p : Params) (i : Nat) (c : Cell) (o : CellOut) : Prop :=
  (c.eligible p i = true → NoticesTell c.activity o.notices o.cell.activity) ∧ (c.eligible p i = false → o.notices = [])

/-- An event of a cell that keeps both terms. -/
structure CellOut.Lawful (p : Params) (h : Half) (i : Nat) (c : Cell) (o : CellOut) : Prop where
  sound : o.Sound p h i c
  told : o.Told p i c

theorem eligible_congr {p : Params} {i : Nat} {c d : Cell} (mask : d.mask = c.mask) : d.eligible p i = c.eligible p i := by
  rw [Cell.eligible, Cell.eligible, mask]

theorem CellOut.Sound.andThen {p : Params} {h : Half} {i : Nat} {c : Cell} {a b : CellOut} (h1 : a.Sound p h i c)
    (h2 : b.Sound p h i a.cell) : (a.andThen b).Sound p h i c where
  mask := h2.mask.trans h1.mask
  trim := h2.trim.trans h1.trim
  ranged hc := h2.ranged (h1.ranged hc)
  level hc := h2.level (h1.level hc)
  aux hi := (h2.aux hi).trans (h1.aux hi)
  seen hc := h2.seen (h1.seen hc)
  reports hr := by
    rcases Bool.or_eq_true_iff.1 hr with first | second
    · exact ⟨(h1.reports first).1, h2.seen (h1.reports first).2⟩
    · obtain ⟨unseen, seen⟩ := h2.reports second
      refine ⟨Bool.eq_false_iff.2 fun before => ?_, seen⟩
      rw [h1.seen before] at unseen
      cases unseen
  apart hm := (h1.apart hm).trans (h2.apart hm)

theorem CellOut.Lawful.andThen {p : Params} {h : Half} {i : Nat} {c : Cell} {a b : CellOut} (h1 : a.Lawful p h i c)
    (h2 : b.Lawful p h i a.cell) : (a.andThen b).Lawful p h i c := by
  have same : a.cell.eligible p i = c.eligible p i := eligible_congr h1.sound.mask
  obtain ⟨tell1, none1⟩ := h1.told
  obtain ⟨tell2, none2⟩ := h2.told
  rw [same] at tell2 none2
  refine ⟨h1.sound.andThen h2.sound, fun part => (tell1 part).append (tell2 part), fun part => ?_⟩
  rw [CellOut.andThen, none1 part, none2 part, List.append_nil]

/-- The terms depend on the table by MODE and BANK_GATE alone. -/
theorem CellOut.Lawful.congr {p q : Params} {h : Half} {i : Nat} {c : Cell} {o : CellOut} (law : o.Lawful p h i c)
    (mode : q.mode = p.mode) (gate : q.bankGate = p.bankGate) : o.Lawful q h i c := by
  have same : c.eligible q i = c.eligible p i := by rw [Cell.eligible, Cell.eligible, gated, gated, gate]
  obtain ⟨⟨mask, trim, ranged, level, aux, seen, reports, apart⟩, told⟩ := law
  refine ⟨⟨mask, trim, ranged, level, aux, seen, reports, by rw [mode]; exact apart⟩, ?_⟩
  unfold CellOut.Told at told ⊢
  rwa [same]

/-! ### Each event of one cell -/

/-- A quiet event changes counters, flags or the level, within the terms. -/
theorem quietly_lawful {p : Params} {h : Half} {i : Nat} {c d : Cell} (mask : d.mask = c.mask) (trim : d.trim = c.trim)
    (activity : d.activity = c.activity) (ranged : c.Ranged → d.Ranged) (level : c.level ≤ 4095 → d.level ≤ 4095)
    (aux : 4096 ≤ i → d.level = c.level) (seen : c.onsetSeen = true → d.onsetSeen = true)
    (apart : p.mode.sequential = false → c.SameIn d (.half h.other)) : (quietly d).Lawful p h i c :=
  ⟨⟨mask, trim, ranged, level, aux, seen, fun none => absurd none Bool.false_ne_true, apart⟩, fun _ => activity, fun _ => rfl⟩

theorem quietly_self_lawful (p : Params) (h : Half) (i : Nat) (c : Cell) : (quietly c).Lawful p h i c :=
  quietly_lawful rfl rfl rfl id id (fun _ => rfl) id fun _ => .refl c _

theorem quietly_level_lawful (p : Params) (h : Half) (i : Nat) (c : Cell) (v : Nat) (small : c.level ≤ 4095 → v ≤ 4095) (array : i < 4096) :
    (quietly { c with level := v }).Lawful p h i c :=
  quietly_lawful rfl rfl rfl id small (fun aux => absurd array (Nat.not_lt.2 aux)) id fun _ => .of_segs rfl rfl rfl rfl _

/-- A write of the segments of a quantity. -/
theorem quietly_setSegs_lawful (p : Params) (h : Half) (i : Nat) (c : Cell) (q : Quantity) (v : Nat) :
    (quietly (c.setSegs (p.mode.places h q) v)).Lawful p h i c := by
  have kept := setSegs_segments (p.mode.places h q) c v
  refine quietly_lawful ?_ ?_ ?_ (setSegs_ranged _ c v) ?_ (fun _ => ?_) ?_ (setSegs_sameIn c p.mode h q v)
  all_goals rw [kept]
  · exact id
  · exact id

theorem quietly_bump_lawful (p : Params) (h : Half) (i : Nat) (c : Cell) (q : Quantity) : (quietly (c.bump p.mode h q)).Lawful p h i c := by
  rcases bump_eq c p.mode h q with eq | eq <;> rw [eq]
  · exact quietly_self_lawful p h i c
  · exact quietly_setSegs_lawful p h i c q _

/-- An onset of a cell that is COLD (R10). -/
theorem turnHot_lawful (p : Params) (h : Half) (i : Nat) (c : Cell) (cold : c.activity = .cold) : (turnHot p h i c).Lawful p h i c := by
  have flags : c.SameIn { c with activity := .hot, onsetSeen := true } (.half h.other) := .of_segs rfl rfl rfl rfl _
  by_cases part : c.TakesPart p i
  · obtain ⟨⟨mask, trim, ranged, level, aux, seen, -, apart⟩, -⟩ :=
      quietly_bump_lawful p h i { c with activity := .hot, onsetSeen := true } .episodes
    have eligible := (eligible_iff p i c).2 part
    have hot := (bump_sameBut { c with activity := .hot, onsetSeen := true } p.mode h .episodes).2.2
    rw [turnHot_of_takesPart p h i c part]
    refine ⟨⟨mask, trim, ranged, level, aux, fun _ => seen rfl, fun report => ⟨?_, seen rfl⟩, fun hm => flags.trans (apart hm)⟩,
      fun _ => ?_, fun none => ?_⟩
    · simpa using report
    · rw [cold]
      exact hot
    · rw [eligible] at none
      cases none
  · have eligible : c.eligible p i = false := Bool.eq_false_iff.2 fun e => part ((eligible_iff p i c).1 e)
    rw [turnHot_of_not_takesPart p h i c part]
    refine ⟨⟨rfl, rfl, id, id, fun _ => rfl, fun _ => rfl, fun none => absurd none Bool.false_ne_true, fun _ => flags⟩, fun e => ?_,
      fun _ => rfl⟩
    rw [eligible] at e
    cases e

/-- The end of an episode of a cell that is HOT (R11). -/
theorem turnCold_lawful (p : Params) (h : Half) (i : Nat) (c : Cell) (hot : c.activity = .hot) : (turnCold p i c).Lawful p h i c := by
  refine ⟨⟨rfl, rfl, id, id, fun _ => rfl, id, fun none => absurd none Bool.false_ne_true, fun _ => turnCold_sameIn p i c _⟩,
    fun eligible => ?_, fun eligible => ?_⟩
  · rw [hot, turnCold]
    simp only [eligible, if_true]
    rfl
  · rw [turnCold]
    simp only [eligible, Bool.false_eq_true, if_false]

theorem evaluate_lawful (p : Params) (h : Half) (pulse : Bool) (i : Nat) (c : Cell) : (evaluate p h pulse i c).Lawful p h i c := by
  unfold evaluate
  cases activity : c.activity with
  | cold =>
    simp only
    split
    · exact turnHot_lawful p h i c activity
    · exact quietly_self_lawful p h i c
  | hot =>
    simp only
    split
    · exact turnCold_lawful p h i c activity
    · exact quietly_self_lawful p h i c

/-- A change that sends nothing, and then an event. -/
theorem CellOut.Lawful.after_quiet {p : Params} {h : Half} {i : Nat} {c d : Cell} {o : CellOut} (h1 : (quietly d).Lawful p h i c)
    (h2 : o.Lawful p h i d) : o.Lawful p h i c := by
  have both := h1.andThen (b := o) h2
  have same : (quietly d).andThen o = o := by simp only [CellOut.andThen, quietly, Bool.false_or, List.nil_append]
  rwa [same] at both

theorem CellOut.Lawful.access {p : Params} {h : Half} {i : Nat} {c : Cell} {o : CellOut} (law : o.Lawful p h i c) :
    (o.access p h).Lawful p h i c := by
  have counted : (quietly (if o.cell.mask then o.cell else o.cell.bump p.mode h .accesses)).Lawful p h i o.cell := by
    split
    · exact quietly_self_lawful p h i o.cell
    · exact quietly_bump_lawful p h i o.cell .accesses
  have both := law.andThen counted
  have same : o.andThen (quietly (if o.cell.mask then o.cell else o.cell.bump p.mode h .accesses)) = o.access p h := by
    simp only [CellOut.andThen, quietly, CellOut.access, Bool.or_false, List.append_nil]
  rwa [same] at both

theorem weighted_lawful (p : Params) (h : Half) (pulse : Bool) (w i : Nat) (c : Cell) (array : i < 4096) :
    ((evaluate p h pulse i (c.addWeight w)).access p h).Lawful p h i c :=
  ((quietly_level_lawful p h i c _ (fun _ => Nat.min_le_left _ _) array).after_quiet (evaluate_lawful p h pulse i (c.addWeight w))).access

theorem recordAtCell_lawful (p : Params) (h : Half) (pulse : Bool) (w i : Nat) (c : Cell) : (recordAtCell p h pulse w i c).Lawful p h i c := by
  unfold recordAtCell
  split
  · exact quietly_self_lawful p h i c
  · rename_i inside
    split
    · exact evaluate_lawful p h pulse i c
    · refine weighted_lawful p h pulse w i c ?_
      rw [Bool.not_eq_true, Bool.or_eq_false_iff] at inside
      exact Nat.not_le.1 (of_decide_eq_false inside.2)

theorem decayAtCell_lawful (p : Params) (h : Half) (pulse : Bool) (i : Nat) (c : Cell) : (decayAtCell p h pulse i c).Lawful p h i c := by
  unfold decayAtCell
  split
  · rename_i array
    exact (quietly_level_lawful p h i c _ (fun small => (Nat.sub_le _ _).trans small) array).after_quiet (evaluate_lawful p h pulse i _)
  · exact quietly_self_lawful p h i c

theorem dwellAtCell_lawful (p : Params) (h : Half) (i : Nat) (c : Cell) : (quietly (dwellAtCell p h i c)).Lawful p h i c := by
  unfold dwellAtCell
  split
  · exact quietly_bump_lawful p h i c .dwell
  · exact quietly_self_lawful p h i c

theorem onsetAtCell_lawful (p : Params) (h : Half) (i : Nat) (c : Cell) : (quietly (onsetAtCell p h i c)).Lawful p h i c := by
  unfold onsetAtCell
  split
  · split
    · exact quietly_bump_lawful p h i c .onset
    · split
      · exact quietly_setSegs_lawful p h i c .onset 0
      · exact quietly_self_lawful p h i c
  · exact quietly_self_lawful p h i c

theorem pulseStartAtCell_lawful (p : Params) (h : Half) (i : Nat) (c : Cell) : (pulseStartAtCell p h i c).Lawful p h i c := by
  unfold pulseStartAtCell
  split
  · split
    · rename_i starts
      rw [Bool.and_eq_true, decide_eq_true_eq] at starts
      exact turnHot_lawful p h i c starts.2
    · exact quietly_self_lawful p h i c
  · split
    · rename_i starts
      rw [Bool.and_eq_true, decide_eq_true_eq] at starts
      exact weighted_lawful p h true p.testWeight i c starts.2
    · exact quietly_self_lawful p h i c

theorem pulseEndAtCell_lawful (p : Params) (h : Half) (i : Nat) (c : Cell) : (pulseEndAtCell p i c).Lawful p h i c := by
  unfold pulseEndAtCell
  split
  · rename_i ends
    rw [Bool.and_eq_true, decide_eq_true_eq] at ends
    exact turnCold_lawful p h i c ends.2
  · exact quietly_self_lawful p h i c

theorem lineUpAtCell_lawful (p : Params) (h : Half) (i : Nat) (c : Cell) : (lineUpAtCell p h i c).Lawful p h i c := by
  unfold lineUpAtCell
  split
  · rename_i follows
    rw [Bool.and_eq_true, decide_eq_true_eq] at follows
    exact turnHot_lawful p h i c follows.2
  · exact quietly_self_lawful p h i c

theorem lineDownAtCell_lawful (p : Params) (h : Half) (i : Nat) (c : Cell) : (lineDownAtCell p i c).Lawful p h i c := by
  unfold lineDownAtCell
  split
  · rename_i follows
    rw [Bool.and_eq_true, decide_eq_true_eq] at follows
    exact turnCold_lawful p h i c follows.2
  · exact quietly_self_lawful p h i c

/-! ### Parts of ticks -/

theorem tableAt_bankGate (s : State) (i : Nat) : (s.tableAt i).bankGate = s.params.bankGate := by
  unfold State.tableAt
  cases behind : s.paramsBehind with
  | none => rfl
  | some q =>
    simp only
    split
    · rw [paramsBehind_eq s q behind]
    · rfl

theorem partAtCell_lawful (s : State) (part : TickPart) (i : Nat) (c : Cell) :
    (s.partAtCell part i c).Lawful s.params s.ctl.liveHalf i c := by
  cases part with
  | decay => exact (decayAtCell_lawful _ _ _ i c).congr (tableAt_mode s i).symm (tableAt_bankGate s i).symm
  | dwell => exact dwellAtCell_lawful _ _ i c
  | pulseEnd => exact pulseEndAtCell_lawful _ _ i c
  | pulseStart => exact pulseStartAtCell_lawful _ _ i c

theorem partsAtCell_lawful (s : State) (parts : List TickPart) (i : Nat) (c : Cell) :
    (s.partsAtCell parts i c).Lawful s.params s.ctl.liveHalf i c := by
  induction parts generalizing c with
  | nil => exact quietly_self_lawful _ _ i c
  | cons part parts ih => exact (partAtCell_lawful s part i c).andThen (ih _)

/-- A tick whose notices all count (R20). -/
theorem tickAtCell_lawful (s : State) (parts : Nat → List TickPart) (i : Nat) (c : Cell) :
    (s.tickAtCell parts false i c).Lawful s.params s.ctl.liveHalf i c := partsAtCell_lawful s (parts i) i c

/-- A tick whose last notices may come after rest. -/
theorem tickAtCell_sound (s : State) (parts : Nat → List TickPart) (late : Bool) (i : Nat) (c : Cell) :
    (s.tickAtCell parts late i c).Sound s.params s.ctl.liveHalf i c := by
  obtain ⟨⟨mask, trim, ranged, level, aux, seen, reports, apart⟩, -⟩ := partsAtCell_lawful s (parts i) i c
  unfold State.tickAtCell
  simp only
  split
  · exact ⟨mask, trim, ranged, level, aux, seen, reports, apart⟩
  · exact ⟨mask, trim, ranged, level, aux, seen, reports, apart⟩

end Sys2Proof.Machine
end

section
/-!
PROOF. What a step can do, said once: every step is a chain of moves. An invariant of the part is then proved move by move.
-/

namespace Sys2Proof.Machine

/-! ### The moves -/

/-- Two states that differ outside the measurement alone: in the draws, the pins, the port and the causes; a cause is on its way only with
a CLEAR_ATTENTION or a SOFT_RESET directly behind (log 21). -/
structure State.SameCore (s t : State) : Prop where
  eq : t = { s with free := t.free, pins := t.pins, port := t.port, attn := t.attn, arriving := t.arriving }
  arriving : s.ClearBehind ∨ t.arriving = s.arriving ∨ t.arriving = 0

/-- A divider restarts, counts one period, or stays (R29, R30). -/
def Divider.Counts (d e : Divider) (period : Nat) : Prop := e = d ∨ e = d.restart ∨ e = d.count1 period

/-- What the three dividers do in a move. -/
structure TickGen.Counts (k l : TickGen) (p : Params) : Prop where
  decay : k.decay.Counts l.decay p.decayDiv
  dwell : k.dwell.Counts l.dwell p.dwellDiv
  onset : k.onset.Counts l.onset p.onsetDiv

/-- A change of a descriptor that leaves its mode, its first-onset list, the number of its bank counts and the flag of the settle cap. -/
structure Describes (f : Descriptor → Descriptor) : Prop where
  mode : ∀ d, (f d).mode = d.mode
  onsets : ∀ d, (f d).onsets = d.onsets
  banks : ∀ d, (f d).bankTruncated.length = d.bankTruncated.length
  settleCap : ∀ d, (f d).settleCap = d.settleCap

/-- What can happen at the event at which settling ends, before it ends: the notices that the Occupancy Counter takes may be fewer than the
cells have sent (R20, log 1). -/
inductive LateMove : State → State → Prop
  | outside {s t : State} (same : s.SameCore t) : LateMove s t
  | joins {s : State} : LateMove s { s with decayWaits := false }
  | counts {s : State} (g : Tpg) (n : Nat) : LateMove s { s with tpg := g, ctl := { s.ctl with settleCount := n } }
  | event {s : State} {f : Nat → Cell → CellOut} (settling : s.ctl.state = .settling)
      (sound : ∀ i c, (f i c).Sound s.params s.ctl.liveHalf i c) : LateMove s (onsetEvent f s)
  | expires {s : State} : LateMove s (capExpires s)
  | truncates {s : State} (settling : s.ctl.state = .settling) : LateMove s (truncateCounting s)

/-- A chain of late moves. -/
def LateMoves : State → State → Prop := Relation.ReflTransGen LateMove

/-- Which moves a row is made of: those of a TBCLK period, in which the rows behind an event change and a decay tick can wait; those of a
row without an event of the array; those of a row with one, which closes no window before it. -/
inductive Way
  | period
  | quiet
  | event

variable {w : Way}

/-- What a step can do, move by move. -/
inductive Move (w : Way) : State → State → Prop
  | outside {s t : State} (same : s.SameCore t) : Move w s t
  | turns {s : State} (q : List Instr) (period : w = .period) : Move w s { s with pending := q }
  | waits {s : State} (period : w = .period) : Move w s { s with decayWaits := true }
  | joins {s : State} : Move w s { s with decayWaits := false }
  /-- A SET_PARAM that meets the class of its parameter (R167, R168). -/
  | writes {s : State} {id : ParamId} {v : Nat} {q : Params} (written : s.params.write id v = some q)
      (met : s.classMet id.paramClass = true) : Move w s { s with params := q }
  | filters {s : State} {l : List FilterEntry} (length : l.length = s.filter.length) : Move w s { s with filter := l }
  | passes {s : State} (a b : Option Handshake) : Move w s { s with path := { s.path with memRd := a, memWr := b } }
  | gateOpens {s : State} (ch : Channel) : Move w s (setHold ch none s)
  | gateHolds {s : State} (ch : Channel) (r : Record) (hs : Handshake) (opened : s.ctl.state = .opened) :
      Move w s (setHold ch (some { handshake := hs, record := r, limit := s.params.holdLimit, timer := 0 }) s)
  | holdsCount {s : State} : Move w s { s with path := { s.path with rd := s.path.rd.map Hold.count1, wr := s.path.wr.map Hold.count1 } }
  | enters {s : State} (r : Record) (ch : Channel) (opened : s.ctl.state = .opened) (room : s.queue.records.length < 32) :
      Move w s { s with queue := { records := s.queue.records ++ [r], history := ch } }
  | takes {s : State} {r : Record} {rs : List Record} (front : s.queue.records = r :: rs) (measuring : s.measuring = true) :
      Move w s { s with queue := { s.queue with records := rs }, engine := { s.engine with applying := some r } }
  /-- An application completes at its cell (R7). -/
  | applies {s : State} {r : Record} {f : Nat → Cell → CellOut} (loud : w ≠ .quiet) (applying : s.engine.applying = some r)
      (lawful : ∀ i c, (f i c).Lawful s.params s.ctl.liveHalf i c) :
      Move w s (onsetEvent f { s with engine := { s.engine with applying := none } })
  | describes {s : State} {f : Descriptor → Descriptor} (law : Describes f) : Move w s (onDesc f s)
  /-- The state and the result of a configuration operation (R22). -/
  | operates {s : State} (op : CfgOp) (result : ResultBuffer) (idle : op ≠ .idle → s.engine.op ≠ .idle ∨ s.ctl.state = .idle) :
      Move w s { s with engine := { s.engine with op := op, result := result } }
  /-- A LOAD_STEP at its cell and at the mirror (R24). -/
  | configures {s : State} (i : Nat) (g : CellConfig) (inFlight : s.engine.op ≠ .idle) (trim : -16 ≤ g.trim ∧ g.trim ≤ 15) :
      Move w s { s with
        cells := s.cells.modify i fun c => c.configure g
        engine := { s.engine with
          mirror := if i < Config.arrayCells then s.engine.mirror.set i g.mask else s.engine.mirror } }
  | controls {s : State} (cycle : Bool) (left missed : Nat) :
      Move w s { s with ctl := { s.ctl with cycleOn := cycle, cyclesLeft := left, missedOpens := missed } }
  | opens {s : State} (cause : OpenCause) (idle : s.ctl.state = .idle) (free : s.engine.op = .idle) : Move w s (openWindowAs cause s)
  | shuts {s : State} (cause : CloseCause) (first : w ≠ .event) (opened : s.ctl.state = .opened) : Move w s (shutWindow cause s)
  /-- Settling ends: with the queue drained, or after an expiry of the settle cap (R86, R88). -/
  | ends {s u : State} (late : LateMoves s u) (start : s.ctl.state = .settling) (settling : u.ctl.state = .settling)
      (free : u.engine.applying = none) (empty : u.queue.records = [] ∨ u.capFlag = true) : Move w s (endSettling u)
  | expires {s : State} (settling : s.ctl.state = .settling) : Move w s (capExpires s)
  | event {s : State} {f : Nat → Cell → CellOut} (loud : w ≠ .quiet) (measuring : s.measuring = true)
      (lawful : ∀ i c, (f i c).Lawful s.params s.ctl.liveHalf i c) : Move w s (onsetEvent f s)
  | onsetTicks {s : State} (opened : s.ctl.state = .opened) (short : (onsetDelivered s).timerAtLength = false) :
      Move w s (onsetDelivered s)
  /-- The onset tick that brings the window length to WIN_LEN, and the close (R78). -/
  | onsetShuts {s : State} (opened : s.ctl.state = .opened) : Move w s (shutWindow .timer (onsetDelivered s))
  | dwellCounts {s : State} (measuring : s.measuring = true) :
      Move w s { s with tpg := s.tpg.tick, ctl := { s.ctl with settleCount := s.settleTicked } }
  | dividers {s : State} {k : TickGen} (counts : s.ticks.Counts k s.params) : Move w s { s with ticks := k }
  | pulses {s : State} (opened : s.ctl.state = .opened) : Move w s { s with tpg := .active s.params.tpLen }
  /-- The frame in hand goes on, its frozen counters cleared in the banks that a test selects (R125, R127, R134). -/
  | sends {s : State} {f g : Frame} {test : Nat → Bool} (sending : s.readout.frame = some f) (desc : g.desc = f.desc)
      (clears : ∀ b, b ≤ 64 → g.Cleared b → f.Cleared b ∨ test b = true) :
      Move w s (clearBanks test { s with readout := { s.readout with frame := some g } })
  | completes {s : State} {f : Frame} (sending : s.readout.frame = some f) (cleared : ∀ b, f.Cleared b) : Move w s (readoutComplete s)
  | softResets {s : State} : Move w s (softReset s)
  | powersOn {s : State} : Move w s (powerOnReset s)

/-- A chain of moves. -/
def Moves (w : Way) : State → State → Prop := Relation.ReflTransGen (Move w)

theorem Move.chain {s t : State} (h : Move w s t) : Moves w s t := .single h

theorem Moves.refl (s : State) : Moves w s s := Relation.ReflTransGen.refl

theorem Moves.trans {s t u : State} (h1 : Moves w s t) (h2 : Moves w t u) : Moves w s u := Relation.ReflTransGen.trans h1 h2

theorem Moves.of_eq {s t : State} (h : t = s) : Moves w s t := h ▸ Moves.refl t

/-- What every move keeps a chain keeps. -/
theorem Moves.keeps {P : State → Prop} (kept : ∀ s t, P s → Move w s t → P t) {s t : State} (h : Moves w s t) (hs : P s) : P t := by
  induction h with
  | refl => exact hs
  | tail _ move ih => exact kept _ _ ih move

theorem LateMoves.keeps {P : State → Prop} (kept : ∀ s t, P s → LateMove s t → P t) {s t : State} (h : LateMoves s t) (hs : P s) : P t := by
  induction h with
  | refl => exact hs
  | tail _ move ih => exact kept _ _ ih move

theorem SameCore.moves {s t : State} (same : s.SameCore t) : Moves w s t := Move.chain (.outside same)

/-- A change of the draws, the pins, the port and the pending set. -/
theorem sameCore_of_eq {s t : State} (eq : t = { s with free := t.free, pins := t.pins, port := t.port, attn := t.attn }) : s.SameCore t :=
  ⟨eq.trans (by rw [eq]), .inr (.inl (by rw [eq]))⟩

theorem raiseCause_sameCore (c : Cause) (s : State) : s.SameCore (raiseCause c s) := by
  refine ⟨rfl, ?_⟩
  by_cases clear : s.ClearBehind
  · exact .inl clear
  · refine .inr (.inl ?_)
    rw [raiseCause_arriving, lateCauses_zero s clear]
    simp

/-! ### Gates and the queue -/

theorem passHandshake_moves (ch : Channel) (hs : Handshake) (s : State) : Moves w s (passHandshake ch hs s) := by
  cases ch with
  | read => exact Move.chain (.passes (some hs) s.path.memWr)
  | write => exact Move.chain (.passes s.path.memRd (some hs))

theorem shedNotice_moves (s : State) : Moves w s (shedNotice s) := by
  have counts : Moves w s (onDesc (fun d => { d with shed := min 65535 (d.shed + 1) }) s) :=
    Move.chain (.describes ⟨fun _ => rfl, fun _ => rfl, fun _ => rfl, fun _ => rfl⟩)
  unfold shedNotice
  simp only
  split
  · exact counts.trans (SameCore.moves (raiseCause_sameCore ..))
  · exact counts

theorem releaseNotice_moves (s : State) : Moves w s (releaseNotice s) := by
  have counts : Moves w s (onDesc (fun d => { d with released := min 65535 (d.released + 1) }) s) :=
    Move.chain (.describes ⟨fun _ => rfl, fun _ => rfl, fun _ => rfl, fun _ => rfl⟩)
  exact counts.trans (SameCore.moves (raiseCause_sameCore .release _))

theorem expireHold_moves (ch : Channel) (s : State) : Moves w s (expireHold ch s) := by
  cases held : s.hold ch with
  | none => exact .of_eq (expireHold_none ch s held)
  | some x =>
    rw [expireHold_some ch s x held]
    exact ((Move.chain (.gateOpens ch)).trans (passHandshake_moves ..)).trans (releaseNotice_moves _)

theorem withdrawHold_moves (ch : Channel) (s : State) : Moves w s (withdrawHold ch s) := by
  unfold withdrawHold
  split
  · exact .refl s
  · exact (Move.chain (.gateOpens ch)).trans (releaseNotice_moves _)

theorem grant_moves (ch : Channel) (r : Record) (hs : Handshake) (s : State) (opened : s.ctl.state = .opened)
    (room : s.queue.records.length < 32) : Moves w s (grant ch r hs s) :=
  ((Move.chain (.enters r ch opened room)).trans (Move.chain (.gateOpens ch))).trans (passHandshake_moves ..)

theorem noSlot_moves (ch : Channel) (r : Record) (hs : Handshake) (s : State) (opened : s.ctl.state = .opened) :
    Moves w s (noSlot ch r hs s) := by
  unfold noSlot
  split
  · exact (passHandshake_moves ch hs s).trans (shedNotice_moves _)
  · exact Move.chain (.gateHolds ch r hs opened)

theorem requestIf_moves (ch : Channel) (q : Option (Record × Handshake)) (s : State) (opened : q ≠ none → s.ctl.state = .opened) :
    Moves w s (requestIf ch q s) := by
  cases q with
  | none => exact .refl s
  | some x =>
    have state := opened (Option.some_ne_none x)
    show Moves w s (request ch x.1 x.2 s)
    unfold request
    split
    · rename_i room
      exact grant_moves ch x.1 x.2 s state room
    · exact noSlot_moves ch x.1 x.2 s state

theorem offerSlot_moves (s : State) : Moves w s (offerSlot s) := by
  unfold offerSlot
  split
  · rename_i offered
    split
    · exact grant_moves _ _ _ s offered.1 offered.2
    · split
      · exact grant_moves _ _ _ s offered.1 offered.2
      · exact .refl s
  · exact .refl s

theorem length_filterDecide (a : Action) (ch : Channel) (id : BitVec 12) (l : List FilterEntry) :
    (filterDecide a ch id l).table.length = l.length := by
  induction l with
  | nil => rfl
  | cons e l ih =>
    unfold filterDecide
    split
    · rfl
    · exact congrArg (· + 1) ih

theorem classify_moves (ch : Channel) (hs : Handshake) (s : State) : Moves w s (classify ch hs s).1 := by
  cases reaches : reachesFilter s.params ch hs with
  | false => exact .of_eq (by rw [classify_apart ch hs s reaches])
  | true =>
    rw [classify_decides ch hs s reaches]
    exact Move.chain (.filters (length_filterDecide ..))

theorem presentOn_moves (ch : Channel) (o : Option Handshake) (s : State) : Moves w s (presentOn ch o s).1 := by
  cases o with
  | none => exact .refl s
  | some hs =>
    by_cases held : s.hold ch = none
    · by_cases opened : s.ctl.state = .opened
      · have decides := classify_moves (w := w) ch hs s
        cases class' : classify ch hs s with
        | mk t r =>
          rw [class'] at decides
          cases r with
          | none =>
            rw [presentOn_passes ch hs s t held opened class']
            exact decides.trans (passHandshake_moves ch hs t)
          | some r =>
            rw [presentOn_observes ch hs s t r held opened class']
            exact decides
      · rw [presentOn_elsewhere ch hs s held opened]
        exact passHandshake_moves ch hs s
    · exact .of_eq (by rw [presentOn_held ch hs s held])

theorem arbitrate_moves (rd wr : Option (Record × Handshake)) (s : State) (opened : rd ≠ none ∨ wr ≠ none → s.ctl.state = .opened) :
    Moves w s (arbitrate rd wr s) := by
  unfold arbitrate
  split
  · exact (requestIf_moves _ _ s fun h => opened (.inl h)).trans
      (requestIf_moves _ _ _ fun h => (requestIf_state ..).trans (opened (.inr h)))
  · exact (requestIf_moves _ _ s fun h => opened (.inr h)).trans
      (requestIf_moves _ _ _ fun h => (requestIf_state ..).trans (opened (.inl h)))

/-! ### The end of settling -/

theorem considerEnd_moves (s : State) : Moves w s (considerEnd s) := by
  unfold considerEnd
  split
  · rename_i may
    obtain ⟨settling, queue, free, -⟩ := (mayEnd_iff s).1 may
    exact Move.chain (.ends .refl settling settling free (.inl queue))
  · exact .refl s

/-- Settling that the expiry of the settle cap ends at once (R88). -/
theorem expired_ends {s u : State} (late : LateMoves s u) (start : s.ctl.state = .settling) (settling : u.ctl.state = .settling)
    (free : u.engine.applying = none) : Move w s (endSettling (truncateCounting (capExpires u))) :=
  .ends ((late.tail .expires).tail (.truncates settling)) start settling free (.inl rfl)

theorem capExpiry_moves (s : State) : Moves w s (capExpiry s) := by
  by_cases waits : s.CapWaits
  · rw [capExpiry_waits s waits]
    split
    · rename_i free
      exact (expired_ends .refl waits.1 waits.1 (Option.isNone_iff_eq_none.1 free)).chain
    · exact Move.chain (.expires waits.1)
  · exact .of_eq (capExpiry_of_not_waits s waits)

/-! ### Ticks -/

theorem TickGen.Counts.refl (k : TickGen) (p : Params) : k.Counts k p := ⟨.inl rfl, .inl rfl, .inl rfl⟩

theorem decayRestarted_moves (s : State) : Moves w s s.decayRestarted := Move.chain (.dividers ⟨.inr (.inl rfl), .inl rfl, .inl rfl⟩)

theorem dwellRestarted_moves (s : State) : Moves w s s.dwellRestarted := Move.chain (.dividers ⟨.inl rfl, .inr (.inl rfl), .inl rfl⟩)

theorem onsetRestarted_moves (s : State) : Moves w s s.onsetRestarted := Move.chain (.dividers ⟨.inl rfl, .inl rfl, .inr (.inl rfl)⟩)

theorem decayDelivered_moves (loud : w ≠ .quiet) (s : State) (measuring : s.measuring = true) : Moves w s (decayDelivered s) := by
  unfold decayDelivered
  simp only
  split
  · rename_i finished
    obtain ⟨settling, queue, free, -⟩ := (decayEvent_over s (decayParts s) (s.overAfter (decayParts s))).2 finished
    have start : s.ctl.state = .settling := by
      rw [(onsetEvent_outcome _ s).ctl] at settling
      exact settling
    exact Move.chain (.ends (.single (.event start fun i c => tickAtCell_sound s _ _ i c)) start settling free (.inl queue))
  · rename_i going
    rw [Bool.not_eq_true] at going
    rw [going]
    exact Move.chain (.event loud measuring fun i c => tickAtCell_lawful s _ i c)

/-- A decay tick waits for the row directly behind, or is a chain of moves of its own (log 24). -/
theorem decayTick_cases (loud : w ≠ .quiet) (s : State) : Moves w s (decayTick s)
    ∨ s.measuring = true ∧ s.decayJoins = true ∧ decayTick s = { s.decayRestarted with decayWaits := true } := by
  cases runs : s.ticks.decay.running with
  | false => exact .inl (.of_eq (decayTick_stopped s runs))
  | true =>
    cases measuring : s.measuring with
    | false =>
      rw [decayTick_resting s runs measuring]
      exact .inl (decayRestarted_moves s)
    | true =>
      rw [decayTick_measuring s runs measuring]
      cases joins : s.decayJoins with
      | true => exact .inr ⟨rfl, rfl, if_pos rfl⟩
      | false =>
        rw [if_neg Bool.false_ne_true]
        refine .inl ((decayRestarted_moves s).trans ?_)
        split
        · exact Move.chain (.event loud measuring fun i c => tickAtCell_lawful s.decayRestarted _ i c)
        · exact decayDelivered_moves loud s.decayRestarted measuring

theorem decayTick_moves (s : State) : Moves .period s (decayTick s) := by
  rcases decayTick_cases (w := .period) Way.noConfusion s with moves | ⟨-, -, waits⟩
  · exact moves
  · rw [waits]
    exact (decayRestarted_moves s).trans (Move.chain (.waits rfl))

theorem dwellTaken_late (s : State) (settling : s.ctl.state = .settling) : LateMoves s (dwellTaken s) :=
  ((Relation.ReflTransGen.single (.counts s.tpg.tick s.settleAfter)).tail .joins).tail
    (.event settling fun i c => tickAtCell_sound s _ _ i c)

theorem dwellTaken_moves (loud : w ≠ .quiet) (s : State) (measuring : s.measuring = true) (goes : (dwellReached s).2 = .goesOn) : Moves w s (dwellTaken s) := by
  have length : s.settleAfter = s.settleTicked := if_neg (by rw [goes]; exact AfterTick.noConfusion)
  have counted : Moves w s s.dwellCounted := by
    rw [State.dwellCounted, length]
    exact (Move.chain (.dwellCounts measuring)).trans (Move.chain .joins)
  rw [dwellTaken_event, goes]
  exact counted.trans (Move.chain (.event loud measuring fun i c => tickAtCell_lawful s _ i c))

theorem dwellTaken_ctl (s : State) : (dwellTaken s).ctl.state = s.ctl.state := by
  rw [(dwellTaken_outcome s).ctl]
  rfl

theorem dwellDelivered_moves (loud : w ≠ .quiet) (s : State) (measuring : s.measuring = true) : Moves w s (dwellDelivered s) := by
  rcases dwellDelivered_ends s with ⟨ends, settling, queue, free, -⟩ | ⟨-, ⟨goes, on, -⟩ | ⟨waits, free, expires⟩⟩
  · rw [ends]
    have start : s.ctl.state = .settling := (dwellTaken_ctl s).symm.trans settling
    exact Move.chain (.ends (dwellTaken_late s start) start settling free (.inl queue))
  · rw [goes]
    exact dwellTaken_moves loud s measuring on
  · have start : s.ctl.state = .settling := (dwellTaken_ctl s).symm.trans waits.1
    have none : (dwellTaken s).engine.applying = none := by rw [dwellTaken_applying, free]
    rw [expires, capExpiry_waits _ waits, none, Option.isNone_none, if_pos rfl]
    exact (expired_ends (dwellTaken_late s start) start waits.1 none).chain

theorem dwellTick_moves (loud : w ≠ .quiet) (s : State) : Moves w s (dwellTick s) := by
  cases runs : s.ticks.dwell.running with
  | false => exact .of_eq (dwellTick_stopped s runs)
  | true =>
    cases measuring : s.measuring with
    | false =>
      rw [dwellTick_resting s runs measuring]
      exact dwellRestarted_moves s
    | true =>
      cases due : s.capDue with
      | false =>
        rw [dwellTick_delivered s runs measuring due]
        exact (dwellRestarted_moves s).trans (dwellDelivered_moves loud s.dwellRestarted measuring)
      | true =>
        rw [dwellTick_due s runs measuring due]
        have expiry := (dwellRestarted_moves (w := w) s).trans (capExpiry_moves s.dwellRestarted)
        split
        · rename_i settling
          exact expiry.trans (dwellDelivered_moves loud _ ((measuring_iff _).2 (.inr settling)))
        · exact expiry

theorem onsetTick_moves (s : State) : Moves w s (onsetTick s) := by
  cases runs : s.ticks.onset.running with
  | false => exact .of_eq (onsetTick_stopped s runs)
  | true =>
    by_cases opened : s.ctl.state = .opened
    · rw [onsetTick_opened s runs opened]
      refine (onsetRestarted_moves s).trans ?_
      have shuts : Moves w s.onsetRestarted (shutWindow .timer (onsetDelivered s.onsetRestarted)) := Move.chain (.onsetShuts opened)
      split
      · rcases closeAtLength_cases (onsetDelivered s.onsetRestarted) with closes | ⟨-, closes, -⟩
        · rw [closes]
          exact shuts.trans (considerEnd_moves _)
        · rw [closes]
          exact shuts
      · rename_i short
        exact Move.chain (.onsetTicks opened (Bool.eq_false_iff.2 short))
    · rw [onsetTick_elsewhere s runs opened]
      exact onsetRestarted_moves s

/-! ### One TBCLK period -/

theorem happen_moves (d : Due) (s : State) : Moves .period s (happen d s) := by
  cases d with
  | decay => exact decayTick_moves s
  | dwell => exact dwellTick_moves Way.noConfusion s
  | onset => exact onsetTick_moves s
  | hold ch => exact expireHold_moves ch s

theorem happenIn_moves (n : Nat) (s : State) (d : Due) : Moves .period s (happenIn n s d) := by
  unfold happenIn
  split
  · exact happen_moves d s
  · exact .refl s

theorem happenAll_moves (n : Nat) (l : List Due) (s : State) : Moves .period s (happenAll n l s) := by
  induction l generalizing s with
  | nil => exact .refl s
  | cons d l ih =>
    have behind : Moves .period s { s with pending := l.map Due.row } := Move.chain (.turns _ rfl)
    exact (behind.trans (happenIn_moves n _ d)).trans (ih _)

theorem countPeriod_moves (s : State) : Moves w s (countPeriod s) := by
  have port : Moves w s (restPort s) := SameCore.moves (sameCore_of_eq rfl)
  have ticks : Move w (restPort s) { restPort s with
      ticks := {
        decay := s.ticks.decay.count1 s.params.decayDiv
        dwell := s.ticks.dwell.count1 s.params.dwellDiv
        onset := s.ticks.onset.count1 s.params.onsetDiv } } :=
    .dividers ⟨.inr (.inr rfl), .inr (.inr rfl), .inr (.inr rfl)⟩
  exact (port.trans ticks.chain).trans Move.holdsCount.chain

theorem tbclkPeriod_moves (s : State) : Moves .period s (tbclkPeriod s) := by
  unfold tbclkPeriod
  split
  · exact countPeriod_moves s
  · rename_i d l _
    simp only
    have starts : Moves .period s { countPeriod s with free := s.free + 1 } := (countPeriod_moves s).trans (SameCore.moves (sameCore_of_eq rfl))
    have alone (u : State) : Moves .period u { capExpiry { u with pending := [] } with pending := s.pending } := by
      have hidden : Moves .period u { u with pending := [] } := Move.chain (.turns _ rfl)
      exact (hidden.trans (capExpiry_moves _)).trans (Move.chain (.turns _ rfl))
    exact (starts.trans (happenAll_moves ..)).trans (alone _)

theorem idlePeriod_moves (s : State) : Moves .period s (idlePeriod s) := by
  unfold idlePeriod
  split
  · exact capExpiry_moves s
  · exact tbclkPeriod_moves s

/-! ### The frame -/

theorem periodOfDelivery_moves (s : State) : Moves .period s (periodOfDelivery s) := by
  unfold periodOfDelivery
  split
  · have alone : Moves .period s { s with pending := [] } := Move.chain (.turns _ rfl)
    exact ((alone.trans (capExpiry_moves _)).trans (tbclkPeriod_moves _)).trans (Move.chain (.turns _ rfl))
  · exact .refl s

theorem clearBanks_none (s : State) : clearBanks (fun _ => false) s = s := by
  cases frozen : s.ctl.frozen with
  | none => exact clearBanks_unfrozen _ s frozen
  | some z =>
    have cells : (clearBanks (fun _ => false) s).cells = s.cells := by
      refine List.ext_getElem? fun i => ?_
      rw [getElem?_cells_clearBanks _ s z frozen]
      exact Option.map_id'
    rw [clearBanks_frame, cells]

/-- The frame goes on with nothing cleared. -/
theorem goesOn_moves {s : State} {f : Frame} (g : Frame) (sending : s.readout.frame = some f) (desc : g.desc = f.desc)
    (clears : ∀ b, b ≤ 64 → g.Cleared b → f.Cleared b) : Moves w s { s with readout := { s.readout with frame := some g } } := by
  have move := Move.sends (w := w) (test := fun _ => false) sending desc fun b hb hg => .inl (clears b hb hg)
  rw [clearBanks_none] at move
  exact move.chain

/-- What the frame has cleared depends on its position and on whether an abort has been taken. -/
theorem Frame.Cleared.congr {f g : Frame} {b : Nat} (position : g.position = f.position) (abort : g.abortTaken = f.abortTaken)
    (h : g.Cleared b) : f.Cleared b := by
  unfold Frame.Cleared at h ⊢
  rwa [← position, ← abort]

/-- A frame that goes on within a record clears no bank; at the end of a record, the bank of the record. -/
theorem advance_clears (f : Frame) :
    (∀ p, f.advance = .goOn p → ∀ b, ({ f with position := p } : Frame).Cleared b → f.Cleared b)
      ∧ (∀ n p, f.advance = .emit n p → ∀ b, b ≤ 64 → ({ f with position := p } : Frame).Cleared b → f.Cleared b ∨ b = n)
      ∧ (f.advance = .complete → ∀ b, f.Cleared b) := by
  have onsets (b : Nat) (h : ({ f with position := f.afterOnsets } : Frame).Cleared b) : f.abortTaken = true := by
    cases abort : f.abortTaken with
    | true => rfl
    | false =>
      rw [Frame.afterOnsets, abort, if_neg Bool.false_ne_true] at h
      rcases h with before | ⟨-, taken⟩
      · exact absurd before (Nat.not_lt_zero b)
      · exact abort ▸ taken
  unfold Frame.advance
  cases position : f.position with
  | header k =>
    refine ⟨fun p hp b hb => ?_, fun n p hp => ?_, fun hp => ?_⟩
    · simp only [Frame.Cleared, position]
      simp only at hp
      split at hp
      · obtain rfl := Advance.goOn.inj hp
        exact hb
      · split at hp
        · obtain rfl := Advance.goOn.inj hp
          exact onsets b hb
        · obtain rfl := Advance.goOn.inj hp
          exact hb
    all_goals
      simp only at hp
      split at hp
      · cases hp
      · split at hp <;> cases hp
  | onsets e k =>
    refine ⟨fun p hp b hb => ?_, fun n p hp => ?_, fun hp => ?_⟩
    · simp only [Frame.Cleared, position]
      simp only at hp
      split at hp
      · obtain rfl := Advance.goOn.inj hp
        exact hb
      · split at hp
        · obtain rfl := Advance.goOn.inj hp
          exact hb
        · obtain rfl := Advance.goOn.inj hp
          exact onsets b hb
    all_goals
      simp only at hp
      split at hp
      · cases hp
      · split at hp <;> cases hp
  | bank m k =>
    refine ⟨fun p hp b hb => ?_, fun n p hp b small hb => ?_, fun hp => ?_⟩
    · simp only [Frame.Cleared, position]
      simp only at hp
      split at hp
      · obtain rfl := Advance.goOn.inj hp
        exact hb
      · split at hp <;> cases hp
    · simp only [Frame.Cleared, position]
      simp only at hp
      split at hp
      · cases hp
      · split at hp
        · rename_i last
          obtain ⟨rfl, rfl⟩ := Advance.emit.inj hp
          rw [Bool.or_eq_true, decide_eq_true_eq] at last
          rcases last with abort | aux
          · rcases Nat.lt_trichotomy b m with lt | eq | gt
            · exact .inl (.inl lt)
            · exact .inr eq
            · exact .inl (.inr ⟨gt, abort⟩)
          · have bound : b ≤ m := small.trans aux
            rcases Nat.lt_or_eq_of_le bound with lt | eq
            · exact .inl (.inl lt)
            · exact .inr eq
        · rename_i goes
          obtain ⟨rfl, rfl⟩ := Advance.emit.inj hp
          rcases hb with before | ⟨after, abort⟩
          · rcases Nat.lt_or_eq_of_le (Nat.le_of_lt_succ before) with lt | eq
            · exact .inl (.inl lt)
            · exact .inr eq
          · exact .inl (.inr ⟨Nat.lt_of_succ_lt after, abort⟩)
    · simp only at hp
      split at hp
      · cases hp
      · split at hp <;> cases hp
  | trailer k =>
    refine ⟨fun p hp b hb => ?_, fun n p hp => ?_, fun hp b => ?_⟩
    · simp only [Frame.Cleared, position]
    · simp only at hp
      split at hp <;> cases hp
    · simp only [Frame.Cleared, position]

/-- The state of a byte is that of its frame, with the port driven. -/
theorem deliver_moves (s : State) (f : Frame) (sending : s.readout.frame = some f) : Moves w s (deliver (decideKind s f) s) := by
  obtain ⟨goes, emits, completes⟩ := advance_clears (decideKind s f)
  have kept : (decideKind s f).desc = f.desc ∧ (decideKind s f).position = f.position ∧ (decideKind s f).abortTaken = f.abortTaken := by
    rw [decideKind_eq]
    exact ⟨rfl, rfl, rfl⟩
  obtain ⟨desc, position, abort⟩ := kept
  have driven (p : Pins) : Moves w s { s with pins := p } := SameCore.moves (sameCore_of_eq rfl)
  cases next : (decideKind s f).advance with
  | goOn p =>
    have clears (b : Nat) (_ : b ≤ 64)
        (h : ({ (decideKind s f).sent (nextByte s (decideKind s f)) with position := p } : Frame).Cleared b) : f.Cleared b :=
      (goes p next b h).congr position abort
    simp only [deliver, next]
    exact (driven _).trans (goesOn_moves _ (s := drivePort (decideKind s f) (nextByte s (decideKind s f)) s) sending desc clears)
  | emit n p =>
    have clears (b : Nat) (small : b ≤ 64)
        (h : ({ (decideKind s f).sent (nextByte s (decideKind s f)) with position := p } : Frame).Cleared b) :
        f.Cleared b ∨ decide (b = n) = true := (emits n p next b small h).imp (·.congr position abort) decide_eq_true
    simp only [deliver, next]
    exact (driven _).trans
      (Move.chain (.sends (s := drivePort (decideKind s f) (nextByte s (decideKind s f)) s) sending desc clears))
  | complete =>
    simp only [deliver, next]
    exact (driven _).trans (Move.chain (.completes (s := drivePort (decideKind s f) (nextByte s (decideKind s f)) s) sending
      fun b => (completes next b).congr position abort))

theorem deliverByte_moves (s : State) : Moves .period s (deliverByte s) := by
  refine (periodOfDelivery_moves s).trans ?_
  unfold deliverByte
  simp only
  cases sending : (periodOfDelivery s).readout.frame with
  | none => exact .refl _
  | some f => exact deliver_moves _ f sending

theorem abortFrame_moves (f : Frame) (s : State) (sending : s.readout.frame = some f) (before : ∀ k, f.position ≠ .trailer k) : Moves w s (abortFrame f s) := by
  have clears (b : Nat) (_ : b ≤ 64) (h : ({ f with abortTaken := true, position := abortPosition f.position } : Frame).Cleared b) :
      f.Cleared b ∨ abortClears f.position b = true := by
    cases position : f.position with
    | header k => exact .inr rfl
    | onsets e k => exact .inr rfl
    | trailer k => exact absurd position (before k)
    | bank n k =>
      simp only [Frame.Cleared, position]
      cases k with
      | zero =>
        rcases Nat.lt_or_ge b n with lt | ge
        · exact .inl (.inl lt)
        · exact .inr (decide_eq_true ge)
      | succ k =>
        rw [Frame.Cleared, position] at h
        rcases h with lt | ⟨gt, -⟩
        · exact .inl (.inl lt)
        · exact .inr (decide_eq_true gt)
  exact Move.chain (.sends (s := s) (g := { f with abortTaken := true, position := abortPosition f.position }) sending rfl clears)

/-! ### Requests -/

theorem withPort_moves (s : State) (p : Port) : Moves w s (s.withPort p) := SameCore.moves (sameCore_of_eq rfl)

theorem receiveRequest_moves (code : Byte) (args : List Byte) (check : Byte) (s : State) : Moves w s (receiveRequest code args check s) := by
  rw [receiveRequest_withPort]
  exact withPort_moves ..

theorem respond_moves (st : Status) (data : List Byte) (s : State) : Moves w s (respond st data s) := by
  unfold respond
  exact withPort_moves ..

theorem refuse_moves (code : Byte) (st : Status) (s : State) : Moves w s (refuse code st s) := by
  unfold refuse
  exact (withPort_moves s _).trans (respond_moves ..)

/-- A request moves as its own answer does. -/
theorem takeCommand_moves (code : Byte) (args : List Byte) (own : State → Answer) (s : State)
    (moves : ∀ (r t : State) (data : List Byte), own r = .ok (t, data) → Moves w r t) : Moves w s (takeCommand code args own s) := by
  have received := receiveRequest_moves (w := w) code args (requestCheck code args) s
  unfold takeCommand
  split
  · simp only
    split
    · exact received.trans (refuse_moves ..)
    · split
      · rename_i t data answer
        exact (received.trans (moves _ t data answer)).trans (respond_moves ..)
      · exact received.trans (refuse_moves ..)
  · exact .refl s

/-- A request with no argument. -/
theorem noArgs_moves {args : List Byte} {own : State → Answer} {r t : State} {data : List Byte} (h : noArgs args own r = .ok (t, data))
    (moves : own r = .ok (t, data) → Moves w r t) : Moves w r t := by
  unfold noArgs at h
  split at h
  · cases h
  · exact moves h

/-- A check that a request has passed. -/
theorem ok_of_ite {c : Prop} [Decidable c] {st : Status} {a : Answer} {x : State × List Byte}
    (h : (if c then .error st else a) = .ok x) : ¬ c ∧ a = .ok x := by
  split at h
  · cases h
  · rename_i passed
    exact ⟨passed, h⟩

theorem moves_of_ok {r u t : State} {data rest : List Byte} (h : (.ok (u, rest) : Answer) = .ok (t, data)) (moves : Moves w r u) :
    Moves w r t := by
  obtain ⟨rfl, -⟩ := Prod.mk.inj (Except.ok.inj h)
  exact moves

theorem answerGetStatus_moves (args : List Byte) (r t : State) (data : List Byte) (h : answerGetStatus args r = .ok (t, data)) :
    Moves w r t := by
  refine noArgs_moves h fun h => ?_
  simp only at h
  split at h
  · exact moves_of_ok h (.refl r)
  · exact moves_of_ok h (SameCore.moves (sameCore_of_eq rfl))

theorem answerSetParam_moves (args : List Byte) (r t : State) (data : List Byte) (h : answerSetParam args r = .ok (t, data)) :
    Moves w r t := by
  unfold answerSetParam at h
  cases asked : writeAsked args r.params with
  | error st =>
    rw [asked] at h
    cases h
  | ok x =>
    obtain ⟨id, q⟩ := x
    rw [asked] at h
    simp only at h
    split at h
    · rename_i met
      obtain ⟨v, written⟩ := write_of_writeAsked asked
      refine moves_of_ok h ((Move.chain (.writes written met)).trans ?_)
      unfold setParams
      split
      · exact SameCore.moves (sameCore_of_eq rfl)
      · exact .refl _
    · cases h

theorem answerGetParam_moves (args : List Byte) (r t : State) (data : List Byte) (h : answerGetParam args r = .ok (t, data)) :
    Moves w r t := by
  unfold answerGetParam at h
  split at h
  · split at h
    · cases h
    · exact moves_of_ok h (.refl r)
  · cases h

theorem answerSetFilter_moves (args : List Byte) (r t : State) (data : List Byte) (h : answerSetFilter args r = .ok (t, data)) :
    Moves w r t := by
  unfold answerSetFilter at h
  split at h
  · obtain ⟨-, h⟩ := ok_of_ite h
    split at h
    · cases h
    · split at h
      · exact moves_of_ok h (Move.chain (.filters (List.length_set ..)))
      · cases h
  · cases h

theorem answerGetFilter_moves (args : List Byte) (r t : State) (data : List Byte) (h : answerGetFilter args r = .ok (t, data)) :
    Moves w r t := by
  unfold answerGetFilter at h
  split at h
  · obtain ⟨-, h⟩ := ok_of_ite h
    exact moves_of_ok h (.refl r)
  · cases h

theorem answerLoadBank_moves (args : List Byte) (r t : State) (data : List Byte) (h : answerLoadBank args r = .ok (t, data)) :
    Moves w r t := by
  unfold answerLoadBank at h
  split at h
  · cases h
  · obtain ⟨-, h⟩ := ok_of_ite h
    obtain ⟨-, h⟩ := ok_of_ite h
    obtain ⟨-, h⟩ := ok_of_ite h
    obtain ⟨-, h⟩ := ok_of_ite h
    obtain ⟨idle, h⟩ := ok_of_ite h
    exact moves_of_ok h (Move.chain (.operates _ _ fun _ => .inr (not_not.1 idle)))

theorem answerReadBank_moves (args : List Byte) (r t : State) (data : List Byte) (h : answerReadBank args r = .ok (t, data)) :
    Moves w r t := by
  unfold answerReadBank at h
  split at h
  · obtain ⟨-, h⟩ := ok_of_ite h
    obtain ⟨-, h⟩ := ok_of_ite h
    obtain ⟨idle, h⟩ := ok_of_ite h
    exact moves_of_ok h (Move.chain (.operates _ _ fun _ => .inr (not_not.1 idle)))
  · cases h

theorem answerFetchResult_moves (args : List Byte) (r t : State) (data : List Byte) (h : answerFetchResult args r = .ok (t, data)) :
    Moves w r t := by
  unfold answerFetchResult at h
  split at h
  · split at h
    · cases h
    · cases h
    · split at h
      · exact moves_of_ok h (.refl r)
      · cases h
  · cases h

theorem answerProbeCell_moves (args : List Byte) (r t : State) (data : List Byte) (h : answerProbeCell args r = .ok (t, data)) :
    Moves w r t := by
  unfold answerProbeCell at h
  obtain ⟨-, h⟩ := ok_of_ite h
  obtain ⟨-, h⟩ := ok_of_ite h
  exact moves_of_ok h (.refl r)

theorem stopCycle_moves (s : State) : Moves w s (stopCycle s) := Move.chain (.controls false 0 s.ctl.missedOpens)

theorem startCycle_moves (s : State) : Moves w s (startCycle s) := by
  unfold startCycle
  split
  · exact Move.chain (.controls true s.params.cycleCount s.ctl.missedOpens)
  · exact .refl s

theorem startCycle_idle (s : State) : (startCycle s).ctl.state = s.ctl.state ∧ (startCycle s).engine = s.engine := by
  unfold startCycle
  split <;> exact ⟨rfl, rfl⟩

theorem answerOpenWindow_moves (args : List Byte) (r t : State) (data : List Byte) (h : answerOpenWindow args r = .ok (t, data)) :
    Moves w r t := by
  unfold answerOpenWindow at h
  obtain ⟨-, h⟩ := ok_of_ite h
  obtain ⟨free, h⟩ := ok_of_ite h
  obtain ⟨-, h⟩ := ok_of_ite h
  obtain ⟨idle, h⟩ := ok_of_ite h
  obtain ⟨state, engine⟩ := startCycle_idle r
  have op : (startCycle r).engine.op = .idle := by
    rw [engine]
    exact (cfgInFlight_false_iff r).1 (Bool.eq_false_iff.2 free)
  exact moves_of_ok h ((startCycle_moves r).trans (Move.chain (.opens .command (state.trans (not_not.1 idle)) op)))

theorem closeWindowAs_moves (first : w ≠ .event) (cause : CloseCause) (s : State) (opened : s.ctl.state = .opened) : Moves w s (closeWindowAs cause s) :=
  (Move.chain (.shuts cause first opened)).trans (considerEnd_moves _)

theorem closeByState_moves (first : w ≠ .event) (r t : State) (data : List Byte) (h : closeByState r = .ok (t, data)) : Moves w r t := by
  cases state : r.ctl.state with
  | opened =>
    rw [closeByState_opened r state] at h
    refine moves_of_ok h ?_
    split
    · exact (stopCycle_moves r).trans (closeWindowAs_moves first _ _ state)
    · exact closeWindowAs_moves first _ _ state
  | idle =>
    simp only [closeByState, state] at h
    cases h
  | settling =>
    rw [closeByState_settling r state] at h
    split at h
    · exact moves_of_ok h ((stopCycle_moves r).trans (considerEnd_moves _))
    · cases h
  | held =>
    simp only [closeByState, state] at h
    split at h
    · exact moves_of_ok h ((stopCycle_moves r).trans (considerEnd_moves _))
    · cases h

theorem answerCloseWindow_moves (first : w ≠ .event) (args : List Byte) (r t : State) (data : List Byte) (h : answerCloseWindow args r = .ok (t, data)) :
    Moves w r t := by
  unfold answerCloseWindow at h
  obtain ⟨-, h⟩ := ok_of_ite h
  obtain ⟨-, h⟩ := ok_of_ite h
  exact closeByState_moves first r t data h

theorem startPulse_moves (loud : w ≠ .quiet) (s : State) (opened : s.ctl.state = .opened) : Moves w s (startPulse s) := by
  have pulse : Moves w s { s with tpg := .active s.params.tpLen } := Move.chain (.pulses opened)
  have waits : Moves w s { s with tpg := .active s.params.tpLen, decayWaits := false } := pulse.trans (Move.chain .joins)
  have counts := waits.trans (Move.chain
    (.describes (f := fun d => { d with testPulses := min 255 (d.testPulses + 1) }) ⟨fun _ => rfl, fun _ => rfl, fun _ => rfl, fun _ => rfl⟩))
  exact counts.trans (Move.chain (.event loud ((measuring_iff _).2 (.inl opened)) fun i c => tickAtCell_lawful s.atPulseStart _ i c))

theorem answerInject_moves (loud : w ≠ .quiet) (args : List Byte) (r t : State) (data : List Byte) (h : answerInject args r = .ok (t, data)) : Moves w r t := by
  unfold answerInject at h
  obtain ⟨-, h⟩ := ok_of_ite h
  obtain ⟨-, h⟩ := ok_of_ite h
  obtain ⟨opened, h⟩ := ok_of_ite h
  obtain ⟨-, h⟩ := ok_of_ite h
  exact moves_of_ok h (startPulse_moves loud r (not_not.1 opened))

theorem answerAbortReadout_moves (args : List Byte) (r t : State) (data : List Byte) (h : answerAbortReadout args r = .ok (t, data)) :
    Moves w r t := by
  refine noArgs_moves h fun h => ?_
  cases sending : r.readout.frame with
  | none =>
    rw [sending] at h
    cases h
  | some f =>
    rw [sending] at h
    simp only at h
    obtain ⟨-, h⟩ := ok_of_ite h
    cases position : f.position with
    | trailer k =>
      rw [position] at h
      cases h
    | _ =>
      rw [position] at h
      exact moves_of_ok h (abortFrame_moves f r sending fun k at_k => Position.noConfusion (position.symm.trans at_k))

theorem arrive_moves (s : State) : Moves w s (arrive s) := by
  unfold arrive
  split
  · exact .refl s
  · exact SameCore.moves ⟨rfl, .inr (.inr rfl)⟩

theorem answerClearAttention_moves (args : List Byte) (r t : State) (data : List Byte)
    (h : answerClearAttention args r = .ok (t, data)) : Moves w r t := by
  unfold answerClearAttention at h
  split at h
  · rename_i set
    have clears : Moves w r (clearCauses set r) := SameCore.moves (sameCore_of_eq rfl)
    exact moves_of_ok h (clears.trans (arrive_moves _))
  · cases h

theorem answerSoftReset_moves (args : List Byte) (r t : State) (data : List Byte) (h : answerSoftReset args r = .ok (t, data)) :
    Moves w r t :=
  noArgs_moves h fun h => moves_of_ok h ((Move.chain .softResets).trans (arrive_moves _))

theorem answerNop_moves (args : List Byte) (r t : State) (data : List Byte) (h : answerNop args r = .ok (t, data)) : Moves w r t :=
  noArgs_moves h fun h => moves_of_ok h (.refl r)

/-! ### The rows that are no requests -/

theorem mcsRises_moves (bits : Nat) (s : State) : Moves w s (mcsRises bits s) := by
  unfold mcsRises
  split
  · exact SameCore.moves (sameCore_of_eq rfl)
  · simp only
    split
    · exact SameCore.moves (sameCore_of_eq rfl)
    · exact SameCore.moves (sameCore_of_eq rfl)

/-- A byte of a configuration spells a trim within its range (R191). -/
theorem decode_trim {b : Byte} {g : CellConfig} (h : CellConfig.decode b = some g) : -16 ≤ g.trim ∧ g.trim ≤ 15 := by
  unfold CellConfig.decode at h
  split at h
  · cases h
  · obtain rfl := Option.some.inj h
    have low := BitVec.le_toInt (b.setWidth 5)
    have high := BitVec.toInt_lt (x := b.setWidth 5)
    exact ⟨low, Int.le_of_lt_add_one high⟩

theorem loadStep_moves {s t : State} (h : execLoadStep s = .next t) : Moves w s t := by
  unfold execLoadStep at h
  split at h
  · rename_i b k bytes op
    split at h
    · obtain rfl := Host.Outcome.next.inj h
      exact .refl s
    · rename_i g decoded
      obtain ⟨x, -, spelled⟩ := Option.bind_eq_some_iff.1 decoded
      obtain rfl := Host.Outcome.next.inj h
      have inFlight : s.engine.op ≠ .idle := by
        rw [op]
        exact CfgOp.noConfusion
      have cell := Move.chain (w := w) (.configures (slotIndex b k) g inFlight (decode_trim spelled))
      exact cell.trans (Move.chain (.operates _ _ fun _ => .inl inFlight))
  · obtain rfl := Host.Outcome.next.inj h
    exact .refl s

theorem readStep_moves {s t : State} (h : execReadStep s = .next t) : Moves w s t := by
  unfold execReadStep at h
  split at h
  · rename_i b k op
    obtain rfl := Host.Outcome.next.inj h
    refine Move.chain (.operates _ _ fun _ => .inl ?_)
    rw [op]
    exact CfgOp.noConfusion
  · obtain rfl := Host.Outcome.next.inj h
    exact .refl s

theorem recordTake_moves {s t : State} (h : execRecordTake s = .next t) : Moves w s t := by
  unfold execRecordTake at h
  split at h
  · obtain rfl := Host.Outcome.next.inj h
    exact .refl s
  · rename_i r rs front
    split at h
    · rename_i takes
      obtain rfl := Host.Outcome.next.inj h
      rw [Bool.and_eq_true] at takes
      exact (Move.chain (.takes front takes.1)).trans (offerSlot_moves _)
    · obtain rfl := Host.Outcome.next.inj h
      exact .refl s

theorem capFlag_onsetEvent (f : Nat → Cell → CellOut) (s : State) : (onsetEvent f s).capFlag = s.capFlag :=
  (onsetEvent_outcome f s).capFlag

theorem applyRecord_lawful (r : Record) (s : State) (i : Nat) (c : Cell) :
    (if i = r.cell then recordAtCell s.params s.ctl.liveHalf s.pulse r.weight i c else quietly c).Lawful s.params s.ctl.liveHalf i c := by
  split
  · exact recordAtCell_lawful _ _ _ _ i c
  · exact quietly_self_lawful _ _ i c

theorem recordApplied_moves (loud : w ≠ .quiet) {s t : State} (h : execRecordApplied s = .next t) : Moves w s t := by
  unfold execRecordApplied at h
  split at h
  · obtain rfl := Host.Outcome.next.inj h
    exact .refl s
  · rename_i r applying
    have applies : Moves w s (applyRecord r { s with engine := { s.engine with applying := none } }) :=
      Move.chain (.applies loud applying fun i c => applyRecord_lawful r s i c)
    simp only at h
    split at h
    · rename_i capped
      obtain rfl := Host.Outcome.next.inj h
      have event := onsetEvent_outcome (fun i c => if i = r.cell then
        recordAtCell s.params s.ctl.liveHalf s.pulse r.weight i c else quietly c) { s with engine := { s.engine with applying := none } }
      have settling : (applyRecord r { s with engine := { s.engine with applying := none } }).ctl.state = .settling :=
        (congrArg Controller.state event.ctl).trans capped.1
      have free : (applyRecord r { s with engine := { s.engine with applying := none } }).engine.applying = none :=
        congrArg CellEngine.applying event.engine
      have flag : (truncateCounting (applyRecord r { s with engine := { s.engine with applying := none } })).capFlag = true := by
        have before : (applyRecord r { s with engine := { s.engine with applying := none } }).capFlag = true :=
          event.capFlag.trans capped.2
        rw [capFlag_true_iff] at before ⊢
        obtain ⟨d, progress, set⟩ := before
        obtain ⟨e, after, kept, -⟩ := (truncateCounting_truncates _).desc d progress
        exact ⟨e, after, by rw [kept]; exact set⟩
      exact applies.trans (Move.chain (.ends (.single (.truncates settling)) settling settling free (.inr flag)))
    · obtain rfl := Host.Outcome.next.inj h
      exact applies.trans (considerEnd_moves _)

theorem handshakePresented_moves (rd wr : Option Handshake) (s : State) :
    Moves w s (considerEnd (arbitrate (presentOn .read rd s).2 (presentOn .write wr (presentOn .read rd s).1).2
      (presentOn .write wr (presentOn .read rd s).1).1)) := by
  obtain ⟨ctl1, -, -, first⟩ := presentOn_told .read rd s
  obtain ⟨ctl2, -, -, second⟩ := presentOn_told .write wr (presentOn .read rd s).1
  have presented := (presentOn_moves (w := w) .read rd s).trans (presentOn_moves .write wr _)
  refine (presented.trans (arbitrate_moves _ _ _ fun asks => ?_)).trans (considerEnd_moves _)
  rw [ctl2, ctl1]
  rcases asks with asks | asks
  · exact first.resolve_left asks
  · rw [← ctl1]
    exact second.resolve_left asks

theorem auxEvent_moves (loud : w ≠ .quiet) (n : Fin 4) (f : Nat → Cell → CellOut) (s : State) (measuring : s.measuring = true)
    (lawful : ∀ i c, (f i c).Lawful s.params s.ctl.liveHalf i c) : Moves w s (auxEvent n f s) := by
  refine Move.chain (.event loud measuring fun i c => ?_)
  split
  · exact lawful i c
  · exact quietly_self_lawful _ _ i c

theorem setLine_moves (n : Fin 4) (up : Bool) (s : State) : Moves w s (setLine n up s) := SameCore.moves (sameCore_of_eq rfl)

theorem missedOpen_moves (s : State) : Moves w s (missedOpen s) :=
  (Move.chain (.controls s.ctl.cycleOn s.ctl.cyclesLeft _)).trans (SameCore.moves (raiseCause_sameCore ..))

/-! ### Every step -/

/-- A row that answers one state in two cases. -/
theorem moves_of_next_ite {c : Prop} [Decidable c] {s t a b : State} (h : (if c then .next a else .next b : Result) = .next t)
    (yes : c → Moves w s a) (no : ¬ c → Moves w s b) : Moves w s t := by
  split at h
  · rename_i holds
    obtain rfl := Host.Outcome.next.inj h
    exact yes holds
  · rename_i fails
    obtain rfl := Host.Outcome.next.inj h
    exact no fails

theorem moves_ite {c : Prop} [Decidable c] {s a b : State} (yes : c → Moves w s a) (no : ¬ c → Moves w s b) :
    Moves w s (if c then a else b) := by
  split
  · rename_i holds
    exact yes holds
  · rename_i fails
    exact no fails

/-- The ways in which a row moves. -/
def Way.Admits : Way → Instr → Prop
  | .period, _ => True
  | .quiet, .inject _ | .quiet, .recordApplied | .quiet, .dwellTick | .quiet, .pulseEnd | .quiet, .settleCapExpiry
  | .quiet, .auxAsserted _ | .quiet, .auxDeasserted _ => False
  | .event, .closeWindow _ | .event, .winNRisingEdge => False
  | _, .decayTick | _, .frameByteDelivery => False
  | _, _ => True

/-- Every row is a chain of moves. -/
theorem exec_moves {c : Instr} {s t : State} (admits : w.Admits c) (h : exec c s = .next t) : Moves w s t := by
  have next {u : State} (row : exec c s = .next u) (moves : Moves w s u) : Moves w s t := by
    obtain rfl := Host.Outcome.next.inj (row.symm.trans h)
    exact moves
  cases c with
  | nop args => exact next rfl (takeCommand_moves _ args _ s fun r t data => answerNop_moves args r t data)
  | getStatus args => exact next rfl (takeCommand_moves _ args _ s fun r t data => answerGetStatus_moves args r t data)
  | setParam args => exact next rfl (takeCommand_moves _ args _ s fun r t data => answerSetParam_moves args r t data)
  | getParam args => exact next rfl (takeCommand_moves _ args _ s fun r t data => answerGetParam_moves args r t data)
  | setFilter args => exact next rfl (takeCommand_moves _ args _ s fun r t data => answerSetFilter_moves args r t data)
  | getFilter args => exact next rfl (takeCommand_moves _ args _ s fun r t data => answerGetFilter_moves args r t data)
  | loadBank args => exact next rfl (takeCommand_moves _ args _ s fun r t data => answerLoadBank_moves args r t data)
  | readBank args => exact next rfl (takeCommand_moves _ args _ s fun r t data => answerReadBank_moves args r t data)
  | fetchResult args => exact next rfl (takeCommand_moves _ args _ s fun r t data => answerFetchResult_moves args r t data)
  | probeCell args => exact next rfl (takeCommand_moves _ args _ s fun r t data => answerProbeCell_moves args r t data)
  | openWindow args => exact next rfl (takeCommand_moves _ args _ s fun r t data => answerOpenWindow_moves args r t data)
  | closeWindow args =>
    refine next rfl (moves_ite (fun _ => ?_) fun _ => considerEnd_moves s)
    exact takeCommand_moves _ args _ s fun r t data => answerCloseWindow_moves (by rintro rfl; exact admits) args r t data
  | inject args =>
    have loud : w ≠ .quiet := by rintro rfl; exact admits
    have taken := takeCommand_moves 0x38 args (answerInject args) s fun r t data => answerInject_moves loud args r t data
    exact next rfl (moves_ite (fun _ => taken.trans (considerEnd_moves _)) fun _ => taken)
  | abortReadout args => exact next rfl (takeCommand_moves _ args _ s fun r t data => answerAbortReadout_moves args r t data)
  | clearAttention args =>
    refine next rfl (moves_ite (fun _ => ?_) fun _ => arrive_moves s)
    exact takeCommand_moves _ args _ s fun r t data => answerClearAttention_moves args r t data
  | softReset args =>
    refine next rfl (moves_ite (fun _ => ?_) fun _ => arrive_moves s)
    exact takeCommand_moves _ args _ s fun r t data => answerSoftReset_moves args r t data
  | unknownCommand code args =>
    exact moves_of_next_ite h (fun _ => (receiveRequest_moves ..).trans (refuse_moves ..)) fun _ => .refl s
  | badCheckRequest code args check =>
    refine moves_of_next_ite h (fun _ => ?_) fun _ => .refl s
    have fault (u : State) : Moves w u (raiseCommandFault u) := SameCore.moves (sameCore_of_eq rfl)
    exact ((receiveRequest_moves code args check s).trans (fault _)).trans (refuse_moves ..)
  | transactionStart => exact moves_of_next_ite h (fun _ => SameCore.moves (sameCore_of_eq rfl)) fun _ => SameCore.moves (sameCore_of_eq rfl)
  | truncatedRequest bits => exact next rfl (mcsRises_moves bits s)
  | responseAbandoned => exact next rfl (mcsRises_moves 0 s)
  | transactionEnd => exact next rfl (mcsRises_moves 0 s)
  | rstNAsserted => exact next rfl (Move.chain .powersOn)
  | rstNDeasserted => exact moves_of_next_ite h (fun _ => SameCore.moves (sameCore_of_eq rfl)) fun _ => .refl s
  | aresetNAsserted => exact next rfl ((withdrawHold_moves .read s).trans (withdrawHold_moves .write _))
  | handshakePresented rd wr => exact next rfl (handshakePresented_moves rd wr s)
  | holdTimerExpiry ch => exact next rfl (expireHold_moves ch s)
  | recordTake => exact recordTake_moves h
  | recordApplied => exact recordApplied_moves (by rintro rfl; exact admits) h
  | decayTick =>
    cases w with
    | period => exact next rfl (decayTick_moves s)
    | quiet => exact admits.elim
    | event => exact admits.elim
  | dwellTick => exact next rfl (dwellTick_moves (by rintro rfl; exact admits) s)
  | onsetTick => exact next rfl (onsetTick_moves s)
  | windowTimerExpiry => exact next rfl (moves_ite (fun _ => onsetTick_moves s) fun _ => .refl s)
  | settleCapExpiry =>
    exact next rfl ((moves_ite (fun _ => dwellTick_moves (by rintro rfl; exact admits) s) fun _ => .refl s).trans (capExpiry_moves _))
  | pulseEnd => exact next rfl (moves_ite (fun _ => dwellTick_moves (by rintro rfl; exact admits) s) fun _ => .refl s)
  | winNFallingEdge =>
    have edge : Moves w s { s with pins := { s.pins with winLow := true } } := SameCore.moves (sameCore_of_eq rfl)
    have row : exec .winNFallingEdge s = execWinNFallingEdge s := rfl
    rw [row, execWinNFallingEdge] at h
    simp only at h
    split at h
    · refine moves_of_next_ite h (fun opens => ?_) fun _ => edge.trans (missedOpen_moves _)
      exact edge.trans (Move.chain (.opens .line opens.1 ((cfgInFlight_false_iff s).1 opens.2)))
    · obtain rfl := Host.Outcome.next.inj h
      exact edge
  | winNRisingEdge =>
    have edge : Moves w s { s with pins := { s.pins with winLow := false } } := SameCore.moves (sameCore_of_eq rfl)
    exact moves_of_next_ite h (fun closes => edge.trans (closeWindowAs_moves (by rintro rfl; exact admits) .line _ closes.2.2)) fun _ => edge
  | auxAsserted line =>
    refine moves_of_next_ite h (fun opened => ?_) fun _ => setLine_moves line true s
    exact (setLine_moves line true s).trans
      (auxEvent_moves (by rintro rfl; exact admits) line _ _ ((measuring_iff s).2 (.inl opened)) fun i c => lineUpAtCell_lawful _ _ i c)
  | auxDeasserted line =>
    refine moves_of_next_ite h (fun measuring => ?_) fun _ => setLine_moves line false s
    exact ((setLine_moves line false s).trans
      (auxEvent_moves (by rintro rfl; exact admits) line _ _ measuring fun i c => lineDownAtCell_lawful _ _ i c)).trans (considerEnd_moves _)
  | frameByteDelivery =>
    cases w with
    | period => exact next rfl (deliverByte_moves s)
    | quiet => exact admits.elim
    | event => exact admits.elim
  | loadStep => exact loadStep_moves h
  | readStep => exact readStep_moves h
  | responseSent => exact next rfl (moves_ite (fun _ => SameCore.moves (sameCore_of_eq rfl)) fun _ => .refl s)

/-- Every step is a chain of moves. -/
theorem step_moves {s t : State} (h : step s = .next t) : Moves .period s t := by
  cases rows : s.pending with
  | nil =>
    rw [step_of_empty s rows] at h
    obtain rfl := Host.Outcome.next.inj h
    exact idlePeriod_moves s
  | cons c rest =>
    rw [step_of_pending s c rest rows] at h
    have front : Moves .period s { s with pending := rest } := Move.chain (.turns _ rfl)
    exact front.trans (exec_moves trivial h)

end Sys2Proof.Machine
end

section
/-!
PROOF. What the moves do, in the terms of the invariants: the close, the hand-off of storage, the reopen. Then two invariants move by move:
the parameters stay legal (O54), the sizes and ranges stay (O52).
-/

namespace Sys2Proof.Machine

/-! ### The shape of a close, of an event, of an onset tick -/

theorem Describes.id : Describes fun d => d := ⟨fun _ => rfl, fun _ => rfl, fun _ => rfl, fun _ => rfl⟩

theorem Describes.comp {f g : Descriptor → Descriptor} (hf : Describes f) (hg : Describes g) : Describes fun d => f (g d) where
  mode d := (hf.mode _).trans (hg.mode d)
  onsets d := (hf.onsets _).trans (hg.onsets d)
  banks d := (hf.banks _).trans (hg.banks d)
  settleCap d := (hf.settleCap _).trans (hg.settleCap d)

/-- A change of the descriptor in progress, of the gates and of causes. -/
structure TellsHolds (s t : State) : Prop where
  kept : t = { s with
    ctl := { s.ctl with desc := t.ctl.desc }, path := t.path, attn := t.attn, arriving := t.arriving, pins := t.pins }
  desc : ∃ f, Describes f ∧ t.ctl.desc = s.ctl.desc.map f

theorem TellsHolds.refl (s : State) : TellsHolds s s := ⟨rfl, _, .id, (Option.map_id' (x := s.ctl.desc)).symm⟩

theorem TellsHolds.trans {s t u : State} (h1 : TellsHolds s t) (h2 : TellsHolds t u) : TellsHolds s u where
  kept := by
    have kept := h2.kept
    rw [h1.kept] at kept
    exact kept
  desc := by
    obtain ⟨f, hf, first⟩ := h1.desc
    obtain ⟨g, hg, second⟩ := h2.desc
    exact ⟨_, hg.comp hf, by rw [second, first, Option.map_map]; rfl⟩

theorem shedNotice_tells (s : State) : TellsHolds s (shedNotice s) := by
  have counts : Describes fun d => { d with shed := min 65535 (d.shed + 1) } := ⟨fun _ => rfl, fun _ => rfl, fun _ => rfl, fun _ => rfl⟩
  unfold shedNotice
  simp only
  split
  · exact ⟨rfl, _, counts, rfl⟩
  · exact ⟨rfl, _, counts, rfl⟩

theorem setHold_tells (ch : Channel) (h : Option Hold) (s : State) : TellsHolds s (setHold ch h s) := by
  cases ch <;> exact ⟨rfl, _, .id, (Option.map_id' (x := s.ctl.desc)).symm⟩

theorem passHandshake_tells (ch : Channel) (hs : Handshake) (s : State) : TellsHolds s (passHandshake ch hs s) := by
  cases ch <;> exact ⟨rfl, _, .id, (Option.map_id' (x := s.ctl.desc)).symm⟩

theorem shedHold_tells (ch : Channel) (s : State) : TellsHolds s (shedHold ch s) := by
  cases held : s.hold ch with
  | none =>
    rw [shedHold_none ch s held]
    exact .refl s
  | some x =>
    rw [shedHold_some ch s x held]
    exact ((setHold_tells ..).trans (passHandshake_tells ..)).trans (shedNotice_tells _)

/-- A close sheds what each gate holds: neither holds after it (R69). -/
theorem shedHold_hold (ch k : Channel) (s : State) : (shedHold ch s).hold k = if k = ch then none else s.hold k := by
  cases held : s.hold ch with
  | none =>
    rw [shedHold_none ch s held]
    split
    · rename_i same
      rw [same, held]
    · rfl
  | some x =>
    have path := shedNotice_path (passHandshake ch x.handshake (setHold ch none s))
    rw [shedHold_some ch s x held]
    cases ch <;> cases k <;> simp only [State.hold, path] <;> rfl

theorem shutWindow_tells (cause : CloseCause) (s : State) : TellsHolds (beginClose cause s) (shutWindow cause s) :=
  (shedHold_tells .read _).trans (shedHold_tells .write _)

theorem shutWindow_hold (cause : CloseCause) (s : State) (ch : Channel) : (shutWindow cause s).hold ch = none := by
  rw [shutWindow, shedHold_hold, shedHold_hold]
  cases ch <;> rfl

/-- The descriptor after an event of the array, but for its list. -/
theorem ArrayOutcome.modes {f : Nat → Cell → CellOut} {s t : State} (h : ArrayOutcome f s t) :
    ∃ g : Descriptor → Descriptor, t.ctl.desc = s.ctl.desc.map g ∧ ∀ d, (g d).mode = d.mode ∧ (g d).settleCap = d.settleCap
      ∧ (g d).bankTruncated = d.bankTruncated ∧ ((g d).onsets.length ≤ max 16 d.onsets.length) := by
  obtain ⟨order, wait, ticked, e, -, -, -, -, desc, -⟩ := h.desc
  refine ⟨_, desc, fun d => ⟨rfl, rfl, rfl, ?_⟩⟩
  rw [List.length_append, List.length_take]
  omega

/-! ### The hand-off and the reopen -/

theorem dealtWith_elim {P : State → Prop} (s : State) (reopens : P (openWindowAs .cycle s))
    (rests : P { s with ctl := { s.ctl with state := .idle, cycleOn := false } }) : P (dealtWith s) := by
  by_cases continues : s.cycleContinues
  · rw [dealtWith_continues s continues]
    exact reopens
  · rw [dealtWith_ends s continues]
    exact rests

theorem handOff_elim {P : State → Prop} (d : Descriptor) (s : State)
    (freezes : s.params.mode.sequential = true → P (freezeWhole d s))
    (swaps : s.params.mode.sequential = false → s.ctl.frozen = none → P (swap d s))
    (discards : s.params.mode.sequential = false → s.ctl.frozen.isSome = true → P (discardWindow d s))
    (waits : s.params.mode.sequential = false → s.ctl.frozen.isSome = true → P (waitWindow d s)) : P (handOff d s) := by
  cases mode : s.params.mode.sequential with
  | true =>
    rw [handOff_sequential d s mode]
    exact freezes mode
  | false =>
    cases frozen : s.ctl.frozen with
    | none =>
      rw [handOff_swap d s mode frozen]
      exact swaps mode frozen
    | some z =>
      have some : s.ctl.frozen.isSome = true := by rw [frozen]; rfl
      cases policy : s.params.overrunPolicy with
      | discard =>
        rw [handOff_discard d s mode some policy]
        exact discards mode some
      | wait =>
        rw [handOff_wait d s mode some policy]
        exact waits mode some

/-- The descriptor that becomes final at the end of settling (R91). -/
def State.finalOf (s : State) (d : Descriptor) : Descriptor := { d with settleLength := s.ctl.settleCount, peak := s.occ.peak }

theorem endSettling_elim {P : State → Prop} (s : State) (alone : s.ctl.desc = none → P (dealtWith (comeToRest s)))
    (hands : ∀ d, s.ctl.desc = some d → P (handOff (s.finalOf d) (comeToRest s))) : P (endSettling s) := by
  cases progress : s.ctl.desc with
  | none =>
    have eq : endSettling s = dealtWith (comeToRest s) := by simp only [endSettling, progress]
    rw [eq]
    exact alone progress
  | some d =>
    rw [endSettling_desc d s progress]
    exact hands d progress

theorem readoutNotice_elim {P : State → Prop} (s : State)
    (elsewhere : s.ctl.state ≠ .held → P { s with ctl := { s.ctl with frozen := none } })
    (dealt : s.ctl.state = .held → s.ctl.waiting = none → P (dealtWith { s with ctl := { s.ctl with frozen := none } }))
    (swaps : ∀ d, s.ctl.state = .held → s.ctl.waiting = some d → P (swap d { s with ctl := { s.ctl with frozen := none } })) :
    P (readoutNotice s) := by
  by_cases held : s.ctl.state = .held
  · cases waits : s.ctl.waiting with
    | none =>
      rw [readoutNotice_dealt s held waits]
      exact dealt held waits
    | some d =>
      rw [readoutNotice_swap s d held waits]
      exact swaps d held waits
  · rw [readoutNotice_elsewhere s held]
    exact elsewhere held

theorem openAtCell_lawful (s : State) (i : Nat) (c : Cell) : (openAtCell s i c).Lawful s.params s.ctl.liveHalf i c := by
  unfold openAtCell
  split
  · rename_i follows
    exact turnHot_lawful _ _ i c follows.2.2.2.2
  · exact quietly_self_lawful _ _ i c

theorem openWindowAs_outcome (cause : OpenCause) (s : State) : ArrayOutcome (openAtCell s) (s.freshWindow cause) (openWindowAs cause s) := by
  rw [openWindowAs_eq]
  exact arrayEvent_outcome _ _

/-! ### Parameters (O54) -/

/-- A write that the table takes leaves every value legal: the other ranges are as they were, and the alignment is checked (R169). -/
theorem Params.Legal.write {p q : Params} {id : ParamId} {v : Nat} (legal : p.Legal) (written : p.write id v = some q) : q.Legal := by
  have taken : (p.write id v).isSome = true := by rw [written]; rfl
  obtain ⟨low, high, base, granule⟩ := (p.write_isSome_iff id v).1 taken
  have own : q.read id = v := p.read_of_write q id v written
  have other (j : ParamId) (hj : j ≠ id) : q.read j = p.read j := by
    rw [read_eq_number, read_eq_number, p.number_of_write q id j v hj written]
  intro j
  rw [write_isSome_iff]
  by_cases same : j = id
  · subst same
    rw [own]
    refine ⟨low, high, fun hj => ?_, fun hj => ?_⟩
    · have kept : q.mapGranule = p.mapGranule := other .mapGranule (by rw [hj]; exact ParamId.noConfusion)
      rw [kept]
      exact base hj
    · have kept : q.mapBase = p.mapBase := other .mapBase (by rw [hj]; exact ParamId.noConfusion)
      rw [kept]
      exact granule hj
  · obtain ⟨low, high, base', granule'⟩ := (p.write_isSome_iff j (p.read j)).1 (legal j)
    rw [other j same]
    refine ⟨low, high, fun hj => ?_, fun hj => ?_⟩
    · by_cases written : id = .mapGranule
      · have now : q.mapGranule = v := by rw [written] at own; exact own
        have kept : p.read j = p.mapBase := by rw [hj]; rfl
        rw [now, kept]
        exact granule written
      · have kept : q.mapGranule = p.mapGranule := other .mapGranule (Ne.symm written)
        rw [kept]
        exact base' hj
    · by_cases written : id = .mapBase
      · have now : q.mapBase = v := by rw [written] at own; exact own
        have kept : p.read j = p.mapGranule := by rw [hj]; rfl
        rw [now, kept]
        exact base written
      · have kept : q.mapBase = p.mapBase := other .mapBase (Ne.symm written)
        rw [kept]
        exact granule' hj

theorem Params.reset_legal : Params.reset.Legal := by
  intro id
  cases id <;> rfl

theorem openWindowAs_params (cause : OpenCause) (s : State) : (openWindowAs cause s).params = s.params := by
  have kept := (openWindowAs_outcome cause s).kept
  rw [kept]
  rfl

theorem dealtWith_params (s : State) : (dealtWith s).params = s.params :=
  dealtWith_elim (P := fun t => t.params = s.params) s (openWindowAs_params ..) rfl

theorem endSettling_params (s : State) : (endSettling s).params = s.params :=
  endSettling_elim (P := fun t => t.params = s.params) s (fun _ => dealtWith_params _) fun d _ =>
    handOff_elim (P := fun t => t.params = s.params) (s.finalOf d) (comeToRest s) (fun _ => rfl) (fun _ _ => dealtWith_params _)
      (fun _ _ => dealtWith_params _) fun _ _ => rfl

theorem LateMove.params {s t : State} (move : LateMove s t) : t.params = s.params := by
  cases move with
  | outside same => rw [same.eq]
  | joins => rfl
  | counts g n => rfl
  | event settling sound => rw [(onsetEvent_outcome _ s).kept]
  | expires => rfl
  | truncates settling => rfl

theorem LateMoves.params {s t : State} (moves : LateMoves s t) : t.params = s.params :=
  moves.keeps (P := fun u => u.params = s.params) (fun _ _ kept move => move.params.trans kept) rfl

theorem clearBanks_params (test : Nat → Bool) (s : State) : (clearBanks test s).params = s.params := by
  rw [clearBanks_frame]

/-- Only a SET_PARAM and RST_N change a parameter. -/
theorem Move.params {w : Way} {s t : State} (move : Move w s t) :
    t.params = s.params ∨ t.params = .reset ∨ ∃ id v, s.params.write id v = some t.params ∧ s.classMet id.paramClass = true := by
  cases move with
  | writes written met => exact .inr (.inr ⟨_, _, written, met⟩)
  | powersOn => exact .inr (.inl rfl)
  | outside same => exact .inl (by rw [same.eq])
  | gateOpens ch => exact .inl (setHold_params ..)
  | gateHolds ch r hs opened => exact .inl (setHold_params ..)
  | applies loud applying lawful => exact .inl (by rw [(onsetEvent_outcome _ _).kept])
  | event loud measuring lawful => exact .inl (by rw [(onsetEvent_outcome _ s).kept])
  | opens cause idle free => exact .inl (openWindowAs_params ..)
  | shuts cause first opened => exact .inl (by rw [(shutWindow_tells cause s).kept]; rfl)
  | onsetTicks opened short => exact .inl (by rw [onsetDelivered_eq])
  | onsetShuts opened => exact .inl (by rw [(shutWindow_tells .timer _).kept, onsetDelivered_eq]; rfl)
  | ends late start settling free empty => exact .inl ((endSettling_params _).trans late.params)
  | sends sending desc clears => exact .inl (clearBanks_params ..)
  | completes sending cleared =>
    refine .inl (readoutNotice_elim (P := fun t => t.params = s.params) _ (fun _ => rfl) (fun _ _ => dealtWith_params _) fun d _ _ => ?_)
    exact dealtWith_params _
  | turns _ _ | waits _ | joins | filters _ | passes _ _ | holdsCount | enters _ _ _ _ | takes _ _ | describes _ | operates _ _ _ | configures _ _ _ _
  | controls _ _ _ | expires _ | dwellCounts _ | dividers _ | pulses _ | softResets => exact .inl rfl

theorem Move.legal {w : Way} {s t : State} (legal : s.params.Legal) (move : Move w s t) : t.params.Legal := by
  rcases move.params with kept | reset | ⟨id, v, written, -⟩
  · rwa [kept]
  · rw [reset]
    exact Params.reset_legal
  · exact legal.write written

/-- Settles O54: a write keeps ranges and alignment, and no other move writes. -/
theorem parametersStayLegal : Obligations.ParametersStayLegal := fun _ _ legal h =>
  (step_moves h).keeps (P := fun u => u.params.Legal) (fun _ _ => Move.legal) legal

end Sys2Proof.Machine
end

section
/-!
PROOF. The sizes and ranges that the part fixes are kept by every step (O52), move by move.
-/

namespace Sys2Proof.Machine

/-- What a change of a cell keeps of its ranges, and of what the mirror holds of it. -/
structure Cell.KeepsSize (i : Nat) (c d : Cell) : Prop where
  ranged : c.Ranged → d.Ranged
  level : c.level ≤ 4095 → d.level ≤ 4095
  aux : 4096 ≤ i → c.level = 0 → d.level = 0
  trim : d.trim = c.trim
  mask : d.mask = c.mask

theorem CellOut.Sound.keepsSize {p : Params} {h : Half} {i : Nat} {c : Cell} {o : CellOut} (sound : o.Sound p h i c) :
    c.KeepsSize i o.cell :=
  ⟨sound.ranged, sound.level, fun aux zero => (sound.aux aux).trans zero, sound.trim, sound.mask⟩

theorem Cell.KeepsSize.refl (i : Nat) (c : Cell) : c.KeepsSize i c := ⟨id, id, fun _ => id, rfl, rfl⟩

/-- The part of the sizes that is not about cells: the filter, the queue, the descriptors. -/
structure State.KeepsLists (s t : State) : Prop where
  mirror : t.engine.mirror = s.engine.mirror
  filter : t.filter.length = s.filter.length
  queue : t.queue.records.length ≤ s.queue.records.length
  desc : ∀ d, t.ctl.desc = some d → d.Sized
  waiting : ∀ d, t.ctl.waiting = some d → d.Sized
  frame : ∀ f, t.readout.frame = some f → f.desc.Sized

/-- A change of the cells within their sizes. -/
theorem State.Sized.change {s t : State} (hs : s.Sized) (g : Nat → Cell → Cell) (cells : ∀ i, t.cells[i]? = (s.cells[i]?).map (g i))
    (keeps : ∀ (i : Nat) (c : Cell), s.cells[i]? = some c → c.KeepsSize i (g i c)) (lists : s.KeepsLists t) : t.Sized := by
  have before {d : Cell} (hd : d ∈ t.cells) : ∃ i c, s.cells[i]? = some c ∧ d = g i c := by
    obtain ⟨i, hi⟩ := List.mem_iff_getElem?.1 hd
    rw [cells] at hi
    obtain ⟨c, hc, rfl⟩ := Option.map_eq_some_iff.1 hi
    exact ⟨i, c, hc, rfl⟩
  have each {Q : Cell → Prop} (held : ∀ c ∈ s.cells, Q c) (kept : ∀ i c, s.cells[i]? = some c → Q c → Q (g i c)) : ∀ d ∈ t.cells, Q d := by
    intro d hd
    obtain ⟨i, c, hc, rfl⟩ := before hd
    exact kept i c hc (held c (List.mem_of_getElem? hc))
  exact {
    cells := (length_of_getElem? g cells).trans hs.cells
    segments := each hs.segments fun i c hc => (keeps i c hc).ranged
    levels := each hs.levels fun i c hc => (keeps i c hc).level
    auxLevels := fun i d aux hd => by
      rw [cells] at hd
      obtain ⟨c, hc, rfl⟩ := Option.map_eq_some_iff.1 hd
      exact (keeps i c hc).aux aux (hs.auxLevels i c aux hc)
    trims := each (Q := fun c => -16 ≤ c.trim ∧ c.trim ≤ 15) hs.trims fun i c hc range => by rwa [(keeps i c hc).trim]
    mirror := by rw [lists.mirror]; exact hs.mirror
    mirrored := fun i d array hd => by
      rw [cells] at hd
      obtain ⟨c, hc, rfl⟩ := Option.map_eq_some_iff.1 hd
      rw [lists.mirror, (keeps i c hc).mask]
      exact hs.mirrored i c array hc
    filter := lists.filter.trans hs.filter
    queue := lists.queue.trans hs.queue
    desc := lists.desc
    waiting := lists.waiting
    frame := lists.frame }

/-- A change that leaves the cells. -/
theorem State.Sized.lists {s t : State} (hs : s.Sized) (cells : t.cells = s.cells) (lists : s.KeepsLists t) : t.Sized :=
  hs.change (fun _ c => c) (fun i => by rw [cells, Option.map_id']) (fun i c _ => .refl i c) lists

theorem Descriptor.Sized.of_lengths {d e : Descriptor} (hd : d.Sized) (onsets : e.onsets.length ≤ max 16 d.onsets.length)
    (banks : e.bankTruncated.length = d.bankTruncated.length) : e.Sized :=
  ⟨onsets.trans (Nat.max_le.2 ⟨Nat.le_refl _, hd.1⟩), banks.trans hd.2⟩

theorem all_of_none {α : Type} {Q : α → Prop} {o : Option α} (h : o = none) : ∀ a, o = some a → Q a := by
  intro a ha
  rw [h] at ha
  cases ha

/-- A change of the descriptor in progress that keeps its sizes. -/
theorem sized_of_map {g : Descriptor → Descriptor} {s t : State} (hs : s.Sized) (desc : t.ctl.desc = s.ctl.desc.map g)
    (sized : ∀ d : Descriptor, d.Sized → (g d).Sized) : ∀ d, t.ctl.desc = some d → d.Sized := by
  intro d hd
  rw [desc] at hd
  obtain ⟨e, he, rfl⟩ := Option.map_eq_some_iff.1 hd
  exact sized e (hs.desc e he)

theorem Describes.sized {f : Descriptor → Descriptor} (law : Describes f) (d : Descriptor) (hd : d.Sized) : (f d).Sized :=
  hd.of_lengths (by rw [law.onsets]; exact Nat.le_max_right _ _) (law.banks d)

theorem ArrayOutcome.sized {f : Nat → Cell → CellOut} {s t : State} {p : Params} {h : Half} (out : ArrayOutcome f s t)
    (sound : ∀ i c, (f i c).Sound p h i c) (hs : s.Sized) : t.Sized := by
  obtain ⟨g, desc, law⟩ := out.modes
  refine hs.change _ out.cells (fun i c _ => (sound i c).keepsSize) ⟨?_, ?_, ?_, sized_of_map hs desc fun d hd => ?_, ?_, ?_⟩
  · rw [out.engine]
  · rw [out.kept]
  · rw [out.kept]
  · obtain ⟨-, -, banks, onsets⟩ := law d
    exact hd.of_lengths onsets (congrArg List.length banks)
  · rw [out.kept]
    exact hs.waiting
  · rw [out.kept]
    exact hs.frame

theorem onsetEvent_sized {f : Nat → Cell → CellOut} {s : State} {p : Params} {h : Half} (sound : ∀ i c, (f i c).Sound p h i c)
    (hs : s.Sized) : (onsetEvent f s).Sized := (onsetEvent_outcome f s).sized sound hs

theorem State.SameCore.sized {s t : State} (same : s.SameCore t) (hs : s.Sized) : t.Sized := by
  rw [same.eq]
  exact hs.lists rfl ⟨rfl, rfl, Nat.le_refl _, hs.desc, hs.waiting, hs.frame⟩

/-! ### The cap and truncation -/

theorem capExpires_sized {s : State} (hs : s.Sized) : (capExpires s).Sized :=
  hs.lists rfl ⟨rfl, rfl, Nat.zero_le _, sized_of_map (g := fun d => { d with settleCap := true }) hs rfl fun _ hd => hd, hs.waiting, hs.frame⟩

theorem truncateAtCell_keepsSize (p : Params) (h : Half) (i : Nat) (c : Cell) : c.KeepsSize i (truncateAtCell p h i c) := by
  unfold truncateAtCell
  split
  · exact ⟨id, id, fun _ => id, rfl, rfl⟩
  · exact .refl i c

theorem truncateCounting_sized {s : State} (hs : s.Sized) : (truncateCounting s).Sized := by
  refine hs.change _ (getElem?_truncateCounting s) (fun i c _ => truncateAtCell_keepsSize _ _ i c)
    ⟨rfl, rfl, Nat.le_refl _, sized_of_map hs rfl fun d hd => ?_, hs.waiting, hs.frame⟩
  obtain ⟨kept, length, -⟩ := foldl_truncate (countingCells s) d
  exact hd.of_lengths (by rw [kept]; exact Nat.le_max_right _ _) length

/-! ### The hand-off and the reopen -/

theorem openWindowAs_sized (cause : OpenCause) {s : State} (hs : s.Sized) : (openWindowAs cause s).Sized := by
  refine (openWindowAs_outcome cause s).sized (fun i c => (openAtCell_lawful s i c).sound) ?_
  refine hs.change (fun _ => Cell.clearFlags) (fun _ => List.getElem?_map ..) (fun _ _ _ => ⟨id, id, fun _ => id, rfl, rfl⟩)
    ⟨rfl, rfl, Nat.le_refl _, fun d hd => ?_, hs.waiting, hs.frame⟩
  obtain rfl := Option.some.inj hd
  exact ⟨Nat.zero_le _, List.length_replicate⟩

theorem dealtWith_sized {s : State} (hs : s.Sized) : (dealtWith s).Sized :=
  dealtWith_elim s (openWindowAs_sized .cycle hs) (hs.lists rfl ⟨rfl, rfl, Nat.le_refl _, hs.desc, hs.waiting, hs.frame⟩)

theorem startFrame_sized {d : Descriptor} {s : State} (hd : d.Sized) (hs : s.Sized) : (startFrame d s).Sized := by
  refine hs.lists rfl ⟨rfl, rfl, Nat.le_refl _, hs.desc, hs.waiting, fun f hf => ?_⟩
  obtain rfl := Option.some.inj hf
  exact hd

theorem swap_sized {d : Descriptor} {s : State} (hd : d.Sized) (hs : s.Sized) : (swap d s).Sized := by
  exact dealtWith_sized (startFrame_sized hd (hs.lists rfl ⟨rfl, rfl, Nat.le_refl _, all_of_none rfl, all_of_none rfl, hs.frame⟩))

theorem clearHalf_keepsSize (h : Half) (i : Nat) (c : Cell) : c.KeepsSize i (c.clearHalf h) := by
  cases h with
  | h0 => exact ⟨fun ⟨_, b, _, d⟩ => ⟨Nat.zero_le _, b, Nat.zero_le _, d⟩, id, fun _ => id, rfl, rfl⟩
  | h1 => exact ⟨fun ⟨a, _, c, _⟩ => ⟨a, Nat.zero_le _, c, Nat.zero_le _⟩, id, fun _ => id, rfl, rfl⟩

theorem discardWindow_sized {d : Descriptor} {s : State} (hs : s.Sized) : (discardWindow d s).Sized := by
  exact dealtWith_sized (hs.change (fun _ c => c.clearHalf s.ctl.liveHalf) (fun _ => List.getElem?_map ..)
    (fun i c _ => clearHalf_keepsSize _ i c) ⟨rfl, rfl, Nat.le_refl _, all_of_none rfl, hs.waiting, hs.frame⟩)

theorem comeToRest_sized {s : State} (hs : s.Sized) : (comeToRest s).Sized :=
  hs.change (fun _ => Cell.rest) (fun _ => List.getElem?_map ..) (fun _ _ _ => ⟨id, fun _ => Nat.zero_le _, fun _ _ => rfl, rfl, rfl⟩)
    ⟨rfl, rfl, Nat.le_refl _, hs.desc, hs.waiting, hs.frame⟩

theorem endSettling_sized {s : State} (hs : s.Sized) : (endSettling s).Sized := by
  refine endSettling_elim s (fun _ => dealtWith_sized (comeToRest_sized hs)) fun d progress => ?_
  have sized : (s.finalOf d).Sized := hs.desc d progress
  have rested := comeToRest_sized hs
  refine handOff_elim _ _ (fun _ => ?_) (fun _ _ => swap_sized sized rested) (fun _ _ => discardWindow_sized rested) fun _ _ => ?_
  · exact startFrame_sized sized (rested.lists rfl ⟨rfl, rfl, Nat.le_refl _, all_of_none rfl, rested.waiting, rested.frame⟩)
  · refine rested.lists rfl ⟨rfl, rfl, Nat.le_refl _, all_of_none rfl, fun e he => ?_, rested.frame⟩
    obtain rfl := Option.some.inj he
    exact sized

theorem LateMove.sized {s t : State} (hs : s.Sized) (move : LateMove s t) : t.Sized := by
  cases move with
  | outside same => exact same.sized hs
  | joins => exact hs.lists rfl ⟨rfl, rfl, Nat.le_refl _, hs.desc, hs.waiting, hs.frame⟩
  | counts g n => exact hs.lists rfl ⟨rfl, rfl, Nat.le_refl _, hs.desc, hs.waiting, hs.frame⟩
  | event settling sound => exact onsetEvent_sized sound hs
  | expires => exact capExpires_sized hs
  | truncates settling => exact truncateCounting_sized hs

/-! ### The frame -/

theorem clearFrozen_keepsSize (z : Frozen) (i : Nat) (c : Cell) : c.KeepsSize i (c.clearFrozen z) := by
  cases z with
  | whole => exact ⟨fun _ => ⟨Nat.zero_le _, Nat.zero_le _, Nat.zero_le _, Nat.zero_le _⟩, id, fun _ => id, rfl, rfl⟩
  | half h => exact clearHalf_keepsSize h i c

theorem clearBanks_sized (test : Nat → Bool) {s : State} (hs : s.Sized) : (clearBanks test s).Sized := by
  cases frozen : s.ctl.frozen with
  | none =>
    rw [clearBanks_unfrozen test s frozen]
    exact hs
  | some z =>
    have lists : s.KeepsLists (clearBanks test s) := by
      rw [clearBanks_frame]
      exact ⟨rfl, rfl, Nat.le_refl _, hs.desc, hs.waiting, hs.frame⟩
    refine hs.change _ (getElem?_cells_clearBanks test s z frozen) (fun i c _ => ?_) lists
    split
    · exact clearFrozen_keepsSize z i c
    · exact .refl i c

theorem readoutComplete_sized {s : State} (hs : s.Sized) : (readoutComplete s).Sized := by
  have ended : ({ raiseCause .frameDone { s with readout := { frame := none, emitted := (s.readout.emitted + 1) % 2 ^ 32 } } with
      ctl := { s.ctl with frozen := none } } : State).Sized :=
    hs.lists rfl ⟨rfl, rfl, Nat.le_refl _, hs.desc, hs.waiting, all_of_none rfl⟩
  exact readoutNotice_elim _ (fun _ => ended) (fun _ _ => dealtWith_sized ended) fun d _ waits => swap_sized (hs.waiting d waits) ended

/-! ### Configuration and resets -/

/-- A LOAD_STEP gives the mask to the cell and to the mirror (R24). -/
theorem configures_sized {s : State} (hs : s.Sized) (i : Nat) (g : CellConfig) (trim : -16 ≤ g.trim ∧ g.trim ≤ 15) :
    ({ s with
      cells := s.cells.modify i fun c => c.configure g
      engine := { s.engine with
        mirror := if i < Config.arrayCells then s.engine.mirror.set i g.mask else s.engine.mirror } } : State).Sized := by
  have cell (j : Nat) (d : Cell) (hd : (s.cells.modify i fun c => c.configure g)[j]? = some d) :
      ∃ c, s.cells[j]? = some c ∧ (i = j ∧ d = c.configure g ∨ i ≠ j ∧ d = c) := by
    rw [List.getElem?_modify] at hd
    obtain ⟨c, hc, rfl⟩ := Option.map_eq_some_iff.1 hd
    by_cases same : i = j
    · exact ⟨c, hc, .inl ⟨same, if_pos same⟩⟩
    · exact ⟨c, hc, .inr ⟨same, if_neg same⟩⟩
  have each {Q : Cell → Prop} (held : ∀ c ∈ s.cells, Q c) (kept : ∀ c ∈ s.cells, Q c → Q (c.configure g)) :
      ∀ d ∈ s.cells.modify i fun c => c.configure g, Q d := by
    intro d hd
    obtain ⟨j, hj⟩ := List.mem_iff_getElem?.1 hd
    obtain ⟨c, hc, ⟨-, rfl⟩ | ⟨-, rfl⟩⟩ := cell j d hj
    · exact kept c (List.mem_of_getElem? hc) (held c (List.mem_of_getElem? hc))
    · exact held _ (List.mem_of_getElem? hc)
  exact {
    cells := (List.length_modify ..).trans hs.cells
    segments := each hs.segments fun _ _ ranged => ranged
    levels := each (Q := fun c => c.level ≤ 4095) hs.levels fun _ _ level => level
    auxLevels := fun j d aux hd => by
      obtain ⟨c, hc, ⟨-, rfl⟩ | ⟨-, rfl⟩⟩ := cell j d hd
      · exact hs.auxLevels j c aux hc
      · exact hs.auxLevels j _ aux hc
    trims := each (Q := fun c => -16 ≤ c.trim ∧ c.trim ≤ 15) hs.trims fun _ _ _ => trim
    mirror := by
      show (if i < Config.arrayCells then s.engine.mirror.set i g.mask else s.engine.mirror).length = Config.arrayCells
      split
      · exact (List.length_set ..).trans hs.mirror
      · exact hs.mirror
    mirrored := fun j d array hd => by
      have small : j < s.engine.mirror.length := by rw [hs.mirror]; exact array
      show (if i < Config.arrayCells then s.engine.mirror.set i g.mask else s.engine.mirror)[j]? = some d.mask
      obtain ⟨c, hc, ⟨rfl, rfl⟩ | ⟨other, rfl⟩⟩ := cell j d hd
      · rw [if_pos (show i < Config.arrayCells from array), List.getElem?_set_self small]
        rfl
      · have kept := hs.mirrored j _ array hc
        split
        · rwa [List.getElem?_set_ne other]
        · exact kept
    filter := hs.filter
    queue := hs.queue
    desc := hs.desc
    waiting := hs.waiting
    frame := hs.frame }

theorem softReset_sized {s : State} (hs : s.Sized) : (softReset s).Sized := by
  exact hs.change (fun _ => Cell.softReset) (fun _ => List.getElem?_map ..)
    (fun _ _ _ => ⟨fun _ => ⟨Nat.zero_le _, Nat.zero_le _, Nat.zero_le _, Nat.zero_le _⟩, fun _ => Nat.zero_le _, fun _ _ => rfl, rfl, rfl⟩)
    ⟨rfl, List.length_map .., Nat.zero_le _, all_of_none rfl, all_of_none rfl, all_of_none rfl⟩

/-- The reset state has every size: each cell is `Cell.reset`, and the mirror holds 4096 zeros (R2). -/
theorem reset_sized : State.reset.Sized := by
  have cell {c : Cell} (hc : c ∈ State.reset.cells) : c = Cell.reset := List.eq_of_mem_replicate hc
  have at' {i : Nat} {c : Cell} (hc : State.reset.cells[i]? = some c) : c = Cell.reset := cell (List.mem_of_getElem? hc)
  exact {
    cells := List.length_replicate
    segments := fun c hc => by rw [cell hc]; exact ⟨Nat.zero_le _, Nat.zero_le _, Nat.zero_le _, Nat.zero_le _⟩
    levels := fun c hc => by rw [cell hc]; exact Nat.zero_le _
    auxLevels := fun i c _ hc => by rw [at' hc]; rfl
    trims := fun c hc => by rw [cell hc]; decide
    mirror := List.length_replicate
    mirrored := fun i c array hc => by
      rw [at' hc]
      exact List.getElem?_replicate_of_lt array
    filter := List.length_replicate
    queue := Nat.zero_le _
    desc := all_of_none rfl
    waiting := all_of_none rfl
    frame := all_of_none rfl }

theorem powerOnReset_sized (s : State) : (powerOnReset s).Sized := reset_sized.lists rfl ⟨rfl, rfl, Nat.le_refl _, reset_sized.desc, reset_sized.waiting, reset_sized.frame⟩

/-! ### Every move -/

theorem TellsHolds.sized {s t : State} (tells : TellsHolds s t) (hs : s.Sized) : t.Sized := by
  obtain ⟨f, law, desc⟩ := tells.desc
  have kept := tells.kept
  refine hs.lists ?_ ⟨?_, ?_, ?_, sized_of_map hs desc law.sized, ?_, ?_⟩
  · rw [kept]
  · rw [kept]
  · rw [kept]
  · rw [kept]
  · rw [kept]
    exact hs.waiting
  · rw [kept]
    exact hs.frame

theorem shutWindow_sized (cause : CloseCause) {s : State} (hs : s.Sized) : (shutWindow cause s).Sized :=
  (shutWindow_tells cause s).sized (hs.lists rfl ⟨rfl, rfl, Nat.le_refl _, sized_of_map hs rfl fun _ hd => hd, hs.waiting, hs.frame⟩)

theorem onsetDelivered_sized {s : State} (hs : s.Sized) : (onsetDelivered s).Sized := by
  have eq := onsetDelivered_eq s
  refine hs.change _ (getElem?_onsetDelivered s) (fun i c _ => ?_) ⟨?_, ?_, ?_, ?_, ?_, ?_⟩
  · split
    · exact .refl i c
    · exact (onsetAtCell_lawful s.params s.ctl.liveHalf i c).sound.keepsSize
  · rw [eq]
  · rw [eq]
  · rw [eq]
  · rw [eq]
    refine sized_of_map hs rfl fun d hd => hd.of_lengths ?_ rfl
    rw [List.length_append, List.length_take]
    omega
  · rw [eq]
    exact hs.waiting
  · rw [eq]
    exact hs.frame

theorem Move.sized {w : Way} {s t : State} (hs : s.Sized) (move : Move w s t) : t.Sized := by
  cases move with
  | outside same => exact same.sized hs
  | filters length => exact hs.lists rfl ⟨rfl, length, Nat.le_refl _, hs.desc, hs.waiting, hs.frame⟩
  | gateOpens ch => exact (setHold_tells ch none s).sized hs
  | gateHolds ch r h opened => exact (setHold_tells ch _ s).sized hs
  | enters r ch opened room =>
    refine { hs.lists (t := s) rfl ⟨rfl, rfl, Nat.le_refl _, hs.desc, hs.waiting, hs.frame⟩ with queue := ?_ }
    show (s.queue.records ++ [r]).length ≤ 32
    rw [List.length_append]
    exact room
  | takes front measuring =>
    refine hs.lists rfl ⟨rfl, rfl, ?_, hs.desc, hs.waiting, hs.frame⟩
    rw [front]
    exact Nat.le_succ _
  | applies loud applying lawful => exact onsetEvent_sized (fun i c => (lawful i c).sound) (hs.lists rfl ⟨rfl, rfl, Nat.le_refl _, hs.desc, hs.waiting, hs.frame⟩)
  | describes law => exact hs.lists rfl ⟨rfl, rfl, Nat.le_refl _, sized_of_map hs rfl law.sized, hs.waiting, hs.frame⟩
  | configures i g inFlight trim => exact configures_sized hs i g trim
  | opens cause idle free => exact openWindowAs_sized cause hs
  | shuts cause first opened => exact shutWindow_sized cause hs
  | ends late start settling free empty => exact endSettling_sized (late.keeps (fun _ _ => LateMove.sized) hs)
  | expires settling => exact capExpires_sized hs
  | event loud measuring lawful => exact onsetEvent_sized (fun i c => (lawful i c).sound) hs
  | onsetTicks opened short => exact onsetDelivered_sized hs
  | onsetShuts opened => exact shutWindow_sized .timer (onsetDelivered_sized hs)
  | sends sending desc clears =>
    refine clearBanks_sized _ (hs.lists rfl ⟨rfl, rfl, Nat.le_refl _, hs.desc, hs.waiting, fun g hg => ?_⟩)
    obtain rfl := Option.some.inj hg
    rw [desc]
    exact hs.frame _ sending
  | completes sending cleared => exact readoutComplete_sized hs
  | softResets => exact softReset_sized hs
  | powersOn => exact powerOnReset_sized s
  | turns _ _ | waits _ | joins | writes _ _ | passes _ _ | holdsCount | operates _ _ _ | controls _ _ _ | dwellCounts _ | dividers _ | pulses _ =>
    exact hs.lists rfl ⟨rfl, rfl, Nat.le_refl _, hs.desc, hs.waiting, hs.frame⟩

/-- Settles O52: no move changes a size or leaves a range. -/
theorem sizesAreKeptByEveryStep : Obligations.SizesAreKeptByEveryStep := fun _ _ hs h =>
  (step_moves h).keeps (fun _ _ => Move.sized) hs

end Sys2Proof.Machine
end

section
/-!
PROOF. The roles of storage and descriptors (O55), and the account of windows (O59): most moves leave the roles; an open, the end of
settling, readout complete and the resets change them.
-/

namespace Sys2Proof.Machine

/-! ### Moves that leave the roles -/

/-- Two states with the same roles of storage and descriptors, and the same account of windows. -/
structure State.SameWindows (s t : State) : Prop where
  mode : t.params.mode = s.params.mode
  frozen : t.ctl.frozen = s.ctl.frozen
  live : t.ctl.liveHalf = s.ctl.liveHalf
  waiting : t.ctl.waiting = s.ctl.waiting
  held : t.ctl.state = .held ↔ s.ctl.state = .held
  measuring : t.measuring = s.measuring
  desc : t.ctl.desc.map Descriptor.mode = s.ctl.desc.map Descriptor.mode
  frame : t.readout.frame.map (fun f => f.desc.mode) = s.readout.frame.map fun f => f.desc.mode
  nextFrame : t.ctl.nextFrame = s.ctl.nextFrame
  discarded : t.ctl.discardedTotal = s.ctl.discardedTotal
  emitted : t.readout.emitted = s.readout.emitted

theorem isSome_of_map {α β : Type} {f : α → β} {a b : Option α} (h : b.map f = a.map f) : b.isSome = a.isSome := by
  rw [← Option.isSome_map (f := f), h, Option.isSome_map]

theorem all_of_map {α β : Type} {f : α → β} {a b : Option α} {m : β} (h : b.map f = a.map f) (ha : ∀ x, a = some x → f x = m) :
    ∀ y, b = some y → f y = m := by
  intro y hy
  rw [hy, Option.map_some] at h
  obtain ⟨x, hx, eq⟩ := Option.map_eq_some_iff.1 h.symm
  rw [← eq]
  exact ha x hx

theorem State.SameWindows.inv {s t : State} (h : s.SameWindows t) (hs : s.HandOffInv) : t.HandOffInv where
  frozenNotLive := by rw [h.frozen, h.live]; exact hs.frozenNotLive
  frozenWhileSending := by rw [h.frozen, isSome_of_map h.frame]; exact hs.frozenWhileSending
  descWhileMeasuring := by rw [h.measuring, isSome_of_map h.desc]; exact hs.descWhileMeasuring
  sequential := by rw [h.mode, h.frozen, h.waiting, Ne, h.held]; exact hs.sequential
  continuous := by rw [h.mode, h.frozen, h.waiting, h.held]; exact hs.continuous
  modes := by
    obtain ⟨desc, waiting, frame⟩ := hs.modes
    rw [h.mode, h.waiting]
    exact ⟨all_of_map h.desc desc, waiting, all_of_map h.frame frame⟩

theorem State.SameWindows.accounted {s t : State} (h : s.SameWindows t) (hs : s.WindowsAccounted) : t.WindowsAccounted := by
  unfold State.WindowsAccounted State.inHand at hs ⊢
  rwa [h.nextFrame, h.emitted, h.discarded, isSome_of_map h.desc, h.waiting, isSome_of_map h.frame]

theorem State.SameWindows.trans {s t u : State} (h1 : s.SameWindows t) (h2 : t.SameWindows u) : s.SameWindows u where
  mode := h2.mode.trans h1.mode
  frozen := h2.frozen.trans h1.frozen
  live := h2.live.trans h1.live
  waiting := h2.waiting.trans h1.waiting
  held := h2.held.trans h1.held
  measuring := h2.measuring.trans h1.measuring
  desc := h2.desc.trans h1.desc
  frame := h2.frame.trans h1.frame
  nextFrame := h2.nextFrame.trans h1.nextFrame
  discarded := h2.discarded.trans h1.discarded
  emitted := h2.emitted.trans h1.emitted

/-- A change outside the controller and the readout. -/
theorem sameWindows_of_eq {s t : State} (mode : t.params.mode = s.params.mode) (ctl : t.ctl = s.ctl) (readout : t.readout = s.readout) :
    s.SameWindows t where
  mode := mode
  frozen := by rw [ctl]
  live := by rw [ctl]
  waiting := by rw [ctl]
  held := by rw [ctl]
  measuring := by rw [State.measuring, State.measuring, ctl]
  desc := by rw [ctl]
  frame := by rw [readout]
  nextFrame := by rw [ctl]
  discarded := by rw [ctl]
  emitted := by rw [readout]

theorem map_mode_of_map {g : Descriptor → Descriptor} {a b : Option Descriptor} (h : b = a.map g) (mode : ∀ d, (g d).mode = d.mode) :
    b.map Descriptor.mode = a.map Descriptor.mode := by
  rw [h, Option.map_map]
  exact congrFun (congrArg Option.map (funext mode)) a

/-- A change of the descriptor in progress, its mode kept. -/
theorem sameWindows_of_desc {s t : State} {g : Descriptor → Descriptor} (mode : t.params.mode = s.params.mode)
    (ctl : t.ctl = { s.ctl with desc := t.ctl.desc }) (desc : t.ctl.desc = s.ctl.desc.map g) (law : ∀ d, (g d).mode = d.mode)
    (readout : t.readout = s.readout) : s.SameWindows t where
  mode := mode
  frozen := by rw [ctl]
  live := by rw [ctl]
  waiting := by rw [ctl]
  held := by rw [ctl]
  measuring := by rw [State.measuring, State.measuring, ctl]
  desc := map_mode_of_map desc law
  frame := by rw [readout]
  nextFrame := by rw [ctl]
  discarded := by rw [ctl]
  emitted := by rw [readout]

theorem ArrayOutcome.sameWindows {f : Nat → Cell → CellOut} {s t : State} (out : ArrayOutcome f s t) : s.SameWindows t := by
  obtain ⟨g, desc, law⟩ := out.modes
  refine sameWindows_of_desc ?_ out.ctl desc (fun d => (law d).1) ?_
  · rw [out.kept]
  · rw [out.kept]

theorem onsetEvent_sameWindows (f : Nat → Cell → CellOut) (s : State) : s.SameWindows (onsetEvent f s) :=
  (onsetEvent_outcome f s).sameWindows

theorem applies_sameWindows (f : Nat → Cell → CellOut) (s : State) (e : CellEngine) : s.SameWindows (onsetEvent f { s with engine := e }) :=
  State.SameWindows.trans (t := { s with engine := e }) (sameWindows_of_eq rfl rfl rfl) (onsetEvent_sameWindows f _)

theorem TellsHolds.sameWindows {s t : State} (tells : TellsHolds s t) : s.SameWindows t := by
  obtain ⟨f, law, desc⟩ := tells.desc
  refine sameWindows_of_desc ?_ ?_ desc law.mode ?_
  · rw [tells.kept]
  · have kept := tells.kept
    exact congrArg State.ctl kept
  · rw [tells.kept]

theorem capExpires_sameWindows (s : State) : s.SameWindows (capExpires s) :=
  sameWindows_of_desc (g := fun d => { d with settleCap := true }) rfl rfl rfl (fun _ => rfl) rfl

theorem truncateCounting_sameWindows (s : State) : s.SameWindows (truncateCounting s) :=
  sameWindows_of_desc rfl rfl rfl (fun d => by rw [(foldl_truncate (countingCells s) d).1]) rfl

theorem beginClose_sameWindows (cause : CloseCause) (s : State) (opened : s.ctl.state = .opened) : s.SameWindows (beginClose cause s) where
  mode := rfl
  frozen := rfl
  live := rfl
  waiting := rfl
  held := by rw [opened, beginClose_state]; exact ⟨CtlState.noConfusion, CtlState.noConfusion⟩
  measuring := ((measuring_iff _).2 (.inr rfl)).trans ((measuring_iff s).2 (.inl opened)).symm
  desc := map_mode_of_map (g := fun d => { d with closeCause := cause, windowLength := s.ctl.windowCount }) rfl fun _ => rfl
  frame := rfl
  nextFrame := rfl
  discarded := rfl
  emitted := rfl

theorem shutWindow_sameWindows (cause : CloseCause) (s : State) (opened : s.ctl.state = .opened) : s.SameWindows (shutWindow cause s) :=
  (beginClose_sameWindows cause s opened).trans (shutWindow_tells cause s).sameWindows

theorem onsetDelivered_sameWindows (s : State) : s.SameWindows (onsetDelivered s) := by
  have eq := onsetDelivered_eq s
  have desc : (onsetDelivered s).ctl.desc = s.afterOnsetTick.desc := by rw [eq]
  rw [State.afterOnsetTick] at desc
  exact {
    mode := congrArg (fun u => u.params.mode) eq
    frozen := congrArg (fun u => u.ctl.frozen) eq
    live := congrArg (fun u => u.ctl.liveHalf) eq
    waiting := congrArg (fun u => u.ctl.waiting) eq
    held := by rw [eq]; rfl
    measuring := by rw [eq]; rfl
    desc := map_mode_of_map desc fun _ => rfl
    frame := congrArg (fun u => u.readout.frame.map fun f => f.desc.mode) eq
    nextFrame := congrArg (fun u => u.ctl.nextFrame) eq
    discarded := congrArg (fun u => u.ctl.discardedTotal) eq
    emitted := congrArg (fun u => u.readout.emitted) eq }

theorem clearBanks_sends_sameWindows {s : State} {f g : Frame} (test : Nat → Bool) (sending : s.readout.frame = some f)
    (desc : g.desc = f.desc) : s.SameWindows (clearBanks test { s with readout := { s.readout with frame := some g } }) := by
  rw [clearBanks_frame]
  refine ⟨rfl, rfl, rfl, rfl, .rfl, rfl, rfl, ?_, rfl, rfl, rfl⟩
  rw [sending]
  exact congrArg (fun d => some d.mode) desc

theorem LateMove.sameWindows {s t : State} (move : LateMove s t) : s.SameWindows t := by
  cases move with
  | outside same => rw [same.eq]; exact sameWindows_of_eq rfl rfl rfl
  | joins => exact sameWindows_of_eq rfl rfl rfl
  | counts g n => exact ⟨rfl, rfl, rfl, rfl, .rfl, rfl, rfl, rfl, rfl, rfl, rfl⟩
  | event settling sound => exact onsetEvent_sameWindows _ s
  | expires => exact capExpires_sameWindows s
  | truncates settling => exact truncateCounting_sameWindows s

theorem LateMoves.sameWindows {s t : State} (moves : LateMoves s t) : s.SameWindows t :=
  moves.keeps (P := fun u => s.SameWindows u) (fun _ _ h move => h.trans move.sameWindows) (sameWindows_of_eq rfl rfl rfl)

/-- What a move keeps of roles and account, if the few moves that change them keep it. -/
theorem Move.windows_elim {P : State → Prop} {w : Way} {s t : State} (hs : P s) (move : Move w s t) (same : ∀ s t, P s → s.SameWindows t → P t)
    (writes : ∀ s id v q, P s → s.params.write id v = some q → s.classMet id.paramClass = true → P { s with params := q })
    (opens : ∀ s cause, P s → s.ctl.state = .idle → P (openWindowAs cause s))
    (ends : ∀ s, P s → s.ctl.state = .settling → P (endSettling s))
    (completes : ∀ s f, P s → s.readout.frame = some f → P (readoutComplete s))
    (softResets : ∀ s, P s → P (softReset s)) (powersOn : ∀ s, P s → P (powerOnReset s)) : P t := by
  cases move with
  | outside same' => exact same _ _ hs (by rw [same'.eq]; exact sameWindows_of_eq rfl rfl rfl)
  | writes written met => exact writes _ _ _ _ hs written met
  | gateOpens ch => exact same _ _ hs (setHold_tells ch none s).sameWindows
  | gateHolds ch r h opened => exact same _ _ hs (setHold_tells ch _ s).sameWindows
  | applies loud applying lawful => exact same _ _ hs (applies_sameWindows _ s _)
  | describes law => exact same _ _ hs (sameWindows_of_desc rfl rfl rfl law.mode rfl)
  | opens cause idle free => exact opens _ _ hs idle
  | shuts cause first opened => exact same _ _ hs (shutWindow_sameWindows cause s opened)
  | ends late start settling free empty => exact ends _ (same _ _ hs late.sameWindows) settling
  | expires settling => exact same _ _ hs (capExpires_sameWindows s)
  | event loud measuring lawful => exact same _ _ hs (onsetEvent_sameWindows _ s)
  | onsetTicks opened short => exact same _ _ hs (onsetDelivered_sameWindows s)
  | onsetShuts opened =>
    have still : (onsetDelivered s).ctl.state = .opened := by rw [onsetDelivered_eq]; exact opened
    exact same _ _ hs ((onsetDelivered_sameWindows s).trans (shutWindow_sameWindows .timer _ still))
  | sends sending desc clears => exact same _ _ hs (clearBanks_sends_sameWindows _ sending desc)
  | completes sending cleared => exact completes _ _ hs sending
  | softResets => exact softResets _ hs
  | powersOn => exact powersOn _ hs
  | controls _ _ _ => exact same _ _ hs ⟨rfl, rfl, rfl, rfl, .rfl, rfl, rfl, rfl, rfl, rfl, rfl⟩
  | dwellCounts _ => exact same _ _ hs ⟨rfl, rfl, rfl, rfl, .rfl, rfl, rfl, rfl, rfl, rfl, rfl⟩
  | turns _ _ | waits _ | joins | filters _ | passes _ _ | holdsCount | enters _ _ _ _ | takes _ _ | operates _ _ _ | configures _ _ _ _ | dividers _ | pulses _ =>
    exact same _ _ hs (sameWindows_of_eq rfl rfl rfl)

/-! ### The hand-off keeps the roles -/

/-- The roles where the storage of a window has been dealt with and the controller goes on (R100). -/
structure State.Dealt (s : State) : Prop where
  frozenNotLive : ∀ h, s.ctl.frozen = some (.half h) → h ≠ s.ctl.liveHalf
  frozenWhileSending : s.ctl.frozen.isSome = s.readout.frame.isSome
  desc : s.ctl.desc = none
  waiting : s.ctl.waiting = none
  sequential : s.params.mode.sequential = true → s.ctl.frozen = none
  continuous : s.params.mode.sequential = false → s.ctl.frozen ≠ some .whole
  frame : ∀ f, s.readout.frame = some f → f.desc.mode = s.params.mode

theorem openWindowAs_roles (cause : OpenCause) {s : State} (dealt : s.Dealt) : (openWindowAs cause s).HandOffInv := by
  refine (openWindowAs_outcome cause s).sameWindows.inv ⟨dealt.frozenNotLive, dealt.frozenWhileSending, rfl,
    fun mode => ⟨fun held => CtlState.noConfusion held, fun _ => dealt.sequential mode, dealt.waiting⟩,
    fun mode => ⟨dealt.continuous mode, ?_, fun held => CtlState.noConfusion held⟩, fun d hd => ?_, all_of_none dealt.waiting, dealt.frame⟩
  · show s.ctl.waiting.isSome = true ↔ CtlState.opened = .held
    rw [dealt.waiting]
    exact ⟨fun none => absurd none Bool.false_ne_true, fun held => CtlState.noConfusion held⟩
  · obtain rfl := Option.some.inj hd
    rfl

theorem dealtWith_roles {s : State} (dealt : s.Dealt) : (dealtWith s).HandOffInv := by
  refine dealtWith_elim s (openWindowAs_roles .cycle dealt) ⟨dealt.frozenNotLive, dealt.frozenWhileSending, ?_,
    fun mode => ⟨fun held => CtlState.noConfusion held, fun _ => dealt.sequential mode, dealt.waiting⟩,
    fun mode => ⟨dealt.continuous mode, ?_, fun held => CtlState.noConfusion held⟩, all_of_none dealt.desc, all_of_none dealt.waiting,
    dealt.frame⟩
  · show s.ctl.desc.isSome = false
    rw [dealt.desc]
    rfl
  · show s.ctl.waiting.isSome = true ↔ CtlState.idle = .held
    rw [dealt.waiting]
    exact ⟨fun none => absurd none Bool.false_ne_true, fun held => CtlState.noConfusion held⟩

theorem Half.other_ne (h : Half) : h ≠ h.other := by cases h <;> exact Half.noConfusion

theorem swap_roles {d : Descriptor} {s : State} (continuous : s.params.mode.sequential = false) (mode : d.mode = s.params.mode) :
    (swap d s).HandOffInv := by
  refine dealtWith_roles ⟨fun h frozen => ?_, rfl, rfl, rfl, fun sequential => ?_, fun _ whole => ?_, fun f hf => ?_⟩
  · obtain rfl := Frozen.half.inj (Option.some.inj frozen)
    exact Half.other_ne _
  · exact absurd (continuous.symm.trans sequential) Bool.false_ne_true
  · exact Frozen.noConfusion (Option.some.inj whole)
  · obtain rfl := Option.some.inj hf
    exact mode

/-- In IDLE no descriptor is in progress and none waits. -/
theorem State.HandOffInv.idle {s : State} (hs : s.HandOffInv) (idle : s.ctl.state = .idle) : s.Dealt := by
  have quiet : s.measuring = false := (not_measuring_iff s).2 (.inl idle)
  have unheld : s.ctl.state ≠ .held := by rw [idle]; exact CtlState.noConfusion
  have desc : s.ctl.desc = none := Option.isSome_eq_false_iff.1 (hs.descWhileMeasuring.trans quiet) |> Option.isNone_iff_eq_none.1
  refine ⟨hs.frozenNotLive, hs.frozenWhileSending, desc, ?_, fun mode => (hs.sequential mode).2.1 unheld,
    fun mode => (hs.continuous mode).1, hs.modes.2.2⟩
  cases mode : s.params.mode.sequential with
  | true => exact (hs.sequential mode).2.2
  | false =>
    have never : ¬ s.ctl.waiting.isSome = true := fun waits => unheld ((hs.continuous mode).2.1.1 waits)
    rwa [Option.not_isSome_iff_eq_none] at never

/-- While SETTLING a descriptor is in progress, with the mode in force, and none waits; nothing is frozen in a sequential mode. -/
theorem State.HandOffInv.settling {s : State} (hs : s.HandOffInv) (settling : s.ctl.state = .settling) :
    (∃ d, s.ctl.desc = some d ∧ d.mode = s.params.mode) ∧ s.ctl.waiting = none
      ∧ (s.params.mode.sequential = true → s.ctl.frozen = none) := by
  have counts : s.measuring = true := (measuring_iff s).2 (.inr settling)
  have unheld : s.ctl.state ≠ .held := by rw [settling]; exact CtlState.noConfusion
  obtain ⟨d, hd⟩ := Option.isSome_iff_exists.1 (hs.descWhileMeasuring.trans counts)
  refine ⟨⟨d, hd, hs.modes.1 d hd⟩, ?_, fun mode => (hs.sequential mode).2.1 unheld⟩
  cases mode : s.params.mode.sequential with
  | true => exact (hs.sequential mode).2.2
  | false =>
    have never : ¬ s.ctl.waiting.isSome = true := fun waits => unheld ((hs.continuous mode).2.1.1 waits)
    rwa [Option.not_isSome_iff_eq_none] at never

theorem endSettling_roles {s : State} (hs : s.HandOffInv) (settling : s.ctl.state = .settling) : (endSettling s).HandOffInv := by
  obtain ⟨⟨d, progress, mode⟩, waiting, alone⟩ := hs.settling settling
  have contra {m : Bool} (yes : s.params.mode.sequential = m) (no : s.params.mode.sequential = !m) : False := by
    rw [yes] at no
    cases m <;> cases no
  rw [endSettling_desc d s progress]
  refine handOff_elim _ (comeToRest s) (fun seq => ?_) (fun cont free => swap_roles cont mode) (fun cont frozen => dealtWith_roles ?_)
    fun cont frozen => ?_
  · refine ⟨fun h frozen => ?_, rfl, rfl, fun _ => ⟨fun _ => rfl, fun unheld => absurd rfl unheld, waiting⟩,
      fun cont => (contra seq cont).elim, all_of_none rfl, all_of_none waiting, fun f hf => ?_⟩
    · exact Frozen.noConfusion (Option.some.inj frozen)
    · obtain rfl := Option.some.inj hf
      exact mode
  · exact ⟨hs.frozenNotLive, hs.frozenWhileSending, rfl, waiting, alone, fun mode => (hs.continuous mode).1, hs.modes.2.2⟩
  · refine ⟨hs.frozenNotLive, hs.frozenWhileSending, rfl, fun seq => (contra seq cont).elim,
      fun _ => ⟨(hs.continuous cont).1, ⟨fun _ => rfl, fun _ => rfl⟩, fun _ => frozen⟩, all_of_none rfl, fun e he => ?_, hs.modes.2.2⟩
    obtain rfl := Option.some.inj he
    exact mode

theorem readoutComplete_roles {s : State} (hs : s.HandOffInv) : (readoutComplete s).HandOffInv := by
  refine readoutNotice_elim _ (fun unheld => ?_) (fun held waits => dealtWith_roles ?_) fun d held waits => swap_roles ?_ ?_
  · refine ⟨fun h frozen => ?_, rfl, hs.descWhileMeasuring, fun mode => ⟨fun held => absurd held unheld, fun _ => rfl,
      (hs.sequential mode).2.2⟩, fun mode => ⟨fun whole => ?_, (hs.continuous mode).2.1, fun held => absurd held unheld⟩,
      hs.modes.1, hs.modes.2.1, all_of_none rfl⟩
    · cases frozen
    · cases whole
  · have quiet : s.measuring = false := (not_measuring_iff s).2 (.inr held)
    have desc : s.ctl.desc = none := Option.isSome_eq_false_iff.1 (hs.descWhileMeasuring.trans quiet) |> Option.isNone_iff_eq_none.1
    refine ⟨fun h frozen => ?_, rfl, desc, waits, fun _ => rfl, fun _ whole => ?_, all_of_none rfl⟩
    · cases frozen
    · cases whole
  · cases mode : s.params.mode.sequential with
    | true =>
      have none : s.ctl.waiting = none := (hs.sequential mode).2.2
      cases none.symm.trans waits
    | false => exact mode
  · exact hs.modes.2.1 d waits

/-! ### Writes and resets -/

/-- A write of another parameter leaves MODE. -/
theorem Params.mode_of_write {p q : Params} {id : ParamId} {v : Nat} (written : p.write id v = some q) (other : id ≠ .mode) :
    q.mode = p.mode := by
  have number : q.mode.number = p.mode.number := p.number_of_write q id .mode v (Ne.symm other) written
  revert number
  cases q.mode <;> cases p.mode <;> decide

/-- MODE is written at REST alone, where no window is in hand (R167). -/
theorem writes_roles {s : State} {id : ParamId} {v : Nat} {q : Params} (hs : s.HandOffInv) (written : s.params.write id v = some q)
    (met : s.classMet id.paramClass = true) : ({ s with params := q } : State).HandOffInv := by
  by_cases mode : id = .mode
  · rw [mode] at met
    have rest : s.classMet .rest = true := met
    simp only [State.classMet, Bool.and_eq_true, decide_eq_true_eq, Option.isNone_iff_eq_none] at rest
    obtain ⟨⟨⟨idle, -⟩, frozen⟩, frame⟩ := rest
    have dealt := hs.idle idle
    have unheld : ∀ {P : Prop}, s.ctl.state = .held → P := fun held => CtlState.noConfusion (idle.symm.trans held)
    refine ⟨hs.frozenNotLive, hs.frozenWhileSending, hs.descWhileMeasuring, fun _ => ⟨unheld, fun _ => frozen, dealt.waiting⟩,
      fun _ => ⟨?_, ⟨fun waits => ?_, unheld⟩, unheld⟩, all_of_none dealt.desc, all_of_none dealt.waiting, all_of_none frame⟩
    · show s.ctl.frozen ≠ some .whole
      rw [frozen]
      decide
    · have waits : s.ctl.waiting.isSome = true := waits
      rw [dealt.waiting] at waits
      cases waits
  · exact (sameWindows_of_eq (s := s) (t := { s with params := q }) (Params.mode_of_write written mode) rfl rfl).inv hs

/-- A part that has no window in hand, as after a reset. -/
theorem roles_of_empty {s : State} (ctl : s.ctl = .reset) (frame : s.readout.frame = none) : s.HandOffInv := by
  have idle : s.ctl.state = .idle := by rw [ctl]; rfl
  have frozen : s.ctl.frozen = none := by rw [ctl]; rfl
  have desc : s.ctl.desc = none := by rw [ctl]; rfl
  have waiting : s.ctl.waiting = none := by rw [ctl]; rfl
  have unheld : ∀ {P : Prop}, s.ctl.state = .held → P := fun held => CtlState.noConfusion (idle.symm.trans held)
  refine ⟨fun h half => ?_, by rw [frozen, frame]; rfl, ?_, fun _ => ⟨unheld, fun _ => frozen, waiting⟩,
    fun _ => ⟨by rw [frozen]; decide, ⟨fun waits => ?_, unheld⟩, unheld⟩, all_of_none desc, all_of_none waiting,
    all_of_none frame⟩
  · rw [frozen] at half
    cases half
  · rw [desc, (not_measuring_iff s).2 (.inl idle)]
    rfl
  · rw [waiting] at waits
    cases waits

theorem Move.roles {w : Way} {s t : State} (hs : s.HandOffInv) (move : Move w s t) : t.HandOffInv :=
  move.windows_elim hs (fun _ _ hs same => same.inv hs) (fun _ _ _ _ hs written met => writes_roles hs written met)
    (fun _ cause hs idle => openWindowAs_roles cause (hs.idle idle)) (fun _ hs settling => endSettling_roles hs settling)
    (fun _ _ hs _ => readoutComplete_roles hs) (fun _ _ => roles_of_empty rfl rfl) fun _ _ => roles_of_empty rfl rfl

/-- Settles O55: the hand-off, readout complete and the opens keep the roles; no other move changes them. -/
theorem storageRolesAreKeptByEveryStep : Obligations.StorageRolesAreKeptByEveryStep := fun _ _ hs h =>
  (step_moves h).keeps (fun _ _ => Move.roles) hs

/-! ### The account of windows (O59) -/

/-- An open takes one frame number, with no window in progress before it. -/
theorem openWindowAs_accounted (cause : OpenCause) {s : State} (desc : s.ctl.desc = none) (hs : s.WindowsAccounted) :
    (openWindowAs cause s).WindowsAccounted := by
  refine (openWindowAs_outcome cause s).sameWindows.accounted ?_
  have before : s.ctl.nextFrame % 2 ^ 32 = (s.readout.emitted + s.ctl.discardedTotal
      + (0 + (if s.ctl.waiting.isSome then 1 else 0) + (if s.readout.frame.isSome then 1 else 0))) % 2 ^ 32 := by
    unfold State.WindowsAccounted State.inHand at hs
    rwa [desc] at hs
  show (s.ctl.nextFrame + 1) % 2 ^ 32 % 2 ^ 32 = (s.readout.emitted + s.ctl.discardedTotal
      + (1 + (if s.ctl.waiting.isSome then 1 else 0) + (if s.readout.frame.isSome then 1 else 0))) % 2 ^ 32
  omega

theorem dealtWith_accounted {s : State} (desc : s.ctl.desc = none) (hs : s.WindowsAccounted) : (dealtWith s).WindowsAccounted :=
  dealtWith_elim s (openWindowAs_accounted .cycle desc hs) hs

/-- A window in hand goes from the controller to the engine, nothing being frozen. -/
theorem handed_accounted {s : State} {n : Nat} (frame : s.readout.frame = none)
    (hs : s.ctl.nextFrame % 2 ^ 32 = (s.readout.emitted + s.ctl.discardedTotal
      + (n + (if s.readout.frame.isSome then 1 else 0))) % 2 ^ 32) :
    s.ctl.nextFrame % 2 ^ 32 = (s.readout.emitted + s.ctl.discardedTotal + n) % 2 ^ 32 := by
  rwa [frame] at hs

theorem endSettling_accounted {s : State} (roles : s.HandOffInv) (settling : s.ctl.state = .settling) (hs : s.WindowsAccounted) :
    (endSettling s).WindowsAccounted := by
  obtain ⟨⟨d, progress, -⟩, waiting, alone⟩ := roles.settling settling
  have before : s.ctl.nextFrame % 2 ^ 32 = (s.readout.emitted + s.ctl.discardedTotal
      + (1 + (if s.readout.frame.isSome then 1 else 0))) % 2 ^ 32 := by
    unfold State.WindowsAccounted State.inHand at hs
    rwa [progress, waiting] at hs
  have free (frozen : s.ctl.frozen = none) : s.readout.frame = none := by
    have same := roles.frozenWhileSending
    rw [frozen] at same
    exact Option.isNone_iff_eq_none.1 (Option.isSome_eq_false_iff.1 same.symm)
  have waits : (if s.ctl.waiting.isSome then 1 else 0) = 0 := by rw [waiting]; rfl
  rw [endSettling_desc d s progress]
  refine handOff_elim _ (comeToRest s) (fun seq => ?_) (fun _ frozen => dealtWith_accounted rfl ?_)
    (fun _ _ => dealtWith_accounted rfl ?_) fun _ _ => ?_
  · have none := handed_accounted (free (alone seq)) before
    show s.ctl.nextFrame % 2 ^ 32 = (s.readout.emitted + s.ctl.discardedTotal + (0 + (if s.ctl.waiting.isSome then 1 else 0) + 1)) % 2 ^ 32
    rw [waits]
    exact none
  · have none := handed_accounted (free frozen) before
    exact none
  · show s.ctl.nextFrame % 2 ^ 32 = (s.readout.emitted + (s.ctl.discardedTotal + 1) % 2 ^ 32
      + (0 + (if s.ctl.waiting.isSome then 1 else 0) + (if s.readout.frame.isSome then 1 else 0))) % 2 ^ 32
    rw [waits]
    omega
  · show s.ctl.nextFrame % 2 ^ 32 = (s.readout.emitted + s.ctl.discardedTotal
      + (0 + 1 + (if s.readout.frame.isSome then 1 else 0))) % 2 ^ 32
    rw [Nat.zero_add]
    exact before

theorem readoutComplete_accounted {s : State} {f : Frame} (roles : s.HandOffInv) (sending : s.readout.frame = some f)
    (hs : s.WindowsAccounted) : (readoutComplete s).WindowsAccounted := by
  have before : s.ctl.nextFrame % 2 ^ 32 = (s.readout.emitted + s.ctl.discardedTotal
      + ((if s.ctl.desc.isSome then 1 else 0) + (if s.ctl.waiting.isSome then 1 else 0) + 1)) % 2 ^ 32 := by
    unfold State.WindowsAccounted State.inHand at hs
    rwa [sending] at hs
  have ended : s.ctl.nextFrame % 2 ^ 32 = ((s.readout.emitted + 1) % 2 ^ 32 + s.ctl.discardedTotal
      + ((if s.ctl.desc.isSome then 1 else 0) + (if s.ctl.waiting.isSome then 1 else 0) + 0)) % 2 ^ 32 := by omega
  have quiet (held : s.ctl.state = .held) : s.ctl.desc = none := by
    have still : s.measuring = false := (not_measuring_iff s).2 (.inr held)
    exact Option.isNone_iff_eq_none.1 (Option.isSome_eq_false_iff.1 (roles.descWhileMeasuring.trans still))
  refine readoutNotice_elim _ (fun _ => ended) (fun held _ => dealtWith_accounted (quiet held) ended)
    fun d held waits => dealtWith_accounted rfl ?_
  have waits : s.ctl.waiting = some d := waits
  rw [quiet held, waits] at ended
  exact ended

/-- Settles O59: each window that leaves the controller or the engine is taken off where it was and added where it goes. -/
theorem everyWindowIsAccountedFor : Obligations.EveryWindowIsAccountedFor := by
  intro s t roles hs h
  refine ((step_moves h).keeps (P := fun u => u.HandOffInv ∧ u.WindowsAccounted) (fun u v ⟨roles, account⟩ move => ⟨move.roles roles, ?_⟩)
    ⟨roles, hs⟩).2
  refine (move.windows_elim (P := fun u => u.HandOffInv ∧ u.WindowsAccounted) ⟨roles, account⟩
    (fun _ _ hs same => ⟨same.inv hs.1, same.accounted hs.2⟩) (fun _ _ _ _ hs written met => ⟨writes_roles hs.1 written met, hs.2⟩)
    (fun _ cause hs idle => ?_) (fun _ hs settling => ⟨endSettling_roles hs.1 settling, endSettling_accounted hs.1 settling hs.2⟩)
    (fun _ _ hs sending => ⟨readoutComplete_roles hs.1, readoutComplete_accounted hs.1 sending hs.2⟩)
    (fun _ _ => ⟨roles_of_empty rfl rfl, rfl⟩) fun _ _ => ⟨roles_of_empty rfl rfl, rfl⟩).2
  have dealt := hs.1.idle idle
  exact ⟨openWindowAs_roles cause dealt, openWindowAs_accounted cause dealt.desc hs.2⟩

end Sys2Proof.Machine
end

section
/-!
PROOF. The first-onset list stays short, ordered and free of repeats (O60): an event enters reports of cells whose flag was not set before
it, an onset tick those that have waited for it.
-/

namespace Sys2Proof.Machine

/-! ### The list -/

/-- A cell has its onset_seen flag set. -/
def State.SeenAt (s : State) (i : Nat) : Prop := ∃ c, s.cells[i]? = some c ∧ c.onsetSeen = true

/-- A first-onset list at a window length count, over the cells that have been seen (R97, R98). -/
structure OnsetsOk (l : List OnsetEntry) (w : Nat) (seen : Nat → Prop) : Prop where
  short : l.length ≤ 16
  rising : l.Pairwise fun a b => a.offset ≤ b.offset
  reached : ∀ e ∈ l, e.offset ≤ w
  once : (l.map OnsetEntry.cell).Nodup
  seen : ∀ e ∈ l, seen e.cell

/-- Reports of cells that are not in the list enter it, as far as it has room. -/
theorem OnsetsOk.enter {l : List OnsetEntry} {w v : Nat} {seen now : Nat → Prop} (ok : OnsetsOk l w seen) {order : List Nat}
    (later : w ≤ v) (nodup : order.Nodup) (fresh : ∀ e ∈ l, e.cell ∉ order) (sees : ∀ i ∈ order, now i) (keeps : ∀ i, seen i → now i) :
    OnsetsOk (l ++ (order.map fun i => { cell := i, offset := v }).take (16 - l.length)) v now := by
  have entered (e : OnsetEntry) (he : e ∈ (order.map fun i => ({ cell := i, offset := v } : OnsetEntry)).take (16 - l.length)) :
      e.cell ∈ order ∧ e.offset = v := by
    obtain ⟨i, hi, rfl⟩ := List.mem_map.1 (List.mem_of_mem_take he)
    exact ⟨hi, rfl⟩
  have cells : ((order.map fun i => ({ cell := i, offset := v } : OnsetEntry)).take (16 - l.length)).map OnsetEntry.cell
      = order.take (16 - l.length) := by
    rw [List.map_take, List.map_map]
    exact congrArg (List.take _) (List.map_id _)
  refine ⟨?_, List.pairwise_append.2 ⟨ok.rising, ?_, fun a ha b hb => ?_⟩, fun e he => ?_, ?_, fun e he => ?_⟩
  · have short := ok.short
    rw [List.length_append, List.length_take]
    omega
  · refine List.Pairwise.imp_of_mem (R := fun _ _ => True) (fun ha hb _ => ?_) (List.pairwise_of_forall fun _ _ => trivial)
    rw [(entered _ ha).2, (entered _ hb).2]
  · rw [(entered b hb).2]
    exact (ok.reached a ha).trans later
  · rcases List.mem_append.1 he with old | new
    · exact (ok.reached e old).trans later
    · exact Nat.le_of_eq (entered e new).2
  · rw [List.map_append, cells, List.nodup_append]
    refine ⟨ok.once, nodup.sublist (List.take_sublist ..), fun i hi j hj same => ?_⟩
    obtain ⟨e, he, rfl⟩ := List.mem_map.1 hi
    exact fresh e he (same ▸ List.mem_of_mem_take hj)
  · rcases List.mem_append.1 he with old | new
    · exact keeps _ (ok.seen e old)
    · exact sees _ (entered e new).1

theorem OnsetsOk.mono {l : List OnsetEntry} {w : Nat} {seen now : Nat → Prop} (ok : OnsetsOk l w seen) (keeps : ∀ i, seen i → now i) :
    OnsetsOk l w now := ⟨ok.short, ok.rising, ok.reached, ok.once, fun e he => keeps _ (ok.seen e he)⟩

theorem State.OnsetListInv.ok {s : State} (hs : s.OnsetListInv) {d : Descriptor} (hd : s.ctl.desc = some d) :
    OnsetsOk d.onsets s.ctl.windowCount s.SeenAt :=
  ⟨hs.short d hd, hs.rising d hd, hs.reached d hd, hs.once d hd, hs.seen d hd⟩

theorem onsetListInv_of {s : State} (count : s.ctl.windowCount ≤ 16777215)
    (ok : ∀ d, s.ctl.desc = some d → OnsetsOk d.onsets s.ctl.windowCount s.SeenAt)
    (apart : ∀ d, s.ctl.desc = some d → ∀ e ∈ d.onsets, e.cell ∉ s.crossing.reports)
    (nodup : s.crossing.reports.Nodup) (waitSeen : ∀ i ∈ s.crossing.reports, s.SeenAt i) : s.OnsetListInv :=
  ⟨count, fun d hd => (ok d hd).short, fun d hd => (ok d hd).rising, fun d hd => (ok d hd).reached, fun d hd => (ok d hd).once,
    fun d hd => (ok d hd).seen, ⟨nodup, apart⟩, waitSeen⟩

/-! ### Reports -/

theorem reportsOf_eachCell (f : Nat → Cell → CellOut) (i : Nat) (l : List Cell) :
    reportsOf i (eachCell f i l) = indicesWhere (fun k c => (f k c).report) i l := by
  induction l generalizing i with
  | nil => rfl
  | cons c l ih => rw [eachCell, reportsOf, indicesWhere, ih]

theorem indicesWhere_nodup (f : Nat → Cell → Bool) (i : Nat) (l : List Cell) : (indicesWhere f i l).Nodup := by
  induction l generalizing i with
  | nil => exact List.nodup_nil
  | cons c l ih =>
    unfold indicesWhere
    split
    · refine List.nodup_cons.2 ⟨fun again => ?_, ih (i + 1)⟩
      obtain ⟨j, -, -, index, -⟩ := (mem_indicesWhere ..).1 again
      omega
    · exact ih (i + 1)

/-! ### Moves that leave the list -/

/-- The list, the count and the reports that wait stay, and no flag onset_seen is cleared. -/
structure State.SameOnsets (s t : State) : Prop where
  onsets : t.ctl.desc.map Descriptor.onsets = s.ctl.desc.map Descriptor.onsets
  count : t.ctl.windowCount = s.ctl.windowCount
  crossing : t.crossing = s.crossing
  seen : ∀ i, s.SeenAt i → t.SeenAt i

theorem onsets_of_map {g : Descriptor → Descriptor} {a b : Option Descriptor} (h : b = a.map g) (law : ∀ d, (g d).onsets = d.onsets) :
    b.map Descriptor.onsets = a.map Descriptor.onsets := by
  rw [h, Option.map_map]
  exact congrFun (congrArg Option.map (funext law)) a

theorem State.SameOnsets.inv {s t : State} (same : s.SameOnsets t) (hs : s.OnsetListInv) : t.OnsetListInv := by
  have before (d : Descriptor) (hd : t.ctl.desc = some d) : ∃ e, s.ctl.desc = some e ∧ e.onsets = d.onsets := by
    have onsets := same.onsets
    rw [hd, Option.map_some] at onsets
    exact Option.map_eq_some_iff.1 onsets.symm
  refine onsetListInv_of ?_ (fun d hd => ?_) (fun d hd => ?_) ?_ ?_
  · rw [same.count]
    exact hs.count
  · obtain ⟨e, he, onsets⟩ := before d hd
    rw [← onsets, same.count]
    exact (hs.ok he).mono same.seen
  · obtain ⟨e, he, onsets⟩ := before d hd
    rw [← onsets, same.crossing]
    exact hs.waitOnce.2 e he
  · rw [same.crossing]
    exact hs.waitOnce.1
  · rw [same.crossing]
    exact fun i hi => same.seen i (hs.waitSeen i hi)

/-- With no descriptor in progress there is no list. -/
theorem onsetListInv_dropped {s t : State} (hs : s.OnsetListInv) (desc : t.ctl.desc = none) (count : t.ctl.windowCount = s.ctl.windowCount)
    (crossing : t.crossing = s.crossing) (seen : ∀ i, s.SeenAt i → t.SeenAt i) : t.OnsetListInv := by
  refine onsetListInv_of ?_ (all_of_none desc) (all_of_none desc) ?_ ?_
  · rw [count]
    exact hs.count
  · rw [crossing]
    exact hs.waitOnce.1
  · rw [crossing]
    exact fun i hi => seen i (hs.waitSeen i hi)

/-- A change of every cell that leaves the flags that are set. -/
theorem seen_of_cells {s t : State} {g : Nat → Cell → Cell} (cells : ∀ i, t.cells[i]? = (s.cells[i]?).map (g i))
    (keeps : ∀ i c, c.onsetSeen = true → (g i c).onsetSeen = true) (i : Nat) (h : s.SeenAt i) : t.SeenAt i := by
  obtain ⟨c, hc, seen⟩ := h
  exact ⟨g i c, by rw [cells, hc]; rfl, keeps i c seen⟩

theorem sameOnsets_of_eq {s t : State} (ctl : t.ctl.desc.map Descriptor.onsets = s.ctl.desc.map Descriptor.onsets)
    (count : t.ctl.windowCount = s.ctl.windowCount) (crossing : t.crossing = s.crossing) (cells : t.cells = s.cells) : s.SameOnsets t :=
  ⟨ctl, count, crossing, seen_of_cells (g := fun _ c => c) (fun i => by rw [cells, Option.map_id']) fun _ _ => id⟩

theorem TellsHolds.sameOnsets {s t : State} (tells : TellsHolds s t) : s.SameOnsets t := by
  obtain ⟨f, law, desc⟩ := tells.desc
  refine sameOnsets_of_eq (onsets_of_map desc law.onsets) ?_ ?_ ?_
  all_goals rw [tells.kept]

theorem truncateAtCell_seen (p : Params) (h : Half) (i : Nat) (c : Cell) : (truncateAtCell p h i c).onsetSeen = c.onsetSeen := by
  unfold truncateAtCell
  split <;> rfl

theorem truncateCounting_sameOnsets (s : State) : s.SameOnsets (truncateCounting s) where
  onsets := onsets_of_map (g := fun d => (countingCells s).foldl Descriptor.truncate d) rfl fun d => by
    rw [(foldl_truncate (countingCells s) d).1]
  count := rfl
  crossing := rfl
  seen := seen_of_cells (getElem?_truncateCounting s) fun i c seen => (truncateAtCell_seen _ _ i c).trans seen

theorem capExpires_sameOnsets (s : State) : s.SameOnsets (capExpires s) :=
  sameOnsets_of_eq (onsets_of_map (g := fun d => { d with settleCap := true }) rfl fun _ => rfl) rfl rfl rfl

theorem shutWindow_sameOnsets (cause : CloseCause) (s : State) : (beginClose cause s).SameOnsets (shutWindow cause s) :=
  (shutWindow_tells cause s).sameOnsets

theorem shutWindow_onsets (cause : CloseCause) {s : State} (hs : s.OnsetListInv) : (shutWindow cause s).OnsetListInv := by
  refine (shutWindow_sameOnsets cause s).inv (State.SameOnsets.inv (s := s) ?_ hs)
  exact sameOnsets_of_eq
    (onsets_of_map (g := fun d => { d with closeCause := cause, windowLength := s.ctl.windowCount }) rfl fun _ => rfl) rfl rfl rfl

theorem clearHalf_seen (h : Half) (c : Cell) : (c.clearHalf h).onsetSeen = c.onsetSeen := by cases h <;> rfl

theorem clearFrozen_seen (z : Frozen) (c : Cell) : (c.clearFrozen z).onsetSeen = c.onsetSeen := by
  cases z with
  | whole => rfl
  | half h => exact clearHalf_seen h c

theorem clearBanks_sameOnsets (test : Nat → Bool) (s : State) : s.SameOnsets (clearBanks test s) := by
  cases frozen : s.ctl.frozen with
  | none =>
    rw [clearBanks_unfrozen test s frozen]
    exact sameOnsets_of_eq rfl rfl rfl rfl
  | some z =>
    have eq := clearBanks_frame test s
    refine ⟨?_, ?_, ?_, seen_of_cells (getElem?_cells_clearBanks test s z frozen) fun i c seen => ?_⟩
    · rw [eq]
    · rw [eq]
    · rw [eq]
    · split
      · exact (clearFrozen_seen z c).trans seen
      · exact seen

/-! ### Events and onset ticks -/

/-- An event reports cells that had not been seen: they are neither in the list nor waiting. -/
theorem ArrayOutcome.onsets {f : Nat → Cell → CellOut} {s t : State} (out : ArrayOutcome f s t)
    (seen : ∀ i c, c.onsetSeen = true → (f i c).cell.onsetSeen = true)
    (reports : ∀ i c, (f i c).report = true → c.onsetSeen = false ∧ (f i c).cell.onsetSeen = true) (hs : s.OnsetListInv) :
    t.OnsetListInv := by
  obtain ⟨order, wait, ticked, e, perm, -, -, crossing, desc, -⟩ := out.desc
  have nodup : (order ++ wait).Nodup := by
    rw [perm.nodup_iff, reportsOf_eachCell]
    exact indicesWhere_nodup ..
  obtain ⟨orderNodup, waitNodup, distinct⟩ := List.nodup_append.1 nodup
  have reported (i : Nat) (hi : i ∈ order ++ wait) : ¬ s.SeenAt i ∧ t.SeenAt i := by
    have hi := perm.mem_iff.1 hi
    rw [reportsOf_eachCell, mem_indicesWhere] at hi
    obtain ⟨j, c, hc, index, report⟩ := hi
    rw [Nat.zero_add] at index
    subst index
    obtain ⟨before, after⟩ := reports i c report
    refine ⟨fun ⟨d, hd, flag⟩ => ?_, _, by rw [out.cells, hc]; rfl, after⟩
    obtain rfl := Option.some.inj (hc.symm.trans hd)
    rw [before] at flag
    cases flag
  have keeps : ∀ i, s.SeenAt i → t.SeenAt i := seen_of_cells out.cells seen
  have count : t.ctl.windowCount = s.ctl.windowCount := by rw [out.ctl]
  have inOrder (i : Nat) (hi : i ∈ order) := reported i (List.mem_append_left _ hi)
  have inWait (i : Nat) (hi : i ∈ wait) := reported i (List.mem_append_right _ hi)
  have waiting : t.crossing.reports = s.crossing.reports ++ wait := by rw [crossing]
  refine onsetListInv_of (by rw [count]; exact hs.count) (fun d hd => ?_) (fun d hd x hx waits => ?_) ?_ fun i hi => ?_
  · rw [desc] at hd
    obtain ⟨k, hk, rfl⟩ := Option.map_eq_some_iff.1 hd
    rw [count]
    exact (hs.ok hk).enter (Nat.le_refl _) orderNodup (fun x hx again => (inOrder _ again).1 (hs.seen k hk x hx))
      (fun i hi => (inOrder i hi).2) keeps
  · rw [desc] at hd
    obtain ⟨k, hk, rfl⟩ := Option.map_eq_some_iff.1 hd
    rw [waiting, List.mem_append] at waits
    rcases List.mem_append.1 hx with old | new
    · exact waits.elim (hs.waitOnce.2 k hk x old) fun later => (inWait _ later).1 (hs.seen k hk x old)
    · obtain ⟨i, hi, rfl⟩ := List.mem_map.1 (List.mem_of_mem_take new)
      exact waits.elim (fun before => (inOrder i hi).1 (hs.waitSeen i before)) fun later => distinct i hi i later rfl
  · rw [waiting, List.nodup_append]
    refine ⟨hs.waitOnce.1, waitNodup, fun i hi j hj same => ?_⟩
    subst same
    exact (inWait i hj).1 (hs.waitSeen i hi)
  · rw [waiting, List.mem_append] at hi
    exact hi.elim (fun before => keeps i (hs.waitSeen i before)) fun now => (inWait i now).2

theorem onsetEvent_onsets {f : Nat → Cell → CellOut} {s : State} {p : Params} {h : Half} (sound : ∀ i c, (f i c).Sound p h i c)
    (hs : s.OnsetListInv) : (onsetEvent f s).OnsetListInv :=
  (onsetEvent_outcome f s).onsets (fun i c => (sound i c).seen) (fun i c => (sound i c).reports) hs

theorem onsetDelivered_seen (s : State) : ∀ i, s.SeenAt i → (onsetDelivered s).SeenAt i := by
  refine seen_of_cells (getElem?_onsetDelivered s) fun i c seen => ?_
  split
  · exact seen
  · exact (onsetAtCell_lawful s.params s.ctl.liveHalf i c).sound.seen seen

theorem onsetDelivered_onsets {s : State} (hs : s.OnsetListInv) : (onsetDelivered s).OnsetListInv := by
  have eq := onsetDelivered_eq s
  have crossing : (onsetDelivered s).crossing.reports = [] := by
    rw [eq]
    rfl
  have count : (onsetDelivered s).ctl.windowCount = min 16777215 (s.ctl.windowCount + 1) := by
    rw [eq]
    rfl
  have later : s.ctl.windowCount ≤ min 16777215 (s.ctl.windowCount + 1) := by
    have bound := hs.count
    omega
  refine onsetListInv_of (by rw [count]; exact Nat.min_le_left _ _) (fun d hd => ?_) (fun d _ e _ => ?_) ?_ ?_
  · rw [eq] at hd
    obtain ⟨k, hk, rfl⟩ := Option.map_eq_some_iff.1 hd
    rw [count]
    exact (hs.ok hk).enter later hs.waitOnce.1 (hs.waitOnce.2 k hk) (fun i hi => onsetDelivered_seen s i (hs.waitSeen i hi))
      (onsetDelivered_seen s)
  · rw [crossing]
    exact List.not_mem_nil
  · rw [crossing]
    exact List.nodup_nil
  · rw [crossing]
    exact fun i none => absurd none List.not_mem_nil

/-! ### The hand-off, the reopen and the resets -/

/-- A window opens with an empty list, no flag set and no report waiting (R80). -/
theorem openWindowAs_onsets (cause : OpenCause) (s : State) : (openWindowAs cause s).OnsetListInv := by
  refine (openWindowAs_outcome cause s).onsets (fun i c => (openAtCell_lawful s i c).sound.seen)
    (fun i c => (openAtCell_lawful s i c).sound.reports)
    (onsetListInv_of (Nat.zero_le _) (fun d hd => ?_) (fun d _ e _ => List.not_mem_nil) List.nodup_nil fun i none => ?_)
  · obtain rfl := Option.some.inj hd
    exact ⟨Nat.zero_le _, .nil, fun e none => absurd none List.not_mem_nil, List.nodup_nil, fun e none => absurd none List.not_mem_nil⟩
  · exact absurd none List.not_mem_nil

theorem dealtWith_onsets {s : State} (hs : s.OnsetListInv) : (dealtWith s).OnsetListInv :=
  dealtWith_elim s (openWindowAs_onsets ..) (State.SameOnsets.inv (s := s) (sameOnsets_of_eq rfl rfl rfl rfl) hs)

theorem swap_onsets {d : Descriptor} {s : State} (hs : s.OnsetListInv) : (swap d s).OnsetListInv :=
  dealtWith_onsets (onsetListInv_dropped hs rfl rfl rfl fun _ seen => seen)

theorem comeToRest_onsets {s : State} (hs : s.OnsetListInv) : (comeToRest s).OnsetListInv := by
  refine State.SameOnsets.inv (s := s) ⟨rfl, rfl, rfl, ?_⟩ hs
  exact seen_of_cells (g := fun _ => Cell.rest) (fun _ => List.getElem?_map ..) fun _ _ => id

theorem endSettling_onsets {s : State} (hs : s.OnsetListInv) : (endSettling s).OnsetListInv := by
  have rested := comeToRest_onsets hs
  refine endSettling_elim s (fun _ => dealtWith_onsets rested) fun d _ => ?_
  refine handOff_elim _ _ (fun _ => onsetListInv_dropped rested rfl rfl rfl fun _ seen => seen) (fun _ _ => swap_onsets rested)
    (fun _ _ => dealtWith_onsets (onsetListInv_dropped rested rfl rfl rfl ?_)) fun _ _ =>
      onsetListInv_dropped rested rfl rfl rfl fun _ seen => seen
  exact seen_of_cells (g := fun _ c => c.clearHalf s.ctl.liveHalf) (fun _ => List.getElem?_map ..) fun _ c seen =>
    (clearHalf_seen _ c).trans seen

theorem readoutComplete_onsets {s : State} (hs : s.OnsetListInv) : (readoutComplete s).OnsetListInv := by
  have ended : ({ raiseCause .frameDone { s with readout := { frame := none, emitted := (s.readout.emitted + 1) % 2 ^ 32 } } with
      ctl := { s.ctl with frozen := none } } : State).OnsetListInv := State.SameOnsets.inv (s := s) (sameOnsets_of_eq rfl rfl rfl rfl) hs
  exact readoutNotice_elim _ (fun _ => ended) (fun _ _ => dealtWith_onsets ended) fun _ _ _ => swap_onsets ended

/-- After a reset there is no descriptor and no report waits. -/
theorem onsetListInv_of_empty {s : State} (ctl : s.ctl = .reset) (crossing : s.crossing = .reset) : s.OnsetListInv := by
  have desc : s.ctl.desc = none := by rw [ctl]; rfl
  have reports : s.crossing.reports = [] := by rw [crossing]; rfl
  refine onsetListInv_of (by rw [ctl]; exact Nat.zero_le _) (all_of_none desc) (all_of_none desc) ?_ ?_
  · rw [reports]
    exact List.nodup_nil
  · rw [reports]
    exact fun i none => absurd none List.not_mem_nil

theorem State.SameCore.onsets {s t : State} (same : s.SameCore t) (hs : s.OnsetListInv) : t.OnsetListInv := by
  refine State.SameOnsets.inv (s := s) (sameOnsets_of_eq ?_ ?_ ?_ ?_) hs
  all_goals rw [same.eq]

theorem LateMove.onsets {s t : State} (hs : s.OnsetListInv) (move : LateMove s t) : t.OnsetListInv := by
  cases move with
  | outside same => exact same.onsets hs
  | joins => exact State.SameOnsets.inv (s := s) (sameOnsets_of_eq rfl rfl rfl rfl) hs
  | counts g n => exact State.SameOnsets.inv (s := s) (sameOnsets_of_eq rfl rfl rfl rfl) hs
  | event settling sound => exact onsetEvent_onsets sound hs
  | expires => exact (capExpires_sameOnsets s).inv hs
  | truncates settling => exact (truncateCounting_sameOnsets s).inv hs

theorem configure_seen (s : State) (k : Nat) (g : CellConfig) (i : Nat) (c : Cell) (hc : s.cells[i]? = some c)
    (seen : c.onsetSeen = true) : ∃ d, (s.cells.modify k fun c => c.configure g)[i]? = some d ∧ d.onsetSeen = true := by
  rw [List.getElem?_modify, hc]
  refine ⟨_, rfl, ?_⟩
  show (if k = i then c.configure g else c).onsetSeen = true
  split
  · exact seen
  · exact seen

theorem Move.onsets {w : Way} {s t : State} (hs : s.OnsetListInv) (move : Move w s t) : t.OnsetListInv := by
  cases move with
  | outside same => exact same.onsets hs
  | gateOpens ch => exact (setHold_tells ch none s).sameOnsets.inv hs
  | gateHolds ch r h opened => exact (setHold_tells ch _ s).sameOnsets.inv hs
  | applies loud applying lawful =>
    exact onsetEvent_onsets (fun i c => (lawful i c).sound) (State.SameOnsets.inv (s := s) (sameOnsets_of_eq rfl rfl rfl rfl) hs)
  | describes law => exact State.SameOnsets.inv (s := s) (sameOnsets_of_eq (onsets_of_map rfl law.onsets) rfl rfl rfl) hs
  | configures i g inFlight trim =>
    refine State.SameOnsets.inv (s := s) ⟨rfl, rfl, rfl, fun j ⟨c, hc, seen⟩ => ?_⟩ hs
    exact configure_seen s i g j c hc seen
  | opens cause idle free => exact openWindowAs_onsets cause s
  | shuts cause first opened => exact shutWindow_onsets cause hs
  | ends late start settling free empty => exact endSettling_onsets (late.keeps (fun _ _ => LateMove.onsets) hs)
  | expires settling => exact (capExpires_sameOnsets s).inv hs
  | event loud measuring lawful => exact onsetEvent_onsets (fun i c => (lawful i c).sound) hs
  | onsetTicks opened short => exact onsetDelivered_onsets hs
  | onsetShuts opened => exact shutWindow_onsets .timer (onsetDelivered_onsets hs)
  | sends sending desc clears => exact (clearBanks_sameOnsets _ _).inv (State.SameOnsets.inv (s := s) (sameOnsets_of_eq rfl rfl rfl rfl) hs)
  | completes sending cleared => exact readoutComplete_onsets hs
  | softResets => exact onsetListInv_of_empty rfl rfl
  | powersOn => exact onsetListInv_of_empty rfl rfl
  | turns _ _ | waits _ | joins | writes _ _ | filters _ | passes _ _ | holdsCount | enters _ _ _ _ | takes _ _ | operates _ _ _ | controls _ _ _ | dwellCounts _
  | dividers _ | pulses _ => exact State.SameOnsets.inv (s := s) (sameOnsets_of_eq rfl rfl rfl rfl) hs

/-- Settles O60: reports enter in the order of the ticks, each of a cell that had not been seen. -/
theorem onsetListStaysOrdered : Obligations.OnsetListStaysOrdered := fun _ _ hs h =>
  (step_moves h).keeps (fun _ _ => Move.onsets) hs

end Sys2Proof.Machine
end

section
/-!
PROOF. The rest invariant but for the fields that speak of the rows behind (O56): rest outside OPEN and SETTLING, the dividers, the counts
of the window, the settling, the pulse and the holds.
-/

namespace Sys2Proof.Machine

/-! ### The invariant -/

/-- The rest invariant without the fields that speak of the row directly behind; with the parameters legal. -/
structure State.RestCore (s : State) : Prop where
  legal : s.params.Legal
  rest : s.measuring = false → s.Resting
  running : s.measuring = true → s.ticks.decay.running = true ∧ s.ticks.dwell.running = true
  onset : s.measuring = true → (s.ticks.onset.running = true ↔ s.ctl.state = .opened)
  periods : s.ticks.decay.InPeriod s.params.decayDiv ∧ s.ticks.dwell.InPeriod s.params.dwellDiv
    ∧ s.ticks.onset.InPeriod s.params.onsetDiv
  timer : s.ctl.state = .opened → s.params.winSrc = .timer → s.ctl.windowCount < s.params.winLen
  settle : s.ctl.state = .settling → s.ctl.settleCount ≤ s.params.settleCap
  pulse : ∀ n, s.tpg = .active n → 1 ≤ n ∧ n ≤ 1023
  capEmpties : s.ctl.state = .settling → s.capFlag = true → s.queue.records = []
  capLate : s.ctl.state = .opened → s.capFlag = false
  cfg : s.engine.op ≠ .idle → s.ctl.state = .idle
  holds : s.HoldOnlyOpen
  holdTimers : ∀ ch h, s.hold ch = some h → h.timer < h.limit

theorem State.RestInv.core {s : State} (legal : s.params.Legal) (hs : s.RestInv) : s.RestCore where
  legal := legal
  rest := hs.rest
  running := hs.running
  onset := hs.onset
  periods := hs.periods
  timer := hs.timer
  settle := hs.settle
  pulse := hs.pulse
  capEmpties := hs.capEmpties
  capLate := hs.capLate
  cfg op := hs.cfg ((cfgInFlight_iff s).2 op)
  holds := hs.holds
  holdTimers := hs.holdTimers

/-- The ranges of R194 that the counts need. -/
theorem Params.Legal.ranges {p : Params} (legal : p.Legal) :
    0 < p.decayDiv ∧ 0 < p.dwellDiv ∧ 0 < p.onsetDiv ∧ 0 < p.winLen ∧ (1 ≤ p.tpLen ∧ p.tpLen ≤ 1023) ∧ 0 < p.holdLimit := by
  have range (id : ParamId) : id.range.1 ≤ p.read id ∧ p.read id ≤ id.range.2 := by
    obtain ⟨low, high, -⟩ := (p.write_isSome_iff id _).1 (legal id)
    exact ⟨low, high⟩
  exact ⟨(range .decayDiv).1, (range .dwellDiv).1, (range .onsetDiv).1, (range .winLen).1, range .tpLen,
    Nat.lt_of_lt_of_le (by decide) (range .holdLimit).1⟩

/-! ### Changes that leave all that the invariant speaks of -/

/-- Two states that agree on what the rest invariant speaks of; outside OPEN and SETTLING the cells stay at rest. -/
structure State.SameRest (s t : State) : Prop where
  params : t.params = s.params
  state : t.ctl.state = s.ctl.state
  ticks : t.ticks = s.ticks
  window : t.ctl.windowCount = s.ctl.windowCount
  settle : t.ctl.settleCount = s.ctl.settleCount
  tpg : t.tpg = s.tpg
  capFlag : t.capFlag = s.capFlag
  queue : t.queue.records = s.queue.records
  op : t.engine.op = s.engine.op
  applying : t.engine.applying = s.engine.applying
  hold : ∀ ch x, t.hold ch = some x → s.hold ch = some x
  cells : s.measuring = false → (∀ c ∈ s.cells, c.AtRest) → ∀ c ∈ t.cells, c.AtRest
  occ : s.measuring = false → t.occ.current = s.occ.current

theorem State.Resting.congr {s t : State} (hs : s.Resting) (cells : t.cells = s.cells) (occ : t.occ = s.occ) (tpg : t.tpg = s.tpg)
    (ticks : t.ticks = s.ticks) (queue : t.queue = s.queue) (applying : t.engine.applying = s.engine.applying) : t.Resting where
  cells := by rw [cells]; exact hs.cells
  occ := by rw [occ]; exact hs.occ
  tpg := tpg.trans hs.tpg
  ticks := by rw [ticks]; exact hs.ticks
  queue := by rw [queue]; exact hs.queue
  applying := applying.trans hs.applying

theorem State.SameRest.measuring {s t : State} (h : s.SameRest t) : t.measuring = s.measuring := by
  rw [State.measuring, State.measuring, h.state]

theorem State.SameRest.core {s t : State} (h : s.SameRest t) (hs : s.RestCore) : t.RestCore where
  legal := by rw [h.params]; exact hs.legal
  rest quiet := by
    rw [h.measuring] at quiet
    obtain ⟨cells, occ, tpg, ticks, queue, applying⟩ := hs.rest quiet
    exact ⟨h.cells quiet cells, (h.occ quiet).trans occ, h.tpg.trans tpg, by rw [h.ticks]; exact ticks, h.queue.trans queue,
      h.applying.trans applying⟩
  running := by rw [h.measuring, h.ticks]; exact hs.running
  onset := by rw [h.measuring, h.ticks, h.state]; exact hs.onset
  periods := by rw [h.ticks, h.params]; exact hs.periods
  timer := by rw [h.state, h.params, h.window]; exact hs.timer
  settle := by rw [h.state, h.params, h.settle]; exact hs.settle
  pulse := by rw [h.tpg]; exact hs.pulse
  capEmpties := by rw [h.state, h.capFlag, h.queue]; exact hs.capEmpties
  capLate := by rw [h.state, h.capFlag]; exact hs.capLate
  cfg := by rw [h.op, h.state]; exact hs.cfg
  holds ch held := by
    obtain ⟨x, hx⟩ := Option.isSome_iff_exists.1 held
    rw [h.state]
    exact hs.holds ch (by rw [h.hold ch x hx]; rfl)
  holdTimers ch x held := hs.holdTimers ch x (h.hold ch x held)

theorem capFlag_of_map {s t : State} {g : Descriptor → Descriptor} (desc : t.ctl.desc = s.ctl.desc.map g)
    (law : ∀ d, (g d).settleCap = d.settleCap) : t.capFlag = s.capFlag := by
  rw [State.capFlag, State.capFlag, desc, Option.map_map]
  exact congrArg (· == some true) (congrFun (congrArg Option.map (funext law)) _)

theorem not_measuring_contra {s : State} {P : Prop} (measuring : s.measuring = true) (quiet : s.measuring = false) : P := by
  rw [measuring] at quiet
  cases quiet

theorem ArrayOutcome.sameRest {f : Nat → Cell → CellOut} {s t : State} (out : ArrayOutcome f s t) (measuring : s.measuring = true) :
    s.SameRest t where
  params := by rw [out.kept]
  state := by rw [out.ctl]
  ticks := by rw [out.kept]
  window := by rw [out.ctl]
  settle := by rw [out.ctl]
  tpg := by rw [out.kept]
  capFlag := out.capFlag
  queue := by rw [out.kept]
  op := by rw [out.engine]
  applying := by rw [out.engine]
  hold ch x held := by
    rw [out.kept] at held
    cases ch <;> exact held
  cells := not_measuring_contra measuring
  occ := not_measuring_contra measuring

theorem TellsHolds.state {s t : State} (tells : TellsHolds s t) : t.ctl.state = s.ctl.state := by
  have kept := tells.kept
  exact congrArg (fun u => u.ctl.state) kept

theorem truncateCounting_capFlag (s : State) : (truncateCounting s).capFlag = s.capFlag :=
  capFlag_of_map rfl fun d => by rw [(foldl_truncate (countingCells s) d).1]

/-! ### The array at rest -/

/-- The array at rest, no configuration operation in flight, no gate holding: a window can open (R19, R23, R50). -/
structure State.Rested (s : State) : Prop where
  legal : s.params.Legal
  resting : s.Resting
  op : s.engine.op = .idle
  holds : ∀ ch, s.hold ch = none

/-- Rest is not of the controller, the readout or the filter. -/
theorem State.Rested.congr {s t : State} (hs : s.Rested) (params : t.params = s.params) (cells : ∀ c ∈ t.cells, c.AtRest)
    (occ : t.occ = s.occ) (tpg : t.tpg = s.tpg) (ticks : t.ticks = s.ticks) (queue : t.queue = s.queue) (engine : t.engine = s.engine)
    (path : t.path = s.path) : t.Rested where
  legal := by rw [params]; exact hs.legal
  resting := by
    obtain ⟨-, o, g, k, q, a⟩ := hs.resting
    exact ⟨cells, by rw [occ]; exact o, tpg.trans g, by rw [ticks]; exact k, by rw [queue]; exact q, by rw [engine]; exact a⟩
  op := by rw [engine]; exact hs.op
  holds ch := by
    have held := hs.holds ch
    cases ch
    · exact (congrArg ThroughPath.rd path).trans held
    · exact (congrArg ThroughPath.wr path).trans held

theorem State.Rested.core {s : State} (hs : s.Rested) (quiet : s.measuring = false) : s.RestCore where
  legal := hs.legal
  rest _ := hs.resting
  running measuring := not_measuring_contra measuring quiet
  onset measuring := not_measuring_contra measuring quiet
  periods := by
    obtain ⟨decay, dwell, onset⟩ := hs.resting.ticks
    refine ⟨fun runs => ?_, fun runs => ?_, fun runs => ?_⟩
    · cases decay.symm.trans runs
    · cases dwell.symm.trans runs
    · cases onset.symm.trans runs
  timer opened := not_measuring_contra ((measuring_iff s).2 (.inl opened)) quiet
  settle settling := not_measuring_contra ((measuring_iff s).2 (.inr settling)) quiet
  pulse n active := by cases hs.resting.tpg.symm.trans active
  capEmpties settling := not_measuring_contra ((measuring_iff s).2 (.inr settling)) quiet
  capLate opened := not_measuring_contra ((measuring_iff s).2 (.inl opened)) quiet
  cfg op := absurd hs.op op
  holds ch held := by
    rw [hs.holds ch] at held
    cases held
  holdTimers ch x held := by cases (hs.holds ch).symm.trans held

/-- In a quiet part that meets the invariant the array is at rest; in HELD no operation is in flight. -/
theorem State.RestCore.rested {s : State} (hs : s.RestCore) (quiet : s.measuring = false) (op : s.engine.op = .idle) : s.Rested where
  legal := hs.legal
  resting := hs.rest quiet
  op := op
  holds ch := by
    cases held : s.hold ch with
    | none => rfl
    | some x =>
      have opened := hs.holds ch (by rw [held]; rfl)
      exact not_measuring_contra ((measuring_iff s).2 (.inl opened)) quiet

theorem State.RestCore.op_idle {s : State} (hs : s.RestCore) (state : s.ctl.state ≠ .idle) : s.engine.op = .idle :=
  not_not.1 fun op => state (hs.cfg op)

theorem openWindowAs_core (cause : OpenCause) {s : State} (hs : s.Rested) : (openWindowAs cause s).RestCore := by
  have fresh : (s.freshWindow cause).RestCore := by
    obtain ⟨decay, dwell, onset, length, -⟩ := hs.legal.ranges
    exact {
      legal := hs.legal
      rest := not_measuring_contra rfl
      running := fun _ => ⟨rfl, rfl⟩
      onset := fun _ => ⟨fun _ => rfl, fun _ => rfl⟩
      periods := ⟨fun _ => decay, fun _ => dwell, fun _ => onset⟩
      timer := fun _ _ => length
      settle := CtlState.noConfusion
      pulse := fun n active => by cases hs.resting.tpg.symm.trans active
      capEmpties := CtlState.noConfusion
      capLate := fun _ => rfl
      cfg := fun op => absurd hs.op op
      holds := fun ch held => rfl
      holdTimers := fun ch x held => by
        have none := hs.holds ch
        cases ch <;> cases none.symm.trans held }
  exact ((openWindowAs_outcome cause s).sameRest rfl).core fresh

theorem dealtWith_core {s : State} (hs : s.Rested) : (dealtWith s).RestCore :=
  dealtWith_elim s (openWindowAs_core .cycle hs)
    (State.Rested.core (hs.congr rfl hs.resting.cells rfl rfl rfl rfl rfl rfl) rfl)

theorem swap_core {d : Descriptor} {s : State} (hs : s.Rested) : (swap d s).RestCore :=
  dealtWith_core (hs.congr rfl hs.resting.cells rfl rfl rfl rfl rfl rfl)

/-! ### The end of settling -/

/-- What the part keeps while settling can end: the onset divider stopped, no operation in flight, no gate holding; after the expiry of
the settle cap the queue empty. -/
structure State.Ending (s : State) : Prop where
  legal : s.params.Legal
  onset : s.ticks.onset.running = false
  op : s.engine.op = .idle
  holds : ∀ ch, s.hold ch = none
  capEmpties : s.capFlag = true → s.queue.records = []

theorem State.RestCore.ending {s : State} (hs : s.RestCore) (settling : s.ctl.state = .settling) : s.Ending where
  legal := hs.legal
  onset := by
    refine Bool.eq_false_iff.2 fun runs => ?_
    have opened := (hs.onset ((measuring_iff s).2 (.inr settling))).1 runs
    exact CtlState.noConfusion (settling.symm.trans opened)
  op := hs.op_idle (by rw [settling]; exact CtlState.noConfusion)
  holds ch := by
    cases held : s.hold ch with
    | none => rfl
    | some x => exact CtlState.noConfusion (settling.symm.trans (hs.holds ch (by rw [held]; rfl)))
  capEmpties := hs.capEmpties settling

theorem LateMove.ending {s t : State} (hs : s.Ending) (move : LateMove s t) : t.Ending := by
  cases move with
  | outside same =>
    rw [same.eq]
    exact ⟨hs.legal, hs.onset, hs.op, hs.holds, hs.capEmpties⟩
  | joins => exact ⟨hs.legal, hs.onset, hs.op, hs.holds, hs.capEmpties⟩
  | counts g n => exact ⟨hs.legal, hs.onset, hs.op, hs.holds, hs.capEmpties⟩
  | event settling sound =>
    rename_i f
    have same := (onsetEvent_outcome f s).sameRest ((measuring_iff s).2 (.inr settling))
    exact ⟨by rw [same.params]; exact hs.legal, by rw [same.ticks]; exact hs.onset, same.op.trans hs.op,
      fun ch => Option.eq_none_iff_forall_ne_some.2 fun x held => (by cases (hs.holds ch).symm.trans (same.hold ch x held)), by rw [same.capFlag, same.queue]; exact hs.capEmpties⟩
  | expires => exact ⟨hs.legal, hs.onset, hs.op, hs.holds, fun _ => rfl⟩
  | truncates settling =>
    exact ⟨hs.legal, hs.onset, hs.op, hs.holds, by rw [truncateCounting_capFlag]; exact hs.capEmpties⟩

theorem clearHalf_atRest (h : Half) (c : Cell) (rest : c.AtRest) : (c.clearHalf h).AtRest := by cases h <;> exact rest

theorem endSettling_core {s : State} (hs : s.Ending) (free : s.engine.applying = none) (empty : s.queue.records = [] ∨ s.capFlag = true) :
    (endSettling s).RestCore := by
  have rested : (comeToRest s).Rested := by
    refine ⟨hs.legal, ⟨fun c hc => ?_, rfl, rfl, ⟨rfl, rfl, hs.onset⟩, empty.elim id hs.capEmpties, free⟩, hs.op, hs.holds⟩
    obtain ⟨d, -, rfl⟩ := List.mem_map.1 hc
    exact ⟨rfl, rfl⟩
  have cells := rested.resting.cells
  refine endSettling_elim s (fun _ => dealtWith_core rested) fun d _ => ?_
  refine handOff_elim _ _ (fun _ => ?_) (fun _ _ => swap_core rested) (fun _ _ => dealtWith_core ?_) fun _ _ => ?_
  · exact State.Rested.core (rested.congr rfl cells rfl rfl rfl rfl rfl rfl) rfl
  · refine rested.congr rfl (fun c hc => ?_) rfl rfl rfl rfl rfl rfl
    obtain ⟨e, he, rfl⟩ := List.mem_map.1 hc
    exact clearHalf_atRest _ e (cells e he)
  · exact State.Rested.core (rested.congr rfl cells rfl rfl rfl rfl rfl rfl) rfl

/-! ### Single moves -/

/-- The numbers that the counts are compared with are written in IDLE alone (R167). -/
theorem writes_core {s : State} {id : ParamId} {v : Nat} {q : Params} (hs : s.RestCore) (written : s.params.write id v = some q)
    (met : s.classMet id.paramClass = true) : ({ s with params := q } : State).RestCore := by
  have legal := hs.legal.write written
  by_cases any : id.paramClass = .any
  · have other (j : ParamId) (hj : j.paramClass ≠ .any) : q.number j = s.params.number j :=
      s.params.number_of_write q id j v (fun same => hj (same ▸ any)) written
    have source : q.winSrc = s.params.winSrc := by
      have code : q.winSrc.code = s.params.winSrc.code := by
        have number := other .winSrc (by decide)
        rwa [← Params.read_eq_number, ← Params.read_eq_number] at number
      revert code
      cases q.winSrc <;> cases s.params.winSrc <;> decide
    have decay : q.decayDiv = s.params.decayDiv := other .decayDiv (by decide)
    have dwell : q.dwellDiv = s.params.dwellDiv := other .dwellDiv (by decide)
    have onset : q.onsetDiv = s.params.onsetDiv := other .onsetDiv (by decide)
    have length : q.winLen = s.params.winLen := other .winLen (by decide)
    have cap : q.settleCap = s.params.settleCap := other .settleCap (by decide)
    obtain ⟨one, two, three⟩ := hs.periods
    exact {
      legal := legal
      rest := fun quiet => by
        obtain ⟨cells, occ, tpg, ticks, queue, applying⟩ := hs.rest quiet
        exact ⟨cells, occ, tpg, ticks, queue, applying⟩
      running := hs.running
      onset := hs.onset
      periods := ⟨fun runs => decay ▸ one runs, fun runs => dwell ▸ two runs, fun runs => onset ▸ three runs⟩
      timer := fun opened timer => length ▸ hs.timer opened (source ▸ timer)
      settle := fun settling => cap ▸ hs.settle settling
      pulse := hs.pulse
      capEmpties := hs.capEmpties
      capLate := hs.capLate
      cfg := hs.cfg
      holds := hs.holds
      holdTimers := hs.holdTimers }
  · have idle : s.ctl.state = .idle ∧ s.engine.op = .idle := by
      unfold State.classMet at met
      cases cls : id.paramClass with
      | any => exact absurd cls any
      | idle =>
        rw [cls] at met
        simp only [Bool.and_eq_true, decide_eq_true_eq, Bool.not_eq_true'] at met
        exact ⟨met.1, (cfgInFlight_false_iff s).1 met.2⟩
      | rest =>
        rw [cls] at met
        simp only [Bool.and_eq_true, decide_eq_true_eq, Bool.not_eq_true'] at met
        exact ⟨met.1.1.1, (cfgInFlight_false_iff s).1 met.1.1.2⟩
    have quiet : s.measuring = false := (not_measuring_iff s).2 (.inl idle.1)
    have rested := hs.rested quiet idle.2
    obtain ⟨cells, occ, tpg, ticks, queue, applying⟩ := rested.resting
    exact State.Rested.core ⟨legal, ⟨cells, occ, tpg, ticks, queue, applying⟩, rested.op, rested.holds⟩ quiet

theorem gateHolds_core {s : State} (hs : s.RestCore) (opened : s.ctl.state = .opened) (ch : Channel) (r : Record) (h : Handshake) :
    (setHold ch (some { handshake := h, record := r, limit := s.params.holdLimit, timer := 0 }) s).RestCore := by
  obtain ⟨-, -, -, -, -, limit⟩ := hs.legal.ranges
  have timers (k : Channel) (x : Hold)
      (held : (setHold ch (some { handshake := h, record := r, limit := s.params.holdLimit, timer := 0 }) s).hold k = some x) :
      x.timer < x.limit := by
    by_cases same : k = ch
    · have now : (setHold ch (some { handshake := h, record := r, limit := s.params.holdLimit, timer := 0 }) s).hold k
          = some { handshake := h, record := r, limit := s.params.holdLimit, timer := 0 } := by
        rw [same]
        cases ch <;> rfl
      obtain rfl := Option.some.inj (now.symm.trans held)
      exact limit
    · refine hs.holdTimers k x ?_
      cases ch <;> cases k
      · exact absurd rfl same
      · exact held
      · exact held
      · exact absurd rfl same
  have measuring := (measuring_iff s).2 (.inl opened)
  cases ch
  all_goals exact { hs with rest := not_measuring_contra measuring, holds := fun _ _ => opened, holdTimers := timers }

theorem Hold.count1_timer (h : Hold) (bound : h.timer < h.limit) : h.count1.timer < h.count1.limit := by
  unfold Hold.count1
  split
  · assumption
  · exact bound

theorem holdsCount_core {s : State} (hs : s.RestCore) :
    ({ s with path := { s.path with rd := s.path.rd.map Hold.count1, wr := s.path.wr.map Hold.count1 } } : State).RestCore := by
  have before (k : Channel) (x : Hold)
      (held : ({ s with path := { s.path with rd := s.path.rd.map Hold.count1, wr := s.path.wr.map Hold.count1 } } : State).hold k = some x) :
      ∃ y, s.hold k = some y ∧ y.count1 = x := by
    cases k <;> exact Option.map_eq_some_iff.1 held
  exact { hs with
    rest := fun quiet => (hs.rest quiet).congr rfl rfl rfl rfl rfl rfl
    holds := fun k held => by
      obtain ⟨x, hx⟩ := Option.isSome_iff_exists.1 held
      obtain ⟨y, hy, -⟩ := before k x hx
      exact hs.holds k (by rw [hy]; rfl)
    holdTimers := fun k x held => by
      obtain ⟨y, hy, rfl⟩ := before k x held
      exact y.count1_timer (hs.holdTimers k y hy) }

/-- A record enters while OPEN (R65). -/
theorem enters_core {s : State} (hs : s.RestCore) (opened : s.ctl.state = .opened) (q : CaptureQueue) :
    ({ s with queue := q } : State).RestCore :=
  { hs with
    rest := not_measuring_contra ((measuring_iff s).2 (.inl opened))
    capEmpties := fun settling => CtlState.noConfusion (opened.symm.trans settling) }

theorem takes_core {s : State} (hs : s.RestCore) {r : Record} {rs : List Record} (front : s.queue.records = r :: rs)
    (measuring : s.measuring = true) :
    ({ s with queue := { s.queue with records := rs }, engine := { s.engine with applying := some r } } : State).RestCore :=
  { hs with
    rest := not_measuring_contra measuring
    capEmpties := fun settling capped => by
      have empty := hs.capEmpties settling capped
      rw [front] at empty
      cases empty }

theorem applying_measuring {s : State} (hs : s.RestCore) {r : Record} (applying : s.engine.applying = some r) : s.measuring = true := by
  cases measuring : s.measuring with
  | true => rfl
  | false => cases (hs.rest measuring).applying.symm.trans applying

theorem applies_core {s : State} (hs : s.RestCore) {r : Record} (applying : s.engine.applying = some r) (f : Nat → Cell → CellOut) :
    (onsetEvent f { s with engine := { s.engine with applying := none } }).RestCore := by
  have measuring := applying_measuring hs applying
  have done : ({ s with engine := { s.engine with applying := none } } : State).RestCore :=
    { hs with rest := not_measuring_contra measuring }
  exact State.SameRest.core (s := { s with engine := { s.engine with applying := none } })
    ((onsetEvent_outcome f _).sameRest measuring) done

theorem operates_core {s : State} (hs : s.RestCore) (op : CfgOp) (result : ResultBuffer)
    (idle : op ≠ .idle → s.engine.op ≠ .idle ∨ s.ctl.state = .idle) :
    ({ s with engine := { s.engine with op := op, result := result } } : State).RestCore :=
  { hs with
    rest := fun quiet => (hs.rest quiet).congr rfl rfl rfl rfl rfl rfl
    cfg := fun busy => (idle busy).elim hs.cfg id }

theorem TellsHolds.capFlag {s t : State} (tells : TellsHolds s t) : t.capFlag = s.capFlag := by
  obtain ⟨f, law, desc⟩ := tells.desc
  exact capFlag_of_map desc law.settleCap

/-- What a close needs of the state before it, but for the window length count, which an onset tick has just brought to WIN_LEN. -/
structure State.SameClose (s u : State) : Prop where
  params : u.params = s.params
  ticks : u.ticks = s.ticks
  tpg : u.tpg = s.tpg
  capFlag : u.capFlag = s.capFlag
  op : u.engine.op = s.engine.op

/-- A close: SETTLING with settle length 0, the onset divider stopped, no gate holding (R83). -/
theorem shutWindow_core (cause : CloseCause) {s u : State} (hs : s.RestCore) (opened : s.ctl.state = .opened) (same : s.SameClose u) :
    (shutWindow cause u).RestCore := by
  have tells := shutWindow_tells cause u
  have kept := tells.kept
  have measuring := (measuring_iff s).2 (.inl opened)
  have state : (shutWindow cause u).ctl.state = .settling := tells.state
  have params : (shutWindow cause u).params = s.params := by
    rw [kept]
    exact same.params
  have ticks : (shutWindow cause u).ticks = { s.ticks with onset := { s.ticks.onset with running := false } } := by
    rw [kept, ← same.ticks]
    rfl
  have settle : (shutWindow cause u).ctl.settleCount = 0 := by
    rw [kept]
    rfl
  have begun : (beginClose cause u).capFlag = u.capFlag :=
    capFlag_of_map (g := fun d => { d with closeCause := cause, windowLength := u.ctl.windowCount }) rfl fun _ => rfl
  have capFlag : (shutWindow cause u).capFlag = false := tells.capFlag.trans (begun.trans (same.capFlag.trans (hs.capLate opened)))
  have none (ch : Channel) := shutWindow_hold cause u ch
  have quiet (opened : (shutWindow cause u).ctl.state = .opened) {P : Prop} : P := CtlState.noConfusion (state.symm.trans opened)
  obtain ⟨decay, dwell, -⟩ := hs.periods
  exact {
    legal := by rw [params]; exact hs.legal
    rest := not_measuring_contra ((measuring_iff _).2 (.inr state))
    running := fun _ => by rw [ticks]; exact hs.running measuring
    onset := fun _ => ⟨fun runs => (by rw [ticks] at runs; cases runs), fun opened => quiet opened⟩
    periods := by
      rw [ticks, params]
      exact ⟨decay, dwell, fun runs => by cases runs⟩
    timer := fun opened => quiet opened
    settle := fun _ => by rw [settle]; exact Nat.zero_le _
    pulse := by
      have tpg : (shutWindow cause u).tpg = s.tpg := by
        rw [kept]
        exact same.tpg
      rw [tpg]
      exact hs.pulse
    capEmpties := fun _ capped => by cases capFlag.symm.trans capped
    capLate := fun opened => quiet opened
    cfg := fun op => by
      have eq : (shutWindow cause u).engine.op = s.engine.op := by
        rw [kept]
        exact same.op
      exact absurd (hs.op_idle (by rw [opened]; exact CtlState.noConfusion)) (eq ▸ op)
    holds := fun ch held => by
      rw [none ch] at held
      cases held
    holdTimers := fun ch x held => by cases (none ch).symm.trans held }

theorem onsetDelivered_capFlag (s : State) : (onsetDelivered s).capFlag = s.capFlag := by
  have desc : (onsetDelivered s).ctl.desc = s.afterOnsetTick.desc := by rw [onsetDelivered_eq]
  exact capFlag_of_map desc fun _ => rfl

theorem onsetDelivered_sameClose (s : State) : s.SameClose (onsetDelivered s) where
  params := by rw [onsetDelivered_eq]
  ticks := by rw [onsetDelivered_eq]
  tpg := by rw [onsetDelivered_eq]
  capFlag := onsetDelivered_capFlag s
  op := by rw [onsetDelivered_eq]

/-- An onset tick that leaves the window length below WIN_LEN (R78). -/
theorem onsetDelivered_core {s : State} (hs : s.RestCore) (opened : s.ctl.state = .opened)
    (short : (onsetDelivered s).timerAtLength = false) : (onsetDelivered s).RestCore := by
  have eq := onsetDelivered_eq s
  have state : (onsetDelivered s).ctl.state = .opened := by
    rw [eq]
    exact opened
  have measuring : (onsetDelivered s).measuring = true := (measuring_iff _).2 (.inl state)
  have capFlag : (onsetDelivered s).capFlag = false := (onsetDelivered_capFlag s).trans (hs.capLate opened)
  have length (timer : (onsetDelivered s).params.winSrc = .timer) :
      (onsetDelivered s).ctl.windowCount < (onsetDelivered s).params.winLen := by
    refine Nat.lt_of_not_le fun reached => ?_
    rw [(timerAtLength_iff _).2 ⟨state, timer, reached⟩] at short
    cases short
  have hold (ch : Channel) : (onsetDelivered s).hold ch = s.hold ch := by
    rw [eq]
    cases ch <;> rfl
  have params := (onsetDelivered_sameClose s).params
  have ticks := (onsetDelivered_sameClose s).ticks
  have running := hs.running ((measuring_iff s).2 (.inl opened))
  have onset := hs.onset ((measuring_iff s).2 (.inl opened))
  exact {
    legal := by rw [params]; exact hs.legal
    rest := not_measuring_contra measuring
    running := fun _ => by rw [ticks]; exact running
    onset := fun _ => by rw [ticks, state]; rw [opened] at onset; exact onset
    periods := by rw [ticks, params]; exact hs.periods
    timer := fun _ => length
    settle := fun settling => CtlState.noConfusion (state.symm.trans settling)
    pulse := by rw [(onsetDelivered_sameClose s).tpg]; exact hs.pulse
    capEmpties := fun settling => CtlState.noConfusion (state.symm.trans settling)
    capLate := fun _ => capFlag
    cfg := fun op => by
      rw [(onsetDelivered_sameClose s).op] at op
      exact absurd (hs.op_idle (by rw [opened]; exact CtlState.noConfusion)) op
    holds := fun ch _ => state
    holdTimers := fun ch x held => hs.holdTimers ch x ((hold ch).symm.trans held) }

theorem expires_core {s : State} (hs : s.RestCore) (settling : s.ctl.state = .settling) : (capExpires s).RestCore :=
  { hs with
    rest := not_measuring_contra ((measuring_iff s).2 (.inr settling))
    capEmpties := fun _ _ => rfl
    capLate := fun opened => CtlState.noConfusion (settling.symm.trans opened) }

theorem Tpg.tick_pulse {g : Tpg} (range : ∀ n, g = .active n → 1 ≤ n ∧ n ≤ 1023) (n : Nat) (active : g.tick = .active n) :
    1 ≤ n ∧ n ≤ 1023 := by
  cases g with
  | idle => cases active
  | active m =>
    obtain ⟨low, high⟩ := range m rfl
    unfold Tpg.tick at active
    simp only at active
    split at active
    · cases active
    · obtain rfl := Tpg.active.inj active
      omega

theorem dwellCounts_core {s : State} (hs : s.RestCore) (measuring : s.measuring = true) :
    ({ s with tpg := s.tpg.tick, ctl := { s.ctl with settleCount := s.settleTicked } } : State).RestCore :=
  { hs with
    rest := not_measuring_contra measuring
    settle := fun settling => by
      have bound := hs.settle settling
      show s.settleTicked ≤ s.params.settleCap
      unfold State.settleTicked
      split
      · rename_i counts
        simp only [Bool.and_eq_true, decide_eq_true_eq] at counts
        exact counts.2
      · exact bound
    pulse := Tpg.tick_pulse hs.pulse }

theorem Divider.Counts.running {d e : Divider} {period : Nat} (h : d.Counts e period) : e.running = d.running := by
  rcases h with rfl | rfl | rfl
  · rfl
  · rfl
  · unfold Divider.count1
    split <;> rfl

theorem Divider.Counts.inPeriod {d e : Divider} {period : Nat} (h : d.Counts e period) (positive : 0 < period)
    (before : d.InPeriod period) : e.InPeriod period := by
  rcases h with rfl | rfl | rfl
  · exact before
  · exact fun _ => positive
  · unfold Divider.count1
    split
    · rename_i counts
      rw [Bool.and_eq_true, decide_eq_true_eq] at counts
      exact fun _ => counts.2
    · exact before

theorem dividers_core {s : State} {k : TickGen} (hs : s.RestCore) (counts : s.ticks.Counts k s.params) :
    ({ s with ticks := k } : State).RestCore := by
  obtain ⟨decay, dwell, onset⟩ := counts
  obtain ⟨one, two, three, -⟩ := hs.legal.ranges
  obtain ⟨p1, p2, p3⟩ := hs.periods
  exact { hs with
    rest := fun quiet => by
      obtain ⟨cells, occ, tpg, ⟨t1, t2, t3⟩, queue, applying⟩ := hs.rest quiet
      exact ⟨cells, occ, tpg, ⟨decay.running.trans t1, dwell.running.trans t2, onset.running.trans t3⟩, queue, applying⟩
    running := fun measuring => by
      obtain ⟨t1, t2⟩ := hs.running measuring
      exact ⟨decay.running.trans t1, dwell.running.trans t2⟩
    onset := fun measuring => by
      show k.onset.running = true ↔ _
      rw [onset.running]
      exact hs.onset measuring
    periods := ⟨decay.inPeriod one p1, dwell.inPeriod two p2, onset.inPeriod three p3⟩ }

theorem pulses_core {s : State} (hs : s.RestCore) (opened : s.ctl.state = .opened) :
    ({ s with tpg := .active s.params.tpLen } : State).RestCore := by
  obtain ⟨-, -, -, -, length, -⟩ := hs.legal.ranges
  exact { hs with
    rest := not_measuring_contra ((measuring_iff s).2 (.inl opened))
    pulse := fun n active => by
      obtain rfl := Tpg.active.inj active
      exact length }

theorem clearFrozen_atRest (z : Frozen) (c : Cell) (rest : c.AtRest) : (c.clearFrozen z).AtRest := by
  cases z with
  | whole => exact rest
  | half h => exact clearHalf_atRest h c rest

theorem atRest_of_cells {l k : List Cell} {g : Nat → Cell → Cell} (cells : ∀ i, k[i]? = (l[i]?).map (g i))
    (keeps : ∀ i c, c.AtRest → (g i c).AtRest) (rest : ∀ c ∈ l, c.AtRest) : ∀ c ∈ k, c.AtRest := by
  intro c hc
  obtain ⟨i, hi⟩ := List.mem_iff_getElem?.1 hc
  rw [cells] at hi
  obtain ⟨d, hd, rfl⟩ := Option.map_eq_some_iff.1 hi
  exact keeps i d (rest d (List.mem_of_getElem? hd))

theorem clearBanks_sameRest (test : Nat → Bool) (s : State) : s.SameRest (clearBanks test s) := by
  have cells (rest : ∀ c ∈ s.cells, c.AtRest) : ∀ c ∈ (clearBanks test s).cells, c.AtRest := by
    cases frozen : s.ctl.frozen with
    | none => rwa [clearBanks_unfrozen test s frozen]
    | some z =>
      refine atRest_of_cells (getElem?_cells_clearBanks test s z frozen) (fun i c rest => ?_) rest
      split
      · exact clearFrozen_atRest z c rest
      · exact rest
  have eq := clearBanks_frame test s
  refine ⟨?_, ?_, ?_, ?_, ?_, ?_, ?_, ?_, ?_, ?_, fun ch x held => ?_, fun _ => cells, fun _ => ?_⟩
  · rw [eq]
  · rw [eq]
  · rw [eq]
  · rw [eq]
  · rw [eq]
  · rw [eq]
  · rw [eq]
    rfl
  · rw [eq]
  · rw [eq]
  · rw [eq]
  · rw [eq] at held
    cases ch <;> exact held
  · rw [eq]

theorem readoutComplete_core {s : State} (hs : s.RestCore) : (readoutComplete s).RestCore := by
  have rested (held : s.ctl.state = .held) : s.Rested :=
    hs.rested ((not_measuring_iff s).2 (.inr held)) (hs.op_idle (by rw [held]; exact CtlState.noConfusion))
  refine readoutNotice_elim _ (fun _ => ?_) (fun held _ => dealtWith_core ?_) fun d held _ => swap_core ?_
  · exact State.SameRest.core (s := s)
      ⟨rfl, rfl, rfl, rfl, rfl, rfl, rfl, rfl, rfl, rfl, fun ch x held => by cases ch <;> exact held, fun _ => id, fun _ => rfl⟩ hs
  · exact (rested held).congr rfl (rested held).resting.cells rfl rfl rfl rfl rfl rfl
  · exact (rested held).congr rfl (rested held).resting.cells rfl rfl rfl rfl rfl rfl

theorem softReset_core {s : State} (hs : s.RestCore) : (softReset s).RestCore := by
  refine State.Rested.core ⟨hs.legal, ⟨fun c hc => ?_, rfl, rfl, ⟨rfl, rfl, rfl⟩, rfl, rfl⟩, rfl, fun ch => by cases ch <;> rfl⟩ rfl
  obtain ⟨d, -, rfl⟩ := List.mem_map.1 hc
  exact ⟨rfl, rfl⟩

/-- A part after RST_N rests. -/
theorem reset_rested : State.reset.Rested := by
  refine ⟨Params.reset_legal, ⟨fun c hc => ?_, rfl, rfl, ⟨rfl, rfl, rfl⟩, rfl, rfl⟩, rfl, fun ch => by cases ch <;> rfl⟩
  rw [List.eq_of_mem_replicate hc]
  exact ⟨rfl, rfl⟩

theorem powerOnReset_core (s : State) : (powerOnReset s).RestCore := by
  refine State.Rested.core ⟨Params.reset_legal, ⟨reset_rested.resting.cells, rfl, rfl, ⟨rfl, rfl, rfl⟩, rfl, rfl⟩, rfl, fun ch => ?_⟩ rfl
  cases ch <;> rfl

/-! ### Every move -/

theorem describes_sameRest {f : Descriptor → Descriptor} (law : Describes f) (s : State) : s.SameRest (onDesc f s) :=
  ⟨rfl, rfl, rfl, rfl, rfl, rfl, capFlag_of_map rfl law.settleCap, rfl, rfl, rfl, fun ch x held => by cases ch <;> exact held, fun _ => id,
    fun _ => rfl⟩

/-- A change of the rows, the draws, the pins, the port, the causes, the filter, the memory side, the readout. -/
theorem sameRest_of_eq {s t : State} (params : t.params = s.params) (cells : t.cells = s.cells) (occ : t.occ = s.occ)
    (engine : t.engine = s.engine) (ticks : t.ticks = s.ticks) (rd : t.path.rd = s.path.rd) (wr : t.path.wr = s.path.wr)
    (queue : t.queue = s.queue) (ctl : t.ctl = s.ctl) (tpg : t.tpg = s.tpg) : s.SameRest t := by
  refine ⟨params, by rw [ctl], ticks, by rw [ctl], by rw [ctl], tpg, by rw [State.capFlag, State.capFlag, ctl], by rw [queue], by rw [engine],
    by rw [engine], fun ch x held => ?_, fun _ => by rw [cells]; exact id, fun _ => by rw [occ]⟩
  cases ch
  · exact rd.symm.trans held
  · exact wr.symm.trans held

theorem setHold_none_sameRest (ch : Channel) (s : State) : s.SameRest (setHold ch none s) := by
  cases ch
  all_goals
    refine ⟨rfl, rfl, rfl, rfl, rfl, rfl, rfl, rfl, rfl, rfl, fun k x held => ?_, fun _ => id, fun _ => rfl⟩
  · cases k
    · cases held
    · exact held
  · cases k
    · exact held
    · cases held

theorem configures_sameRest (s : State) (i : Nat) (g : CellConfig) (mirror : List Bool) :
    s.SameRest { s with cells := s.cells.modify i fun c => c.configure g, engine := { s.engine with mirror := mirror } } := by
  refine ⟨rfl, rfl, rfl, rfl, rfl, rfl, rfl, rfl, rfl, rfl, fun ch x held => by cases ch <;> exact held, fun _ rest => ?_, fun _ => rfl⟩
  refine atRest_of_cells (g := fun j c => if i = j then c.configure g else c) (fun j => ?_) (fun j c rest => ?_) rest
  · exact List.getElem?_modify ..
  · split
    · exact rest
    · exact rest

theorem Move.core {w : Way} {s t : State} (hs : s.RestCore) (move : Move w s t) : t.RestCore := by
  cases move with
  | outside same =>
    rw [same.eq]
    exact State.SameRest.core (s := s) (sameRest_of_eq rfl rfl rfl rfl rfl rfl rfl rfl rfl rfl) hs
  | writes written met => exact writes_core hs written met
  | gateOpens ch => exact (setHold_none_sameRest ch s).core hs
  | gateHolds ch r h opened => exact gateHolds_core hs opened ch r h
  | holdsCount => exact holdsCount_core hs
  | enters r ch opened room => exact enters_core hs opened _
  | takes front measuring => exact takes_core hs front measuring
  | applies loud applying lawful => exact applies_core hs applying _
  | describes law => exact (describes_sameRest law s).core hs
  | operates op result idle => exact operates_core hs op result idle
  | configures i g inFlight trim => exact (configures_sameRest s i g _).core hs
  | opens cause idle free => exact openWindowAs_core cause (hs.rested ((not_measuring_iff s).2 (.inl idle)) free)
  | shuts cause first opened => exact shutWindow_core cause hs opened ⟨rfl, rfl, rfl, rfl, rfl⟩
  | ends late start settling free empty =>
    exact endSettling_core (late.keeps (fun _ _ => LateMove.ending) (hs.ending start)) free empty
  | expires settling => exact expires_core hs settling
  | event loud measuring lawful => exact ((onsetEvent_outcome _ s).sameRest measuring).core hs
  | onsetTicks opened short => exact onsetDelivered_core hs opened short
  | onsetShuts opened => exact shutWindow_core .timer hs opened (onsetDelivered_sameClose s)
  | dwellCounts measuring => exact dwellCounts_core hs measuring
  | dividers counts => exact dividers_core hs counts
  | pulses opened => exact pulses_core hs opened
  | sends sending desc clears =>
    exact (clearBanks_sameRest _ _).core (State.SameRest.core (s := s) (sameRest_of_eq rfl rfl rfl rfl rfl rfl rfl rfl rfl rfl) hs)
  | completes sending cleared => exact readoutComplete_core hs
  | softResets => exact softReset_core hs
  | powersOn => exact powerOnReset_core s
  | controls _ _ _ =>
    exact State.SameRest.core (s := s)
      ⟨rfl, rfl, rfl, rfl, rfl, rfl, rfl, rfl, rfl, rfl, fun ch x held => by cases ch <;> exact held, fun _ => id, fun _ => rfl⟩ hs
  | turns _ _ | waits _ | joins | filters _ | passes _ _ =>
    exact State.SameRest.core (s := s) (sameRest_of_eq rfl rfl rfl rfl rfl rfl rfl rfl rfl rfl) hs

end Sys2Proof.Machine
end

section
/-!
PROOF. What a row leaves of the rows behind it, of the causes on their way, of the reports that wait for an onset tick and of a decay tick
that waits: the rest of O56 for one row.
-/

namespace Sys2Proof.Machine

/-! ### Moves that leave what waits -/

/-- The rows behind stay; causes are on their way only with a CLEAR_ATTENTION or a SOFT_RESET behind; no report begins to wait for an onset
tick, and no decay tick for a row. -/
structure State.Calm (s t : State) : Prop where
  pending : t.pending = s.pending
  arriving : ¬ s.ClearBehind → t.arriving = s.arriving ∨ t.arriving = 0
  crossing : t.crossing = s.crossing ∨ t.crossing = .reset
  waits : t.decayWaits = s.decayWaits ∨ t.decayWaits = false

theorem clearBehind_congr {s t : State} (pending : t.pending = s.pending) : t.ClearBehind ↔ s.ClearBehind := by
  rw [State.ClearBehind, State.ClearBehind, pending]

theorem calm_of_eq {s t : State} (pending : t.pending = s.pending) (arriving : t.arriving = s.arriving) (crossing : t.crossing = s.crossing)
    (waits : t.decayWaits = s.decayWaits) : s.Calm t := ⟨pending, fun _ => .inl arriving, .inl crossing, .inl waits⟩

theorem State.Calm.trans {s t u : State} (h1 : s.Calm t) (h2 : t.Calm u) : s.Calm u where
  pending := h2.pending.trans h1.pending
  arriving none := by
    rcases h2.arriving fun clear => none ((clearBehind_congr h1.pending).1 clear) with same | gone
    · rw [same]
      exact h1.arriving none
    · exact .inr gone
  crossing := by
    rcases h2.crossing with same | reset
    · rw [same]
      exact h1.crossing
    · exact .inr reset
  waits := by
    rcases h2.waits with same | none
    · rw [same]
      exact h1.waits
    · exact .inr none

/-- A calm change after a change of what is apart. -/
theorem State.Calm.before {s t u : State} (h : t.Calm u) (pending : t.pending = s.pending) (arriving : t.arriving = s.arriving)
    (crossing : t.crossing = s.crossing) (waits : t.decayWaits = s.decayWaits) : s.Calm u :=
  (calm_of_eq pending arriving crossing waits).trans h

theorem raiseCause_calm (c : Cause) (s : State) : s.Calm (raiseCause c s) := by
  refine ⟨rfl, fun clear => .inl ?_, .inl rfl, .inl rfl⟩
  rw [raiseCause_arriving, lateCauses_zero s clear]
  simp

theorem ArrayOutcome.arriving {f : Nat → Cell → CellOut} {s t : State} (out : ArrayOutcome f s t) (clear : ¬ s.ClearBehind) :
    t.arriving = s.arriving := by
  obtain ⟨-, -, -, e, -, -, -, -, -, causes, -⟩ := out.desc
  cases e with
  | false =>
    rw [if_neg Bool.false_ne_true] at causes
    exact causes.2.1
  | true =>
    obtain ⟨now, late, -, behind, -, arriving, -⟩ := (if_pos rfl).mp causes
    obtain rfl : late = 0 := not_not.1 fun some => clear (behind some)
    rw [arriving]
    exact BitVec.or_zero

theorem ArrayOutcome.crossing {f : Nat → Cell → CellOut} {s t : State} (out : ArrayOutcome f s t) :
    t.crossing = s.crossing ∨ s.OnsetTickBehind := by
  obtain ⟨-, wait, ticked, -, -, -, behind, crossing, -⟩ := out.desc
  by_cases none : wait ++ ticked = []
  · obtain ⟨rfl, rfl⟩ := List.append_eq_nil_iff.1 none
    rw [List.append_nil, List.append_nil] at crossing
    exact .inl crossing
  · exact .inr (behind none)

/-- An event with no onset tick directly behind it leaves no report waiting. -/
theorem ArrayOutcome.calm {f : Nat → Cell → CellOut} {s t : State} (out : ArrayOutcome f s t) (alone : ¬ s.OnsetTickBehind) : s.Calm t where
  pending := by rw [out.kept]
  arriving clear := .inl (out.arriving clear)
  crossing := .inl (out.crossing.resolve_right alone)
  waits := .inl (by rw [out.kept])

theorem onsetTickBehind_opened {s : State} (behind : s.OnsetTickBehind) : s.ctl.state = .opened := behind.1

theorem onsetEvent_settling_calm {s : State} (settling : s.ctl.state = .settling) (f : Nat → Cell → CellOut) : s.Calm (onsetEvent f s) :=
  (onsetEvent_outcome f s).calm fun behind => CtlState.noConfusion (settling.symm.trans behind.1)

/-- A window opens with no report waiting (R98). -/
theorem openWindowAs_crossing (cause : OpenCause) (s : State) : (openWindowAs cause s).crossing = .reset := by
  rw [openWindowAs_eq, arrayEvent_crossing]
  rfl

theorem openWindowAs_calm (cause : OpenCause) (s : State) : s.Calm (openWindowAs cause s) where
  pending := (openWindowAs_keeps cause s).pending
  arriving clear := .inl ((openWindowAs_outcome cause s).arriving clear)
  crossing := .inr (openWindowAs_crossing cause s)
  waits := .inl (by rw [(openWindowAs_outcome cause s).kept]; rfl)

theorem dealtWith_calm (s : State) : s.Calm (dealtWith s) :=
  dealtWith_elim s (openWindowAs_calm ..) (calm_of_eq rfl rfl rfl rfl)

theorem swap_calm (d : Descriptor) (s : State) : s.Calm (swap d s) := (dealtWith_calm _).before rfl rfl rfl rfl

theorem endSettling_calm (s : State) : s.Calm (endSettling s) := by
  have rest : s.Calm (comeToRest s) := calm_of_eq rfl rfl rfl rfl
  refine endSettling_elim s (fun _ => rest.trans (dealtWith_calm _)) fun d _ => rest.trans ?_
  refine handOff_elim _ _ (fun _ => calm_of_eq rfl rfl rfl rfl) (fun _ _ => swap_calm ..) (fun _ _ => ?_) fun _ _ => ?_
  · exact ((raiseCause_calm .overrun _).trans (dealtWith_calm _)).before rfl rfl rfl rfl
  · exact (raiseCause_calm .overrun _).before rfl rfl rfl rfl

theorem considerEnd_calm (s : State) : s.Calm (considerEnd s) := by
  unfold considerEnd
  split
  · exact endSettling_calm s
  · exact calm_of_eq rfl rfl rfl rfl

theorem capExpires_calm (s : State) : s.Calm (capExpires s) := (raiseCause_calm .truncated _).before rfl rfl rfl rfl

theorem truncateCounting_calm (s : State) : s.Calm (truncateCounting s) := calm_of_eq rfl rfl rfl rfl

theorem capExpiry_calm (s : State) : s.Calm (capExpiry s) := by
  unfold capExpiry
  split
  · split
    · exact ((capExpires_calm s).trans (truncateCounting_calm _)).trans (endSettling_calm _)
    · exact capExpires_calm s
  · exact calm_of_eq rfl rfl rfl rfl

theorem shedNotice_calm (s : State) : s.Calm (shedNotice s) := by
  unfold shedNotice
  simp only
  split
  · exact (raiseCause_calm .shed _).before rfl rfl rfl rfl
  · exact calm_of_eq rfl rfl rfl rfl

theorem setHold_calm (ch : Channel) (h : Option Hold) (s : State) : s.Calm (setHold ch h s) :=
  calm_of_eq (setHold_pending ..) (setHold_arriving ..) (setHold_crossing ..) (setHold_decayWaits ..)

theorem shedHold_calm (ch : Channel) (s : State) : s.Calm (shedHold ch s) := by
  cases held : s.hold ch with
  | none =>
    rw [shedHold_none ch s held]
    exact calm_of_eq rfl rfl rfl rfl
  | some x =>
    rw [shedHold_some ch s x held]
    have pass : (setHold ch none s).Calm (passHandshake ch x.handshake (setHold ch none s)) :=
      calm_of_eq (passHandshake_pending ..) (passHandshake_arriving ..) (passHandshake_crossing ..) (passHandshake_decayWaits ..)
    exact ((setHold_calm ..).trans pass).trans (shedNotice_calm _)

theorem shutWindow_calm (cause : CloseCause) (s : State) : s.Calm (shutWindow cause s) :=
  ((shedHold_calm .read (beginClose cause s)).trans (shedHold_calm .write _)).before rfl rfl rfl rfl

theorem closeAtLength_calm (s : State) : s.Calm (closeAtLength s) := by
  rcases closeAtLength_cases s with closes | ⟨-, closes, -⟩
  · rw [closes]
    exact (shutWindow_calm .timer s).trans (considerEnd_calm _)
  · rw [closes]
    exact shutWindow_calm .timer s

theorem onsetDelivered_calm (s : State) : s.Calm (onsetDelivered s) := by
  have eq := onsetDelivered_eq s
  refine ⟨?_, fun _ => .inl ?_, .inr ?_, .inl ?_⟩
  all_goals rw [eq]

theorem clearBanks_calm (test : Nat → Bool) (s : State) : s.Calm (clearBanks test s) := by
  rw [clearBanks_frame]
  exact calm_of_eq rfl rfl rfl rfl

theorem readoutComplete_calm (s : State) : s.Calm (readoutComplete s) := by
  have told := (raiseCause_calm .frameDone
    { s with readout := { frame := none, emitted := (s.readout.emitted + 1) % 2 ^ 32 } }).before (s := s) rfl rfl rfl rfl
  refine readoutNotice_elim _ (fun _ => told.trans (calm_of_eq rfl rfl rfl rfl)) (fun _ _ => told.trans ?_) fun d _ _ => told.trans ?_
  · exact (dealtWith_calm _).before rfl rfl rfl rfl
  · exact (swap_calm ..).before rfl rfl rfl rfl

theorem State.SameCore.calm {s t : State} (same : s.SameCore t) : s.Calm t where
  pending := by rw [same.eq]
  arriving clear := same.arriving.resolve_left clear
  crossing := .inl (by rw [same.eq])
  waits := .inl (by rw [same.eq])

theorem LateMove.calm {s t : State} (move : LateMove s t) : s.Calm t := by
  cases move with
  | outside same => exact same.calm
  | joins => exact ⟨rfl, fun _ => .inl rfl, .inl rfl, .inr rfl⟩
  | counts g n => exact calm_of_eq rfl rfl rfl rfl
  | event settling sound => exact onsetEvent_settling_calm settling _
  | expires => exact capExpires_calm s
  | truncates settling => exact truncateCounting_calm s

theorem LateMoves.calm {s t : State} (moves : LateMoves s t) : s.Calm t :=
  moves.keeps (P := fun u => s.Calm u) (fun _ _ h move => h.trans move.calm) (calm_of_eq rfl rfl rfl rfl)

/-- Every move of a row is calm, but an event of the array. -/
theorem Move.calm {w : Way} {s t : State} (row : w ≠ .period) (move : Move w s t) :
    s.Calm t ∨ w ≠ .quiet ∧ ∃ (e : CellEngine) (f : Nat → Cell → CellOut), ArrayOutcome f { s with engine := e } t := by
  cases move with
  | outside same => exact .inl same.calm
  | turns q period => exact absurd period row
  | waits period => exact absurd period row
  | joins => exact .inl ⟨rfl, fun _ => .inl rfl, .inl rfl, .inr rfl⟩
  | gateOpens ch => exact .inl (setHold_calm ..)
  | gateHolds ch r h opened => exact .inl (setHold_calm ..)
  | applies loud applying lawful => exact .inr ⟨loud, _, _, onsetEvent_outcome _ _⟩
  | event loud measuring lawful => exact .inr ⟨loud, s.engine, _, onsetEvent_outcome _ s⟩
  | opens cause idle free => exact .inl (openWindowAs_calm ..)
  | shuts cause first opened => exact .inl (shutWindow_calm ..)
  | ends late start settling free empty => exact .inl (late.calm.trans (endSettling_calm _))
  | expires settling => exact .inl (capExpires_calm s)
  | onsetTicks opened short => exact .inl (onsetDelivered_calm s)
  | onsetShuts opened => exact .inl ((onsetDelivered_calm s).trans (shutWindow_calm ..))
  | sends sending desc clears => exact .inl ((clearBanks_calm _ _).before rfl rfl rfl rfl)
  | completes sending cleared => exact .inl (readoutComplete_calm s)
  | softResets => exact .inl ⟨rfl, fun _ => .inl rfl, .inr rfl, .inr rfl⟩
  | powersOn => exact .inl ⟨rfl, fun _ => .inr rfl, .inr rfl, .inr rfl⟩
  | writes _ _ | filters _ | passes _ _ | holdsCount | enters _ _ _ _ | takes _ _ | describes _ | operates _ _ _ | configures _ _ _ _
  | controls _ _ _ | dwellCounts _ | dividers _ | pulses _ => exact .inl (calm_of_eq rfl rfl rfl rfl)

/-! ### What a chain of a row's moves leaves -/

theorem row_pending {w : Way} (row : w ≠ .period) {s t : State} (moves : Moves w s t) : t.pending = s.pending := by
  refine moves.keeps (P := fun u => u.pending = s.pending) (fun u v kept move => ?_) rfl
  rcases move.calm row with calm | ⟨-, e, f, out⟩
  · exact calm.pending.trans kept
  · rw [out.kept]
    exact kept

theorem row_arriving {w : Way} (row : w ≠ .period) {s t : State} (moves : Moves w s t) (hs : s.arriving ≠ 0 → s.ClearBehind) :
    t.arriving ≠ 0 → t.ClearBehind := by
  refine (moves.keeps (P := fun u => u.pending = s.pending ∧ (u.arriving ≠ 0 → u.ClearBehind)) (fun u v ⟨pending, kept⟩ move => ?_)
    ⟨rfl, hs⟩).2
  have turned : v.pending = u.pending := row_pending row move.chain
  refine ⟨turned.trans pending, fun some => ?_⟩
  by_cases clear : u.ClearBehind
  · exact (clearBehind_congr turned).2 clear
  · have none : u.arriving = 0 := not_not.1 fun some => clear (kept some)
    have gone : v.arriving = u.arriving ∨ v.arriving = 0 := by
      rcases move.calm row with calm | ⟨-, e, f, out⟩
      · exact calm.arriving clear
      · exact .inl (out.arriving clear)
    exact absurd (gone.elim (·.trans none) id) some

theorem row_waits {w : Way} (row : w ≠ .period) {s t : State} (moves : Moves w s t) (hs : s.decayWaits = false) : t.decayWaits = false := by
  refine moves.keeps (P := fun u => u.decayWaits = false) (fun u v kept move => ?_) hs
  rcases move.calm row with calm | ⟨-, e, f, out⟩
  · exact calm.waits.elim (·.trans kept) id
  · rw [out.kept]
    exact kept

/-- A row without an event of the array leaves no report waiting. -/
theorem quiet_crossing {s t : State} (moves : Moves .quiet s t) (hs : s.crossing = .reset) : t.crossing = .reset := by
  refine moves.keeps (P := fun u => u.crossing = .reset) (fun u v kept move => ?_) hs
  rcases move.calm Way.noConfusion with calm | ⟨loud, -⟩
  · exact calm.crossing.elim (·.trans kept) id
  · exact absurd rfl loud

theorem onsetTickBehind_congr {s t : State} (pending : t.pending = s.pending) (state : t.ctl.state = s.ctl.state)
    (running : t.ticks.onset.running = s.ticks.onset.running) (source : t.params.winSrc = s.params.winSrc)
    (length : t.params.winLen = s.params.winLen) (window : t.ctl.windowCount = s.ctl.windowCount) (behind : s.OnsetTickBehind) :
    t.OnsetTickBehind := by
  rw [State.OnsetTickBehind, pending, state, running, source, length, window]
  exact behind

/-- WIN_SRC and WIN_LEN are written in IDLE alone (R167). -/
theorem writes_window {s : State} {id : ParamId} {v : Nat} {q : Params} (written : s.params.write id v = some q)
    (met : s.classMet id.paramClass = true) (busy : s.ctl.state ≠ .idle) :
    q.winSrc = s.params.winSrc ∧ q.winLen = s.params.winLen := by
  have any : id.paramClass = .any := by
    unfold State.classMet at met
    cases cls : id.paramClass with
    | any => rfl
    | idle =>
      rw [cls] at met
      simp only [Bool.and_eq_true, decide_eq_true_eq] at met
      exact absurd met.1 busy
    | rest =>
      rw [cls] at met
      simp only [Bool.and_eq_true, decide_eq_true_eq] at met
      exact absurd met.1.1.1 busy
  have other (j : ParamId) (hj : j.paramClass ≠ .any) : q.number j = s.params.number j :=
    s.params.number_of_write q id j v (fun same => hj (same ▸ any)) written
  refine ⟨?_, other .winLen (by decide)⟩
  have code : q.winSrc.code = s.params.winSrc.code := by
    have number := other .winSrc (by decide)
    rwa [← Params.read_eq_number, ← Params.read_eq_number] at number
  revert code
  cases q.winSrc <;> cases s.params.winSrc <;> decide

/-- A row with an event of the array leaves the onset tick behind it to be delivered, or drops what waits for it. -/
theorem Move.tickBehind {s t : State} (move : Move .event s t) (behind : s.OnsetTickBehind) :
    t.OnsetTickBehind ∨ t.crossing = .reset := by
  have opened : s.ctl.state = .opened := behind.1
  have elsewhere {k : CtlState} {P : Prop} (state : s.ctl.state = k) (other : k ≠ .opened) : P :=
    absurd (state.symm.trans opened) other
  cases move with
  | turns q period => exact Way.noConfusion period
  | waits period => exact Way.noConfusion period
  | outside same =>
    rw [same.eq]
    exact .inl behind
  | writes written met =>
    obtain ⟨source, length⟩ := writes_window written met (by rw [opened]; exact CtlState.noConfusion)
    exact .inl (onsetTickBehind_congr (s := s) rfl rfl rfl source length rfl behind)
  | gateOpens ch => exact .inl (by cases ch <;> exact behind)
  | gateHolds ch r h opened => exact .inl (by cases ch <;> exact behind)
  | applies loud applying lawful =>
    have out := onsetEvent_outcome (s := { s with engine := { s.engine with applying := none } })
    exact .inl (onsetTickBehind_congr (by rw [(out _).kept]) (by rw [(out _).kept]) (by rw [(out _).kept]) (by rw [(out _).kept])
      (by rw [(out _).kept]) (by rw [(out _).kept]) behind)
  | event loud measuring lawful =>
    have out := onsetEvent_outcome (s := s)
    exact .inl (onsetTickBehind_congr (by rw [(out _).kept]) (by rw [(out _).kept]) (by rw [(out _).kept]) (by rw [(out _).kept])
      (by rw [(out _).kept]) (by rw [(out _).kept]) behind)
  | opens cause idle free => exact elsewhere idle CtlState.noConfusion
  | shuts cause first opened => exact absurd rfl first
  | ends late start settling free empty => exact elsewhere start CtlState.noConfusion
  | expires settling => exact elsewhere settling CtlState.noConfusion
  | onsetTicks opened short => exact .inr (by rw [onsetDelivered_eq])
  | onsetShuts opened =>
    have reset : (onsetDelivered s).crossing = .reset := by rw [onsetDelivered_eq]
    exact .inr ((shutWindow_calm .timer _).crossing.elim (·.trans reset) id)
  | dividers counts => exact .inl (onsetTickBehind_congr (s := s) rfl rfl counts.onset.running rfl rfl rfl behind)
  | sends sending desc clears =>
    rw [clearBanks_frame]
    exact .inl behind
  | completes sending cleared =>
    refine .inl (readoutNotice_elim (P := State.OnsetTickBehind) _ (fun _ => behind) (fun held _ => ?_) fun d held _ => ?_)
    · exact elsewhere held CtlState.noConfusion
    · exact elsewhere held CtlState.noConfusion
  | softResets => exact .inr rfl
  | powersOn => exact .inr rfl
  | joins | filters _ | passes _ _ | holdsCount | enters _ _ _ _ | takes _ _ | describes _ | operates _ _ _ | configures _ _ _ _
  | controls _ _ _ | dwellCounts _ | pulses _ => exact .inl behind

theorem event_crossing {s t : State} (moves : Moves .event s t) (hs : s.crossing ≠ .reset → s.OnsetTickBehind) :
    t.crossing ≠ .reset → t.OnsetTickBehind := by
  refine moves.keeps (P := fun u => u.crossing ≠ .reset → u.OnsetTickBehind) (fun u v kept move some => ?_) hs
  have behind : u.OnsetTickBehind := by
    rcases move.calm Way.noConfusion with calm | ⟨-, e, f, out⟩
    · rcases calm.crossing with same | reset
      · exact kept (same ▸ some)
      · exact absurd reset some
    · rcases out.crossing with same | behind
      · exact kept (same ▸ some)
      · exact behind
  exact (move.tickBehind behind).resolve_right some

/-! ### One row -/

/-- The fields of the rest invariant that speak of the row directly behind (logs 21, 22, 24). -/
structure State.BehindInv (s : State) : Prop where
  arriving : s.arriving ≠ 0 → s.ClearBehind
  crossing : s.crossing ≠ .reset → s.OnsetTickBehind
  waits : s.decayWaits = true → s.DwellTickBehind ∨ s.InjectBehind

/-- Nothing is on its way and nothing waits. -/
structure State.Alone (s : State) : Prop where
  arriving : s.arriving = 0
  crossing : s.crossing = .reset
  waits : s.decayWaits = false

theorem Way.admits_cases {c : Instr} (decay : c ≠ .decayTick) (deliver : c ≠ .frameByteDelivery) :
    Way.quiet.Admits c ∨ Way.event.Admits c := by
  cases c with
  | decayTick => exact absurd rfl decay
  | frameByteDelivery => exact absurd rfl deliver
  | inject _ | recordApplied | dwellTick | pulseEnd | settleCapExpiry | auxAsserted _ | auxDeasserted _ => exact .inr trivial
  | _ => exact .inl trivial

theorem behindInv_of_waits {s : State} (arriving : s.arriving ≠ 0 → s.ClearBehind) (crossing : s.crossing ≠ .reset → s.OnsetTickBehind)
    (waits : s.decayWaits = false) : s.BehindInv :=
  ⟨arriving, crossing, fun some => by cases waits.symm.trans some⟩

/-- A row, with nothing waiting for it, leaves waiting only what waits for the row behind it. -/
theorem moves_behind {w : Way} (row : w ≠ .period) {s t : State} (moves : Moves w s t) (alone : s.Alone) : t.BehindInv := by
  refine behindInv_of_waits (row_arriving row moves fun some => absurd alone.arriving some) ?_ (row_waits row moves alone.waits)
  cases w with
  | period => exact absurd rfl row
  | quiet => exact fun some => absurd (quiet_crossing moves alone.crossing) some
  | event => exact event_crossing moves fun some => absurd alone.crossing some

end Sys2Proof.Machine
end

section
/-!
PROOF. The rest invariant at every step (O56): a row that something waits for takes it, and within a TBCLK period each event takes what
waits for it.
-/

namespace Sys2Proof.Machine

/-! ### The rows that something waits for -/

/-- A CLEAR_ATTENTION lets every cause on its way arrive (R184). -/
theorem clearAttention_arriving {set : Byte} {s t : State} (h : exec (.clearAttention [set]) s = .next t) : t.arriving = 0 := by
  by_cases receiving : s.port.decoder = .receiving
  · obtain ⟨clears, -⟩ := clearAttentionRemovesTheNamedCauses s receiving
    obtain rfl := Host.Outcome.next.inj ((clears set).symm.trans h)
    rfl
  · have row : exec (.clearAttention [set]) s = .next (arrive s) := by
      rw [exec_clearAttention, if_neg fun can => receiving ((canReceive_eq s [set]).1 can).1]
    obtain rfl := Host.Outcome.next.inj (row.symm.trans h)
    exact arrive_arriving s

/-- So does a SOFT_RESET (R173). -/
theorem softReset_arriving {s t : State} (h : exec (.softReset []) s = .next t) : t.arriving = 0 := by
  by_cases receiving : s.port.decoder = .receiving
  · obtain ⟨-, resets, -⟩ := softResetKeepsConfigurationAlone s receiving
    obtain rfl := Host.Outcome.next.inj (resets.symm.trans h)
    rfl
  · have row : exec (.softReset []) s = .next (arrive s) := by
      rw [exec_softReset, if_neg fun can => receiving ((canReceive_eq s []).1 can).1]
    obtain rfl := Host.Outcome.next.inj (row.symm.trans h)
    exact arrive_arriving s

/-- A dwell tick that is delivered takes the decay tick that has waited for it. -/
theorem dwellTaken_waits (s : State) : (dwellTaken s).decayWaits = false := by
  rw [(dwellTaken_outcome s).kept]
  rfl

theorem dwellDelivered_waits (s : State) : (dwellDelivered s).decayWaits = false := by
  have taken := dwellTaken_waits s
  rcases dwellDelivered_ends s with ⟨ends, -⟩ | ⟨-, ⟨goes, -⟩ | ⟨-, -, expires⟩⟩
  · rw [ends]
    exact (endSettling_calm _).waits.elim (·.trans taken) id
  · rw [goes]
    exact taken
  · rw [expires]
    exact (capExpiry_calm _).waits.elim (·.trans taken) id

theorem dwellTick_waits {s : State} (runs : s.ticks.dwell.running = true) (measuring : s.measuring = true) (early : ¬ s.CapWaits) :
    (dwellTick s).decayWaits = false := by
  have due : s.capDue = false := Bool.eq_false_iff.2 fun due => early ((capDue_iff s).1 due)
  rw [dwellTick_delivered s runs measuring due]
  exact dwellDelivered_waits _

/-- A row that brings the dwell tick takes the decay tick that has waited for it (log 24). -/
theorem exec_dwell_waits {c : Instr} {s t : State} (early : ¬ s.CapWaits) (brings : BringsDwell c s) (h : exec c s = .next t) :
    t.decayWaits = false := by
  obtain ⟨runs, measuring, which⟩ := brings
  have tick := dwellTick_waits runs measuring early
  cases c with
  | dwellTick =>
    obtain rfl := Host.Outcome.next.inj ((exec_dwellTick s).symm.trans h)
    exact tick
  | pulseEnd =>
    have row := exec_pulseEnd s
    rw [if_pos ((endsNext_iff _).2 which)] at row
    obtain rfl := Host.Outcome.next.inj (row.symm.trans h)
    exact tick
  | settleCapExpiry =>
    have row := exec_settleCapExpiry s
    rw [if_pos ((capHit_iff s).2 which)] at row
    obtain rfl := Host.Outcome.next.inj (row.symm.trans h)
    exact (capExpiry_calm _).waits.elim (·.trans tick) id
  | _ => exact which.elim

theorem startPulse_waits (s : State) : (startPulse s).decayWaits = false := by
  unfold startPulse
  rw [(onsetEvent_outcome _ _).kept]
  rfl

theorem exec_inject_waits {s t : State} (state : s.ctl.state = .opened) (pulse : s.tpg = .idle) (free : s.engine.op = .idle)
    (receiving : s.port.decoder = .receiving) (h : exec (.inject []) s = .next t) : t.decayWaits = false := by
  have port : (startPulse s).port = s.port := port_of_blind startPulse_withPort s
  have row : exec (.inject []) s = .next (considerEnd ((startPulse s).answered 0x38 [] .ok [])) := by
    rw [exec_inject, if_pos rfl, takeCommand_ok 0x38 [] _ s (startPulse s) [] receiving (Nat.zero_le _) ?_ port]
    rw [receiveRequest_withPort, ← startPulse_withPort]
    exact answerInject_starts _ free state pulse
  obtain rfl := Host.Outcome.next.inj (row.symm.trans h)
  exact (considerEnd_calm _).waits.elim (·.trans (startPulse_waits s)) id

/-- An onset tick that is delivered takes the reports that have waited for it (log 22). -/
theorem onsetTick_crossing {s : State} (runs : s.ticks.onset.running = true) (opened : s.ctl.state = .opened) :
    (onsetTick s).crossing = .reset := by
  have reset : (onsetDelivered s.onsetRestarted).crossing = .reset := by rw [onsetDelivered_eq]
  rw [onsetTick_opened s runs opened]
  split
  · exact (closeAtLength_calm _).crossing.elim (·.trans reset) id
  · exact reset

theorem exec_onset_crossing {c : Instr} {s t : State} (behind : ({ s with pending := c :: s.pending } : State).OnsetTickBehind)
    (h : exec c s = .next t) : t.crossing = .reset := by
  obtain ⟨opened, runs, which⟩ := behind
  have tick := onsetTick_crossing (s := s) runs opened
  rcases which with front | ⟨front, source, length⟩
  · obtain rfl := Option.some.inj front
    obtain rfl := Host.Outcome.next.inj ((exec_onsetTick s).symm.trans h)
    exact tick
  · obtain rfl := Option.some.inj front
    have row := exec_windowTimerExpiry s
    rw [if_pos ((timerNext_iff s).2 ⟨opened, source, length⟩)] at row
    obtain rfl := Host.Outcome.next.inj (row.symm.trans h)
    exact tick

/-! ### One row -/

/-- A decay tick waits only for the row directly behind (log 24). -/
theorem decayTick_behind {s : State} (alone : s.Alone) :
    (decayTick s).BehindInv ∧ (decayTick s).pending = s.pending
      ∧ ((decayTick s).decayWaits = true → (decayTick s).ctl.nextFrame = s.ctl.nextFrame) := by
  rcases decayTick_cases (w := .event) Way.noConfusion s with moves | ⟨-, joins, waits⟩
  · refine ⟨moves_behind Way.noConfusion moves alone, row_pending Way.noConfusion moves, fun some => ?_⟩
    cases (row_waits Way.noConfusion moves alone.waits).symm.trans some
  · rw [State.decayJoins, Bool.and_eq_true, Bool.or_eq_true, dwellBehind_iff, injectBehind_iff] at joins
    rw [waits]
    exact ⟨⟨fun some => absurd alone.arriving some, fun some => absurd alone.crossing some, fun _ => joins.1⟩, rfl, fun _ => rfl⟩

/-- What a row leaves behind it, whatever has waited for the row. -/
theorem exec_behind {c : Instr} {s t : State} (deliver : c ≠ .frameByteDelivery)
    (hs : ({ s with pending := c :: s.pending } : State).BehindInv) (h : exec c s = .next t) :
    t.BehindInv ∧ t.pending = s.pending ∧ (t.decayWaits = true → t.ctl.nextFrame = s.ctl.nextFrame) := by
  by_cases decay : c = .decayTick
  · subst decay
    obtain rfl := Host.Outcome.next.inj ((exec_decayTick s).symm.trans h)
    refine decayTick_behind ⟨not_not.1 fun some => ?_, not_not.1 fun some => ?_, Bool.eq_false_iff.2 fun some => ?_⟩
    · rcases hs.arriving some with ⟨set, front⟩ | front
      · cases front
      · cases front
    · obtain ⟨-, -, front | ⟨front, -⟩⟩ := hs.crossing some
      · cases front
      · cases front
    · rcases hs.waits some with ⟨-, c, front, -, -, which⟩ | ⟨-, -, -, -, front⟩
      · obtain rfl := Option.some.inj front
        exact which
      · cases front
  · have arrives (some : s.arriving ≠ 0) : t.arriving = 0 := by
      rcases hs.arriving some with ⟨set, front⟩ | front
      · obtain rfl := Option.some.inj front
        exact clearAttention_arriving h
      · obtain rfl := Option.some.inj front
        exact softReset_arriving h
    have joins (some : s.decayWaits = true) : t.decayWaits = false := by
      rcases hs.waits some with ⟨early, k, front, brings⟩ | ⟨state, pulse, free, receiving, front⟩
      · obtain rfl := Option.some.inj front
        exact exec_dwell_waits (s := s) early brings h
      · obtain rfl := Option.some.inj front
        exact exec_inject_waits (s := s) state pulse free receiving h
    have leaves {w : Way} (row : w ≠ .period) (moves : Moves w s t)
        (crossing : s.crossing = .reset → t.crossing ≠ .reset → t.OnsetTickBehind) :
        t.BehindInv ∧ t.pending = s.pending ∧ (t.decayWaits = true → t.ctl.nextFrame = s.ctl.nextFrame) := by
      have waits : t.decayWaits = false := by
        cases some : s.decayWaits with
        | true => exact joins some
        | false => exact row_waits row moves some
      refine ⟨behindInv_of_waits ?_ ?_ waits, row_pending row moves, fun some => by cases waits.symm.trans some⟩
      · by_cases none : s.arriving = 0
        · exact row_arriving row moves fun some => absurd none some
        · exact fun some => absurd (arrives none) some
      · by_cases reset : s.crossing = .reset
        · exact crossing reset
        · exact fun some => absurd (exec_onset_crossing (hs.crossing reset) h) some
    rcases Way.admits_cases decay deliver with quiet | event
    · have moves := exec_moves quiet h
      exact leaves Way.noConfusion moves fun reset some => absurd (quiet_crossing moves reset) some
    · have moves := exec_moves event h
      exact leaves Way.noConfusion moves fun reset => event_crossing moves fun some => absurd reset some

/-! ### A TBCLK period -/

/-- Within one window the dividers keep their counts, but for the one whose tick has come; none starts. -/
structure State.SameDividers (d : Due) (s u : State) : Prop where
  params : u.params = s.params
  frame : u.ctl.nextFrame = s.ctl.nextFrame
  onset : d ≠ .onset → u.ticks.onset.count = s.ticks.onset.count ∧ (u.ticks.onset.running = true → s.ticks.onset.running = true)
  dwell : d ≠ .dwell → u.ticks.dwell.count = s.ticks.dwell.count ∧ (u.ticks.dwell.running = true → s.ticks.dwell.running = true)

/-- An event of a period has opened the next window, with no report waiting, or the dividers are as they were. -/
def State.Passes (d : Due) (s u : State) : Prop :=
  u.ctl.nextFrame ≠ s.ctl.nextFrame ∧ u.crossing = .reset ∨ s.SameDividers d u

theorem State.SameDividers.trans {d : Due} {s t u : State} (h1 : s.SameDividers d t) (h2 : t.SameDividers d u) : s.SameDividers d u where
  params := h2.params.trans h1.params
  frame := h2.frame.trans h1.frame
  onset hd := ⟨(h2.onset hd).1.trans (h1.onset hd).1, fun runs => (h1.onset hd).2 ((h2.onset hd).2 runs)⟩
  dwell hd := ⟨(h2.dwell hd).1.trans (h1.dwell hd).1, fun runs => (h1.dwell hd).2 ((h2.dwell hd).2 runs)⟩

theorem State.SameDividers.then {d : Due} {s t u : State} (h1 : s.SameDividers d t) (h2 : t.Passes d u) : s.Passes d u := by
  rcases h2 with ⟨frame, crossing⟩ | same
  · exact .inl ⟨by rw [← h1.frame]; exact frame, crossing⟩
  · exact .inr (h1.trans same)

theorem sameDividers_of_eq {d : Due} {s t : State} (params : t.params = s.params) (frame : t.ctl.nextFrame = s.ctl.nextFrame)
    (ticks : t.ticks = s.ticks) : s.SameDividers d t :=
  ⟨params, frame, fun _ => by rw [ticks]; exact ⟨rfl, id⟩, fun _ => by rw [ticks]; exact ⟨rfl, id⟩⟩

theorem next_frame_ne (n : Nat) : (n + 1) % 2 ^ 32 ≠ n := by omega

theorem openWindowAs_passes (d : Due) (cause : OpenCause) (s : State) : s.Passes d (openWindowAs cause s) := by
  refine .inl ⟨?_, openWindowAs_crossing cause s⟩
  have frame : (openWindowAs cause s).ctl.nextFrame = (s.ctl.nextFrame + 1) % 2 ^ 32 := by
    rw [(openWindowAs_outcome cause s).ctl]
    rfl
  rw [frame]
  exact next_frame_ne _

theorem dealtWith_passes (d : Due) (s : State) : s.Passes d (dealtWith s) :=
  dealtWith_elim s (openWindowAs_passes ..) (.inr (sameDividers_of_eq rfl rfl rfl))

theorem endSettling_passes (d : Due) (s : State) : s.Passes d (endSettling s) := by
  have rest : s.SameDividers d (comeToRest s) :=
    ⟨rfl, rfl, fun _ => ⟨rfl, id⟩, fun _ => ⟨rfl, fun runs => by cases runs⟩⟩
  refine endSettling_elim s (fun _ => rest.then (dealtWith_passes ..)) fun k _ => rest.then ?_
  refine handOff_elim _ _ (fun _ => .inr (sameDividers_of_eq rfl rfl rfl)) (fun _ _ => ?_) (fun _ _ => ?_)
    fun _ _ => .inr (sameDividers_of_eq rfl rfl rfl)
  · unfold swap
    refine State.SameDividers.then ?_ (dealtWith_passes d _)
    exact sameDividers_of_eq rfl rfl rfl
  · unfold discardWindow
    refine State.SameDividers.then ?_ (dealtWith_passes d _)
    exact sameDividers_of_eq rfl rfl rfl

theorem considerEnd_passes (d : Due) (s : State) : s.Passes d (considerEnd s) := by
  unfold considerEnd
  split
  · exact endSettling_passes d s
  · exact .inr (sameDividers_of_eq rfl rfl rfl)

theorem ArrayOutcome.sameDividers (d : Due) {f : Nat → Cell → CellOut} {s t : State} (out : ArrayOutcome f s t) : s.SameDividers d t := by
  refine sameDividers_of_eq ?_ ?_ ?_
  all_goals rw [out.kept]

/-- After an expiry of the settle cap settling goes on, or has ended. -/
theorem capExpiry_passes (d : Due) (s : State) :
    s.Passes d (capExpiry s) ∧ ((capExpiry s).ctl.state = .settling → s.SameDividers d (capExpiry s)) := by
  by_cases waits : s.CapWaits
  · rw [capExpiry_waits s waits]
    split
    · have cut : s.SameDividers d (truncateCounting (capExpires s)) := sameDividers_of_eq rfl rfl rfl
      refine ⟨cut.then (endSettling_passes ..), fun settling => ?_⟩
      rcases endSettling_rests (truncateCounting (capExpires s)) with quiet | ⟨opened, -⟩
      · exact not_measuring_contra ((measuring_iff _).2 (.inr settling)) quiet
      · exact CtlState.noConfusion (settling.symm.trans opened)
    · exact ⟨.inr (sameDividers_of_eq rfl rfl rfl), fun _ => sameDividers_of_eq rfl rfl rfl⟩
  · rw [capExpiry_of_not_waits s waits]
    exact ⟨.inr (sameDividers_of_eq rfl rfl rfl), fun _ => sameDividers_of_eq rfl rfl rfl⟩

theorem decayTick_passes (s : State) : s.Passes .decay (decayTick s) := by
  have restart : s.SameDividers .decay s.decayRestarted := ⟨rfl, rfl, fun _ => ⟨rfl, id⟩, fun _ => ⟨rfl, id⟩⟩
  cases runs : s.ticks.decay.running with
  | false =>
    rw [decayTick_stopped s runs]
    exact .inr (sameDividers_of_eq rfl rfl rfl)
  | true =>
    cases measuring : s.measuring with
    | false =>
      rw [decayTick_resting s runs measuring]
      exact .inr restart
    | true =>
      rw [decayTick_measuring s runs measuring]
      refine restart.then ?_
      split
      · exact .inr (sameDividers_of_eq rfl rfl rfl)
      · split
        · exact .inr ((onsetEvent_outcome _ _).sameDividers .decay)
        · unfold decayDelivered
          simp only
          split
          · exact ((onsetEvent_outcome _ _).sameDividers .decay).then (endSettling_passes ..)
          · exact .inr ((onsetEvent_outcome _ _).sameDividers .decay)

theorem dwellDelivered_passes (s : State) : s.Passes .dwell (dwellDelivered s) := by
  have taken : s.SameDividers .dwell (dwellTaken s) :=
    State.SameDividers.trans (t := s.dwellCounted) (sameDividers_of_eq rfl rfl rfl) ((dwellTaken_outcome s).sameDividers .dwell)
  rcases dwellDelivered_ends s with ⟨ends, -⟩ | ⟨-, ⟨goes, -⟩ | ⟨-, -, expires⟩⟩
  · rw [ends]
    exact taken.then (endSettling_passes ..)
  · rw [goes]
    exact .inr taken
  · rw [expires]
    exact taken.then (capExpiry_passes ..).1

theorem dwellTick_passes (s : State) : s.Passes .dwell (dwellTick s) := by
  have restart : s.SameDividers .dwell s.dwellRestarted := ⟨rfl, rfl, fun _ => ⟨rfl, id⟩, fun h => absurd rfl h⟩
  cases runs : s.ticks.dwell.running with
  | false =>
    rw [dwellTick_stopped s runs]
    exact .inr (sameDividers_of_eq rfl rfl rfl)
  | true =>
    cases measuring : s.measuring with
    | false =>
      rw [dwellTick_resting s runs measuring]
      exact .inr restart
    | true =>
      cases due : s.capDue with
      | false =>
        rw [dwellTick_delivered s runs measuring due]
        exact restart.then (dwellDelivered_passes _)
      | true =>
        rw [dwellTick_due s runs measuring due]
        obtain ⟨passes, goes⟩ := capExpiry_passes .dwell s.dwellRestarted
        split
        · rename_i settling
          exact (restart.trans (goes settling)).then (dwellDelivered_passes _)
        · exact restart.then passes

theorem TellsHolds.sameDividers (d : Due) {s t : State} (tells : TellsHolds s t) : s.SameDividers d t := by
  refine sameDividers_of_eq ?_ ?_ ?_
  all_goals rw [tells.kept]

theorem shutWindow_sameDividers (cause : CloseCause) (s : State) : s.SameDividers .onset (shutWindow cause s) :=
  State.SameDividers.trans (t := beginClose cause s) ⟨rfl, rfl, fun h => absurd rfl h, fun _ => ⟨rfl, id⟩⟩
    ((shutWindow_tells cause s).sameDividers .onset)

theorem onsetTick_passes (s : State) : s.Passes .onset (onsetTick s) := by
  have restart : s.SameDividers .onset s.onsetRestarted := ⟨rfl, rfl, fun h => absurd rfl h, fun _ => ⟨rfl, id⟩⟩
  cases runs : s.ticks.onset.running with
  | false =>
    rw [onsetTick_stopped s runs]
    exact .inr (sameDividers_of_eq rfl rfl rfl)
  | true =>
    by_cases opened : s.ctl.state = .opened
    · rw [onsetTick_opened s runs opened]
      have delivered : s.SameDividers .onset (onsetDelivered s.onsetRestarted) := by
        refine restart.trans (sameDividers_of_eq ?_ ?_ ?_)
        all_goals rw [onsetDelivered_eq]
        rfl
      split
      · rcases closeAtLength_cases (onsetDelivered s.onsetRestarted) with closes | ⟨-, closes, -⟩
        · rw [closes]
          exact (delivered.trans (shutWindow_sameDividers ..)).then (considerEnd_passes ..)
        · rw [closes]
          exact .inr (delivered.trans (shutWindow_sameDividers ..))
      · exact .inr delivered
    · rw [onsetTick_elsewhere s runs opened]
      exact .inr restart

theorem expireHold_passes (ch : Channel) (s : State) : s.Passes (.hold ch) (expireHold ch s) := by
  cases held : s.hold ch with
  | none =>
    rw [expireHold_none ch s held]
    exact .inr (sameDividers_of_eq rfl rfl rfl)
  | some x =>
    rw [expireHold_some ch s x held]
    have opens := ((setHold_tells ch none s).trans (passHandshake_tells ch x.handshake _)).sameDividers (.hold ch)
    exact .inr (opens.trans (sameDividers_of_eq rfl rfl rfl))

theorem happen_passes (d : Due) (s : State) : s.Passes d (happen d s) := by
  cases d with
  | decay => exact decayTick_passes s
  | dwell => exact dwellTick_passes s
  | onset => exact onsetTick_passes s
  | hold ch => exact expireHold_passes ch s

theorem exec_due (d : Due) (s : State) : exec d.row s = .next (happen d s) := by cases d <;> rfl

/-- What waits within a period, before the events `l` that still can happen in the window `n`: it waits for the first of them, which is due. -/
structure Meets (n : Nat) (l : List Due) (s : State) : Prop where
  behind : ({ s with pending := l.map Due.row } : State).BehindInv
  window : s.crossing ≠ .reset ∨ s.decayWaits = true → s.ctl.nextFrame = n
  onset : s.ctl.nextFrame = n → .onset ∈ l → s.ticks.onset.running = true → s.params.onsetDiv ≤ s.ticks.onset.count + 1
  dwell : s.ctl.nextFrame = n → .dwell ∈ l → s.ticks.dwell.running = true → s.params.dwellDiv ≤ s.ticks.dwell.count + 1

theorem isDue_onset {s : State} (runs : s.ticks.onset.running = true) (reached : s.params.onsetDiv ≤ s.ticks.onset.count + 1) :
    isDue s .onset = true := by
  show (s.ticks.onset.running && decide _) = true
  rw [runs, decide_eq_true reached]
  rfl

theorem isDue_dwell {s : State} (runs : s.ticks.dwell.running = true) (reached : s.params.dwellDiv ≤ s.ticks.dwell.count + 1) :
    isDue s .dwell = true := by
  show (s.ticks.dwell.running && decide _) = true
  rw [runs, decide_eq_true reached]
  rfl

/-- No row of an event of the period clears causes. -/
theorem due_not_clears (d : Due) (rest : List Instr) (s : State) : ¬ ({ s with pending := d.row :: rest } : State).ClearBehind := by
  rintro (⟨set, front⟩ | front)
  · cases d <;> cases front
  · cases d <;> cases front

/-- What waits, waits for an event that happens. -/
theorem Meets.alone {n : Nat} {d : Due} {l : List Due} {s : State} (meets : Meets n (d :: l) s)
    (missed : ¬ (s.ctl.nextFrame = n ∧ isDue s d = true)) : s.Alone where
  arriving := not_not.1 fun some => due_not_clears d _ s (meets.behind.arriving some)
  crossing := by
    refine not_not.1 fun some => missed ?_
    have frame := meets.window (.inl some)
    obtain ⟨-, runs, which⟩ := meets.behind.crossing some
    have first : d = .onset := by
      rcases which with front | ⟨front, -⟩
      · cases d with
        | onset => rfl
        | _ => cases front
      · cases d <;> cases front
    subst first
    exact ⟨frame, isDue_onset runs (meets.onset frame List.mem_cons_self runs)⟩
  waits := by
    refine Bool.eq_false_iff.2 fun some => missed ?_
    have frame := meets.window (.inr some)
    rcases meets.behind.waits some with ⟨-, c, front, runs, -, which⟩ | ⟨-, -, -, -, front⟩
    · have first : d = .dwell := by
        obtain rfl := Option.some.inj front
        cases d with
        | dwell => rfl
        | _ => cases which
      subst first
      exact ⟨frame, isDue_dwell runs (meets.dwell frame List.mem_cons_self runs)⟩
    · cases d <;> cases front

/-- An event of a period takes what waits for it, and leaves what waits for the next. -/
theorem happenIn_meets {n : Nat} {d : Due} {l : List Due} {s : State} (once : d ∉ l) (meets : Meets n (d :: l) s) :
    Meets n l (happenIn n { s with pending := l.map Due.row } d) := by
  by_cases happens : s.ctl.nextFrame = n ∧ isDue s d = true
  · have taken : happenIn n { s with pending := l.map Due.row } d = happen d { s with pending := l.map Due.row } := by
      refine if_pos ?_
      rw [Bool.and_eq_true, decide_eq_true_eq]
      cases d <;> exact happens
    rw [taken]
    have row := exec_due d { s with pending := l.map Due.row }
    obtain ⟨behind, pending, waits⟩ := exec_behind (s := { s with pending := l.map Due.row })
      (by cases d <;> exact Instr.noConfusion) meets.behind row
    have passes := happen_passes d { s with pending := l.map Due.row }
    generalize happen d { s with pending := l.map Due.row } = u at behind pending waits passes
    refine ⟨?_, ?_, fun frame mem runs => ?_, fun frame mem runs => ?_⟩
    · have turned : u.pending = l.map Due.row := pending
      have same : ({ u with pending := l.map Due.row } : State) = u := by rw [← turned]
      rw [same]
      exact behind
    · rintro (some | some)
      · rcases passes with ⟨-, reset⟩ | same
        · exact absurd reset some
        · exact same.frame.trans happens.1
      · exact (waits some).trans happens.1
    · rcases passes with ⟨opened, -⟩ | same
      · exact absurd (frame.trans happens.1.symm) opened
      · obtain ⟨count, ran⟩ := same.onset fun eq => once (eq ▸ mem)
        rw [same.params, count]
        exact meets.onset happens.1 (List.mem_cons_of_mem _ mem) (ran runs)
    · rcases passes with ⟨opened, -⟩ | same
      · exact absurd (frame.trans happens.1.symm) opened
      · obtain ⟨count, ran⟩ := same.dwell fun eq => once (eq ▸ mem)
        rw [same.params, count]
        exact meets.dwell happens.1 (List.mem_cons_of_mem _ mem) (ran runs)
  · have missed : happenIn n { s with pending := l.map Due.row } d = { s with pending := l.map Due.row } := by
      refine if_neg fun taken => happens ?_
      rw [Bool.and_eq_true, decide_eq_true_eq] at taken
      cases d <;> exact taken
    obtain ⟨arriving, crossing, waits⟩ := meets.alone happens
    rw [missed]
    refine ⟨behindInv_of_waits (fun some => absurd arriving some) (fun some => absurd crossing some) waits, ?_,
      fun frame mem => meets.onset frame (List.mem_cons_of_mem _ mem), fun frame mem => meets.dwell frame (List.mem_cons_of_mem _ mem)⟩
    rintro (some | some)
    · exact absurd crossing some
    · cases waits.symm.trans some

theorem happenAll_meets {n : Nat} {l : List Due} {s : State} (nodup : l.Nodup) (meets : Meets n l s) : Meets n [] (happenAll n l s) := by
  induction l generalizing s with
  | nil => exact meets
  | cons d l ih =>
    obtain ⟨once, rest⟩ := List.nodup_cons.1 nodup
    exact ih rest (happenIn_meets once meets)

/-- With no row behind, nothing waits. -/
theorem BehindInv.alone {s : State} (hs : s.BehindInv) (empty : s.pending = []) : s.Alone where
  arriving := by
    refine not_not.1 fun some => ?_
    rcases hs.arriving some with ⟨set, front⟩ | front
    · rw [empty] at front
      cases front
    · rw [empty] at front
      cases front
  crossing := by
    refine not_not.1 fun some => ?_
    obtain ⟨-, -, front | ⟨front, -⟩⟩ := hs.crossing some
    · rw [empty] at front
      cases front
    · rw [empty] at front
      cases front
  waits := by
    refine Bool.eq_false_iff.2 fun some => ?_
    rcases hs.waits some with ⟨-, c, front, -⟩ | ⟨-, -, -, -, front⟩
    · rw [empty] at front
      cases front
    · rw [empty] at front
      cases front

theorem State.Alone.calm {s t : State} (alone : s.Alone) (calm : s.Calm t) (clear : ¬ s.ClearBehind) : t.Alone where
  arriving := (calm.arriving clear).elim (·.trans alone.arriving) id
  crossing := calm.crossing.elim (·.trans alone.crossing) id
  waits := calm.waits.elim (·.trans alone.waits) id

theorem State.Alone.pending {s : State} (alone : s.Alone) (q : List Instr) : ({ s with pending := q } : State).Alone :=
  ⟨alone.arriving, alone.crossing, alone.waits⟩

theorem capExpiry_alone {s : State} (alone : s.Alone) : (capExpiry { s with pending := [] }).Alone := by
  refine (alone.pending []).calm (capExpiry_calm _) ?_
  rintro (⟨set, front⟩ | front)
  · cases front
  · cases front

theorem mem_dueNext (s : State) (d : Due) : d ∈ dueNext s ↔ isDue s d = true := by
  have all : d ∈ [Due.decay, .dwell, .onset, .hold .read, .hold .write] := by
    rcases d with _ | _ | _ | ⟨_ | _⟩ <;> decide
  rw [dueNext, List.mem_filter]
  exact ⟨And.right, fun due => ⟨all, due⟩⟩

theorem dueNext_nodup (s : State) : (dueNext s).Nodup := List.Nodup.filter _ (by decide)

/-- A divider that reaches its period stays one below it until its tick (R30). -/
theorem count1_of_due {d : Divider} {period : Nat} (due : d.dueNext period = true) : d.count1 period = d := by
  rw [Divider.dueNext, Bool.and_eq_true, decide_eq_true_eq] at due
  refine if_neg fun counts => ?_
  rw [Bool.and_eq_true, decide_eq_true_eq] at counts
  omega

/-- Nothing waits after a TBCLK period that begins with nothing waiting. -/
theorem tbclkPeriod_alone {s : State} (alone : s.Alone) : (tbclkPeriod s).Alone := by
  unfold tbclkPeriod
  split
  · exact ⟨alone.arriving, alone.crossing, alone.waits⟩
  · rename_i d l due
    have perm := anyOrder_perm (2 * s.free) (d :: l)
    have nodup : (anyOrder (2 * s.free) (d :: l)).Nodup := by
      rw [perm.nodup_iff, ← due]
      exact dueNext_nodup s
    have reached (e : Due) (he : e ∈ anyOrder (2 * s.free) (d :: l)) : isDue s e = true := by
      rw [perm.mem_iff, ← due] at he
      exact (mem_dueNext s e).1 he
    have meets : Meets s.ctl.nextFrame (anyOrder (2 * s.free) (d :: l)) { countPeriod s with free := s.free + 1 } := by
      refine ⟨behindInv_of_waits (fun some => absurd alone.arriving some) (fun some => absurd alone.crossing some) alone.waits, ?_,
        fun _ mem _ => ?_, fun _ mem _ => ?_⟩
      · rintro (some | some)
        · exact absurd alone.crossing some
        · cases alone.waits.symm.trans some
      · have due : s.ticks.onset.dueNext s.params.onsetDiv = true := reached .onset mem
        show s.params.onsetDiv ≤ (s.ticks.onset.count1 s.params.onsetDiv).count + 1
        rw [count1_of_due due]
        rw [Divider.dueNext, Bool.and_eq_true, decide_eq_true_eq] at due
        exact due.2
      · have due : s.ticks.dwell.dueNext s.params.dwellDiv = true := reached .dwell mem
        show s.params.dwellDiv ≤ (s.ticks.dwell.count1 s.params.dwellDiv).count + 1
        rw [count1_of_due due]
        rw [Divider.dueNext, Bool.and_eq_true, decide_eq_true_eq] at due
        exact due.2
    have after := (happenAll_meets nodup meets).behind
    have rested := BehindInv.alone after rfl
    exact (capExpiry_alone ⟨rested.arriving, rested.crossing, rested.waits⟩).pending _

theorem idlePeriod_alone {s : State} (alone : s.Alone) (empty : s.pending = []) : (idlePeriod s).Alone := by
  unfold idlePeriod
  split
  · refine alone.calm (capExpiry_calm s) ?_
    rintro (⟨set, front⟩ | front)
    · rw [empty] at front
      cases front
    · rw [empty] at front
      cases front
  · exact tbclkPeriod_alone alone

theorem periodOfDelivery_alone {s : State} (alone : s.Alone) : (periodOfDelivery s).Alone := by
  unfold periodOfDelivery
  split
  · exact (tbclkPeriod_alone (capExpiry_alone alone)).pending _
  · exact alone

/-! ### Every step -/

theorem State.Alone.behindInv {s : State} (alone : s.Alone) : s.BehindInv :=
  behindInv_of_waits (fun some => absurd alone.arriving some) (fun some => absurd alone.crossing some) alone.waits

/-- The delivery of a byte leaves nothing waiting. -/
theorem deliverByte_behind {s : State} (alone : s.Alone) : (deliverByte s).BehindInv := by
  have passed := periodOfDelivery_alone alone
  unfold deliverByte
  simp only
  cases sending : (periodOfDelivery s).readout.frame with
  | none => exact passed.behindInv
  | some f => exact moves_behind (w := .quiet) Way.noConfusion (deliver_moves _ f sending) passed

theorem step_behind {s t : State} (hs : s.BehindInv) (h : step s = .next t) : t.BehindInv := by
  cases rows : s.pending with
  | nil =>
    rw [step_of_empty s rows] at h
    obtain rfl := Host.Outcome.next.inj h
    exact (idlePeriod_alone (BehindInv.alone hs rows) rows).behindInv
  | cons c rest =>
    rw [step_of_pending s c rest rows] at h
    have front : ({ ({ s with pending := rest } : State) with pending := c :: rest } : State) = s := by rw [← rows]
    by_cases deliver : c = .frameByteDelivery
    · subst deliver
      obtain rfl := Host.Outcome.next.inj ((exec_frameByteDelivery _).symm.trans h)
      refine deliverByte_behind ⟨not_not.1 fun some => ?_, not_not.1 fun some => ?_, Bool.eq_false_iff.2 fun some => ?_⟩
      · rcases hs.arriving some with ⟨set, first⟩ | first
        · rw [rows] at first
          cases first
        · rw [rows] at first
          cases first
      · obtain ⟨-, -, first | ⟨first, -⟩⟩ := hs.crossing some
        · rw [rows] at first
          cases first
        · rw [rows] at first
          cases first
      · rcases hs.waits some with ⟨-, c, first, -, -, which⟩ | ⟨-, -, -, -, first⟩
        · rw [rows] at first
          obtain rfl := Option.some.inj first
          exact which
        · rw [rows] at first
          cases first
    · exact (exec_behind deliver (s := { s with pending := rest }) (by rw [front]; exact hs) h).1

/-- Settles O56: the moves keep rest, dividers and counts; what waits, waits for the row directly behind. -/
theorem restIsKeptByEveryStep : Obligations.RestIsKeptByEveryStep := by
  intro s t legal hs h
  have core : t.RestCore := (step_moves h).keeps (fun _ _ => Move.core) (hs.core legal)
  have behind : t.BehindInv := step_behind ⟨hs.arriving, hs.crossing, hs.waits⟩ h
  exact ⟨core.rest, core.running, core.onset, core.periods, core.timer, core.settle, core.pulse, core.capEmpties, core.capLate,
    fun busy => core.cfg ((cfgInFlight_iff t).1 busy), core.holds, core.holdTimers, behind.arriving, behind.crossing, behind.waits⟩

end Sys2Proof.Machine
end

section
/-! PROOF. The state right after reset meets every invariant (O4). -/

namespace Sys2Proof.Machine

/-- A COLD array has no HOT cell. -/
theorem hotCells_of_cold {s : State} (cold : ∀ c ∈ s.cells, c.activity = .cold) : s.hotCells = 0 := by
  refine List.length_eq_zero_iff.2 (List.eq_nil_iff_forall_not_mem.2 fun k hk => ?_)
  obtain ⟨j, c, hc, -, hot⟩ := (mem_indicesWhere ..).1 hk
  rw [cold c (List.mem_of_getElem? hc)] at hot
  exact Bool.false_ne_true hot

theorem reset_restInv : State.reset.RestInv := by
  have core := reset_rested.core rfl
  exact ⟨core.rest, core.running, core.onset, core.periods, core.timer, core.settle, core.pulse, core.capEmpties, core.capLate,
    fun busy => core.cfg ((cfgInFlight_iff _).1 busy), core.holds, core.holdTimers, fun some => absurd rfl some,
    fun some => absurd rfl some, fun some => Bool.noConfusion some⟩

theorem Cell.ZeroIn.of_whole {c : Cell} (zero : c.ZeroIn .whole) (z : Frozen) : c.ZeroIn z := by
  obtain ⟨h0, h1, h2, h3⟩ := zero
  rcases z with _ | _ | _
  · exact ⟨h0, h1, h2, h3⟩
  · exact ⟨h0, h2⟩
  · exact ⟨h1, h3⟩

/-- With every counter 0 the storage is clear wherever it has to be. -/
theorem storageInv_of_zero {s : State} (zero : ∀ c ∈ s.cells, c.ZeroIn .whole) : s.StorageInv where
  sending _ _ _ _ _ c hc _ := (zero c (List.mem_of_getElem? hc)).of_whole _
  spare _ _ c hc := (zero c hc).of_whole _
  idleSequential _ _ := zero
  idleContinuous _ _ c hc := (zero c hc).of_whole _

theorem reset_storageInv : State.reset.StorageInv :=
  storageInv_of_zero fun c hc => by rw [List.eq_of_mem_replicate hc]; exact ⟨rfl, rfl, rfl, rfl⟩

/-- Settles O4, one invariant at a time. -/
theorem resetMeetsTheInvariants : Obligations.ResetMeetsTheInvariants :=
  ⟨reset_sized, rfl, roles_of_empty rfl rfl, reset_restInv,
    (hotCells_of_cold fun c hc => (reset_rested.resting.cells c hc).2).symm, Params.reset_legal, reset_storageInv, rfl,
    onsetListInv_of_empty rfl rfl⟩

end Sys2Proof.Machine
end

section
/-! PROOF. One TBCLK period, and what every command keeps of the queue (O3, O2). -/

namespace Sys2Proof.Machine

/-! ### What a period counts and brings (R29, R30, R67) -/

theorem Divider.count1_eq (d : Divider) (period : Nat) :
    d.count1 period = { d with count := if d.running = true ∧ d.count + 1 < period then d.count + 1 else d.count } := by
  unfold Divider.count1
  by_cases counts : d.running = true ∧ d.count + 1 < period
  · rw [if_pos counts, if_pos (by rw [Bool.and_eq_true, decide_eq_true_eq]; exact counts)]
  · rw [if_neg counts, if_neg (by rw [Bool.and_eq_true, decide_eq_true_eq]; exact counts)]

theorem Hold.count1_eq (h : Hold) :
    h.count1 = { h with timer := if h.timer + 1 < h.limit then h.timer + 1 else h.timer } := by
  unfold Hold.count1
  by_cases counts : h.timer + 1 < h.limit
  · rw [if_pos counts, if_pos counts]
  · rw [if_neg counts, if_neg counts]

theorem Divider.dueNext_iff (d : Divider) (period : Nat) :
    d.dueNext period = true ↔ d.running = true ∧ period ≤ d.count + 1 := by
  rw [Divider.dueNext, Bool.and_eq_true, decide_eq_true_eq]

theorem isDue_hold_iff (s : State) (ch : Channel) :
    isDue s (.hold ch) = true ↔ ∃ h, s.hold ch = some h ∧ h.limit ≤ h.timer + 1 := by
  show (s.hold ch).any (fun h => decide (h.limit ≤ h.timer + 1)) = true ↔ _
  rw [Option.any_eq_true]
  simp only [decide_eq_true_eq]

/-- What falls due with a period is due after the counts (R30, R67). -/
theorem isDue_countPeriod {s : State} {e : Due} (due : isDue s e = true) : isDue (countPeriod s) e = true := by
  have stays {d : Divider} {period : Nat} (reached : d.dueNext period = true) : (d.count1 period).dueNext period = true := by
    rw [count1_of_due reached]
    exact reached
  cases e with
  | decay => exact stays due
  | dwell => exact stays due
  | onset => exact stays due
  | hold ch =>
    obtain ⟨h, held, limit⟩ := (isDue_hold_iff s ch).1 due
    have stopped : h.count1 = h := if_neg (by omega)
    refine (isDue_hold_iff _ ch).2 ⟨h, ?_, limit⟩
    cases ch
    · exact (congrArg (Option.map Hold.count1) held).trans (congrArg some stopped)
    · exact (congrArg (Option.map Hold.count1) held).trans (congrArg some stopped)

/-! ### The events of a period (R30, R33, R67) -/

theorem happenAll_cons (n : Nat) (e : Due) (l : List Due) (s : State) :
    happenAll n (e :: l) s = happenAll n l (happenIn n { s with pending := l.map Due.row } e) := rfl

theorem happenIn_due {n : Nat} {e : Due} {s : State} (frame : s.ctl.nextFrame = n) (due : isDue s e = true) :
    happenIn n s e = happen e s := if_pos (by rw [Bool.and_eq_true, decide_eq_true_eq]; exact ⟨frame, due⟩)

theorem happenIn_over {n : Nat} {e : Due} {s : State} (gone : s.ctl.nextFrame ≠ n ∨ ¬ isDue s e = true) : happenIn n s e = s := by
  refine if_neg fun both => ?_
  rw [Bool.and_eq_true, decide_eq_true_eq] at both
  exact gone.elim (fun frame => frame both.1) (fun due => due both.2)

/-- Behind the last event of a period no row waits. -/
theorem happenAll_pending (n : Nat) (l : List Due) (s : State) (some : l ≠ []) : (happenAll n l s).pending = [] := by
  induction l generalizing s with
  | nil => exact absurd rfl some
  | cons e l ih =>
    rw [happenAll_cons]
    cases l with
    | nil => exact (happenIn_keeps n { s with pending := [] } e).pending
    | cons f l => exact ih _ (List.cons_ne_nil f l)

/-- The events of a period in the order that they take, before the expiry of the settle cap that they can make due. -/
theorem tbclkPeriod_happens {s : State} (brought : dueNext s ≠ []) (empty : s.pending = []) :
    tbclkPeriod s = capExpiry (happenAll s.ctl.nextFrame (anyOrder (2 * s.free) (dueNext s)) { countPeriod s with free := s.free + 1 }) := by
  have orderly : anyOrder (2 * s.free) (dueNext s) ≠ [] := fun none => by
    have perm := anyOrder_perm (2 * s.free) (dueNext s)
    rw [none] at perm
    exact brought perm.symm.eq_nil
  have done := happenAll_pending s.ctl.nextFrame _ { countPeriod s with free := s.free + 1 } orderly
  unfold tbclkPeriod
  cases due : dueNext s with
  | nil => exact absurd due brought
  | cons d l =>
    rw [due] at done
    have same (u : State) (hu : u.pending = []) : { capExpiry { u with pending := [] } with pending := s.pending } = capExpiry u := by
      have kept : (capExpiry u).pending = [] := (capExpiry_keeps u).pending.trans hu
      have unqueued : ({ u with pending := [] } : State) = u := by rw [← hu]
      have queued : s.pending = (capExpiry u).pending := empty.trans kept.symm
      rw [unqueued, queued]
    exact same _ done

/-- The last event of a period is the expiry of the settle cap, where it waits. -/
theorem capExpiry_last (u : State) :
    (u.CapWaits → exec .settleCapExpiry u = .next (capExpiry u)) ∧ (¬ u.CapWaits → capExpiry u = u) :=
  ⟨exec_settleCapExpiry_waits u, capExpiry_of_not_waits u⟩

/-- Settles O3: the counts, then the events that fall due, each by its own row. -/
theorem onePeriodPassesOnAnEmptyQueue : Obligations.OnePeriodPassesOnAnEmptyQueue := by
  intro s count countHold counted brings last
  have counts : countPeriod s = counted := by
    have holds : Hold.count1 = countHold := funext Hold.count1_eq
    simp only [countPeriod, restPort, Divider.count1_eq, holds]
    rfl
  have brings_iff (u : State) (e : Due) : isDue u e = true ↔ brings u e := by
    cases e with
    | decay => exact Divider.dueNext_iff ..
    | dwell => exact Divider.dueNext_iff ..
    | onset => exact Divider.dueNext_iff ..
    | hold ch => exact isDue_hold_iff u ch
  have mem_iff (e : Due) : e ∈ dueNext s ↔ brings s e := (mem_dueNext s e).trans (brings_iff s e)
  refine ⟨fun empty waits => ?_, fun empty waits => ?_, fun none => ?_, fun empty e he only => ?_, fun empty e he => ?_,
    fun n u => ⟨rfl, fun e l => ?_⟩⟩
  · rw [step_of_empty s empty, idlePeriod, if_pos ((capDue_iff s).2 waits), exec_settleCapExpiry_waits s waits]
  · rw [step_of_empty s empty, idlePeriod, if_neg (fun due => waits ((capDue_iff s).1 due))]
  · have quiet : dueNext s = [] := List.eq_nil_iff_forall_not_mem.2 fun e he => none e ((mem_iff e).1 he)
    rw [tbclkPeriod, quiet, counts]
  · have one : dueNext s = [e] := by
      refine (List.perm_singleton.1 ((List.perm_ext_iff_of_nodup (dueNext_nodup s) (List.nodup_singleton e)).2 fun x => ?_))
      rw [mem_iff, List.mem_singleton]
      exact ⟨only x, fun same => same ▸ he⟩
    refine ⟨happen e { counted with free := s.free + 1 }, exec_due e _, ?_⟩
    have happened := tbclkPeriod_happens (s := s) (by rw [one]; exact List.cons_ne_nil _ _) empty
    have unchanged : ({ counted with free := s.free + 1, pending := [] } : State) = { counted with free := s.free + 1 } := by
      rw [← empty]
    have due : isDue { counted with free := s.free + 1 } e = true := by
      rw [← counts]
      exact isDue_countPeriod ((brings_iff s e).2 he)
    rw [one, anyOrder_singleton, counts, happenAll_cons, List.map_nil, unchanged, happenIn_due rfl due] at happened
    rw [happened]
    exact capExpiry_last _
  · have brought : dueNext s ≠ [] := List.ne_nil_of_mem ((mem_iff e).2 he)
    have perm := anyOrder_perm (2 * s.free) (dueNext s)
    refine ⟨anyOrder (2 * s.free) (dueNext s), _, fun x => perm.mem_iff.trans (mem_iff x), perm.nodup_iff.2 (dueNext_nodup s), rfl, ?_⟩
    rw [tbclkPeriod_happens brought empty, counts]
    exact capExpiry_last _
  · refine ⟨happenIn n { u with pending := l.map Due.row } e, happenAll_cons n e l u, fun frame due => ?_, fun gone => ?_⟩
    · rw [exec_due, happenIn_due (s := { u with pending := l.map Due.row }) frame ((brings_iff _ e).2 due)]
    · exact happenIn_over (s := { u with pending := l.map Due.row })
        (gone.imp id fun not due => not ((brings_iff { u with pending := l.map Due.row } e).1 due))

/-! ### Every command completes (logs 6, 16) -/

theorem exists_next_of_ite {p : Prop} [Decidable p] {f g : Result} (yes : ∃ t, f = .next t) (no : ∃ t, g = .next t) :
    ∃ t, (if p then f else g) = .next t := by
  by_cases h : p
  · rw [if_pos h]
    exact yes
  · rw [if_neg h]
    exact no

theorem execRecordTake_next (s : State) : ∃ t, execRecordTake s = .next t := by
  unfold execRecordTake
  split
  · exact ⟨_, rfl⟩
  · exact exists_next_of_ite ⟨_, rfl⟩ ⟨_, rfl⟩

theorem execRecordApplied_next (s : State) : ∃ t, execRecordApplied s = .next t := by
  unfold execRecordApplied
  split
  · exact ⟨_, rfl⟩
  · exact exists_next_of_ite ⟨_, rfl⟩ ⟨_, rfl⟩

theorem execLoadStep_next (s : State) : ∃ t, execLoadStep s = .next t := by
  unfold execLoadStep
  split
  · split <;> exact ⟨_, rfl⟩
  · exact ⟨_, rfl⟩

theorem execReadStep_next (s : State) : ∃ t, execReadStep s = .next t := by
  unfold execReadStep
  split <;> exact ⟨_, rfl⟩

/-- No row faults and none is refused. -/
theorem exec_next (c : Instr) (s : State) : ∃ t, exec c s = .next t := by
  cases c with
  | unknownCommand | badCheckRequest | transactionStart | rstNDeasserted | winNRisingEdge | auxAsserted | auxDeasserted =>
    exact exists_next_of_ite ⟨_, rfl⟩ ⟨_, rfl⟩
  | winNFallingEdge => exact exists_next_of_ite (exists_next_of_ite ⟨_, rfl⟩ ⟨_, rfl⟩) ⟨_, rfl⟩
  | recordTake => exact execRecordTake_next s
  | recordApplied => exact execRecordApplied_next s
  | loadStep => exact execLoadStep_next s
  | readStep => exact execReadStep_next s
  | _ => exact ⟨_, rfl⟩

/-- The row of a delivery keeps the rows that wait, the period before it too (log 3). -/
theorem deliverByte_pending (s : State) : (deliverByte s).pending = s.pending := by
  have period : (periodOfDelivery s).pending = s.pending := by
    unfold periodOfDelivery
    split <;> rfl
  simp only [deliverByte]
  cases sending : (periodOfDelivery s).readout.frame with
  | none => exact period
  | some f => exact (row_pending (w := .quiet) Way.noConfusion (deliver_moves _ f sending)).trans period

theorem exec_pending {c : Instr} {s t : State} (row : exec c s = .next t) : t.pending = s.pending := by
  by_cases decay : c = .decayTick
  · subst decay
    obtain rfl := Host.Outcome.next.inj row
    exact (decayTick_keeps s).pending
  · by_cases deliver : c = .frameByteDelivery
    · subst deliver
      obtain rfl := Host.Outcome.next.inj row
      exact deliverByte_pending s
    · rcases Way.admits_cases decay deliver with quiet | event
      · exact row_pending Way.noConfusion (exec_moves quiet row)
      · exact row_pending Way.noConfusion (exec_moves event row)

/-- Settles O2: each row gives a next state, and no move within a row takes from the queue. -/
theorem everyCommandCompletesAndKeepsTheQueue : Obligations.EveryCommandCompletesAndKeepsTheQueue := fun c s =>
  (exec_next c s).imp fun _ row => ⟨row, exec_pending row⟩

end Sys2Proof.Machine
end

section
/-!
PROOF. The occupancy at an event of the whole array: the notices of one cell tell its changes in order, so whatever the order of the cells
the count never falls below 0, and it ends at the number of HOT cells that take part (R20).
-/

namespace Sys2Proof.Machine

/-! ### Counts of notices -/

/-- The occupancy that notices need to be counted without loss: 1 where the first of them says that its cell is HOT no longer. -/
def owedBy (l : List Notice) : Nat := if l.head? = some .becameCold then 1 else 0

/-- Notices that count in full from a number on, whichever it is from `owedBy` on. -/
def CountsInFull (l : List Notice) : Prop :=
  ∀ n, owedBy l ≤ n → countAfter n l + l.count .becameCold = n + l.count .becameHot

/-- The occupancy of one cell that takes part. -/
def Activity.hotCount (a : Activity) : Nat := if a = .hot then 1 else 0

/-- The changes of one cell: what the notices owe the cell has, and they tell its change in full. -/
theorem NoticesTell.counts {a b : Activity} {l : List Notice} (tell : NoticesTell a l b) :
    (owedBy l ≤ a.hotCount) ∧ a.hotCount + l.count .becameHot = b.hotCount + l.count .becameCold ∧ CountsInFull l := by
  induction l generalizing a with
  | nil =>
    obtain rfl : b = a := tell
    exact ⟨Nat.zero_le _, rfl, fun _ _ => rfl⟩
  | cons x l ih =>
    match a, x, tell with
    | .cold, .becameHot, tell =>
      obtain ⟨owes, change, full⟩ := ih tell
      have one : Activity.hot.hotCount = 1 := rfl
      have zero : Activity.cold.hotCount = 0 := rfl
      refine ⟨Nat.zero_le _, ?_, fun n _ => ?_⟩
      · simp only [List.count_cons_self, List.count_cons_of_ne (show Notice.becameHot ≠ .becameCold from Notice.noConfusion)]
        omega
      · have rest := full (n + 1) (by omega)
        simp only [List.count_cons_self, List.count_cons_of_ne (show Notice.becameHot ≠ .becameCold from Notice.noConfusion)]
        show countAfter (n + 1) l + _ = _
        omega
    | .hot, .becameCold, tell =>
      obtain ⟨owes, change, full⟩ := ih tell
      have one : Activity.hot.hotCount = 1 := rfl
      have zero : Activity.cold.hotCount = 0 := rfl
      have first : owedBy (.becameCold :: l) = 1 := rfl
      refine ⟨by omega, ?_, fun n enough => ?_⟩
      · simp only [List.count_cons_self, List.count_cons_of_ne (show Notice.becameCold ≠ .becameHot from Notice.noConfusion)]
        omega
      · have rest := full (n - 1) (by omega)
        simp only [List.count_cons_self, List.count_cons_of_ne (show Notice.becameCold ≠ .becameHot from Notice.noConfusion)]
        show countAfter (n - 1) l + _ = _
        omega

theorem countAfter_append (n : Nat) (l k : List Notice) : countAfter n (l ++ k) = countAfter (countAfter n l) k := List.foldl_append ..

/-- The notices of cells one after the other count in full where the count covers what each of them owes. -/
theorem countAfter_noticesOf {os : List CellOut} {n : Nat} (full : ∀ o ∈ os, CountsInFull o.notices)
    (enough : (os.map fun o => owedBy o.notices).sum ≤ n) :
    countAfter n (noticesOf os) + (noticesOf os).count .becameCold = n + (noticesOf os).count .becameHot := by
  induction os generalizing n with
  | nil => rfl
  | cons o os ih =>
    have first := full o (List.mem_cons_self ..)
    rw [List.map_cons, List.sum_cons] at enough
    have here := first n (by omega)
    have least := first (owedBy o.notices) le_rfl
    have rest := ih (n := countAfter n o.notices) (fun x hx => full x (List.mem_cons_of_mem _ hx)) (by omega)
    show countAfter n (o.notices ++ noticesOf os) + (o.notices ++ noticesOf os).count .becameCold = _
    rw [countAfter_append]
    show _ = n + (o.notices ++ noticesOf os).count .becameHot
    rw [List.count_append, List.count_append]
    omega

/-- The notices reach the counter cell by cell. -/
theorem noticeOrder_byCell (draw : Nat) (os : List CellOut) : ∃ l, noticeOrder draw os = noticesOf l ∧ l.Subperm os := by
  unfold noticeOrder
  simp only
  split
  · exact ⟨os, rfl, List.Subperm.refl os⟩
  · exact ⟨_, rfl, (anyOrder_perm draw _).subperm.trans (List.filter_sublist).subperm⟩

theorem sum_map_le_of_subperm {α : Type} {l k : List α} (h : l.Subperm k) (g : α → Nat) : (l.map g).sum ≤ (k.map g).sum := by
  obtain ⟨m, perm, sub⟩ := h
  rw [← (perm.map g).sum_eq]
  exact (sub.map g).sum_le_sum fun _ _ => Nat.zero_le _

/-! ### Counts of cells -/

/-- What a cell counts in the occupancy (R20). -/
def Cell.hotCount (p : Params) (i : Nat) (c : Cell) : Nat := if c.eligible p i = true then c.activity.hotCount else 0

/-- The HOT cells of a list whose first cell has index `i`. -/
def hotCount (p : Params) : Nat → List Cell → Nat
  | _, [] => 0
  | i, c :: cs => c.hotCount p i + hotCount p (i + 1) cs

theorem length_hotIndices (p : Params) (i : Nat) (l : List Cell) :
    (indicesWhere (fun i c => decide (c.activity = .hot) && c.eligible p i) i l).length = hotCount p i l := by
  induction l generalizing i with
  | nil => rfl
  | cons c l ih =>
    rw [hotCount, ← ih, indicesWhere, Cell.hotCount, Activity.hotCount]
    cases c.eligible p i with
    | false => simp
    | true =>
      by_cases hot : c.activity = .hot
      · simp [hot, Nat.add_comm]
      · simp [hot]

theorem hotCells_eq (s : State) : s.hotCells = hotCount s.params 0 s.cells := length_hotIndices ..

/-- One cell at an event. -/
theorem CellOut.Told.counts {p : Params} {i : Nat} {c : Cell} {o : CellOut} (told : o.Told p i c) (mask : o.cell.mask = c.mask) :
    owedBy o.notices ≤ c.hotCount p i
      ∧ c.hotCount p i + o.notices.count .becameHot = o.cell.hotCount p i + o.notices.count .becameCold ∧ CountsInFull o.notices := by
  obtain ⟨tells, silent⟩ := told
  unfold Cell.hotCount
  rw [eligible_congr mask]
  cases part : c.eligible p i with
  | true =>
    rw [if_pos rfl, if_pos rfl]
    exact (tells part).counts
  | false =>
    rw [silent part]
    exact ⟨Nat.zero_le _, rfl, fun _ _ => rfl⟩

/-- The cells of an event, one after the other. -/
theorem hotCount_eachCell {p : Params} {f : Nat → Cell → CellOut} (told : ∀ i c, (f i c).Told p i c)
    (mask : ∀ i c, (f i c).cell.mask = c.mask) (i : Nat) (l : List Cell) :
    ((eachCell f i l).map fun o => owedBy o.notices).sum ≤ hotCount p i l
      ∧ hotCount p i l + (noticesOf (eachCell f i l)).count .becameHot
        = hotCount p i ((eachCell f i l).map CellOut.cell) + (noticesOf (eachCell f i l)).count .becameCold
      ∧ ∀ o ∈ eachCell f i l, CountsInFull o.notices := by
  induction l generalizing i with
  | nil => exact ⟨le_rfl, rfl, fun _ none => absurd none List.not_mem_nil⟩
  | cons c l ih =>
    obtain ⟨owes, change, full⟩ := (told i c).counts (mask i c)
    obtain ⟨owes', change', full'⟩ := ih (i + 1)
    refine ⟨?_, ?_, fun o ho => ?_⟩
    · exact Nat.add_le_add owes owes'
    · show c.hotCount p i + hotCount p (i + 1) l + ((f i c).notices ++ noticesOf (eachCell f (i + 1) l)).count .becameHot
        = (f i c).cell.hotCount p i + hotCount p (i + 1) ((eachCell f (i + 1) l).map CellOut.cell)
          + ((f i c).notices ++ noticesOf (eachCell f (i + 1) l)).count .becameCold
      rw [List.count_append, List.count_append]
      omega
    · rcases List.mem_cons.1 ho with rfl | later
      · exact full
      · exact full' o later

/-! ### The event -/

/-- While OPEN or SETTLING every notice counts (R20). -/
theorem foldl_takeNotice_current (l : List Notice) {s : State} (measuring : s.measuring = true) :
    (l.foldl takeNotice s).occ.current = countAfter s.occ.current l := by
  induction l generalizing s with
  | nil => rfl
  | cons n l ih =>
    have one : (takeNotice s n).occ.current = countAfter s.occ.current [n] ∧ (takeNotice s n).measuring = true := by
      have kept := (takeNotice_outcome s n).kept
      refine ⟨?_, ?_⟩
      · unfold takeNotice
        rw [if_pos measuring]
        cases n with
        | becameHot =>
          simp only
          split <;> rfl
        | becameCold => rfl
      · rw [kept]
        exact measuring
    rw [List.foldl_cons, ih one.2, one.1]
    rfl

theorem arrayEvent_current (f : Nat → Cell → CellOut) {s : State} (measuring : s.measuring = true) :
    (arrayEvent f s).occ.current = countAfter s.occ.current (noticeOrder (2 * s.free) (eachCell f 0 s.cells)) := by
  have reported := foldl_takeReport (anyOrder (2 * s.free + 1) (reportsOf 0 (eachCell f 0 s.cells)))
    { s with cells := (eachCell f 0 s.cells).map CellOut.cell, free := s.free + 1 }
  unfold arrayEvent
  simp only
  rw [reported]
  exact foldl_takeNotice_current _ measuring

theorem arrayEvent_cells (f : Nat → Cell → CellOut) (s : State) : (arrayEvent f s).cells = (eachCell f 0 s.cells).map CellOut.cell := by
  have reported := foldl_takeReport (anyOrder (2 * s.free + 1) (reportsOf 0 (eachCell f 0 s.cells)))
    { s with cells := (eachCell f 0 s.cells).map CellOut.cell, free := s.free + 1 }
  unfold arrayEvent
  simp only
  rw [(foldl_takeNotice _ _).kept, reported]

theorem arrayEvent_exact {f : Nat → Cell → CellOut} {s : State} (exact' : s.OccupancyExact) (measuring : s.measuring = true)
    (told : ∀ i c, (f i c).Told s.params i c) (mask : ∀ i c, (f i c).cell.mask = c.mask) : (arrayEvent f s).OccupancyExact := by
  obtain ⟨owes, change, full⟩ := hotCount_eachCell told mask 0 s.cells
  obtain ⟨l, order, sub⟩ := noticeOrder_byCell (2 * s.free) (eachCell f 0 s.cells)
  have perm := noticeOrder_perm (2 * s.free) (eachCell f 0 s.cells)
  have before : s.occ.current = hotCount s.params 0 s.cells := exact'.trans (hotCells_eq s)
  have counted := countAfter_noticesOf (os := l) (n := s.occ.current) (fun o ho => full o (sub.subset ho))
    ((sum_map_le_of_subperm sub _).trans (owes.trans before.symm.le))
  rw [← order, perm.count_eq, perm.count_eq, ← arrayEvent_current f measuring] at counted
  have params : (arrayEvent f s).params = s.params := by rw [(arrayEvent_outcome f s).kept]
  show (arrayEvent f s).occ.current = (arrayEvent f s).hotCells
  rw [hotCells_eq, params, arrayEvent_cells]
  omega

/-- An event keeps the occupancy exact, whichever of its reports wait for an onset tick. -/
theorem onsetEvent_exact {f : Nat → Cell → CellOut} {s : State} (exact' : s.OccupancyExact) (measuring : s.measuring = true)
    (lawful : ∀ i c, (f i c).Lawful s.params s.ctl.liveHalf i c) : (onsetEvent f s).OccupancyExact := by
  unfold onsetEvent
  split
  · exact arrayEvent_exact (f := fun i c => { f i c with report := (f i c).report && !Config.freeTickFirst s.free (2 * i + 1) }) exact'
      measuring (fun i c => (lawful i c).told) fun i c => (lawful i c).sound.mask
  · exact arrayEvent_exact exact' measuring (fun i c => (lawful i c).told) fun i c => (lawful i c).sound.mask

end Sys2Proof.Machine
end

section
/-!
PROOF. The occupancy counts the HOT cells that take part, at every step (O57), and what of the rest invariant that needs.
-/

namespace Sys2Proof.Machine

/-! ### Rest of the cells -/

/-- What an array outside OPEN and SETTLING keeps whatever its parameters: cells at rest, the occupancy 0 and no application (R19); a
configuration operation only in IDLE (R23). -/
structure State.Idles (s : State) : Prop where
  cells : s.measuring = false → ∀ c ∈ s.cells, c.AtRest
  occ : s.measuring = false → s.occ.current = 0
  applying : s.measuring = false → s.engine.applying = none
  op : s.engine.op ≠ .idle → s.ctl.state = .idle

theorem State.RestInv.idles {s : State} (hs : s.RestInv) : s.Idles :=
  ⟨fun quiet => (hs.rest quiet).cells, fun quiet => (hs.rest quiet).occ, fun quiet => (hs.rest quiet).applying,
    fun op => hs.cfg ((cfgInFlight_iff s).2 op)⟩

theorem State.SameRest.idles {s t : State} (same : s.SameRest t) (hs : s.Idles) : t.Idles where
  cells quiet := by
    rw [same.measuring] at quiet
    exact same.cells quiet (hs.cells quiet)
  occ quiet := by
    rw [same.measuring] at quiet
    exact (same.occ quiet).trans (hs.occ quiet)
  applying quiet := by
    rw [same.measuring] at quiet
    exact same.applying.trans (hs.applying quiet)
  op busy := by
    rw [same.op] at busy
    exact same.state.trans (hs.op busy)

theorem State.Idles.op_idle {s : State} (hs : s.Idles) (state : s.ctl.state ≠ .idle) : s.engine.op = .idle :=
  not_not.1 fun op => state (hs.op op)

theorem State.Idles.measuring_of_applying {s : State} (hs : s.Idles) {r : Record} (busy : s.engine.applying = some r) :
    s.measuring = true :=
  (Bool.not_eq_false _).mp fun quiet => nomatch (hs.applying quiet).symm.trans busy

/-- While OPEN or SETTLING there is no rest to keep. -/
theorem idles_of_measuring {s : State} (measuring : s.measuring = true) (op : s.engine.op = .idle) : s.Idles :=
  ⟨not_measuring_contra measuring, not_measuring_contra measuring, not_measuring_contra measuring, fun busy => absurd op busy⟩

/-- An array that has come to rest: its occupancy is 0, no application, no configuration operation. -/
structure State.Still (s : State) : Prop where
  cells : ∀ c ∈ s.cells, c.AtRest
  occ : s.occ.current = 0
  applying : s.engine.applying = none
  op : s.engine.op = .idle

theorem State.Still.idles {s : State} (hs : s.Still) : s.Idles :=
  ⟨fun _ => hs.cells, fun _ => hs.occ, fun _ => hs.applying, fun op => absurd hs.op op⟩

theorem State.Idles.still {s : State} (hs : s.Idles) (quiet : s.measuring = false) (op : s.engine.op = .idle) : s.Still :=
  ⟨hs.cells quiet, hs.occ quiet, hs.applying quiet, op⟩

theorem exact_of_rest {s : State} (cells : ∀ c ∈ s.cells, c.AtRest) (occ : s.occ.current = 0) : s.OccupancyExact :=
  occ.trans (hotCells_of_cold fun c hc => (cells c hc).2).symm

/-! ### The open and the end of settling -/

theorem freshWindow_still (cause : OpenCause) {s : State} (hs : s.Still) : (s.freshWindow cause).Still := by
  refine ⟨fun c hc => ?_, hs.occ, hs.applying, hs.op⟩
  obtain ⟨d, hd, rfl⟩ := List.mem_map.1 hc
  exact hs.cells d hd

theorem openWindowAs_idles (cause : OpenCause) {s : State} (hs : s.Still) : (openWindowAs cause s).Idles :=
  ((openWindowAs_outcome cause s).sameRest rfl).idles (freshWindow_still cause hs).idles

theorem openWindowAs_exact (cause : OpenCause) {s : State} (hs : s.Still) : (openWindowAs cause s).OccupancyExact := by
  have fresh := freshWindow_still cause hs
  rw [openWindowAs_eq]
  exact arrayEvent_exact (s := s.freshWindow cause) (exact_of_rest fresh.cells fresh.occ) rfl (fun i c => (openAtCell_lawful s i c).told)
    fun i c => (openAtCell_lawful s i c).sound.mask

section
variable {P : State → Prop}

/-- What every array at rest and every open from rest meets, a storage that has been dealt with meets (R100). -/
theorem dealtWith_still {s : State} (rests : ∀ u : State, u.Still → P u) (opens : ∀ cause u, u.Still → P (openWindowAs cause u))
    (hs : s.Still) : P (dealtWith s) :=
  dealtWith_elim s (opens .cycle s hs) (rests _ ⟨hs.cells, hs.occ, hs.applying, hs.op⟩)

theorem swap_still {d : Descriptor} {s : State} (rests : ∀ u : State, u.Still → P u)
    (opens : ∀ cause u, u.Still → P (openWindowAs cause u)) (hs : s.Still) : P (swap d s) :=
  dealtWith_still rests opens ⟨hs.cells, hs.occ, hs.applying, hs.op⟩

theorem endSettling_still {s : State} (rests : ∀ u : State, u.Still → P u) (opens : ∀ cause u, u.Still → P (openWindowAs cause u))
    (free : s.engine.applying = none) (op : s.engine.op = .idle) : P (endSettling s) := by
  have still : (comeToRest s).Still := by
    refine ⟨fun c hc => ?_, rfl, free, op⟩
    obtain ⟨d, -, rfl⟩ := List.mem_map.1 hc
    exact ⟨rfl, rfl⟩
  refine endSettling_elim s (fun _ => dealtWith_still rests opens still) fun d _ => ?_
  refine handOff_elim _ _ (fun _ => rests _ ?_) (fun _ _ => swap_still rests opens still)
    (fun _ _ => dealtWith_still rests opens ?_) fun _ _ => rests _ ?_
  · exact ⟨still.cells, still.occ, still.applying, still.op⟩
  · refine ⟨fun c hc => ?_, still.occ, still.applying, still.op⟩
    obtain ⟨e, he, rfl⟩ := List.mem_map.1 hc
    exact clearHalf_atRest _ e (still.cells e he)
  · exact ⟨still.cells, still.occ, still.applying, still.op⟩

theorem readoutComplete_still {s : State} (rests : ∀ u : State, u.Still → P u) (opens : ∀ cause u, u.Still → P (openWindowAs cause u))
    (elsewhere : ∀ u : State, u.ctl.state = s.ctl.state → u.cells = s.cells → u.occ = s.occ → u.engine = s.engine → u.params = s.params → P u)
    (hs : s.Idles) : P (readoutComplete s) := by
  have still (held : s.ctl.state = .held) : s.Still :=
    hs.still ((not_measuring_iff s).2 (.inr held)) (hs.op_idle (by rw [held]; exact CtlState.noConfusion))
  refine readoutNotice_elim _ (fun _ => elsewhere _ rfl rfl rfl rfl rfl) (fun held _ => dealtWith_still rests opens ?_)
    fun d held _ => swap_still rests opens ?_
  · exact ⟨(still held).cells, (still held).occ, (still held).applying, (still held).op⟩
  · exact ⟨(still held).cells, (still held).occ, (still held).applying, (still held).op⟩

end

theorem LateMove.op {s t : State} (move : LateMove s t) : t.engine.op = s.engine.op := by
  cases move with
  | outside same => rw [same.eq]
  | event settling sound => rw [(onsetEvent_outcome _ s).engine]
  | joins | counts _ _ | expires | truncates _ => rfl

/-! ### Every move leaves rest to rest -/

theorem shutWindow_idles (cause : CloseCause) {s : State} (op : s.engine.op = .idle) : (shutWindow cause s).Idles := by
  have tells := shutWindow_tells cause s
  refine idles_of_measuring ((measuring_iff _).2 (.inr tells.state)) ?_
  rw [tells.kept]
  exact op

/-- Outside IDLE no configuration operation is in flight while settling ends. -/
theorem State.Idles.late {s u : State} (hs : s.Idles) (late : LateMoves s u) (start : s.ctl.state = .settling) : u.engine.op = .idle :=
  late.keeps (P := fun v => v.engine.op = .idle) (fun _ _ idle move => move.op.trans idle)
    (hs.op_idle (by rw [start]; exact CtlState.noConfusion))

theorem Move.idles {w : Way} {s t : State} (hs : s.Idles) (move : Move w s t) : t.Idles := by
  have ⟨cells, occ, applying, op⟩ := hs
  have opened_op (opened : s.ctl.state = .opened) : s.engine.op = .idle := hs.op_idle (by rw [opened]; exact CtlState.noConfusion)
  cases move with
  | outside same =>
    rw [same.eq]
    exact ⟨cells, occ, applying, op⟩
  | gateOpens ch | gateHolds ch _ _ _ => cases ch <;> exact ⟨cells, occ, applying, op⟩
  | takes front measuring => exact ⟨cells, occ, not_measuring_contra measuring, op⟩
  | applies loud busy lawful =>
    exact State.SameRest.idles (s := { s with engine := { s.engine with applying := none } })
      ((onsetEvent_outcome _ _).sameRest (hs.measuring_of_applying busy)) ⟨cells, occ, fun _ => rfl, op⟩
  | operates o result idle => exact ⟨cells, occ, applying, fun busy => (idle busy).elim op id⟩
  | configures i g inFlight trim => exact (configures_sameRest s i g _).idles hs
  | opens cause idle free => exact openWindowAs_idles cause (hs.still ((not_measuring_iff s).2 (.inl idle)) free)
  | shuts cause first opened => exact shutWindow_idles cause (opened_op opened)
  | ends late start settling free empty =>
    exact endSettling_still (fun _ => State.Still.idles) (fun cause _ => openWindowAs_idles cause) free (hs.late late start)
  | event loud measuring lawful => exact ((onsetEvent_outcome _ s).sameRest measuring).idles hs
  | onsetTicks opened short =>
    have state : (onsetDelivered s).ctl.state = .opened := by
      rw [onsetDelivered_eq]
      exact opened
    exact idles_of_measuring ((measuring_iff _).2 (.inl state)) ((onsetDelivered_sameClose s).op.trans (opened_op opened))
  | onsetShuts opened => exact shutWindow_idles .timer ((onsetDelivered_sameClose s).op.trans (opened_op opened))
  | sends sending desc clears => exact (clearBanks_sameRest _ _).idles ⟨cells, occ, applying, op⟩
  | completes sending cleared =>
    refine readoutComplete_still (fun _ => State.Still.idles) (fun cause _ => openWindowAs_idles cause) (fun u state c o e _ => ?_) hs
    have measuring : u.measuring = s.measuring := by rw [State.measuring, State.measuring, state]
    exact ⟨by rw [measuring, c]; exact cells, by rw [measuring, o]; exact occ, by rw [measuring, e]; exact applying,
      by rw [e, state]; exact op⟩
  | softResets =>
    refine State.Still.idles ⟨fun c hc => ?_, rfl, rfl, rfl⟩
    obtain ⟨d, -, rfl⟩ := List.mem_map.1 hc
    exact ⟨rfl, rfl⟩
  | powersOn => exact State.Still.idles ⟨reset_rested.resting.cells, rfl, rfl, rfl⟩
  | turns _ _ | waits _ | joins | writes _ _ | filters _ | passes _ _ | holdsCount | enters _ _ _ _ | describes _ | controls _ _ _
  | expires _ | dwellCounts _ | dividers _ | pulses _ => exact ⟨cells, occ, applying, op⟩

/-! ### Changes that leave what the occupancy counts -/

/-- Cells that keep mask and activity, an occupancy and gated banks as they were. -/
theorem exact_of_sameBut {s t : State} {g : Nat → Cell → Cell} (hs : s.OccupancyExact) (occ : t.occ.current = s.occ.current)
    (gate : t.params.bankGate = s.params.bankGate) (cells : ∀ i, t.cells[i]? = (s.cells[i]?).map (g i))
    (same : ∀ (i : Nat) (c : Cell), c.SameBut (g i c)) : t.OccupancyExact := by
  have one (i : Nat) (c : Cell) : (g i c).hotCount t.params i = c.hotCount s.params i := by
    obtain ⟨mask, -, activity⟩ := same i c
    unfold Cell.hotCount Cell.eligible gated
    rw [mask, activity, gate]
  have all (k l : List Cell) (i : Nat) (each : ∀ j, k[j]? = (l[j]?).map (g (i + j))) : hotCount t.params i k = hotCount s.params i l := by
    induction l generalizing k i with
    | nil =>
      obtain rfl : k = [] := by
        have none := each 0
        cases k with
        | nil => rfl
        | cons c k => cases none
      rfl
    | cons c l ih =>
      cases k with
      | nil => cases each 0
      | cons d k =>
        obtain rfl : d = g i c := Option.some.inj (each 0)
        have rest := ih k (i + 1) fun j => by
          have next := each (j + 1)
          rw [show i + (j + 1) = i + 1 + j by omega] at next
          exact next
        rw [hotCount, hotCount, one, rest]
  have eq := all t.cells s.cells 0 fun j => by rw [Nat.zero_add]; exact cells j
  exact occ.trans (hs.trans ((hotCells_eq s).trans (eq.symm.trans (hotCells_eq t).symm)))

theorem onsetAtCell_sameBut (p : Params) (h : Half) (i : Nat) (c : Cell) : c.SameBut (onsetAtCell p h i c) := by
  unfold onsetAtCell
  split
  · split
    · exact bump_sameBut ..
    · split
      · exact setSegs_sameBut ..
      · exact ⟨rfl, rfl, rfl⟩
  · exact ⟨rfl, rfl, rfl⟩

theorem clearFrozen_sameBut (z : Frozen) (c : Cell) : c.SameBut (c.clearFrozen z) := by
  rcases z with _ | _ | _ <;> exact ⟨rfl, rfl, rfl⟩

theorem onsetDelivered_exact {s : State} (hs : s.OccupancyExact) : (onsetDelivered s).OccupancyExact := by
  have eq := onsetDelivered_eq s
  refine exact_of_sameBut hs (by rw [eq]) (by rw [eq]) (getElem?_onsetDelivered s) fun i c => ?_
  split
  · exact ⟨rfl, rfl, rfl⟩
  · exact onsetAtCell_sameBut ..

/-- A close changes the controller and the gates (R83). -/
theorem shutWindow_exact (cause : CloseCause) {s : State} (hs : s.OccupancyExact) : (shutWindow cause s).OccupancyExact := by
  rw [(shutWindow_tells cause s).kept]
  exact hs

/-- BANK_GATE is written at REST alone, with every cell COLD (R19, R167). -/
theorem writes_exact {s : State} {id : ParamId} {v : Nat} {q : Params} (idles : s.Idles) (hs : s.OccupancyExact)
    (written : s.params.write id v = some q) (met : s.classMet id.paramClass = true) : ({ s with params := q } : State).OccupancyExact := by
  by_cases gate : id = .bankGate
  · subst gate
    rcases (classMet_iff s .bankGate).1 met with any | ⟨idle, op, -⟩
    · cases any
    · have still := idles.still ((not_measuring_iff s).2 (.inl idle)) op
      exact exact_of_rest still.cells still.occ
  · have number : q.bankGate.toNat = s.params.bankGate.toNat := s.params.number_of_write q id .bankGate v (Ne.symm gate) written
    exact exact_of_sameBut (g := fun _ c => c) hs rfl (BitVec.eq_of_toNat_eq number) (fun i => (Option.map_id' ..).symm)
      fun _ _ => ⟨rfl, rfl, rfl⟩

theorem clearBanks_exact (test : Nat → Bool) {s : State} (hs : s.OccupancyExact) : (clearBanks test s).OccupancyExact := by
  have eq := clearBanks_frame test s
  cases frozen : s.ctl.frozen with
  | none =>
    rw [clearBanks_unfrozen test s frozen]
    exact hs
  | some z =>
    refine exact_of_sameBut hs (by rw [eq]) (by rw [eq]) (getElem?_cells_clearBanks test s z frozen) fun i c => ?_
    split
    · exact clearFrozen_sameBut z c
    · exact ⟨rfl, rfl, rfl⟩

/-! ### Every move keeps the occupancy exact -/

theorem Move.exact {w : Way} {s t : State} (idles : s.Idles) (hs : s.OccupancyExact) (move : Move w s t) : t.OccupancyExact := by
  have rests (u : State) (still : u.Still) : u.OccupancyExact := exact_of_rest still.cells still.occ
  have opens (cause : OpenCause) (u : State) : u.Still → (openWindowAs cause u).OccupancyExact := openWindowAs_exact cause
  cases move with
  | outside same =>
    rw [same.eq]
    exact hs
  | writes written met => exact writes_exact idles hs written met
  | gateOpens ch | gateHolds ch _ _ _ => cases ch <;> exact hs
  | applies loud busy lawful =>
    exact onsetEvent_exact (s := { s with engine := { s.engine with applying := none } }) hs (idles.measuring_of_applying busy) lawful
  | configures i g inFlight trim =>
    have quiet : s.measuring = false := (not_measuring_iff s).2 (.inl (idles.op inFlight))
    have after := (configures_sameRest s i g (if i < Config.arrayCells then s.engine.mirror.set i g.mask else s.engine.mirror)).idles idles
    exact exact_of_rest (after.cells quiet) (after.occ quiet)
  | opens cause idle free => exact openWindowAs_exact cause (idles.still ((not_measuring_iff s).2 (.inl idle)) free)
  | shuts cause first opened => exact shutWindow_exact cause hs
  | ends late start settling free empty => exact endSettling_still rests opens free (idles.late late start)
  | event loud measuring lawful => exact onsetEvent_exact hs measuring lawful
  | onsetTicks opened short => exact onsetDelivered_exact hs
  | onsetShuts opened => exact shutWindow_exact .timer (onsetDelivered_exact hs)
  | sends sending desc clears =>
    rename_i f g test
    exact clearBanks_exact test (s := { s with readout := { s.readout with frame := some g } }) hs
  | completes sending cleared =>
    refine readoutComplete_still rests opens (fun u _ cells occ _ params => ?_) idles
    exact exact_of_sameBut (g := fun _ c => c) hs (by rw [occ]) (by rw [params]) (fun i => by rw [cells, Option.map_id'])
      fun _ _ => ⟨rfl, rfl, rfl⟩
  | softResets =>
    refine exact_of_rest (fun c hc => ?_) rfl
    obtain ⟨d, -, rfl⟩ := List.mem_map.1 hc
    exact ⟨rfl, rfl⟩
  | powersOn => exact exact_of_rest reset_rested.resting.cells rfl
  | turns _ _ | waits _ | joins | filters _ | passes _ _ | holdsCount | enters _ _ _ _ | takes _ _ | describes _ | operates _ _ _
  | controls _ _ _ | expires _ | dwellCounts _ | dividers _ | pulses _ => exact hs

/-- Settles O57: each cell tells its changes in order, and whatever else changes a mask, a gated bank or an activity finds the array at rest. -/
theorem occupancyCountsTheHotCells : Obligations.OccupancyCountsTheHotCells := fun _ _ rest exact' h =>
  ((step_moves h).keeps (P := fun u => u.Idles ∧ u.OccupancyExact) (fun _ _ ⟨idles, hs⟩ move => ⟨move.idles idles, move.exact idles hs⟩)
    ⟨rest.idles, exact'⟩).2

end Sys2Proof.Machine
end

section
/-!
PROOF. Where counters are zero, at every step (O58): an event counts into the live half alone, and storage changes its role only where its
counters are zero or begin to be sent.
-/

namespace Sys2Proof.Machine

/-! ### Zero storage and changes that leave it -/

theorem Cell.SameIn.of_whole {c d : Cell} (same : c.SameIn d .whole) (z : Frozen) : c.SameIn d z := by
  obtain ⟨h0, h1, h2, h3⟩ := same
  exact .of_segs h0 h1 h2 h3 z

theorem Cell.SameIn.zeroIn {c d : Cell} {z : Frozen} (same : c.SameIn d z) (zero : c.ZeroIn z) : d.ZeroIn z := by
  rcases z with _ | _ | _
  · obtain ⟨s0, s1, s2, s3⟩ := same
    obtain ⟨z0, z1, z2, z3⟩ := zero
    exact ⟨s0.trans z0, s1.trans z1, s2.trans z2, s3.trans z3⟩
  · obtain ⟨s0, s2⟩ := same
    obtain ⟨z0, z2⟩ := zero
    exact ⟨s0.trans z0, s2.trans z2⟩
  · obtain ⟨s1, s3⟩ := same
    obtain ⟨z1, z3⟩ := zero
    exact ⟨s1.trans z1, s3.trans z3⟩

theorem clearFrozen_zeroIn (z : Frozen) (c : Cell) : (c.clearFrozen z).ZeroIn z := by
  rcases z with _ | _ | _
  · exact ⟨rfl, rfl, rfl, rfl⟩
  · exact ⟨rfl, rfl⟩
  · exact ⟨rfl, rfl⟩

theorem clearHalf_zeroIn (h : Half) (c : Cell) : (c.clearHalf h).ZeroIn (.half h) := clearFrozen_zeroIn (.half h) c

/-- Both halves of a cell are all its storage. -/
theorem zeroIn_whole_of_halves {c : Cell} {h : Half} (live : c.ZeroIn (.half h)) (other : c.ZeroIn (.half h.other)) : c.ZeroIn .whole := by
  cases h with
  | h0 => exact ⟨live.1, other.1, live.2, other.2⟩
  | h1 => exact ⟨other.1, live.1, other.2, live.2⟩

/-- In a continuous mode what is frozen is the half that is not live (R103). -/
def State.Halves (s : State) : Prop :=
  s.params.mode.sequential = false → ∀ z, s.ctl.frozen = some z → z = .half s.ctl.liveHalf.other

theorem Half.eq_other {g h : Half} (ne : g ≠ h) : g = h.other := by
  cases g <;> cases h
  · exact absurd rfl ne
  · rfl
  · rfl
  · exact absurd rfl ne

theorem halves_of_frozen {s : State} (live : ∀ h, s.ctl.frozen = some (.half h) → h ≠ s.ctl.liveHalf)
    (half : s.params.mode.sequential = false → s.ctl.frozen ≠ some .whole) : s.Halves := by
  intro mode z frozen
  cases z with
  | whole => exact absurd frozen (half mode)
  | half h => rw [Half.eq_other (live h frozen)]

theorem State.HandOffInv.halves {s : State} (hs : s.HandOffInv) : s.Halves :=
  halves_of_frozen hs.frozenNotLive fun mode => (hs.continuous mode).1

/-- While a window is measured in a sequential mode nothing is frozen (R92). -/
theorem State.HandOffInv.alone {s : State} (hs : s.HandOffInv) (measuring : s.measuring = true) :
    s.params.mode.sequential = true → s.ctl.frozen = none := fun mode =>
  (hs.sequential mode).2.1 fun held => not_measuring_contra measuring ((not_measuring_iff s).2 (.inr held))

/-- Two states whose storage has the same roles and the same frame in hand. -/
structure State.SameHold (s t : State) : Prop where
  mode : t.params.mode = s.params.mode
  frozen : t.ctl.frozen = s.ctl.frozen
  live : t.ctl.liveHalf = s.ctl.liveHalf
  frame : t.readout.frame = s.readout.frame

section
variable {s t : State} {g : Nat → Cell → Cell}

/-- What a change of every cell keeps of them all. -/
theorem all_of_cells {Q R : Cell → Prop} (cells : ∀ i, t.cells[i]? = (s.cells[i]?).map (g i)) (keeps : ∀ i c, Q c → R (g i c))
    (hs : ∀ c ∈ s.cells, Q c) : ∀ c ∈ t.cells, R c := by
  intro c hc
  obtain ⟨i, hi⟩ := List.mem_iff_getElem?.1 hc
  rw [cells] at hi
  obtain ⟨d, hd, rfl⟩ := Option.map_eq_some_iff.1 hi
  exact keeps i d (hs d (List.mem_of_getElem? hd))

/-- A change that leaves every counter. -/
theorem State.SameHold.storage (same : s.SameHold t) (idle : t.ctl.state = .idle → s.ctl.state = .idle)
    (cells : ∀ i, t.cells[i]? = (s.cells[i]?).map (g i)) (counters : ∀ (i : Nat) (c : Cell), c.SameIn (g i c) .whole)
    (hs : s.StorageInv) : t.StorageInv where
  sending z f frozen sending i c hc cleared := by
    rw [cells] at hc
    obtain ⟨d, hd, rfl⟩ := Option.map_eq_some_iff.1 hc
    exact ((counters i d).of_whole z).zeroIn
      (hs.sending z f (same.frozen.symm.trans frozen) (same.frame.symm.trans sending) i d hd cleared)
  spare mode free := by
    rw [same.mode] at mode
    rw [same.frozen] at free
    rw [same.live]
    exact all_of_cells cells (fun i c => ((counters i c).of_whole _).zeroIn) (hs.spare mode free)
  idleSequential mode state := by
    rw [same.mode] at mode
    exact all_of_cells cells (fun i c => (counters i c).zeroIn) (hs.idleSequential mode (idle state))
  idleContinuous mode state := by
    rw [same.mode] at mode
    rw [same.live]
    exact all_of_cells cells (fun i c => ((counters i c).of_whole _).zeroIn) (hs.idleContinuous mode (idle state))

/-- A change while a window is measured that counts into the live half alone in a continuous mode; in a sequential mode nothing is frozen. -/
theorem State.SameHold.storage_live (same : s.SameHold t) (busy : t.ctl.state ≠ .idle)
    (alone : s.params.mode.sequential = true → s.ctl.frozen = none) (halves : s.Halves)
    (cells : ∀ i, t.cells[i]? = (s.cells[i]?).map (g i))
    (counters : s.params.mode.sequential = false → ∀ (i : Nat) (c : Cell), c.SameIn (g i c) (.half s.ctl.liveHalf.other))
    (sending : ∀ z f, s.ctl.frozen = some z → s.readout.frame = some f →
      ∀ i c, s.cells[i]? = some c → f.Cleared (i / Config.bankCells) → c.ZeroIn z)
    (spare : s.params.mode.sequential = false → s.ctl.frozen = none → ∀ c ∈ s.cells, c.ZeroIn (.half s.ctl.liveHalf.other)) :
    t.StorageInv where
  sending z f frozen framed i c hc cleared := by
    rw [same.frozen] at frozen
    rw [cells] at hc
    obtain ⟨d, hd, rfl⟩ := Option.map_eq_some_iff.1 hc
    have zero := sending z f frozen (same.frame.symm.trans framed) i d hd cleared
    cases mode : s.params.mode.sequential with
    | true => cases (alone mode).symm.trans frozen
    | false =>
      obtain rfl := halves mode z frozen
      exact (counters mode i d).zeroIn zero
  spare mode free := by
    rw [same.mode] at mode
    rw [same.frozen] at free
    rw [same.live]
    exact all_of_cells cells (fun i c => (counters mode i c).zeroIn) (spare mode free)
  idleSequential _ state := absurd state busy
  idleContinuous _ state := absurd state busy

end

/-! ### The open -/

/-- Storage that has been dealt with, from which a window can open: what is not being sent is zero (R36, R104, R106). -/
structure State.Stored (s : State) : Prop where
  halves : s.Halves
  alone : s.params.mode.sequential = true → s.ctl.frozen = none
  sending : ∀ z f, s.ctl.frozen = some z → s.readout.frame = some f →
    ∀ i c, s.cells[i]? = some c → f.Cleared (i / Config.bankCells) → c.ZeroIn z
  spare : s.params.mode.sequential = false → s.ctl.frozen = none → ∀ c ∈ s.cells, c.ZeroIn (.half s.ctl.liveHalf.other)
  sequential : s.params.mode.sequential = true → ∀ c ∈ s.cells, c.ZeroIn .whole
  continuous : s.params.mode.sequential = false → ∀ c ∈ s.cells, c.ZeroIn (.half s.ctl.liveHalf)

theorem State.StorageInv.stored {s : State} (hs : s.StorageInv) (roles : s.HandOffInv) (idle : s.ctl.state = .idle) : s.Stored :=
  ⟨roles.halves, (roles.idle idle).sequential, hs.sending, hs.spare, fun mode => hs.idleSequential mode idle,
    fun mode => hs.idleContinuous mode idle⟩

theorem ArrayOutcome.sameHold {f : Nat → Cell → CellOut} {s t : State} (out : ArrayOutcome f s t) : s.SameHold t :=
  ⟨by rw [out.kept], by rw [out.ctl], by rw [out.ctl], by rw [out.kept]⟩

theorem openWindowAs_storage (cause : OpenCause) {s : State} (stored : s.Stored) : (openWindowAs cause s).StorageInv := by
  have out := openWindowAs_outcome cause s
  have flags (c : Cell) (z : Frozen) : c.SameIn c.clearFlags z := .of_segs rfl rfl rfl rfl z
  refine out.sameHold.storage_live (s := s.freshWindow cause) (g := fun i c => (openAtCell s i c).cell) ?_ stored.alone stored.halves
    out.cells (fun mode i c => (openAtCell_lawful s i c).sound.apart mode) (fun z f frozen sending i c hc cleared => ?_)
    fun mode free => ?_
  · rw [out.ctl]
    exact CtlState.noConfusion
  · have hc : (s.cells.map Cell.clearFlags)[i]? = some c := hc
    rw [List.getElem?_map] at hc
    obtain ⟨d, hd, rfl⟩ := Option.map_eq_some_iff.1 hc
    exact (flags d z).zeroIn (stored.sending z f frozen sending i d hd cleared)
  · exact List.forall_mem_map.2 fun d hd => (flags d _).zeroIn (stored.spare mode free d hd)

theorem dealtWith_storage {s : State} (stored : s.Stored) : (dealtWith s).StorageInv :=
  dealtWith_elim s (openWindowAs_storage .cycle stored)
    ⟨stored.sending, stored.spare, fun mode _ => stored.sequential mode, fun mode _ => stored.continuous mode⟩

/-! ### The hand-off -/

theorem swap_storage {d : Descriptor} {s : State} (continuous : s.params.mode.sequential = false)
    (spare : ∀ c ∈ s.cells, c.ZeroIn (.half s.ctl.liveHalf.other)) : (swap d s).StorageInv := by
  have contra (mode : s.params.mode.sequential = true) {Q : Prop} : Q := Bool.noConfusion (continuous.symm.trans mode)
  refine dealtWith_storage ⟨fun _ z frozen => ?_, fun mode => contra mode, fun z f _ sending i c _ cleared => ?_,
    fun _ free => (by cases free), fun mode => contra mode, fun _ => spare⟩
  · obtain rfl := Option.some.inj frozen
    show Frozen.half s.ctl.liveHalf = .half s.ctl.liveHalf.other.other
    cases s.ctl.liveHalf <;> rfl
  · obtain rfl := Option.some.inj sending
    exact absurd cleared Bool.false_ne_true

theorem endSettling_storage {s : State} (roles : s.HandOffInv) (settling : s.ctl.state = .settling) (hs : s.StorageInv) :
    (endSettling s).StorageInv := by
  obtain ⟨⟨d, progress, -⟩, -, alone⟩ := roles.settling settling
  have rest : (comeToRest s).StorageInv :=
    State.SameHold.storage (s := s) (t := comeToRest s) (g := fun _ c => c.rest) ⟨rfl, rfl, rfl, rfl⟩ id (fun i => List.getElem?_map ..)
      (fun _ _ => ⟨rfl, rfl, rfl, rfl⟩) hs
  have contra {m : Bool} (yes : s.params.mode.sequential = m) (no : s.params.mode.sequential = !m) {Q : Prop} : Q := by
    rw [yes] at no
    cases m <;> cases no
  rw [endSettling_desc d s progress]
  refine handOff_elim _ (comeToRest s) (fun seq => ?_) (fun cont free => swap_storage cont (rest.spare cont free))
    (fun cont frozen => dealtWith_storage ?_) fun cont frozen => ?_
  · refine ⟨fun z f _ sending i c _ cleared => ?_, fun cont => contra seq cont, fun _ => CtlState.noConfusion,
      fun _ => CtlState.noConfusion⟩
    obtain rfl := Option.some.inj sending
    exact absurd cleared Bool.false_ne_true
  · obtain ⟨z, hz⟩ := Option.isSome_iff_exists.1 frozen
    have half := roles.halves cont z hz
    refine ⟨roles.halves, alone, fun y f hy sending i c hc cleared => ?_, fun _ free => ?_, fun seq => contra cont seq,
      fun _ => List.forall_mem_map.2 fun c _ => clearHalf_zeroIn _ c⟩
    · have hc : ((comeToRest s).cells.map fun c => c.clearHalf s.ctl.liveHalf)[i]? = some c := hc
      rw [List.getElem?_map] at hc
      obtain ⟨e, he, rfl⟩ := Option.map_eq_some_iff.1 hc
      have zero := rest.sending y f hy sending i e he cleared
      obtain rfl := roles.halves cont y hy
      exact (clearHalf_sameIn e _).zeroIn zero
    · have free : s.ctl.frozen = none := free
      cases free.symm.trans hz
  · exact ⟨rest.sending, rest.spare, fun _ => CtlState.noConfusion, fun _ => CtlState.noConfusion⟩

/-- Readout complete finds the frozen storage emitted or cleared (R125, R132). -/
theorem readoutComplete_storage {s : State} {f : Frame} (roles : s.HandOffInv) (hs : s.StorageInv) (sending : s.readout.frame = some f)
    (cleared : ∀ b, f.Cleared b) : (readoutComplete s).StorageInv := by
  obtain ⟨z, frozen⟩ := Option.isSome_iff_exists.1 (roles.frozenWhileSending.trans (by rw [sending]; rfl))
  have zero (c : Cell) (hc : c ∈ s.cells) : c.ZeroIn z := by
    obtain ⟨i, hi⟩ := List.mem_iff_getElem?.1 hc
    exact hs.sending z f frozen sending i c hi (cleared _)
  have spare (cont : s.params.mode.sequential = false) (c : Cell) (hc : c ∈ s.cells) : c.ZeroIn (.half s.ctl.liveHalf.other) :=
    roles.halves cont z frozen ▸ zero c hc
  refine readoutNotice_elim _ (fun _ => ?_) (fun held waits => dealtWith_storage ?_) fun d held waits => swap_storage ?_ ?_
  · exact ⟨fun _ _ none => (by cases none), fun cont _ => spare cont, hs.idleSequential, hs.idleContinuous⟩
  · have waits : s.ctl.waiting = none := waits
    refine ⟨fun _ _ none => (by cases none), fun _ => rfl, fun _ _ none => (by cases none), fun cont _ => spare cont, fun seq => ?_,
      fun cont => ?_⟩
    · have whole := (roles.sequential seq).1 held
      obtain rfl := Option.some.inj (whole.symm.trans frozen)
      exact zero
    · have some := (roles.continuous cont).2.1.2 held
      rw [waits] at some
      cases some
  · have waits : s.ctl.waiting = some d := waits
    cases seq : s.params.mode.sequential with
    | false => exact seq
    | true => cases (roles.sequential seq).2.2.symm.trans waits
  · have waits : s.ctl.waiting = some d := waits
    cases seq : s.params.mode.sequential with
    | false => exact spare seq
    | true => cases (roles.sequential seq).2.2.symm.trans waits

/-! ### Events, writes and the frame -/

theorem LateMove.storage {s t : State} (roles : s.HandOffInv) (hs : s.StorageInv) (move : LateMove s t) : t.StorageInv := by
  cases move with
  | outside same =>
    rw [same.eq]
    exact ⟨hs.sending, hs.spare, hs.idleSequential, hs.idleContinuous⟩
  | event settling sound =>
    rename_i f
    have out := onsetEvent_outcome f s
    refine out.sameHold.storage_live ?_ (roles.alone ((measuring_iff s).2 (.inr settling))) roles.halves out.cells
      (fun mode i c => (sound i c).apart mode) hs.sending hs.spare
    rw [out.ctl]
    show s.ctl.state ≠ .idle
    rw [settling]
    exact CtlState.noConfusion
  | truncates settling =>
    refine State.SameHold.storage (s := s) (g := truncateAtCell s.params s.ctl.liveHalf) ⟨rfl, rfl, rfl, rfl⟩ id
      (fun i => (getElem?_mapCells _ 0 i s.cells).trans (by rw [Nat.zero_add])) (fun i c => ?_) hs
    unfold truncateAtCell
    split
    · exact ⟨rfl, rfl, rfl, rfl⟩
    · exact .refl c _
  | joins | counts _ _ | expires => exact ⟨hs.sending, hs.spare, hs.idleSequential, hs.idleContinuous⟩

/-- An event while a window is measured (R37, R103). -/
theorem onsetEvent_storage {f : Nat → Cell → CellOut} {s : State} (roles : s.HandOffInv) (hs : s.StorageInv) (measuring : s.measuring = true)
    (lawful : ∀ i c, (f i c).Lawful s.params s.ctl.liveHalf i c) : (onsetEvent f s).StorageInv := by
  have out := onsetEvent_outcome f s
  refine out.sameHold.storage_live ?_ (roles.alone measuring) roles.halves out.cells (fun mode i c => (lawful i c).sound.apart mode)
    hs.sending hs.spare
  rw [out.ctl]
  exact fun idle => not_measuring_contra measuring ((not_measuring_iff s).2 (.inl idle))

theorem onsetDelivered_storage {s : State} (roles : s.HandOffInv) (hs : s.StorageInv) (opened : s.ctl.state = .opened) :
    (onsetDelivered s).StorageInv := by
  have eq := onsetDelivered_eq s
  refine State.SameHold.storage_live (s := s) ⟨by rw [eq], by rw [eq]; rfl, by rw [eq]; rfl, by rw [eq]⟩ ?_
    (roles.alone ((measuring_iff s).2 (.inl opened))) roles.halves (getElem?_onsetDelivered s) (fun mode i c => ?_) hs.sending hs.spare
  · rw [eq]
    show s.ctl.state ≠ .idle
    rw [opened]
    exact CtlState.noConfusion
  · split
    · exact .refl c _
    · exact onsetAtCell_sameIn _ _ i c mode

theorem shutWindow_storage (cause : CloseCause) {s : State} (hs : s.StorageInv) : (shutWindow cause s).StorageInv := by
  rw [(shutWindow_tells cause s).kept]
  exact ⟨hs.sending, hs.spare, fun _ idle => CtlState.noConfusion idle, fun _ idle => CtlState.noConfusion idle⟩

/-- In IDLE with nothing frozen every counter is 0, in either kind of mode. -/
theorem State.StorageInv.zero {s : State} (hs : s.StorageInv) (idle : s.ctl.state = .idle) (free : s.ctl.frozen = none) :
    ∀ c ∈ s.cells, c.ZeroIn .whole := by
  cases mode : s.params.mode.sequential with
  | true => exact hs.idleSequential mode idle
  | false => exact fun c hc => zeroIn_whole_of_halves (hs.idleContinuous mode idle c hc) (hs.spare mode free c hc)

/-- MODE is written at REST alone, with every counter 0 (R167). -/
theorem writes_storage {s : State} {id : ParamId} {v : Nat} {q : Params} (hs : s.StorageInv) (written : s.params.write id v = some q)
    (met : s.classMet id.paramClass = true) : ({ s with params := q } : State).StorageInv := by
  by_cases mode : id = .mode
  · subst mode
    rcases (classMet_iff s .mode).1 met with any | ⟨idle, -, rest⟩
    · cases any
    · exact storageInv_of_zero (hs.zero idle (rest rfl).1)
  · exact State.SameHold.storage (s := s) (g := fun _ c => c) ⟨Params.mode_of_write written mode, rfl, rfl, rfl⟩ (fun idle => idle)
      (fun i => (Option.map_id' ..).symm) (fun _ c => .refl c _) hs

/-- The frame in hand goes on, and the banks that it then has emitted or cleared are zero in the frozen storage (R125, R134). -/
theorem sends_storage {s : State} {f g : Frame} {test : Nat → Bool} (length : s.cells.length = Config.allCells) (roles : s.HandOffInv)
    (hs : s.StorageInv) (sending : s.readout.frame = some f) (clears : ∀ b, b ≤ 64 → g.Cleared b → f.Cleared b ∨ test b = true) :
    (clearBanks test { s with readout := { s.readout with frame := some g } }).StorageInv := by
  obtain ⟨z, frozen⟩ := Option.isSome_iff_exists.1 (roles.frozenWhileSending.trans (by rw [sending]; rfl))
  have cells := getElem?_cells_clearBanks test { s with readout := { s.readout with frame := some g } } z frozen
  have some_frozen : s.ctl.frozen ≠ none := by
    rw [frozen]
    exact Option.some_ne_none z
  have live (cont : s.params.mode.sequential = false) (i : Nat) (c : Cell) (zero : c.ZeroIn (.half s.ctl.liveHalf)) :
      (if test (i / 64) then c.clearFrozen z else c).ZeroIn (.half s.ctl.liveHalf) := by
    split
    · obtain rfl := roles.halves cont z frozen
      have apart := clearHalf_sameIn c s.ctl.liveHalf.other
      rw [show s.ctl.liveHalf.other.other = s.ctl.liveHalf by cases s.ctl.liveHalf <;> rfl] at apart
      exact apart.zeroIn zero
    · exact zero
  have eq := clearBanks_frame test { s with readout := { s.readout with frame := some g } }
  generalize clearBanks test { s with readout := { s.readout with frame := some g } } = t at cells eq
  rw [eq]
  refine ⟨fun y h hy hh i c hc cleared => ?_, fun _ free => absurd free some_frozen, fun seq idle => ?_, fun cont idle => ?_⟩
  · obtain rfl := Option.some.inj (frozen.symm.trans hy)
    obtain rfl := Option.some.inj hh
    obtain ⟨d, hd, rfl⟩ := Option.map_eq_some_iff.1 ((cells i).symm.trans hc)
    have bank : i / 64 ≤ 64 := by
      have bound : i < s.cells.length := (List.getElem?_eq_some_iff.1 hd).1
      rw [length, show Config.allCells = 4100 from rfl] at bound
      omega
    rcases clears _ bank cleared with before | now
    · split
      · exact clearFrozen_zeroIn z d
      · exact hs.sending z f frozen sending i d hd before
    · rw [if_pos now]
      exact clearFrozen_zeroIn z d
  · exact absurd ((roles.idle idle).sequential seq) some_frozen
  · exact all_of_cells cells (live cont) (hs.idleContinuous cont idle)

/-! ### Every move -/

theorem Move.storage {w : Way} {s t : State} (sized : s.Sized) (roles : s.HandOffInv) (idles : s.Idles) (hs : s.StorageInv)
    (move : Move w s t) : t.StorageInv := by
  have ⟨sending, spare, sequential, continuous⟩ := hs
  cases move with
  | outside same =>
    rw [same.eq]
    exact ⟨sending, spare, sequential, continuous⟩
  | writes written met => exact writes_storage hs written met
  | gateOpens ch | gateHolds ch _ _ _ => cases ch <;> exact ⟨sending, spare, sequential, continuous⟩
  | applies loud busy lawful =>
    have done : ({ s with engine := { s.engine with applying := none } } : State).HandOffInv :=
      State.SameWindows.inv (s := s) (sameWindows_of_eq rfl rfl rfl) roles
    exact onsetEvent_storage done ⟨sending, spare, sequential, continuous⟩ (idles.measuring_of_applying busy) lawful
  | configures i g inFlight trim =>
    refine State.SameHold.storage (s := s) (g := fun j c => if i = j then c.configure g else c) ⟨rfl, rfl, rfl, rfl⟩ id
      (fun j => List.getElem?_modify ..) (fun j c => ?_) hs
    split
    · exact ⟨rfl, rfl, rfl, rfl⟩
    · exact .refl c _
  | opens cause idle free => exact openWindowAs_storage cause (hs.stored roles idle)
  | shuts cause first opened => exact shutWindow_storage cause hs
  | ends late start settling free empty =>
    obtain ⟨roles', stored⟩ := late.keeps (P := fun u => u.HandOffInv ∧ u.StorageInv)
      (fun _ _ ⟨roles, hs⟩ move => ⟨move.sameWindows.inv roles, move.storage roles hs⟩) ⟨roles, hs⟩
    exact endSettling_storage roles' settling stored
  | event loud measuring lawful => exact onsetEvent_storage roles hs measuring lawful
  | onsetTicks opened short => exact onsetDelivered_storage roles hs opened
  | onsetShuts opened => exact shutWindow_storage .timer (onsetDelivered_storage roles hs opened)
  | sends framed desc clears => exact sends_storage sized.cells roles hs framed clears
  | completes framed cleared => exact readoutComplete_storage roles hs framed cleared
  | softResets =>
    refine storageInv_of_zero fun c hc => ?_
    obtain ⟨d, -, rfl⟩ := List.mem_map.1 hc
    exact ⟨rfl, rfl, rfl, rfl⟩
  | powersOn => exact storageInv_of_zero fun c hc => by rw [List.eq_of_mem_replicate hc]; exact ⟨rfl, rfl, rfl, rfl⟩
  | turns _ _ | waits _ | joins | filters _ | passes _ _ | holdsCount | enters _ _ _ _ | takes _ _ | describes _ | operates _ _ _
  | controls _ _ _ | expires _ | dwellCounts _ | dividers _ | pulses _ => exact ⟨sending, spare, sequential, continuous⟩

/-- Settles O58: what is sent is cleared before it is free, and what is free is not counted into. -/
theorem countersAreZeroBetweenWindows : Obligations.CountersAreZeroBetweenWindows := by
  refine ⟨fun s t sized roles rest hs h => ?_, fun s hs idle free => hs.zero idle free⟩
  exact ((step_moves h).keeps (P := fun u => u.Sized ∧ u.HandOffInv ∧ u.Idles ∧ u.StorageInv)
    (fun _ _ ⟨sized, roles, idles, hs⟩ move =>
      ⟨move.sized sized, move.roles roles, move.idles idles, move.storage sized roles idles hs⟩) ⟨sized, roles, rest.idles, hs⟩).2.2.2

end Sys2Proof.Machine
end

section
/-!
PROOF. What a frame in hand is still to send before its trailer, as one list, and its next byte as the first of that list (R119 to R124,
R134).
-/

namespace Sys2Proof.Machine

/-! ### Pieces of equal length -/

/-- Byte `j` of pieces of `n` bytes each is byte `j % n` of piece `j / n`. -/
theorem getElem?_flatMap_pieces {α β : Type} {g : α → List β} {n : Nat} (pieces : ∀ a, (g a).length = n) (l : List α) (i k : Nat)
    (small : k < n) : (l.flatMap g)[n * i + k]? = (l[i]?).bind fun a => (g a)[k]? := by
  induction l generalizing i with
  | nil => rfl
  | cons a l ih =>
    rw [List.flatMap_cons]
    cases i with
    | zero =>
      rw [Nat.mul_zero, Nat.zero_add, List.getElem?_append_left (by rw [pieces]; exact small)]
      rfl
    | succ i =>
      have behind : n * (i + 1) + k = (g a).length + (n * i + k) := by rw [pieces, Nat.mul_succ]; omega
      rw [behind, List.getElem?_append_right (Nat.le_add_right _ _), Nat.add_sub_cancel_left, ih]
      rfl

theorem length_flatMap_pieces {α β : Type} {g : α → List β} {n : Nat} (pieces : ∀ a, (g a).length = n) (l : List α) :
    (l.flatMap g).length = n * l.length := by
  induction l with
  | nil => rfl
  | cons a l ih => rw [List.flatMap_cons, List.length_append, pieces, ih, List.length_cons, Nat.mul_succ, Nat.add_comm]

theorem drop_eq_getD_cons {l : List Byte} {k : Nat} (inside : k < l.length) : l.drop k = l.getD k 0 :: l.drop (k + 1) := by
  rw [List.drop_eq_getElem_cons inside, List.getD_eq_getElem?_getD, List.getElem?_eq_getElem inside, Option.getD_some]

theorem drop_end {l : List Byte} {k : Nat} (n : l.length ≤ k) : l.drop k = [] := List.drop_eq_nil_of_le n

theorem OnsetEntry.length_bytes (e : OnsetEntry) : e.bytes.length = 5 := by simp [OnsetEntry.bytes]

theorem beBytes_zero (n : Nat) : beBytes n 0 = List.replicate n 0 := by
  induction n with
  | zero => rfl
  | succ n ih => simp [beBytes, ih, List.replicate_succ]

/-! ### A bank's record (R119, R122, R123) -/

theorem Mode.valueLength_pos (m : Mode) : 0 < m.valueLength := by cases m <;> decide

/-- The record of a bank in a frame whose kind item says what the bank's kind is. -/
def Frame.recordOf (s : State) (f : Frame) (b : Nat) : List Byte :=
  f.bankHeader b ++
    match f.kind with
    | .data => ((s.bankOf b).map fun c => valueWord f.desc.mode s.frozenHalf c).flatMap (beBytes f.desc.mode.valueLength)
    | _ => []

theorem bankRecord_eq {s : State} {f : Frame} {b : Nat} (kind : f.kind = bankKind s f b) : f.bankRecord s b = f.recordOf s b := by
  have zero : ((s.bankOf b).all fun c => valueWord f.desc.mode s.frozenHalf c == 0) = true
      ↔ ∀ w ∈ (s.bankOf b).map (fun c => valueWord f.desc.mode s.frozenHalf c), w = 0 := by
    simp only [List.all_eq_true, beq_iff_eq, List.forall_mem_map]
  unfold Frame.bankRecord Frame.recordOf Frame.bankHeader
  rw [kind, bankKind]
  by_cases gated : f.gated.getLsbD b = true
  · simp only [if_pos gated]
    rfl
  · by_cases suppressed : f.suppress = true ∧ ∀ w ∈ (s.bankOf b).map (fun c => valueWord f.desc.mode s.frozenHalf c), w = 0
    · have both : (f.suppress && (s.bankOf b).all fun c => valueWord f.desc.mode s.frozenHalf c == 0) = true := by
        rw [Bool.and_eq_true, zero]
        exact suppressed
      simp only [if_neg gated, if_pos suppressed, if_pos both]
      rfl
    · have neither : ¬ (f.suppress && (s.bankOf b).all fun c => valueWord f.desc.mode s.frozenHalf c == 0) = true := by
        rw [Bool.and_eq_true, zero]
        exact suppressed
      simp only [if_neg gated, if_neg suppressed, if_neg neither]
      rfl

theorem length_bankOf {s : State} (length : s.cells.length = 4100) {b : Nat} (bank : b ≤ 64) : (s.bankOf b).length = bankSize b := by
  rw [State.bankOf, List.length_take, List.length_drop, length, bankSize]
  show min (if b = 64 then 4 else 64) (4100 - 64 * b) = if b = 64 then 4 else 64
  split <;> omega

theorem length_recordOf {s : State} (f : Frame) (length : s.cells.length = 4100) {b : Nat} (bank : b ≤ 64) :
    (f.recordOf s b).length = f.recordLength b := by
  unfold Frame.recordOf Frame.recordLength
  cases f.kind with
  | data =>
    simp only
    rw [List.length_append, length_flatMap_pieces fun v => length_beBytes _ v, List.length_map, length_bankOf length bank, Nat.mul_comm]
    rfl
  | zero => rfl
  | gated => rfl

/-- The next byte of a record in hand is that of the record. -/
theorem nextByte_record {s : State} {f : Frame} {b k : Nat} (at_k : f.position = .bank b k) (inside : k < f.recordLength b) :
    nextByte s f = (f.recordOf s b).getD k 0 := by
  have head : (f.bankHeader b).length = 3 := rfl
  have next : nextByte s f = if k < 3 then (f.bankHeader b).getD k 0 else valueByte s f b (k - 3) := by rw [nextByte, at_k]
  rw [next, Frame.recordOf]
  by_cases header : k < 3
  · rw [if_pos header, List.getD_append _ _ _ _ (by rw [head]; exact header)]
  · rw [if_neg header, List.getD_append_right _ _ _ _ (by rw [head]; omega), head]
    unfold Frame.recordLength at inside
    cases kind : f.kind with
    | data =>
      have whole := Nat.div_add_mod (k - 3) f.desc.mode.valueLength
      have part := Nat.mod_lt (k - 3) f.desc.mode.valueLength_pos
      have piece := getElem?_flatMap_pieces (fun v => length_beBytes f.desc.mode.valueLength v)
        ((s.bankOf b).map fun c => valueWord f.desc.mode s.frozenHalf c) ((k - 3) / f.desc.mode.valueLength)
        ((k - 3) % f.desc.mode.valueLength) part
      rw [whole] at piece
      simp only
      rw [List.getD_eq_getElem?_getD, piece, valueByte, List.getD_eq_getElem?_getD, List.getD_eq_getElem?_getD, List.getElem?_map]
      cases (s.bankOf b)[(k - 3) / f.desc.mode.valueLength]? with
      | some c => rfl
      | none =>
        rw [Option.getD_none, valueWord_reset, beBytes_zero, List.getElem?_replicate_of_lt part]
        rfl
    | zero =>
      rw [kind] at inside
      exact absurd inside header
    | gated =>
      rw [kind] at inside
      exact absurd inside header

theorem bankKind_congr_kind (s : State) (f : Frame) (k : BankKind) (b : Nat) : bankKind s { f with kind := k } b = bankKind s f b := rfl

/-! ### What a frame is still to send before its trailer (R119, R134) -/

/-- The records from bank `b` on; none where an abort is taken. -/
def Frame.later (s : State) (f : Frame) (b : Nat) : List Byte :=
  if f.abortTaken then [] else (List.range' b (65 - b)).flatMap (f.bankRecord s)

/-- The bytes from the frame's position to its trailer. -/
def Frame.left (s : State) (f : Frame) : List Byte :=
  match f.position with
  | .header k => f.headerBytes.drop k ++ (f.desc.onsets.flatMap OnsetEntry.bytes ++ f.later s 0)
  | .onsets e k => (f.desc.onsets.flatMap OnsetEntry.bytes).drop (5 * e + k) ++ f.later s 0
  | .bank b k => (f.bankRecord s b).drop k ++ f.later s (b + 1)
  | .trailer _ => []

/-- A position before the trailer, the kind of a record that has begun being that of its bank. -/
def Frame.Underway (s : State) (f : Frame) : Prop :=
  match f.position with
  | .header k => k < 28
  | .onsets e k => e < f.desc.onsets.length ∧ k < 5
  | .bank b k => b ≤ 64 ∧ (0 < k → k < (f.bankRecord s b).length ∧ f.kind = bankKind s f b)
  | .trailer _ => False

theorem BankKind.code_inj {k l : BankKind} (h : k.code = l.code) : k = l := by
  revert h
  cases k <;> cases l <;> decide

/-- The second byte of a record says the kind of its bank (R123). -/
theorem underway_of_beforeTrailer {s : State} {f : Frame} (before : f.BeforeTrailer s) : f.Underway s := by
  unfold Frame.BeforeTrailer at before
  unfold Frame.Underway
  cases position : f.position with
  | header k =>
    rw [position] at before
    exact before
  | onsets e k =>
    rw [position] at before
    exact before
  | bank b k =>
    rw [position] at before
    obtain ⟨bank, begun⟩ := before
    refine ⟨bank, fun some => ⟨(begun some).1, ?_⟩⟩
    have code := (begun some).2
    have record : f.bankRecord s b = Frame.recordOf s { f with kind := bankKind s f b } b :=
      bankRecord_eq (f := { f with kind := bankKind s f b }) rfl
    rw [record] at code
    exact (BankKind.code_inj (Option.some.inj code)).symm
  | trailer k =>
    rw [position] at before
    exact before.elim

/-- The records from a bank on begin with its own. -/
theorem later_succ {s : State} {f : Frame} (goes : f.abortTaken = false) {b : Nat} (bank : b ≤ 64) :
    f.later s b = f.bankRecord s b ++ f.later s (b + 1) := by
  unfold Frame.later
  rw [goes, if_neg Bool.false_ne_true, if_neg Bool.false_ne_true, show 65 - b = 64 - b + 1 by omega, List.range'_succ, List.flatMap_cons,
    show 65 - (b + 1) = 64 - b by omega]

theorem later_end {s : State} {f : Frame} {b : Nat} (done : f.abortTaken = true ∨ 64 < b) : f.later s b = [] := by
  unfold Frame.later
  rcases done with taken | behind
  · rw [if_pos taken]
  · rw [show 65 - b = 0 by omega]
    exact ite_self _

/-- A byte before the trailer: it is the first of those that are left, and the frame goes on to the others; at the last byte of a record the
bank is emitted, and the frame goes on to the next bank or to the trailer. -/
structure Frame.Steps (s : State) (f : Frame) (p : Position) : Prop where
  next : (decideKind s f).advance = .goOn p
    ∨ ∃ b, (decideKind s f).advance = .emit b p ∧ (p = .trailer 0 ∨ p = .bank (b + 1) 0 ∧ b < 64)
  left : f.left s = nextByte s (decideKind s f) :: Frame.left s { decideKind s f with position := p }
  goes : Frame.Underway s { decideKind s f with position := p } ∨ p = .trailer 0

/-- After the onset entries. -/
theorem afterOnsets_left (s : State) (f : Frame) :
    f.later s 0 = Frame.left s { f with position := f.afterOnsets }
      ∧ (Frame.Underway s { f with position := f.afterOnsets } ∨ f.afterOnsets = .trailer 0) := by
  by_cases abort : f.abortTaken = true
  · have trailer : f.afterOnsets = .trailer 0 := by rw [Frame.afterOnsets, if_pos abort]
    rw [trailer, later_end (.inl abort)]
    exact ⟨rfl, .inr rfl⟩
  · have bank : f.afterOnsets = .bank 0 0 := by rw [Frame.afterOnsets, if_neg abort]
    rw [bank, later_succ (Bool.eq_false_iff.2 abort) (Nat.zero_le _)]
    exact ⟨rfl, .inl ⟨Nat.zero_le _, fun none => absurd none (Nat.lt_irrefl 0)⟩⟩

theorem header_steps {s : State} {f : Frame} {k : Nat} (position : f.position = .header k) (inside : k < 28) : ∃ p, f.Steps s p := by
  have kind : decideKind s f = f := by rw [decideKind, position]
  have byte : nextByte s f = f.headerBytes.getD k 0 := by rw [nextByte, position]
  have left : f.left s = f.headerBytes.getD k 0 :: (f.headerBytes.drop (k + 1) ++ (f.desc.onsets.flatMap OnsetEntry.bytes ++ f.later s 0)) := by
    rw [Frame.left, position]
    simp only
    rw [drop_eq_getD_cons (by rw [length_headerBytes]; exact inside), List.cons_append]
  have advance : f.advance = if k + 1 < 28 then .goOn (.header (k + 1))
      else if f.desc.onsets.length = 0 then .goOn f.afterOnsets else .goOn (.onsets 0 0) := by rw [Frame.advance, position]
  by_cases more : k + 1 < 28
  · refine ⟨.header (k + 1), .inl ?_, ?_, .inl ?_⟩
    · rw [kind, advance, if_pos more]
    · rw [kind, byte]
      exact left
    · rw [kind]
      exact more
  · rw [drop_end (by rw [length_headerBytes]; omega), List.nil_append] at left
    by_cases none : f.desc.onsets.length = 0
    · obtain ⟨later, goes⟩ := afterOnsets_left s f
      refine ⟨f.afterOnsets, .inl ?_, ?_, ?_⟩
      · rw [kind, advance, if_neg more, if_pos none]
      · rw [List.length_eq_zero_iff.1 none, List.flatMap_nil, List.nil_append, later] at left
        rw [kind, byte]
        exact left
      · rw [kind]
        exact goes
    · refine ⟨.onsets 0 0, .inl ?_, ?_, .inl ?_⟩
      · rw [kind, advance, if_neg more, if_neg none]
      · rw [kind, byte]
        exact left
      · rw [kind]
        exact ⟨Nat.pos_of_ne_zero none, by decide⟩

theorem onsets_steps {s : State} {f : Frame} {e k : Nat} (position : f.position = .onsets e k) (entry : e < f.desc.onsets.length)
    (inside : k < 5) : ∃ p, f.Steps s p := by
  have kind : decideKind s f = f := by rw [decideKind, position]
  have length : (f.desc.onsets.flatMap OnsetEntry.bytes).length = 5 * f.desc.onsets.length :=
    length_flatMap_pieces OnsetEntry.length_bytes _
  have byte : nextByte s f = (f.desc.onsets.flatMap OnsetEntry.bytes).getD (5 * e + k) 0 := by
    have here := List.getElem?_eq_getElem entry
    rw [nextByte, position, List.getD_eq_getElem?_getD, getElem?_flatMap_pieces OnsetEntry.length_bytes _ e k inside]
    simp only [here, Option.map_some, Option.getD_some, Option.bind_some, List.getD_eq_getElem?_getD]
  have left : f.left s = (f.desc.onsets.flatMap OnsetEntry.bytes).getD (5 * e + k) 0
      :: ((f.desc.onsets.flatMap OnsetEntry.bytes).drop (5 * e + k + 1) ++ f.later s 0) := by
    rw [Frame.left, position]
    simp only
    rw [drop_eq_getD_cons (by rw [length]; omega), List.cons_append]
  have advance : f.advance = if k + 1 < 5 then .goOn (.onsets e (k + 1))
      else if e + 1 < f.desc.onsets.length then .goOn (.onsets (e + 1) 0) else .goOn f.afterOnsets := by rw [Frame.advance, position]
  by_cases more : k + 1 < 5
  · refine ⟨.onsets e (k + 1), .inl ?_, ?_, .inl ?_⟩
    · rw [kind, advance, if_pos more]
    · rw [kind, byte]
      exact left
    · rw [kind]
      exact ⟨entry, more⟩
  · by_cases entries : e + 1 < f.desc.onsets.length
    · refine ⟨.onsets (e + 1) 0, .inl ?_, ?_, .inl ?_⟩
      · rw [kind, advance, if_neg more, if_pos entries]
      · rw [show 5 * e + k + 1 = 5 * (e + 1) + 0 by omega] at left
        rw [kind, byte]
        exact left
      · rw [kind]
        exact ⟨entries, by decide⟩
    · obtain ⟨later, goes⟩ := afterOnsets_left s f
      refine ⟨f.afterOnsets, .inl ?_, ?_, ?_⟩
      · rw [kind, advance, if_neg more, if_neg entries]
      · rw [drop_end (by rw [length]; omega), List.nil_append, later] at left
        rw [kind, byte]
        exact left
      · rw [kind]
        exact goes

theorem bank_steps {s : State} {f : Frame} {b k : Nat} (length : s.cells.length = 4100) (position : f.position = .bank b k) (bank : b ≤ 64)
    (begun : 0 < k → k < (f.bankRecord s b).length ∧ f.kind = bankKind s f b) : ∃ p, f.Steps s p := by
  obtain ⟨g, hg⟩ : ∃ g, decideKind s f = g := ⟨_, rfl⟩
  have same : g = { f with kind := g.kind } := by
    rw [← hg]
    exact decideKind_eq s f
  have at_k : g.position = .bank b k := by rw [← hg, decideKind_position, position]
  have kind : g.kind = bankKind s g b := by
    rw [same, bankKind_congr_kind, ← hg, decideKind, position]
    cases k with
    | zero => rfl
    | succ k => exact (begun (Nat.succ_pos k)).2
  have record : f.bankRecord s b = g.recordOf s b := by
    rw [← bankRecord_eq kind, same]
    rfl
  have whole : (f.bankRecord s b).length = g.recordLength b := by rw [record, length_recordOf g length bank]
  have inside : k < g.recordLength b := by
    cases k with
    | zero =>
      unfold Frame.recordLength
      split <;> omega
    | succ k =>
      rw [← whole]
      exact (begun (Nat.succ_pos k)).1
  have left : f.left s = nextByte s g :: ((f.bankRecord s b).drop (k + 1) ++ f.later s (b + 1)) := by
    rw [Frame.left, position, nextByte_record at_k inside, ← record]
    simp only
    rw [drop_eq_getD_cons (by rw [whole]; exact inside), List.cons_append]
  have advance : g.advance = if k + 1 < g.recordLength b then .goOn (.bank b (k + 1))
      else if g.abortTaken || decide (Config.auxBank ≤ b) then .emit b (.trailer 0) else .emit b (.bank (b + 1) 0) := by
    rw [Frame.advance, at_k]
  have moved (p : Position) : Frame.left s { g with position := p } = Frame.left s { f with position := p } := by
    rw [same]
    rfl
  unfold Config.auxBank at advance
  by_cases more : k + 1 < g.recordLength b
  · refine ⟨.bank b (k + 1), .inl ?_, ?_, .inl ?_⟩
    · rw [hg, advance, if_pos more]
    · rw [hg, moved]
      exact left
    · rw [hg]
      refine ⟨bank, fun _ => ⟨?_, kind⟩⟩
      have record' : Frame.bankRecord s { g with position := .bank b (k + 1) } b = f.bankRecord s b := by
        rw [same]
        rfl
      rw [record', whole]
      exact more
  · rw [drop_end (by rw [whole]; omega), List.nil_append] at left
    have abort : g.abortTaken = f.abortTaken := by rw [same]
    by_cases last : (g.abortTaken || decide (64 ≤ b)) = true
    · refine ⟨.trailer 0, .inr ⟨b, ?_, .inl rfl⟩, ?_, .inr rfl⟩
      · rw [hg, advance, if_neg more, if_pos last]
      · rw [abort, Bool.or_eq_true, decide_eq_true_eq] at last
        rw [later_end (last.imp id fun aux => by omega)] at left
        rw [hg, moved]
        exact left
    · have goes : f.abortTaken = false ∧ b < 64 := by
        rw [abort, Bool.not_eq_true, Bool.or_eq_false_iff, decide_eq_false_iff_not, Nat.not_le] at last
        exact last
      refine ⟨.bank (b + 1) 0, .inr ⟨b, ?_, .inr ⟨rfl, goes.2⟩⟩, ?_, .inl ?_⟩
      · rw [hg, advance, if_neg more, if_neg last]
      · rw [later_succ goes.1 goes.2] at left
        rw [hg, moved]
        exact left
      · exact ⟨goes.2, fun none => absurd none (Nat.lt_irrefl 0)⟩

/-- Every byte before the trailer. -/
theorem underway_steps {s : State} {f : Frame} (length : s.cells.length = 4100) (underway : f.Underway s) : ∃ p, f.Steps s p := by
  unfold Frame.Underway at underway
  cases position : f.position with
  | header k =>
    rw [position] at underway
    exact header_steps position underway
  | onsets e k =>
    rw [position] at underway
    exact onsets_steps position underway.1 underway.2
  | bank b k =>
    rw [position] at underway
    exact bank_steps length position underway.1 underway.2
  | trailer k =>
    rw [position] at underway
    exact underway.elim

end Sys2Proof.Machine
end

section
/-!
PROOF. A frame byte for byte (O51): the deliveries give the bytes that are left, one after the other, and then the trailer.
-/

namespace Sys2Proof.Machine

/-! ### A frame in hand with bytes left -/

/-- A frame in hand that has sent some bytes and has others left before its trailer. -/
structure State.Sends (s : State) (f : Frame) (sent left : List Byte) : Prop where
  roles : s.HandOffInv
  frame : s.readout.frame = some f
  length : s.cells.length = 4100
  has : f.HasSent sent
  left : f.left s = left
  goes : f.Underway s ∨ f.position = .trailer 0

theorem sending_of_frame {s : State} {f : Frame} (roles : s.HandOffInv) (frame : s.readout.frame = some f) : s.Sending :=
  ⟨roles, roles.frozenWhileSending.trans (by rw [frame]; rfl)⟩

/-- Where bytes are left the position is before the trailer. -/
theorem State.Sends.underway {s : State} {f : Frame} {sent l : List Byte} {b : Byte} (h : s.Sends f sent (b :: l)) : f.Underway s := by
  refine h.goes.resolve_right fun trailer => ?_
  have none : f.left s = [] := by rw [Frame.left, trailer]
  cases none.symm.trans h.left

/-- What is left depends on the state by the records alone. -/
theorem left_congr {s t : State} {f : Frame} (records : f.bankRecord t = f.bankRecord s) : f.left t = f.left s := by
  unfold Frame.left Frame.later
  rw [records]

theorem underway_congr {s t : State} {f : Frame} (records : f.bankRecord t = f.bankRecord s) (kinds : bankKind t f = bankKind s f) :
    f.Underway t ↔ f.Underway s := by
  unfold Frame.Underway
  rw [records, kinds]

/-- An event out of the frame's reach (R127, log 3). -/
theorem State.Sends.safe {s t : State} {f : Frame} {sent l : List Byte} (h : s.Sends f sent l) (safe : s.FrameSafe t) :
    t.Sends f sent l ∧ decideKind t f = decideKind s f := by
  have sending := sending_of_frame h.roles h.frame
  obtain ⟨kinds, records, -⟩ := safe.frame sending f (h.roles.modes.2.2 f h.frame)
  have kinds : bankKind t f = bankKind s f := funext kinds
  have records : f.bankRecord t = f.bankRecord s := funext records
  refine ⟨⟨safe.roles, by rw [safe.readout]; exact h.frame, safe.length.trans h.length, h.has, (left_congr records).trans h.left,
    h.goes.imp_left (underway_congr records kinds).2⟩, ?_⟩
  unfold decideKind
  rw [kinds]

/-- The records of the banks that a clearing leaves are as they were. -/
theorem bankOf_clearBanks {s : State} {test : Nat → Bool} {b : Nat} (kept : test b = false) : (clearBanks test s).bankOf b = s.bankOf b := by
  cases frozen : s.ctl.frozen with
  | none => rw [clearBanks_unfrozen test s frozen]
  | some z =>
    refine List.ext_getElem? fun i => ?_
    simp only [State.bankOf, List.getElem?_take, List.getElem?_drop]
    split
    · rename_i small
      have inBank : i < 64 := by
        unfold bankSize at small
        split at small
        · exact Nat.lt_of_lt_of_le small (by decide)
        · exact small
      have bank : (Config.bankCells * b + i) / 64 = b := by
        show (64 * b + i) / 64 = b
        omega
      rw [getElem?_cells_clearBanks test s z frozen, bank, kept]
      exact Option.map_id' ..
    · rfl

theorem frozenHalf_clearBanks (test : Nat → Bool) (s : State) : (clearBanks test s).frozenHalf = s.frozenHalf := by
  rw [clearBanks_frame]
  rfl

theorem bankRecord_clearBanks {s : State} {test : Nat → Bool} {b : Nat} (f : Frame) (kept : test b = false) :
    f.bankRecord (clearBanks test s) b = f.bankRecord s b ∧ bankKind (clearBanks test s) f b = bankKind s f b := by
  unfold Frame.bankRecord bankKind
  rw [bankOf_clearBanks kept, frozenHalf_clearBanks]
  exact ⟨rfl, rfl⟩

theorem later_congr {s t : State} {f : Frame} {b : Nat} (records : ∀ c, b ≤ c → f.bankRecord t c = f.bankRecord s c) :
    f.later t b = f.later s b := by
  unfold Frame.later
  split
  · rfl
  · exact List.flatMap_congr fun c hc => records c (List.mem_range'_1.1 hc).1

/-! ### One byte (R126, R127) -/

/-- The frame after a byte. -/
def Frame.after (s : State) (f : Frame) (p : Position) : Frame :=
  { (decideKind s f).sent (nextByte s (decideKind s f)) with position := p }

theorem after_hasSent {s : State} {f : Frame} {p : Position} {sent : List Byte} (has : f.HasSent sent)
    (before : ∀ k, f.position ≠ .trailer k) : (f.after s p).HasSent (sent ++ [nextByte s (decideKind s f)]) := by
  obtain ⟨crc, count⟩ := has
  have eq := decideKind_eq s f
  have kept : (decideKind s f).crc = f.crc ∧ (decideKind s f).byteCount = f.byteCount := by
    rw [eq]
    exact ⟨rfl, rfl⟩
  have enters : (decideKind s f).entersCrc = true :=
    (entersCrc_iff _).2 fun k at_k => absurd ((decideKind_position s f).symm.trans at_k) (before k)
  refine ⟨?_, ?_⟩
  · show (if (decideKind s f).entersCrc then _ else _) = _
    rw [if_pos enters, kept.1, crc, List.foldl_append]
    rfl
  · show (decideKind s f).byteCount + 1 = _
    rw [kept.2, count, List.length_append]
    rfl

/-- The state in which a byte has left, before the counters of an emitted bank are cleared. -/
def State.drives (s : State) (f : Frame) (p : Position) : State := { s with
  pins := { s.pins with fd := nextByte s (decideKind s f), fstb := true, fsof := decide ((decideKind s f).byteCount = 0) }
  readout := { s.readout with frame := some (f.after s p) } }

theorem drives_roles {s : State} {f : Frame} (roles : s.HandOffInv) (frame : s.readout.frame = some f) (p : Position) :
    (s.drives f p).HandOffInv := by
  have desc : (f.after s p).desc = f.desc := by
    show (decideKind s f).desc = f.desc
    rw [decideKind_eq]
  refine State.SameWindows.inv (s := s) ⟨rfl, rfl, rfl, rfl, .rfl, rfl, rfl, ?_, rfl, rfl, rfl⟩ roles
  rw [frame]
  exact congrArg (fun d : Descriptor => some d.mode) desc

theorem clearBanks_roles (test : Nat → Bool) {s : State} (roles : s.HandOffInv) : (clearBanks test s).HandOffInv := by
  rw [clearBanks_frame]
  exact State.SameWindows.inv (s := s) (sameWindows_of_eq rfl rfl rfl) roles

/-- A byte before the trailer, the period of the delivery being over. -/
theorem deliver_sends {s : State} {f : Frame} {sent l : List Byte} {b : Byte} (h : s.Sends f sent (b :: l)) :
    ∃ g, (deliver (decideKind s f) s).Sends g (sent ++ [b]) l ∧ g.abortTaken = f.abortTaken
      ∧ (deliver (decideKind s f) s).pins.fd = b ∧ (deliver (decideKind s f) s).readout.emitted = s.readout.emitted := by
  obtain ⟨p, next, left, goes⟩ := underway_steps h.length h.underway
  obtain ⟨rfl, rfl⟩ := List.cons.inj (h.left.symm.trans left)
  have before (k : Nat) : f.position ≠ .trailer k := fun trailer => by
    have underway := h.underway
    rw [Frame.Underway, trailer] at underway
    exact underway
  have has : (f.after s p).HasSent (sent ++ [nextByte s (decideKind s f)]) := after_hasSent h.has before
  have abort : (f.after s p).abortTaken = f.abortTaken := by
    show (decideKind s f).abortTaken = f.abortTaken
    rw [decideKind_eq]
  have roles := drives_roles h.roles h.frame p
  rcases next with goOn | ⟨n, emit, which⟩
  · have delivered : deliver (decideKind s f) s = s.drives f p := by simp only [deliver, goOn, State.drives, frameTo, drivePort, Frame.after]
    rw [delivered]
    exact ⟨f.after s p, ⟨roles, rfl, h.length, has, rfl, goes⟩, abort, rfl, rfl⟩
  · have delivered : deliver (decideKind s f) s = clearBanks (fun b => decide (b = n)) (s.drives f p) := by
      simp only [deliver, emit, State.drives, frameTo, drivePort, Frame.after]
    have kept (c : Nat) (other : n < c) := bankRecord_clearBanks (s := s.drives f p) (test := fun b => decide (b = n)) (b := c)
      (f.after s p) (decide_eq_false (Nat.ne_of_gt other))
    have cleared := clearBanks_frame (fun b => decide (b = n)) (s.drives f p)
    rw [delivered]
    refine ⟨f.after s p, ⟨clearBanks_roles _ roles, by rw [cleared]; rfl, (length_cells_clearBanks ..).trans h.length, has, ?_, ?_⟩, abort,
      by rw [cleared]; rfl, by rw [cleared]; rfl⟩
    · rcases which with rfl | ⟨rfl, -⟩
      · rfl
      · exact congrArg₂ (· ++ ·) (congrArg (List.drop 0) (kept (n + 1) (Nat.lt_succ_self n)).1)
          (later_congr (s := s.drives f (.bank (n + 1) 0)) fun c later => (kept c (by omega)).1)
    · rcases which with rfl | ⟨rfl, bank⟩
      · exact .inr rfl
      · exact .inl ⟨bank, fun none => absurd none (Nat.lt_irrefl 0)⟩

/-- A delivery before the trailer. -/
theorem deliverByte_sends {s : State} {f : Frame} {sent l : List Byte} {b : Byte} (h : s.Sends f sent (b :: l)) :
    ∃ g, (deliverByte s).Sends g (sent ++ [b]) l ∧ g.abortTaken = f.abortTaken
      ∧ (deliverByte s).pins.fd = b ∧ (deliverByte s).readout.emitted = s.readout.emitted := by
  obtain ⟨u, safe, -, -, delivered⟩ := deliverByte_frame f s (sending_of_frame h.roles h.frame) h.frame
  obtain ⟨after, kind⟩ := h.safe safe
  rw [delivered, ← kind, ← safe.readout]
  exact deliver_sends after

/-! ### All the bytes before the trailer -/

theorem delivered_succ (n : Nat) (s : State) :
    delivered (n + 1) s = ((deliverByte s).pins.fd :: (delivered n (deliverByte s)).1, (delivered n (deliverByte s)).2) := rfl

/-- The deliveries up to the trailer give the bytes that are left. -/
theorem delivered_sends {s : State} {f : Frame} {sent l : List Byte} (h : s.Sends f sent l) :
    ∃ (u : State) (g : Frame), u.Sends g (sent ++ l) [] ∧ g.position = .trailer 0 ∧ g.abortTaken = f.abortTaken
      ∧ u.readout.emitted = s.readout.emitted
      ∧ ∀ n, delivered (l.length + n) s = (l ++ (delivered n u).1, (delivered n u).2) := by
  induction l generalizing s f sent with
  | nil =>
    refine ⟨s, f, by rw [List.append_nil]; exact h, h.goes.resolve_left fun underway => ?_, rfl, rfl, fun n => by rw [List.length_nil, Nat.zero_add]; rfl⟩
    obtain ⟨p, -, left, -⟩ := underway_steps h.length underway
    cases h.left.symm.trans left
  | cons b l ih =>
    obtain ⟨g, sends, abort, fd, emitted⟩ := deliverByte_sends h
    obtain ⟨u, k, arrived, position, abort', emitted', rest⟩ := ih sends
    refine ⟨u, k, ?_, position, abort'.trans abort, emitted'.trans emitted, fun n => ?_⟩
    · rw [List.append_assoc] at arrived
      exact arrived
    · rw [List.length_cons, Nat.add_right_comm, delivered_succ, rest, fd]
      rfl

/-! ### The trailer (R129, R130) -/

/-- The part of the trailer behind `sent` that its CRC covers. -/
def countedAfter (sent : List Byte) (completion : Byte) : List Byte := [0xE7, completion] ++ beBytes 4 (sent.length + 10)

/-- The completion byte of a frame. -/
def Frame.completion (f : Frame) : Byte := if f.abortTaken then 0x02 else 0x01

theorem trailerAfter_eq (sent : List Byte) (c : Byte) :
    trailerAfter sent c = countedAfter sent c ++ beBytes 4 (crc32 (sent ++ countedAfter sent c)).toNat := rfl

theorem length_countedAfter (sent : List Byte) (c : Byte) : (countedAfter sent c).length = 6 := rfl

theorem length_trailerAfter (sent : List Byte) (c : Byte) : (trailerAfter sent c).length = 10 := rfl

/-- A frame in hand that has sent the bytes before its trailer and `k` bytes of that. -/
structure State.Trails (s : State) (f : Frame) (sent : List Byte) (k : Nat) : Prop where
  roles : s.HandOffInv
  frame : s.readout.frame = some f
  position : f.position = .trailer k
  crc : f.crc = (sent ++ (countedAfter sent f.completion).take k).foldl crc32Byte 0xFFFFFFFF
  count : f.byteCount = sent.length + k

theorem State.Trails.nextByte {s : State} {f : Frame} {sent : List Byte} {k : Nat} (h : s.Trails f sent k) (t : State) :
    nextByte t f = (trailerAfter sent f.completion).getD k 0 := by
  have total : f.totalBytes k = sent.length + 10 := by
    rw [Frame.totalBytes, h.count]
    omega
  have bytes : f.trailerBytes k = countedAfter sent f.completion ++ beBytes 4 (~~~ f.crc).toNat := by
    rw [Frame.trailerBytes, total]
    rfl
  rw [Machine.nextByte, h.position]
  simp only
  rw [bytes, trailerAfter_eq]
  by_cases first : k < 6
  · rw [List.getD_append _ _ _ _ (by rw [length_countedAfter]; exact first), List.getD_append _ _ _ _ (by rw [length_countedAfter]; exact first)]
  · have crc := h.crc
    rw [List.take_of_length_le (by rw [length_countedAfter]; omega)] at crc
    rw [crc]
    rfl

/-- A byte of the trailer but its last. -/
theorem deliver_trails {s : State} {f : Frame} {sent : List Byte} {k : Nat} (h : s.Trails f sent k) (more : k < 9) :
    ∃ g, (deliver f s).Trails g sent (k + 1) ∧ g.completion = f.completion
      ∧ (deliver f s).pins.fd = (trailerAfter sent f.completion).getD k 0 ∧ (deliver f s).readout.emitted = s.readout.emitted := by
  have kind : decideKind s f = f := by rw [decideKind, h.position]
  have byte := h.nextByte s
  have advance : (decideKind s f).advance = .goOn (.trailer (k + 1)) := by
    rw [kind, Frame.advance, h.position]
    exact if_pos (Nat.succ_lt_succ more)
  have delivered : deliver f s = s.drives f (.trailer (k + 1)) := by
    rw [kind] at advance
    simp only [deliver, advance, State.drives, frameTo, drivePort, Frame.after, kind]
  have count : (f.after s (.trailer (k + 1))).byteCount = sent.length + (k + 1) := by
    show (decideKind s f).byteCount + 1 = _
    rw [kind, h.count, Nat.add_assoc]
  have crc : (f.after s (.trailer (k + 1))).crc = (sent ++ (countedAfter sent f.completion).take (k + 1)).foldl crc32Byte 0xFFFFFFFF := by
    have sends := sent_crc (decideKind s f) (nextByte s (decideKind s f))
    rw [kind, h.position] at sends
    simp only at sends
    show ((decideKind s f).sent (nextByte s (decideKind s f))).crc = _
    rw [kind, sends, byte, h.crc]
    by_cases first : k < 6
    · have inside : k < (countedAfter sent f.completion).length := first
      rw [if_pos first, trailerAfter_eq, List.getD_append _ _ _ _ inside, List.take_succ_eq_append_getElem inside, ← List.append_assoc,
        List.foldl_append (l' := [_]), List.getD_eq_getElem?_getD, List.getElem?_eq_getElem inside]
      rfl
    · have all (n : Nat) (past : 6 ≤ n) : (countedAfter sent f.completion).take n = countedAfter sent f.completion :=
        List.take_of_length_le (by rw [length_countedAfter]; exact past)
      rw [if_neg first, all k (Nat.not_lt.1 first), all (k + 1) (by omega)]
  have same : (f.after s (.trailer (k + 1))).completion = f.completion := by
    show (if (decideKind s f).abortTaken then _ else _) = _
    rw [kind]
    rfl
  rw [delivered]
  refine ⟨f.after s (.trailer (k + 1)), ⟨drives_roles h.roles h.frame _, rfl, rfl, ?_, count⟩, same, ?_, rfl⟩
  · rw [same]
    exact crc
  · show nextByte s (decideKind s f) = _
    rw [kind]
    exact byte

/-! ### The end of the frame (R131) -/

/-- What the end of a frame leaves: the byte on FD, the frame counted, FRAME_DONE set (pending or on its way: log 21). -/
structure State.Ended (u : State) (fd : Byte) (emitted : Nat) : Prop where
  fd : u.pins.fd = fd
  emitted : u.readout.emitted = emitted
  done : (u.attn ||| u.arriving).getLsbD 0 = true

theorem frameDone_iff : ∀ x : BitVec 8, x &&& 0x01 = 0x01 ↔ x.getLsbD 0 = true := by decide

/-- Causes that an event sets stay with those of before. -/
theorem CausesSet.together {c : BitVec 8} {s t : State} (h : CausesSet c s t) :
    t.attn ||| t.arriving = (s.attn ||| s.arriving) ||| c := by
  obtain ⟨now, late, rfl, -, attn, arriving, -⟩ := h
  rw [attn, arriving]
  ac_rfl

theorem openWindowAs_ended (cause : OpenCause) {s : State} {b : Byte} {n : Nat} (h : s.Ended b n) : (openWindowAs cause s).Ended b n := by
  have out := openWindowAs_outcome cause s
  obtain ⟨-, -, -, e, -, -, -, -, -, causes, -⟩ := out.desc
  refine ⟨?_, ?_, ?_⟩
  · rw [out.kept]
    exact h.fd
  · rw [out.kept]
    exact h.emitted
  · cases e with
    | false =>
      obtain ⟨attn, arriving, -⟩ := causes
      rw [attn, arriving]
      exact h.done
    | true =>
      rw [CausesSet.together causes, BitVec.getLsbD_or, Bool.or_eq_true]
      exact .inl h.done

theorem dealtWith_ended {s : State} {b : Byte} {n : Nat} (h : s.Ended b n) : (dealtWith s).Ended b n :=
  dealtWith_elim (P := fun u => u.Ended b n) s (openWindowAs_ended .cycle h) ⟨h.fd, h.emitted, h.done⟩

/-- Readout complete: the total counts the frame, and FRAME_DONE is set (R131). -/
theorem readoutComplete_ended (s : State) : (readoutComplete s).Ended s.pins.fd ((s.readout.emitted + 1) % 2 ^ 32) := by
  have told : State.Ended (raiseCause .frameDone { s with readout := { frame := none, emitted := (s.readout.emitted + 1) % 2 ^ 32 } })
      s.pins.fd ((s.readout.emitted + 1) % 2 ^ 32) := by
    refine ⟨rfl, rfl, ?_⟩
    rw [(raiseCause_causesSet .frameDone _).together, BitVec.getLsbD_or, Bool.or_eq_true]
    exact .inr rfl
  exact readoutNotice_elim (P := fun u => u.Ended s.pins.fd ((s.readout.emitted + 1) % 2 ^ 32)) _
    (fun _ => ⟨told.fd, told.emitted, told.done⟩) (fun _ _ => dealtWith_ended ⟨told.fd, told.emitted, told.done⟩)
    fun d _ _ => dealtWith_ended ⟨told.fd, told.emitted, told.done⟩

/-- A delivery in the trailer: the period out of the frame's reach, then the byte. -/
theorem deliverByte_trails {s : State} {f : Frame} {sent : List Byte} {k : Nat} (h : s.Trails f sent k) :
    ∃ u : State, u.Trails f sent k ∧ u.readout.emitted = s.readout.emitted ∧ deliverByte s = deliver f u := by
  obtain ⟨u, safe, -, -, delivered⟩ := deliverByte_frame f s (sending_of_frame h.roles h.frame) h.frame
  have kind : decideKind s f = f := by rw [decideKind, h.position]
  rw [kind] at delivered
  exact ⟨u, ⟨safe.roles, by rw [safe.readout]; exact h.frame, h.position, h.crc, h.count⟩, by rw [safe.readout], delivered⟩

/-- The deliveries from byte `k` of the trailer on give the rest of it, and the frame ends. -/
theorem delivered_trails {s : State} {f : Frame} {sent : List Byte} {n k : Nat} (h : s.Trails f sent k) (bytes : k + n = 9) :
    (delivered (n + 1) s).1 = (trailerAfter sent f.completion).drop k
      ∧ ∃ b, (delivered (n + 1) s).2.Ended b ((s.readout.emitted + 1) % 2 ^ 32) := by
  induction n generalizing s f k with
  | zero =>
    obtain rfl : k = 9 := bytes
    obtain ⟨u, there, emitted, delivers⟩ := deliverByte_trails h
    have kind : decideKind u f = f := by rw [decideKind, h.position]
    have last : f.advance = .complete := by
      rw [Frame.advance, h.position]
      rfl
    have ended : (deliverByte s).Ended ((trailerAfter sent f.completion).getD 9 0) ((s.readout.emitted + 1) % 2 ^ 32) := by
      rw [delivers, ← emitted, ← there.nextByte u]
      have complete := deliver_complete u f (by rw [kind]; exact last)
      rw [kind] at complete
      rw [complete]
      exact readoutComplete_ended (drivePort f (nextByte u f) u)
    refine ⟨?_, _, ended⟩
    rw [delivered_succ, ended.fd, drop_eq_getD_cons (by rw [length_trailerAfter]; decide)]
    rfl
  | succ n ih =>
    obtain ⟨u, there, emitted, delivers⟩ := deliverByte_trails h
    obtain ⟨g, next, same, fd, emitted'⟩ := deliver_trails there (by omega)
    rw [← delivers] at next fd emitted'
    obtain ⟨rest, ends⟩ := ih next (by omega)
    rw [delivered_succ]
    refine ⟨?_, ?_⟩
    · rw [rest, fd, same, drop_eq_getD_cons (l := trailerAfter sent f.completion) (k := k) (by rw [length_trailerAfter]; omega)]
    · rw [emitted', emitted] at ends
      exact ends

/-! ### The whole frame -/

/-- From any position before the trailer: the bytes that are left, the trailer behind all that the frame has sent, and the end of the frame. -/
theorem delivered_whole {s : State} {f : Frame} {sent l : List Byte} (h : s.Sends f sent l) :
    (delivered (l ++ trailerAfter (sent ++ l) f.completion).length s).1 = l ++ trailerAfter (sent ++ l) f.completion
      ∧ ∃ b, (delivered (l ++ trailerAfter (sent ++ l) f.completion).length s).2.Ended b ((s.readout.emitted + 1) % 2 ^ 32) := by
  obtain ⟨u, g, arrived, position, abort, emitted, all⟩ := delivered_sends h
  have same : g.completion = f.completion := by rw [Frame.completion, Frame.completion, abort]
  have trails : u.Trails g (sent ++ l) 0 :=
    ⟨arrived.roles, arrived.frame, position, by rw [List.take_zero, List.append_nil]; exact arrived.has.1, arrived.has.2⟩
  obtain ⟨bytes, ends⟩ := delivered_trails (n := 9) trails rfl
  rw [same, List.drop_zero] at bytes
  rw [List.length_append, length_trailerAfter, all, emitted.symm]
  exact ⟨congrArg (l ++ ·) bytes, ends⟩

theorem abortFrame_sends {s : State} {f : Frame} {sent : List Byte} (roles : s.HandOffInv) (frame : s.readout.frame = some f)
    (length : s.cells.length = 4100) (has : f.HasSent sent) (underway : f.Underway s) :
    (abortFrame f s).Sends { f with abortTaken := true, position := abortPosition f.position } sent (f.afterAbort s) := by
  have cleared := abortFrame_frame f s
  have framed : ({ s with readout := { s.readout with
      frame := some { f with abortTaken := true, position := abortPosition f.position } } } : State).HandOffInv := by
    refine State.SameWindows.inv (s := s) ⟨rfl, rfl, rfl, rfl, .rfl, rfl, rfl, ?_, rfl, rfl, rfl⟩ roles
    rw [frame]
    rfl
  have record (b k : Nat) (position : f.position = .bank b (k + 1)) := bankRecord_clearBanks (test := abortClears f.position) (b := b)
    (s := frameTo { f with abortTaken := true } (abortPosition f.position) s) f
    (by rw [position]; exact decide_eq_false (Nat.lt_irrefl b))
  refine ⟨clearBanks_roles _ framed, by rw [cleared], (length_cells_abortFrame f s).trans length, has, ?_, ?_⟩
  · unfold Frame.left Frame.afterAbort
    cases position : f.position with
    | header k =>
      show _ ++ (_ ++ Frame.later _ { f with abortTaken := true, position := .header k } 0) = _
      rw [later_end (.inl rfl), List.append_nil]
      rfl
    | onsets e k =>
      show _ ++ Frame.later _ { f with abortTaken := true, position := .onsets e k } 0 = _
      rw [later_end (.inl rfl), List.append_nil]
    | bank b k =>
      cases k with
      | zero => rfl
      | succ k =>
        show (f.bankRecord (abortFrame f s) b).drop (k + 1) ++ Frame.later _ { f with abortTaken := true, position := .bank b (k + 1) } _ = _
        rw [later_end (.inl rfl), List.append_nil]
        exact congrArg (List.drop (k + 1)) (record b k position).1
    | trailer k => rfl
  · unfold Frame.Underway at underway ⊢
    cases position : f.position with
    | header k =>
      rw [position] at underway
      exact .inl underway
    | onsets e k =>
      rw [position] at underway
      exact .inl underway
    | bank b k =>
      rw [position] at underway
      cases k with
      | zero => exact .inr rfl
      | succ k =>
        obtain ⟨same, kind⟩ := record b k position
        obtain ⟨bank, begun⟩ := underway
        refine .inl ⟨bank, fun some => ?_⟩
        show k + 1 < (f.bankRecord (abortFrame f s) b).length ∧ f.kind = bankKind (abortFrame f s) f b
        rw [show f.bankRecord (abortFrame f s) b = f.bankRecord s b from same, show bankKind (abortFrame f s) f b = bankKind s f b from kind]
        exact begun some
    | trailer k =>
      rw [position] at underway
      exact underway.elim

theorem State.Sends.of_port {s : State} {f : Frame} {sent l : List Byte} (h : s.Sends f sent l) (p : Port) :
    ({ s with port := p } : State).Sends f sent l :=
  ⟨State.SameWindows.inv (s := s) (sameWindows_of_eq rfl rfl rfl) h.roles, h.frame, h.length, h.has, h.left, h.goes⟩

/-- Settles O51: from the first byte, and from an abort wherever it is taken, the bytes that are left and the trailer behind all the bytes
sent. -/
theorem wholeAndAbortedFramesAreTheirImages : Obligations.WholeAndAbortedFramesAreTheirImages := by
  intro f s frame fresh length roles completes
  have complete {t : State} {g : Frame} {sent l : List Byte} (h : t.Sends g sent l) (emitted : t.readout.emitted = s.readout.emitted) :
      completes t (l ++ trailerAfter (sent ++ l) g.completion) := by
    obtain ⟨bytes, b, ended⟩ := delivered_whole h
    rw [emitted] at ended
    exact ⟨bytes, ended.emitted, (frameDone_iff _).2 ended.done⟩
  refine ⟨fun start has => ?_, fun sent t has before receiving taken => ?_⟩
  · have left : f.left s = f.headerBytes ++ f.desc.onsets.flatMap OnsetEntry.bytes ++ (List.range 65).flatMap (f.bankRecord s) := by
      rw [Frame.left, start, List.append_assoc, List.range_eq_range']
      simp only [Frame.later, fresh, List.drop_zero, Bool.false_eq_true, if_false]
    have underway : f.Underway s := by
      rw [Frame.Underway, start]
      exact Nat.zero_lt_succ 27
    have whole := complete ⟨roles, frame, length, has, left, .inl underway⟩ rfl
    have image : f.image s = f.headerBytes ++ f.desc.onsets.flatMap OnsetEntry.bytes ++ (List.range 65).flatMap (f.bankRecord s)
        ++ trailerAfter (f.headerBytes ++ f.desc.onsets.flatMap OnsetEntry.bytes ++ (List.range 65).flatMap (f.bankRecord s)) 0x01 := rfl
    have completion : f.completion = 0x01 := by rw [Frame.completion, fresh, if_neg Bool.false_ne_true]
    rw [List.nil_append, completion, ← image] at whole
    exact whole
  · have underway := underway_of_beforeTrailer before
    have position (k : Nat) : f.position ≠ .trailer k := fun trailer => by
      rw [Frame.Underway, trailer] at underway
      exact underway
    have row : exec (.abortReadout []) s = .next ((abortFrame f s).answered 0x40 [] .ok []) := by
      rw [exec_abortReadout, takeCommand_abortReadout f s receiving frame fresh position]
    obtain rfl := Host.Outcome.next.inj (row.symm.trans taken)
    have sends := (abortFrame_sends roles frame length has underway).of_port
      ((abortFrame f s).port.afterTake 0x40 [] (crc8 (0x40 :: BitVec.ofNat 8 ([] : List Byte).length :: [])) .ok [])
    exact complete sends (by rw [abortFrame_frame])

end Sys2Proof.Machine
end
